-- ==== Sys2Proof/Word.lean ====
section
/-!
DEFINITION. The word types of LERC2-DEC (00_scope.md R11, R12): bytes of the blob, 64-bit host-visible
registers and 32-bit command words.
-/

namespace Sys2Proof

/-- One byte of `IN`, and one element of a byte image of `OUT`. -/
abbrev Byte := BitVec 8

/-- A host-visible register (00_scope.md R11). -/
abbrev Reg := BitVec 64

/-- A command word (30_encoding.md R100). -/
abbrev CmdWord := BitVec 32

/-- An unsigned code of the code buffer (10_state.md R49). -/
abbrev Code := BitVec 32

end Sys2Proof
end

