-- ==== Sys2Proof/Syntax.lean ====
section
/-!
DEFINITION. The command set: one constructor for each row of spec/opcode_table.json
(30_encoding.md R103), with the immediate fields of the row's format (R101) as operands.
-/

namespace Sys2Proof

/-- A stream's bit order (00_scope.md R13); the `ord` field of format FO1. -/
inductive BitOrder where
  | msb
  | lsb
deriving DecidableEq, Repr

/-- A BitMask slot (10_state.md R47); the `s` field of formats FS1 and FSV2. -/
inductive Slot where
  | zero
  | one
deriving DecidableEq, Repr

/-- The 41 commands of 30_encoding.md R103. -/
inductive Instr where
  /-- `NOP` (47_host_commands.md R401). -/
  | nop
  /-- `INFO` (45_blob_header.md R330). -/
  | info
  /-- `DECODE` (47_host_commands.md R404). -/
  | decode
  /-- `SRST` (47_host_commands.md R402). -/
  | srst
  /-- `BR.INIT ord` (40_bitreader.md R156). -/
  | brInit (ord : BitOrder)
  /-- `BR.READ n` (40_bitreader.md R157). -/
  | brRead (n : BitVec 6)
  /-- `BR.PEEK n` (40_bitreader.md R158). -/
  | brPeek (n : BitVec 6)
  /-- `BR.SKIP` (40_bitreader.md R159). -/
  | brSkip
  /-- `BR.ALIGN` (40_bitreader.md R160). -/
  | brAlign
  /-- `BR.BYTES k` (40_bitreader.md R161). -/
  | brBytes (k : BitVec 4)
  /-- `BR.POS` (40_bitreader.md R162). -/
  | brPos
  /-- `BM.NEW s, v` (41_bitmask.md R181). -/
  | bmNew (sl : Slot) (v : Bool)
  /-- `BM.SET s, v` (41_bitmask.md R182). -/
  | bmSet (sl : Slot) (v : Bool)
  /-- `BM.FILL s, v` (41_bitmask.md R183). -/
  | bmFill (sl : Slot) (v : Bool)
  /-- `BM.FREEZE s` (41_bitmask.md R184). -/
  | bmFreeze (sl : Slot)
  /-- `BM.GET s` (41_bitmask.md R185). -/
  | bmGet (sl : Slot)
  /-- `BM.POPCNT s` (41_bitmask.md R186). -/
  | bmPopcnt (sl : Slot)
  /-- `BM.NEXT s` (41_bitmask.md R187). -/
  | bmNext (sl : Slot)
  /-- `BM.AND` (41_bitmask.md R188). -/
  | bmAnd
  /-- `BM.LEN s` (41_bitmask.md R189). -/
  | bmLen (sl : Slot)
  /-- `MASK.ABSENT s` (42_mask_decoders.md R211). -/
  | maskAbsent (sl : Slot)
  /-- `MASK.RAW s` (42_mask_decoders.md R212). -/
  | maskRaw (sl : Slot)
  /-- `MASK.RLE s` (42_mask_decoders.md R213). -/
  | maskRle (sl : Slot)
  /-- `HUF.LOADLEN` (43_huffman.md R241). -/
  | hufLoadlen
  /-- `HUF.BUILD` (43_huffman.md R242). -/
  | hufBuild
  /-- `HUF.SEG` (43_huffman.md R247). -/
  | hufSeg
  /-- `HUF.DEC` (43_huffman.md R250). -/
  | hufDec
  /-- `HUF.DECF` (43_huffman.md R249). -/
  | hufDecf
  /-- `HUF.DECS` (43_huffman.md R248). -/
  | hufDecs
  /-- `HUF.RUN` (43_huffman.md R251). -/
  | hufRun
  /-- `BS.HDR` (44_bitstuffer.md R281). -/
  | bsHdr
  /-- `BS.UNPACK` (44_bitstuffer.md R282). -/
  | bsUnpack
  /-- `BS.STREAM` (44_bitstuffer.md R284). -/
  | bsStream
  /-- `CODES.GET` (44_bitstuffer.md R286). -/
  | codesGet
  /-- `BAND.BEGIN` (46_band_decode.md R351). -/
  | bandBegin
  /-- `BAND.MASK` (46_band_decode.md R355). -/
  | bandMask
  /-- `BAND.DATA` (46_band_decode.md R357). -/
  | bandData
  /-- `BAND.DEQ` (46_band_decode.md R364). -/
  | bandDeq
  /-- `BAND.END` (46_band_decode.md R366). -/
  | bandEnd
  /-- `DEQ.ONE` (46_band_decode.md R367). -/
  | deqOne
  /-- `COMMIT` (46_band_decode.md R372). -/
  | commit
deriving DecidableEq, Repr

end Sys2Proof
end

