-- ==== Sys2Proof/WellFormed.lean ====
section
/-!
DEFINITION. Which commands have legal immediate fields (the "legal values" column of
30_encoding.md R101). A command that is not well formed ends with `IllegalOperand` (R105).
-/

namespace Sys2Proof

/-- Format FN6: a bit count is 0 to 32 (30_encoding.md R101). -/
def legalBitCount (n : BitVec 6) : Bool := decide (n.toNat ≤ 32)

/-- Format FK4: a byte count is 1, 2, 4 or 8 (30_encoding.md R101). -/
def legalByteCount (k : BitVec 4) : Bool :=
  k == 1#4 || k == 2#4 || k == 4#4 || k == 8#4

/-- Every immediate field has a legal value (30_encoding.md R101). -/
def Instr.wellFormed : Instr → Bool
  | .brRead n | .brPeek n => legalBitCount n
  | .brBytes k => legalByteCount k
  | .nop | .info | .decode | .srst => true
  | .brInit _ | .brSkip | .brAlign | .brPos => true
  | .bmNew _ _ | .bmSet _ _ | .bmFill _ _ | .bmFreeze _ | .bmGet _ | .bmPopcnt _ | .bmNext _
  | .bmAnd | .bmLen _ => true
  | .maskAbsent _ | .maskRaw _ | .maskRle _ => true
  | .hufLoadlen | .hufBuild | .hufSeg | .hufDec | .hufDecf | .hufDecs | .hufRun => true
  | .bsHdr | .bsUnpack | .bsStream | .codesGet => true
  | .bandBegin | .bandMask | .bandData | .bandDeq | .bandEnd | .deqOne | .commit => true

end Sys2Proof
end

