-- ==== Sys2Proof/Decode.lean ====
section
/-!
DEFINITION. The command-word decoder, total and rejecting by name, and the encoder
(30_encoding.md R100 to R106).

Both are written from the tables R101 and R103. A word whose opcode is reserved, or whose must-be-0
bits are not 0, is rejected by name; the machine posts that error (R104, R105). The range of the
fields `n` and `k` is checked by the commands that take them (R157, R158, R161), which end with the
same `IllegalOperand` (log entry 8).
-/

namespace Sys2Proof

/-- Why a command word names no command: the two errors of 30_encoding.md R104 and R105, each with
the word's opcode. -/
inductive Rejection where
  /-- The opcode is reserved (R104): `IllegalCommand`. -/
  | illegalCommand (op : BitVec 8)
  /-- A must-be-0 bit of the immediate is set (R105): `IllegalOperand`. -/
  | illegalOperand (op : BitVec 8)
deriving DecidableEq, Repr

/-- `w[31:24]` (30_encoding.md R100). -/
def opcodeOf (w : CmdWord) : BitVec 8 := w.extractLsb' 24 8

/-- `w[23:0]` (30_encoding.md R100). -/
def immOf (w : CmdWord) : BitVec 24 := w.extractLsb' 0 24

/-- The `ord` field: 0 = MSB, 1 = LSB (30_encoding.md R101). -/
def BitOrder.ofBit (b : Bool) : BitOrder := if b then .lsb else .msb

/-- The inverse of `BitOrder.ofBit`. -/
def BitOrder.toBit : BitOrder → Bool
  | .msb => false
  | .lsb => true

/-- The `s` field (30_encoding.md R101). -/
def Slot.ofBit (b : Bool) : Slot := if b then .one else .zero

/-- The inverse of `Slot.ofBit`. -/
def Slot.toBit : Slot → Bool
  | .zero => false
  | .one => true

/-- Format F0: every immediate bit is 0. -/
def formatF0 (i : Instr) (imm : BitVec 24) : Option Instr :=
  if imm = 0#24 then some i else none

/-- Format FO1: `ord` = `imm[0]`. -/
def formatFO1 (i : BitOrder → Instr) (imm : BitVec 24) : Option Instr :=
  if imm.extractLsb' 1 23 = 0#23 then some (i (BitOrder.ofBit (imm.getLsbD 0))) else none

/-- Format FN6: `n` = `imm[5:0]`. -/
def formatFN6 (i : BitVec 6 → Instr) (imm : BitVec 24) : Option Instr :=
  if imm.extractLsb' 6 18 = 0#18 then some (i (imm.extractLsb' 0 6)) else none

/-- Format FK4: `k` = `imm[3:0]`. -/
def formatFK4 (i : BitVec 4 → Instr) (imm : BitVec 24) : Option Instr :=
  if imm.extractLsb' 4 20 = 0#20 then some (i (imm.extractLsb' 0 4)) else none

/-- Format FS1: `s` = `imm[0]`. -/
def formatFS1 (i : Slot → Instr) (imm : BitVec 24) : Option Instr :=
  if imm.extractLsb' 1 23 = 0#23 then some (i (Slot.ofBit (imm.getLsbD 0))) else none

/-- Format FSV2: `s` = `imm[0]`, `v` = `imm[1]`. -/
def formatFSV2 (i : Slot → Bool → Instr) (imm : BitVec 24) : Option Instr :=
  if imm.extractLsb' 2 22 = 0#22 then
    some (i (Slot.ofBit (imm.getLsbD 0)) (imm.getLsbD 1))
  else none

/-- A row of the opcode map: a rejected immediate is `IllegalOperand` (30_encoding.md R105). -/
def opcodeRow (op : BitVec 8) (r : Option Instr) : Except Rejection Instr :=
  match r with
  | some i => .ok i
  | none => .error (.illegalOperand op)

/-- The opcode map of 30_encoding.md R103; every other opcode is reserved (R104). -/
def decode (w : CmdWord) : Except Rejection Instr :=
  let op := opcodeOf w
  let imm := immOf w
  match op.toNat with
  | 0x00 => opcodeRow op (formatF0 .nop imm)
  | 0x01 => opcodeRow op (formatF0 .info imm)
  | 0x02 => opcodeRow op (formatF0 .decode imm)
  | 0x0F => opcodeRow op (formatF0 .srst imm)
  | 0x10 => opcodeRow op (formatFO1 .brInit imm)
  | 0x11 => opcodeRow op (formatFN6 .brRead imm)
  | 0x12 => opcodeRow op (formatFN6 .brPeek imm)
  | 0x13 => opcodeRow op (formatF0 .brSkip imm)
  | 0x14 => opcodeRow op (formatF0 .brAlign imm)
  | 0x15 => opcodeRow op (formatFK4 .brBytes imm)
  | 0x16 => opcodeRow op (formatF0 .brPos imm)
  | 0x20 => opcodeRow op (formatFSV2 .bmNew imm)
  | 0x21 => opcodeRow op (formatFSV2 .bmSet imm)
  | 0x22 => opcodeRow op (formatFSV2 .bmFill imm)
  | 0x23 => opcodeRow op (formatFS1 .bmFreeze imm)
  | 0x24 => opcodeRow op (formatFS1 .bmGet imm)
  | 0x25 => opcodeRow op (formatFS1 .bmPopcnt imm)
  | 0x26 => opcodeRow op (formatFS1 .bmNext imm)
  | 0x27 => opcodeRow op (formatF0 .bmAnd imm)
  | 0x28 => opcodeRow op (formatFS1 .bmLen imm)
  | 0x30 => opcodeRow op (formatFS1 .maskAbsent imm)
  | 0x31 => opcodeRow op (formatFS1 .maskRaw imm)
  | 0x32 => opcodeRow op (formatFS1 .maskRle imm)
  | 0x40 => opcodeRow op (formatF0 .hufLoadlen imm)
  | 0x41 => opcodeRow op (formatF0 .hufBuild imm)
  | 0x42 => opcodeRow op (formatF0 .hufSeg imm)
  | 0x43 => opcodeRow op (formatF0 .hufDec imm)
  | 0x44 => opcodeRow op (formatF0 .hufDecf imm)
  | 0x45 => opcodeRow op (formatF0 .hufDecs imm)
  | 0x46 => opcodeRow op (formatF0 .hufRun imm)
  | 0x50 => opcodeRow op (formatF0 .bsHdr imm)
  | 0x51 => opcodeRow op (formatF0 .bsUnpack imm)
  | 0x52 => opcodeRow op (formatF0 .bsStream imm)
  | 0x53 => opcodeRow op (formatF0 .codesGet imm)
  | 0x61 => opcodeRow op (formatF0 .bandBegin imm)
  | 0x62 => opcodeRow op (formatF0 .bandMask imm)
  | 0x63 => opcodeRow op (formatF0 .bandData imm)
  | 0x64 => opcodeRow op (formatF0 .bandDeq imm)
  | 0x65 => opcodeRow op (formatF0 .bandEnd imm)
  | 0x66 => opcodeRow op (formatF0 .deqOne imm)
  | 0x67 => opcodeRow op (formatF0 .commit imm)
  | _ => .error (.illegalCommand op)

/-- The instruction the decoder reads from the `nbits` bits `w` of a table row, higher bits 0. -/
def decodeTableWord (nbits w : Nat) : Option Instr :=
  match decode (BitVec.ofNat 32 (w % 2 ^ nbits)) with
  | .ok i => some i
  | .error _ => none

/-- The opcode of a command (30_encoding.md R103). -/
def Instr.opcode : Instr → BitVec 8
  | .nop => 0x00
  | .info => 0x01
  | .decode => 0x02
  | .srst => 0x0F
  | .brInit _ => 0x10
  | .brRead _ => 0x11
  | .brPeek _ => 0x12
  | .brSkip => 0x13
  | .brAlign => 0x14
  | .brBytes _ => 0x15
  | .brPos => 0x16
  | .bmNew _ _ => 0x20
  | .bmSet _ _ => 0x21
  | .bmFill _ _ => 0x22
  | .bmFreeze _ => 0x23
  | .bmGet _ => 0x24
  | .bmPopcnt _ => 0x25
  | .bmNext _ => 0x26
  | .bmAnd => 0x27
  | .bmLen _ => 0x28
  | .maskAbsent _ => 0x30
  | .maskRaw _ => 0x31
  | .maskRle _ => 0x32
  | .hufLoadlen => 0x40
  | .hufBuild => 0x41
  | .hufSeg => 0x42
  | .hufDec => 0x43
  | .hufDecf => 0x44
  | .hufDecs => 0x45
  | .hufRun => 0x46
  | .bsHdr => 0x50
  | .bsUnpack => 0x51
  | .bsStream => 0x52
  | .codesGet => 0x53
  | .bandBegin => 0x61
  | .bandMask => 0x62
  | .bandData => 0x63
  | .bandDeq => 0x64
  | .bandEnd => 0x65
  | .deqOne => 0x66
  | .commit => 0x67

/-- The FSV2 immediate: `v` in bit 1, `s` in bit 0 (30_encoding.md R101). -/
def immSV (sl : Slot) (v : Bool) : BitVec 24 :=
  (0#22 ++ BitVec.ofBool v ++ BitVec.ofBool sl.toBit : BitVec (22 + 1 + 1))

/-- The FS1 immediate (30_encoding.md R101). -/
def immS (sl : Slot) : BitVec 24 := (0#23 ++ BitVec.ofBool sl.toBit : BitVec (23 + 1))

/-- The immediate of a command in its row's format (30_encoding.md R101). -/
def Instr.imm : Instr → BitVec 24
  | .brInit ord => (0#23 ++ BitVec.ofBool ord.toBit : BitVec (23 + 1))
  | .brRead n | .brPeek n => (0#18 ++ n : BitVec (18 + 6))
  | .brBytes k => (0#20 ++ k : BitVec (20 + 4))
  | .bmNew sl v | .bmSet sl v | .bmFill sl v => immSV sl v
  | .bmFreeze sl | .bmGet sl | .bmPopcnt sl | .bmNext sl | .bmLen sl => immS sl
  | .maskAbsent sl | .maskRaw sl | .maskRle sl => immS sl
  | .nop | .info | .decode | .srst | .brSkip | .brAlign | .brPos | .bmAnd => 0#24
  | .hufLoadlen | .hufBuild | .hufSeg | .hufDec | .hufDecf | .hufDecs | .hufRun => 0#24
  | .bsHdr | .bsUnpack | .bsStream | .codesGet => 0#24
  | .bandBegin | .bandMask | .bandData | .bandDeq | .bandEnd | .deqOne | .commit => 0#24

/-- The command word of a command: `op << 24 | imm` (30_encoding.md R100, R107). -/
def encode (i : Instr) : CmdWord := (i.opcode ++ i.imm : BitVec (8 + 24))

end Sys2Proof
end

