-- ==== Sys2Proof/Config.lean ====
section
/-!
DEFINITION. The implementation parameters of 00_scope.md R10, the two constant registers, and the
model's free values (constants without a body).
-/

namespace Sys2Proof.Config

/-- `MAGIC` = the six bytes "Lerc2 " (00_scope.md R10). -/
def magic : List Byte := [0x4C, 0x65, 0x72, 0x63, 0x32, 0x20]

/-- `MIN_VERSION` (00_scope.md R3, R10). -/
def minVersion : Int := 2

/-- `MAX_VERSION` (00_scope.md R3, R10). -/
def maxVersion : Int := 6

/-- `LUT_BITS`, the width of the Huffman lookup table's index (00_scope.md R10). -/
def lutBits : Nat := 12

/-- `MAX_CODE_LEN`, the longest admitted Huffman code length (00_scope.md R10). -/
def maxCodeLen : Nat := 32

/-- `MAX_BIT_WIDTH`, the widest admitted BitStuffer bit width (00_scope.md R10). -/
def maxBitWidth : Nat := 32

/-- The value of the constant register `ID` (10_state.md R33). -/
def idValue : Reg := 0x0000000006024C32

/-- The value of the constant register `CONFIG` (10_state.md R42). -/
def configValue : Reg := 0x000000200200200C

/-- `IN_SIZE`, OPEN in 00_scope.md R10: an argument of the model, left uninterpreted (log entry 3).
The machine reads it through `State.params`; only `State.reset` names this constant. -/
opaque inSize : Nat

/-- `OUT_CAPACITY`, OPEN in 00_scope.md R10, `none` = unbounded: an argument of the model, left
uninterpreted (log entry 3). Only `State.reset` names this constant. -/
opaque outCapacity : Option Nat

/-- DESIGN CHOICE (log entry 4): what a 64-bit result register holds when the rule's exact result is
`2^64` or more. The spec states no value there, so nothing constrains this one. -/
opaque wideResult : Nat → Reg

end Sys2Proof.Config
end

