-- ==== Sys2Proof/Machine/State.lean ====
section
/-!
DEFINITION. The whole state of LERC2-DEC as plain data (10_state.md), its reset value (R57), and the
reasons a step can stop.
-/

namespace Sys2Proof.Machine

/-- Why the model stops. An engine error is no fault: it is posted in `ERR` (60_exceptions.md R430).
Every fault is safe: the model stops where the spec gives no value or no location. -/
inductive Fault where
  /-- Raised by an engine or host read of a byte of `IN` that nothing has written (10_state.md R57,
  70_reset_and_hazards.md R470). Safe. -/
  | inNoValue (offset : Nat)
  /-- Raised by a host access to `IN` at or past `IN_SIZE` (20_memory.md R70). Safe. -/
  | inOutside (offset : Nat)
  /-- Raised by a host read of `OUT` while `STATUS.OUT_VALID = 0` (70_reset_and_hazards.md R475). Safe. -/
  | outNotValid
  /-- Raised by a host read past the last element of `OUT` (20_memory.md R73). Safe. -/
  | outOutside (offset : Nat)
  /-- Raised by a host read of `OUTMASK` unless `OUT_VALID` and `MASK_PRESENT` are both 1
  (70_reset_and_hazards.md R475). Safe. -/
  | outMaskNotPresent
  /-- Raised by a host read past the last bit of `OUTMASK` (20_memory.md R74). Safe. -/
  | outMaskOutside (index : Nat)
  /-- Raised by a host access past the 256-byte register block (10_state.md R32). Safe. -/
  | registerOutside (offset : Nat)
  /-- Raised by COMMIT where an element of `STAGE` holds no value (10_state.md R52, R57); in no state
  that satisfies `State.Inv`. Safe. -/
  | stageNoValue
  /-- Raised where the parsed header has no descriptor for the band (45_blob_header.md R321); in no
  state that satisfies `State.Inv`. Safe. -/
  | descriptorNoValue
deriving DecidableEq, Repr

/-- Why the model gives a step no meaning. -/
inductive Refusal where
  /-- Raised by an arm of `exec` whose instruction has no meaning yet (no arm does). Safe. -/
  | notModelled (mnemonic : String)
  /-- Raised by a host access to the register block that is not 8 bytes wide at an 8-byte-aligned
  offset: "a model refuses it" (10_state.md R43). Safe. -/
  | registerAccessShape
deriving DecidableEq, Repr

/-- The errors of 60_exceptions.md R431 with their arguments (R432). -/
inductive EngineError where
  | badMagic
  | unsupportedVersion (pattern : BitVec 32)
  | truncated
  | maskLengthMismatch
  | maskCountMismatch
  | invalidBitWidth (width : BitVec 8)
  | huffmanTableCorrupt
  | unsupportedFeature (feature : BitVec 8)
  | arithmeticOverflow
  | invalidField (field : BitVec 8)
  | illegalCommand (op : BitVec 8)
  | illegalOperand (op : BitVec 8)
  | capacityExceeded
deriving DecidableEq, Repr

/-- The OPEN parameters of 00_scope.md R10, carried by the state as the model's arguments; no step
changes them (log entry 3). -/
structure Params where
  /-- `IN_SIZE` in bytes. -/
  inSize : Nat
  /-- `OUT_CAPACITY` in elements, `none` = unbounded. -/
  outCapacity : Option Nat
deriving DecidableEq, Repr

/-- The flags of `STATUS` that have a home of their own (10_state.md R35). -/
structure StatusFlags where
  done : Bool
  err : Bool
  maskPresent : Bool
  infoValid : Bool
  outValid : Bool
deriving DecidableEq, Repr

/-- The fields of `ERR` (10_state.md R37). -/
structure ErrFields where
  code : BitVec 8
  arg : BitVec 32
deriving DecidableEq, Repr

/-- The INFO registers (10_state.md R41). -/
structure InfoRegs where
  version : Reg
  rows : Reg
  cols : Reg
  bands : Reg
  dtype : Reg
  nValid : Reg
  maxZErr : Reg
deriving DecidableEq, Repr

/-- The eight element kinds (10_state.md R45). -/
inductive Kind where
  | i8 | u8 | i16 | u16 | i32 | u32 | f32 | f64
deriving DecidableEq, Repr

/-- A decoded element: an integer, or the bit pattern of an IEEE value (10_state.md R45). -/
inductive Element where
  | int (v : Int)
  | f32 (bits : BitVec 32)
  | f64 (bits : BitVec 64)
deriving DecidableEq, Repr

/-- BitReader state (10_state.md R46). -/
structure BitReader where
  lo : Nat
  hi : Nat
  pos : Nat
  order : BitOrder
deriving DecidableEq, Repr

/-- A BitMask slot (10_state.md R47); its `n` is the length of `bits`. -/
structure BitMask where
  bits : List Bool
  building : Bool
deriving DecidableEq, Repr

/-- One symbol of a canonical Huffman code (10_state.md R48, 43_huffman.md R243). -/
structure HuffEntry where
  sym : Byte
  len : Nat
  code : Nat
deriving DecidableEq, Repr

/-- What HUF.BUILD computes (43_huffman.md R242): `HT.code` as the symbols in canonical order with
their codes, `HT.maxlen`, and `HT.lut`, whose entries are `none` (MISS) or a symbol and a length. -/
structure HuffTables where
  entries : List HuffEntry
  maxLen : Nat
  lut : List (Option (Byte × Nat))
deriving DecidableEq, Repr

/-- The Huffman table `HT` (10_state.md R48). `HT.built` is "`tables` is present"; while it is not,
`code`, `maxlen` and `lut` hold no value. -/
structure Huffman where
  lens : List Byte
  tables : Option HuffTables
deriving DecidableEq, Repr

/-- BitStuffer block state (10_state.md R50). -/
structure Stuffer where
  width : Nat
  count : Nat
  const : Code
deriving DecidableEq, Repr

/-- One descriptor entry (30_encoding.md R112); `zMin` and `zMax` are binary64 patterns. -/
structure Descriptor where
  offset : BitVec 32
  length : BitVec 32
  zMin : BitVec 64
  zMax : BitVec 64
deriving DecidableEq, Repr

/-- The parsed header record (45_blob_header.md R321). -/
structure Header where
  version : BitVec 32
  nRows : BitVec 32
  nCols : BitVec 32
  nBands : BitVec 32
  kind : Kind
  nValid : BitVec 64
  maxZErr : BitVec 64
  /-- The declared header size `H` (30_encoding.md R111). -/
  size : Nat
  desc : List Descriptor
deriving DecidableEq, Repr

/-- The phases of a band (10_state.md R36). -/
inductive Phase where
  | start | headerValidated | maskDecoded | dataDecoded | dequantized | done | failed
deriving DecidableEq, Repr

/-- The legal mask selectors (30_encoding.md R114). -/
inductive MaskMode where
  | absent | raw | rle
deriving DecidableEq, Repr

/-- The entropy selectors a band can be decoded with (30_encoding.md R115). -/
inductive EntropyMode where
  | bitStuffed | huffman
deriving DecidableEq, Repr

/-- Orchestrator state (10_state.md R51); `hvalid` is "`hdr` is present". -/
structure Orchestrator where
  hdr : Option Header
  phase : Phase
  band : Nat
  bandsDone : Nat
  maskMode : MaskMode
  entropyMode : EntropyMode
deriving DecidableEq, Repr

/-- The contents of `OUT`: elements of one kind (20_memory.md R73). -/
structure OutBuffer where
  kind : Kind
  elems : List Element
deriving DecidableEq, Repr

/-- The bytes of `IN` that hold a value, at strictly rising offsets; an unlisted offset holds no value
(10_state.md R57). -/
abbrev Memory := List Host.Cell

/-- One access of the host (10_state.md R30, 20_memory.md R70), `width` in bytes. -/
inductive HostAccess where
  | regWrite (offset width : Nat) (value : Reg)
  | regRead (offset width : Nat)
  | inWrite (offset : Nat) (value : Byte)
  | inRead (offset : Nat)
  | outRead (offset : Nat)
  | outMaskRead (index : Nat)
  | platformReset
deriving DecidableEq, Repr

/-- What the last host read returned. -/
inductive HostReply where
  | none
  | reg (value : Reg)
  | byte (value : Byte)
  | bit (value : Bool)
deriving DecidableEq, Repr

/-- The machine state: the record of 10_state.md R31 with the host registers of R32 and the memories
of 20_memory.md R70, then the parameters and the model's own two host-side fields. -/
structure State where
  /-- `STATUS` bits 4:0 (10_state.md R35). -/
  status : StatusFlags
  /-- `ERR` (10_state.md R37). -/
  err : ErrFields
  /-- `SRC_LEN` (10_state.md R38). -/
  srcLen : Reg
  /-- `A0` (10_state.md R39). -/
  a0 : Reg
  /-- `A1` (10_state.md R39). -/
  a1 : Reg
  /-- `A2` (10_state.md R39). -/
  a2 : Reg
  /-- `A3` (10_state.md R39). -/
  a3 : Reg
  /-- `R0` (10_state.md R40). -/
  r0 : Reg
  /-- `R1` (10_state.md R40). -/
  r1 : Reg
  /-- The INFO registers (10_state.md R41). -/
  info : InfoRegs
  /-- `BR` (10_state.md R46). -/
  br : BitReader
  /-- `MS[0]` (10_state.md R47). -/
  ms0 : BitMask
  /-- `MS[1]` (10_state.md R47). -/
  ms1 : BitMask
  /-- `HT` (10_state.md R48). -/
  ht : Huffman
  /-- `CODES[0 .. CP-1]`; `CP` is its length (10_state.md R49). -/
  codes : List Code
  /-- `BS` (10_state.md R50). -/
  bs : Stuffer
  /-- `ORC` (10_state.md R51). -/
  orc : Orchestrator
  /-- `STAGE` by element index; `none` = holds no value (10_state.md R52). -/
  stage : List (Option Element)
  /-- `OUT`; `none` = no value (10_state.md R57). -/
  out : Option OutBuffer
  /-- `OUTMASK`; `none` = no value (10_state.md R57). -/
  outMask : Option (List Bool)
  /-- `IN` (20_memory.md R70). -/
  inMem : Memory
  /-- The OPEN parameters (00_scope.md R10). -/
  params : Params
  /-- The MODEL's own: the host's accesses still to come, the next one first (log entry 1). -/
  port : List HostAccess
  /-- The MODEL's own: what the last host read returned (log entry 2). -/
  reply : HostReply
deriving DecidableEq, Repr

/-- The BitReader's reset value, the empty window (10_state.md R46). -/
def BitReader.reset : BitReader := { lo := 0, hi := 0, pos := 0, order := .msb }

/-- A mask slot's reset value (10_state.md R47). -/
def BitMask.reset : BitMask := { bits := [], building := false }

/-- `HT` at reset: every length 0, not built (10_state.md R48). -/
def Huffman.reset : Huffman := { lens := List.replicate 256 0#8, tables := none }

/-- `ORC` at reset, and after INFO or DECODE starts (10_state.md R51). -/
def Orchestrator.reset : Orchestrator :=
  { hdr := none, phase := .start, band := 0, bandsDone := 0, maskMode := .absent,
    entropyMode := .bitStuffed }

/-- The machine after a platform reset (10_state.md R57, 70_reset_and_hazards.md R470): every value is
the spec's. The parameters are the uninterpreted constants of `Config` (log entry 3); `port` and
`reply` are the model's own and empty (log entries 1 and 2). -/
def State.reset : State :=
  { status := { done := false, err := false, maskPresent := false, infoValid := false,
                outValid := false }
    err := { code := 0, arg := 0 }
    srcLen := 0
    a0 := 0
    a1 := 0
    a2 := 0
    a3 := 0
    r0 := 0
    r1 := 0
    info := { version := 0, rows := 0, cols := 0, bands := 0, dtype := 0, nValid := 0, maxZErr := 0 }
    br := BitReader.reset
    ms0 := BitMask.reset
    ms1 := BitMask.reset
    ht := Huffman.reset
    codes := []
    bs := { width := 0, count := 0, const := 0 }
    orc := Orchestrator.reset
    stage := []
    out := none
    outMask := none
    inMem := []
    params := { inSize := Config.inSize, outCapacity := Config.outCapacity }
    port := []
    reply := .none }

end Sys2Proof.Machine
end

