-- ==== Sys2Proof/Machine/Flags.lean ====
section
/-!
DEFINITION. `STATUS`, `ERR` and the other host-visible registers as words, and the codes their fields
hold (10_state.md R32 to R45, 60_exceptions.md R431 and R432).
-/

namespace Sys2Proof.Machine

/-- The `PHASE` encoding (10_state.md R36). -/
def Phase.code : Phase → BitVec 4
  | .start => 0
  | .headerValidated => 1
  | .maskDecoded => 2
  | .dataDecoded => 3
  | .dequantized => 4
  | .done => 5
  | .failed => 15

/-- The kind codes (10_state.md R45). -/
def Kind.code : Kind → Nat
  | .i8 => 0
  | .u8 => 1
  | .i16 => 2
  | .u16 => 3
  | .i32 => 4
  | .u32 => 5
  | .f32 => 6
  | .f64 => 7

/-- The kind of a code; codes 8 and above are not kinds (10_state.md R45). -/
def Kind.ofCode : Nat → Option Kind
  | 0 => some .i8
  | 1 => some .u8
  | 2 => some .i16
  | 3 => some .u16
  | 4 => some .i32
  | 5 => some .u32
  | 6 => some .f32
  | 7 => some .f64
  | _ => none

/-- `ERR.CODE` of an error (60_exceptions.md R431). -/
def EngineError.code : EngineError → BitVec 8
  | .badMagic => 0x01
  | .unsupportedVersion _ => 0x02
  | .truncated => 0x03
  | .maskLengthMismatch => 0x04
  | .maskCountMismatch => 0x05
  | .invalidBitWidth _ => 0x06
  | .huffmanTableCorrupt => 0x07
  | .unsupportedFeature _ => 0x08
  | .arithmeticOverflow => 0x09
  | .invalidField _ => 0x0A
  | .illegalCommand _ => 0x80
  | .illegalOperand _ => 0x81
  | .capacityExceeded => 0x82

/-- `ERR.ARG` of an error (60_exceptions.md R432). -/
def EngineError.arg : EngineError → BitVec 32
  | .unsupportedVersion p => p
  | .invalidBitWidth w => w.setWidth 32
  | .unsupportedFeature f => f.setWidth 32
  | .invalidField f => f.setWidth 32
  | .illegalCommand op => op.setWidth 32
  | .illegalOperand op => op.setWidth 32
  | .badMagic | .truncated | .maskLengthMismatch | .maskCountMismatch => 0
  | .huffmanTableCorrupt | .arithmeticOverflow | .capacityExceeded => 0

/-- The fields of `ERR` after a command: those of its error, or 0 (47_host_commands.md R400). -/
def errFieldsOf : Option EngineError → ErrFields
  | none => { code := 0, arg := 0 }
  | some e => { code := e.code, arg := e.arg }

/-- `x[STATUS]` (10_state.md R35): BAND, 0, PHASE, 0, OUT_VALID, INFO_VALID, MASK_PRESENT, ERR, DONE
from the top. -/
def State.statusWord (s : State) : Reg :=
  (BitVec.ofNat 32 s.orc.band ++ 0#20 ++ s.orc.phase.code ++ 0#3 ++
    BitVec.ofBool s.status.outValid ++ BitVec.ofBool s.status.infoValid ++
    BitVec.ofBool s.status.maskPresent ++ BitVec.ofBool s.status.err ++
    BitVec.ofBool s.status.done : BitVec (32 + 20 + 4 + 3 + 1 + 1 + 1 + 1 + 1))

/-- `x[ERR]` (10_state.md R37): ARG, 0, CODE from the top. -/
def State.errWord (s : State) : Reg := (s.err.arg ++ 0#24 ++ s.err.code : BitVec (32 + 24 + 8))

/-- The end of every command (47_host_commands.md R400): `ERR` holds the error or 0, `STATUS.DONE` is 1
and `STATUS.ERR` says whether `ERR.CODE` is not 0. -/
def State.finish (s : State) (e : Option EngineError) : State :=
  { s with
    err := errFieldsOf e
    status := { s.status with done := true, err := decide ((errFieldsOf e).code ≠ 0) } }

end Sys2Proof.Machine
end

