-- ==== Sys2Proof/Machine/Memory.lean ====
section
/-!
DEFINITION. The input memory `IN` as a list of (offset, byte) pairs in one canonical form: offsets
strictly rising. An unlisted offset holds no value (10_state.md R57), so no entry can equal what it
reads as.
-/

namespace Sys2Proof.Machine

/-- The canonical form: offsets strictly rising. -/
def Memory.wf : Memory → Bool
  | [] => true
  | [_] => true
  | (a, _) :: (b, y) :: rest => decide (a < b) && Memory.wf ((b, y) :: rest)

/-- The byte at an offset, `none` where nothing has written one. -/
def Memory.read : Memory → Nat → Option Byte
  | [], _ => none
  | (k, v) :: rest, a => if k = a then some v else Memory.read rest a

/-- A host write of one byte, keeping the canonical form. -/
def Memory.write : Memory → Nat → Byte → Memory
  | [], a, b => [(a, b)]
  | (k, v) :: rest, a, b =>
    if a < k then (a, b) :: (k, v) :: rest
    else if a = k then (a, b) :: rest
    else (k, v) :: Memory.write rest a b

end Sys2Proof.Machine
end

