-- ==== Sys2Proof/Machine/Ops.lean ====
section
/-!
DEFINITION. The shared operations: raising an error and ending a command (60_exceptions.md R430), the
bounded reads of `IN` (00_scope.md R15, 20_memory.md R71) and the stream functions of the BitReader
(40_bitreader.md R150 to R155).
-/

namespace Sys2Proof.Machine

/-- How a rule ends early (00_scope.md R17, 46_band_decode.md R351). -/
inductive Stop where
  /-- `raise E`. -/
  | raise (e : EngineError)
  /-- `fail E`: `ORC.phase <- Failed`, then `raise E`. -/
  | fail (e : EngineError)
  /-- The model stops: a location without a value was read. -/
  | fault (f : Fault)
deriving DecidableEq, Repr

/-- How a command's rule ran, with the state it left. -/
inductive Run where
  | done (s : State)
  | stopped (e : EngineError) (s : State)
  | fault (f : Fault)
deriving DecidableEq, Repr

/-- `assert c else stop` (00_scope.md R17). -/
def ensure (c : Prop) [Decidable c] (stop : Stop) : Except Stop Unit :=
  if c then .ok () else .error stop

/-- The state with another `ORC.phase`. -/
def State.withPhase (s : State) (p : Phase) : State := { s with orc := { s.orc with phase := p } }

/-- A rule that checks before it writes, run at `s`: an early end leaves `s`, with `ORC.phase = Failed`
where the rule says `fail` (60_exceptions.md R430, 46_band_decode.md R369). -/
def runAt (s : State) : Except Stop State → Run
  | .ok t => .done t
  | .error (.raise e) => .stopped e s
  | .error (.fail e) => .stopped e (s.withPhase .failed)
  | .error (.fault f) => .fault f

/-- One rule after another. -/
def Run.andThen (r : Run) (next : State → Run) : Run :=
  match r with
  | .done s => next s
  | .stopped e s => .stopped e s
  | .fault f => .fault f

/-- The end of a command, the one place an error is taken (47_host_commands.md R400, 60_exceptions.md
R430): the error is posted in `ERR` and `STATUS`, and the engine is idle again (R436). -/
def Run.complete : Run → Host.Outcome State Fault Refusal
  | .done s => .next (s.finish none)
  | .stopped e s => .next (s.finish (some e))
  | .fault f => .fault f

/-- A whole command whose rule checks before it writes. -/
def command (s : State) (r : Except Stop State) : Host.Outcome State Fault Refusal :=
  (runAt s r).complete

/-- A step of an orchestrator rule: on an error E of the body, `fail E` (46_band_decode.md R355, R357;
log entry 11). -/
def orFail {α : Type} : Except Stop α → Except Stop α
  | .ok a => .ok a
  | .error (.raise e) => .error (.fail e)
  | .error (.fail e) => .error (.fail e)
  | .error (.fault f) => .error (.fault f)

/-- `n <= OUT_CAPACITY` (00_scope.md R10); nothing always fits. -/
def Params.fitsOut (p : Params) (n : Nat) : Bool :=
  match n, p.outCapacity with
  | 0, _ => true
  | _ + 1, none => true
  | m + 1, some c => decide (m + 1 ≤ c)

/-- `n <= IN_SIZE` (20_memory.md R72). -/
def Params.fitsIn (p : Params) (n : Nat) : Bool := n == 0 || decide (n ≤ p.inSize)

/-- A result in a 64-bit register, zero-extended (30_encoding.md R102). A value of `2^64` or more has
no stated image: DESIGN CHOICE, a free value (log entry 4). -/
def toReg (v : Nat) : Reg := if v < 2 ^ 64 then BitVec.ofNat 64 v else Config.wideResult v

/-- `ceil8(n)` (00_scope.md R17). -/
def ceil8 (n : Nat) : Nat := (n + 7) / 8

/-! ### Reads of `IN` -/

/-- The blob: `IN[0 .. SRC_LEN-1]` (10_state.md R38). -/
structure Source where
  mem : Memory
  len : Nat

/-- The blob the engine reads. -/
def State.source (s : State) : Source := { mem := s.inMem, len := s.srcLen.toNat }

/-- The byte at an offset; one without a value faults (10_state.md R57; log entry 5). -/
def Source.byte (src : Source) (a : Nat) : Except Stop Byte :=
  match src.mem.read a with
  | some b => .ok b
  | none => .error (.fault (.inNoValue a))

/-- The bytes at `a`, `a + 1`, and so on. -/
def Source.collect (src : Source) : Nat → Nat → Except Stop (List Byte)
  | _, 0 => .ok []
  | a, n + 1 => do
    let b ← src.byte a
    let rest ← src.collect (a + 1) n
    .ok (b :: rest)

/-- `MemRead(a, n)` (00_scope.md R15): a read that would pass `SRC_LEN` is `Truncated` before any byte
is read (20_memory.md R71; log entry 6). -/
def Source.memRead (src : Source) (a n : Nat) : Except Stop (List Byte) := do
  ensure (n = 0 ∨ a + n ≤ src.len) (.raise .truncated)
  src.collect a n

/-- `LE(bytes)` (00_scope.md R15). -/
def le : List Byte → Nat
  | [] => 0
  | b :: rest => b.toNat + 256 * le rest

/-- `LE(MemRead(a, n))`: `u8`, `u32` and `u64` of 00_scope.md R15. -/
def Source.uint (src : Source) (a n : Nat) : Except Stop Nat := do
  let bytes ← src.memRead a n
  .ok (le bytes)

/-! ### The BitReader's stream functions -/

/-- `BR.rem`, the bits left (10_state.md R46). -/
def BitReader.rem (br : BitReader) : Nat := 8 * (br.hi - br.lo) - br.pos

/-- `BR.aligned` (10_state.md R46). -/
def BitReader.aligned (br : BitReader) : Bool := br.pos % 8 == 0

/-- `BR.cur`, the current byte offset (10_state.md R46). -/
def BitReader.cur (br : BitReader) : Nat := br.lo + br.pos / 8

/-- The cursor moved forward by `n` bits. -/
def BitReader.advance (br : BitReader) (n : Nat) : BitReader := { br with pos := br.pos + n }

/-- The cursor at the next byte boundary (40_bitreader.md R160). -/
def BitReader.alignUp (br : BitReader) : BitReader := { br with pos := 8 * ceil8 br.pos }

/-- The bit of a byte that is stream bit `k` (40_bitreader.md R151). -/
def bitOfByte (b : Byte) (k : Nat) : BitOrder → Bool
  | .msb => b.getLsbD (7 - k % 8)
  | .lsb => b.getLsbD (k % 8)

/-- `bitAt(k, ord)` of the window at `lo` (40_bitreader.md R151). -/
def Source.bitAt (src : Source) (lo k : Nat) (ord : BitOrder) : Except Stop Bool := do
  let b ← src.byte (lo + k / 8)
  .ok (bitOfByte b k ord)

/-- Stream bits `k`, `k + 1`, and so on, of the window at `lo`. -/
def Source.collectBits (src : Source) (lo : Nat) (ord : BitOrder) :
    Nat → Nat → Except Stop (List Bool)
  | _, 0 => .ok []
  | k, n + 1 => do
    let b ← src.bitAt lo k ord
    let rest ← src.collectBits lo ord (k + 1) n
    .ok (b :: rest)

/-- The next `n` stream bits at the cursor; bits past `SRC_LEN` are `Truncated` before any byte is read
(20_memory.md R71; log entry 6). -/
def Source.nextBits (src : Source) (br : BitReader) (n : Nat) (ord : BitOrder) :
    Except Stop (List Bool) := do
  ensure (n = 0 ∨ br.lo + (br.pos + n - 1) / 8 < src.len) (.raise .truncated)
  src.collectBits br.lo ord br.pos n

/-- The value whose most-significant bit is the first one (40_bitreader.md R152). -/
def msbValue (bits : List Bool) : Nat := bits.foldl (fun v b => 2 * v + b.toNat) 0

/-- The value whose least-significant bit is the first one (40_bitreader.md R153). -/
def lsbValue : List Bool → Nat
  | [] => 0
  | b :: rest => b.toNat + 2 * lsbValue rest

/-- The value of stream bits in an order (40_bitreader.md R152, R153). -/
def bitsValue (ord : BitOrder) (bits : List Bool) : Nat :=
  match ord with
  | .msb => msbValue bits
  | .lsb => lsbValue bits

/-- `peekBits(n, ord)` after the caller's check of `BR.rem` (40_bitreader.md R152, R153). -/
def Source.peekBits (src : Source) (br : BitReader) (n : Nat) (ord : BitOrder) : Except Stop Nat := do
  let bits ← src.nextBits br n ord
  .ok (bitsValue ord bits)

/-- `readBits(n, ord)` (40_bitreader.md R154). -/
def Source.readBits (src : Source) (br : BitReader) (n : Nat) (ord : BitOrder) :
    Except Stop (Nat × BitReader) := do
  ensure (n ≤ br.rem) (.raise .truncated)
  let v ← src.peekBits br n ord
  .ok (v, br.advance n)

/-- `readBytesLE(k)` of the command `op` (40_bitreader.md R155). -/
def Source.readBytesLE (src : Source) (br : BitReader) (k : Nat) (op : BitVec 8) :
    Except Stop (Nat × BitReader) := do
  ensure (br.aligned = true) (.raise (.illegalOperand op))
  ensure (8 * k ≤ br.rem) (.raise .truncated)
  let v ← src.uint br.cur k
  .ok (v, br.advance (8 * k))

end Sys2Proof.Machine
end

