-- ==== Sys2Proof/Machine/Operands.lean ====
section
/-!
DEFINITION. The operand forms: immediate fields, mask slots, argument registers (30_encoding.md R101,
R102) and element kinds (10_state.md R45).
-/

namespace Sys2Proof.Machine

/-- `MS[s]` (10_state.md R47). -/
def State.mask (s : State) : Slot → BitMask
  | .zero => s.ms0
  | .one => s.ms1

/-- `MS[s] <- m`. -/
def State.setMask (s : State) (sl : Slot) (m : BitMask) : State :=
  match sl with
  | .zero => { s with ms0 := m }
  | .one => { s with ms1 := m }

/-- The FN6 operand `n`, or `IllegalOperand` above 32 (30_encoding.md R105; log entry 8). -/
def bitCountOperand (op : BitVec 8) (n : BitVec 6) : Except Stop Nat := do
  ensure (legalBitCount n = true) (.raise (.illegalOperand op))
  .ok n.toNat

/-- The FK4 operand `k`, or `IllegalOperand` unless 1, 2, 4 or 8 (30_encoding.md R105; log entry 8). -/
def byteCountOperand (op : BitVec 8) (k : BitVec 4) : Except Stop Nat := do
  ensure (legalByteCount k = true) (.raise (.illegalOperand op))
  .ok k.toNat

/-- `bytes(kind)` (10_state.md R45). -/
def Kind.bytes : Kind → Nat
  | .i8 | .u8 => 1
  | .i16 | .u16 => 2
  | .i32 | .u32 | .f32 => 4
  | .f64 => 8

/-- `min(kind)` of an integer kind (10_state.md R45). -/
def Kind.minInt : Kind → Int
  | .i8 => -128
  | .i16 => -32768
  | .i32 => -2147483648
  | .u8 | .u16 | .u32 | .f32 | .f64 => 0

/-- `max(kind)` of an integer kind (10_state.md R45). -/
def Kind.maxInt : Kind → Int
  | .i8 => 127
  | .u8 => 255
  | .i16 => 32767
  | .u16 => 65535
  | .i32 => 2147483647
  | .u32 => 4294967295
  | .f32 | .f64 => 0

/-- The kind's zero value (10_state.md R45, 46_band_decode.md R365). -/
def Kind.zero : Kind → Element
  | .f32 => .f32 0
  | .f64 => .f64 0
  | .i8 | .u8 | .i16 | .u16 | .i32 | .u32 => .int 0

/-- The little-endian byte image of an element as a number below `2^(8 * bytes(kind))`
(20_memory.md R73). -/
def Element.image (k : Kind) : Element → Nat
  | .int v => (v % (2 ^ (8 * k.bytes) : Nat)).toNat
  | .f32 b => b.toNat
  | .f64 b => b.toNat

/-- Byte `j` of an element's image (20_memory.md R73). -/
def Element.byteAt (k : Kind) (e : Element) (j : Nat) : Byte :=
  BitVec.ofNat 8 (e.image k / 2 ^ (8 * j))

/-- `N`, the pixel count (00_scope.md R21). -/
def Header.pixels (h : Header) : Nat := h.nRows.toNat * h.nCols.toNat

/-- `V`, the valid count (00_scope.md R21). -/
def Header.valid (h : Header) : Nat := h.nValid.toNat

/-- `popcount(m)` (00_scope.md R17). -/
def popcount (bits : List Bool) : Nat := bits.countP (fun b => b)

end Sys2Proof.Machine
end

