-- ==== Sys2Proof/Machine/BitMask.lean ====
section
/-!
DEFINITION. The BitMask commands (41_bitmask.md R180 to R191).
-/

namespace Sys2Proof.Machine

/-- A mask's bits with positions `start .. start + len - 1` set to `v` (41_bitmask.md R183). -/
def fillBits (bits : List Bool) (start len : Nat) (v : Bool) : List Bool :=
  bits.take start ++ List.replicate len v ++ bits.drop (start + len)

/-- The least `j >= start` whose bit is true, counting the list's first bit as position `at_`, or the
position past the last bit (41_bitmask.md R187). -/
def nextSet : List Bool → (at_ start : Nat) → Nat
  | [], at_, _ => at_
  | b :: rest, at_, start => if b && decide (start ≤ at_) then at_ else nextSet rest (at_ + 1) start

/-- The bitwise AND of two masks of one length (41_bitmask.md R188). -/
def andBits (x y : List Bool) : List Bool := List.zipWith (· && ·) x y

/-- `BM.NEW s, v` (41_bitmask.md R181). -/
def execBmNew (sl : Slot) (v : Bool) (s : State) : Host.Outcome State Fault Refusal :=
  command s do
    ensure (s.params.fitsOut s.a0.toNat = true) (.raise .capacityExceeded)
    .ok (s.setMask sl { bits := List.replicate s.a0.toNat v, building := true })

/-- `BM.SET s, v` (41_bitmask.md R182). -/
def execBmSet (sl : Slot) (v : Bool) (s : State) : Host.Outcome State Fault Refusal :=
  command s do
    ensure ((s.mask sl).building = true) (.raise (.illegalCommand 0x21))
    ensure (s.a0.toNat < (s.mask sl).bits.length) (.raise (.illegalOperand 0x21))
    .ok (s.setMask sl { s.mask sl with bits := (s.mask sl).bits.set s.a0.toNat v })

/-- `BM.FILL s, v` (41_bitmask.md R183). -/
def execBmFill (sl : Slot) (v : Bool) (s : State) : Host.Outcome State Fault Refusal :=
  command s do
    ensure ((s.mask sl).building = true) (.raise (.illegalCommand 0x22))
    ensure (s.a0.toNat + s.a1.toNat ≤ (s.mask sl).bits.length) (.raise (.illegalOperand 0x22))
    .ok (s.setMask sl
      { s.mask sl with bits := fillBits (s.mask sl).bits s.a0.toNat s.a1.toNat v })

/-- `BM.FREEZE s` (41_bitmask.md R184). -/
def execBmFreeze (sl : Slot) (s : State) : Host.Outcome State Fault Refusal :=
  command s (.ok (s.setMask sl { s.mask sl with building := false }))

/-- `BM.GET s` (41_bitmask.md R185). -/
def execBmGet (sl : Slot) (s : State) : Host.Outcome State Fault Refusal :=
  command s
    (match (s.mask sl).bits[s.a0.toNat]? with
     | none => .error (.raise (.illegalOperand 0x24))
     | some b => .ok { s with r0 := if b then 1 else 0 })

/-- `BM.POPCNT s` (41_bitmask.md R186). -/
def execBmPopcnt (sl : Slot) (s : State) : Host.Outcome State Fault Refusal :=
  command s (.ok { s with r0 := toReg (popcount (s.mask sl).bits) })

/-- `BM.NEXT s` (41_bitmask.md R187). -/
def execBmNext (sl : Slot) (s : State) : Host.Outcome State Fault Refusal :=
  command s (.ok { s with r0 := toReg (nextSet (s.mask sl).bits 0 s.a0.toNat) })

/-- `BM.AND` (41_bitmask.md R188). -/
def execBmAnd (s : State) : Host.Outcome State Fault Refusal :=
  command s do
    ensure (s.ms0.building = false ∧ s.ms1.building = false) (.raise (.illegalCommand 0x27))
    ensure (s.ms0.bits.length = s.ms1.bits.length) (.raise (.illegalOperand 0x27))
    .ok { s with ms1 := { s.ms1 with bits := andBits s.ms1.bits s.ms0.bits } }

/-- `BM.LEN s` (41_bitmask.md R189). -/
def execBmLen (sl : Slot) (s : State) : Host.Outcome State Fault Refusal :=
  command s (.ok { s with r0 := toReg (s.mask sl).bits.length })

end Sys2Proof.Machine
end

