-- ==== Sys2Proof/Machine/BitReader.lean ====
section
/-!
DEFINITION. The BitReader commands (40_bitreader.md R156 to R163).
-/

namespace Sys2Proof.Machine

/-- `BR.INIT ord` (40_bitreader.md R156). -/
def execBrInit (ord : BitOrder) (s : State) : Host.Outcome State Fault Refusal :=
  command s do
    ensure (s.params.fitsIn s.srcLen.toNat = true) (.raise (.illegalOperand 0x10))
    ensure (s.a0.toNat ≤ s.a1.toNat) (.raise (.illegalOperand 0x10))
    ensure (s.a1.toNat ≤ s.srcLen.toNat) (.raise .truncated)
    .ok { s with br := { lo := s.a0.toNat, hi := s.a1.toNat, pos := 0, order := ord } }

/-- `BR.READ n` (40_bitreader.md R157). -/
def execBrRead (n : BitVec 6) (s : State) : Host.Outcome State Fault Refusal :=
  command s do
    let k ← bitCountOperand 0x11 n
    let (v, br) ← s.source.readBits s.br k s.br.order
    .ok { s with r0 := toReg v, br := br }

/-- `BR.PEEK n` (40_bitreader.md R158). -/
def execBrPeek (n : BitVec 6) (s : State) : Host.Outcome State Fault Refusal :=
  command s do
    let k ← bitCountOperand 0x12 n
    ensure (k ≤ s.br.rem) (.raise .truncated)
    let v ← s.source.peekBits s.br k s.br.order
    .ok { s with r0 := toReg v }

/-- `BR.SKIP` (40_bitreader.md R159). -/
def execBrSkip (s : State) : Host.Outcome State Fault Refusal :=
  command s do
    ensure (s.a0.toNat ≤ s.br.rem) (.raise .truncated)
    .ok { s with br := s.br.advance s.a0.toNat }

/-- `BR.ALIGN` (40_bitreader.md R160). -/
def execBrAlign (s : State) : Host.Outcome State Fault Refusal :=
  command s (.ok { s with br := s.br.alignUp })

/-- `BR.BYTES k` (40_bitreader.md R161). -/
def execBrBytes (k : BitVec 4) (s : State) : Host.Outcome State Fault Refusal :=
  command s do
    let n ← byteCountOperand 0x15 k
    let (v, br) ← s.source.readBytesLE s.br n 0x15
    .ok { s with r0 := toReg v, br := br }

/-- `BR.POS` (40_bitreader.md R162). -/
def execBrPos (s : State) : Host.Outcome State Fault Refusal :=
  command s (.ok { s with r0 := toReg s.br.pos, r1 := toReg s.br.rem })

end Sys2Proof.Machine
end

