-- ==== Sys2Proof/Machine/BitStuffer.lean ====
section
/-!
DEFINITION. The BitStuffer (44_bitstuffer.md R280 to R287). The bodies are shared with BAND.DATA
(46_band_decode.md R359). `op` is the opcode of the command the host wrote, the argument of an
`IllegalOperand` (60_exceptions.md R432).
-/

namespace Sys2Proof.Machine

/-- `STUFF_ORDER` of LERC2-DEC (00_scope.md R10). -/
def stuffOrder : BitOrder := .msb

/-- The body of BS.HDR (44_bitstuffer.md R281): the block state and the moved cursor. -/
def blockHeader (op : BitVec 8) (src : Source) (br : BitReader) :
    Except Stop (Stuffer × BitReader) := do
  ensure (br.aligned = true) (.raise (.illegalOperand op))
  ensure (8 ≤ br.rem) (.raise .truncated)
  let w ← src.uint br.cur 1
  ensure (w ≤ Config.maxBitWidth) (.raise (.invalidBitWidth (BitVec.ofNat 8 w)))
  ensure (40 ≤ br.rem) (.raise .truncated)
  let c ← src.uint (br.cur + 1) 4
  ensure (1 ≤ c) (.raise (.invalidField 13))
  if w = 0 then do
    ensure (72 ≤ br.rem) (.raise .truncated)
    let k ← src.uint (br.cur + 5) 4
    .ok ({ width := w, count := c, const := BitVec.ofNat 32 k }, br.advance 72)
  else
    .ok ({ width := w, count := c, const := 0 }, br.advance 40)

/-- `count` packed values of `width` bits each (44_bitstuffer.md R282; log entry 18). -/
def unpackValues (src : Source) (ord : BitOrder) (width : Nat) :
    (count : Nat) → BitReader → Except Stop (List Code × BitReader)
  | 0, br => .ok ([], br)
  | count + 1, br => do
    let (v, br) ← src.readBits br width ord
    let (rest, br) ← unpackValues src ord width count br
    .ok (BitVec.ofNat 32 v :: rest, br)

/-- The body of BS.UNPACK (44_bitstuffer.md R282, R283) with `cp` codes already there: the block's
codes and the aligned cursor. -/
def blockCodes (p : Params) (src : Source) (ord : BitOrder) (bs : Stuffer) (cp : Nat)
    (br : BitReader) : Except Stop (List Code × BitReader) := do
  ensure (p.fitsOut (cp + bs.count) = true) (.raise .capacityExceeded)
  ensure (bs.count * bs.width ≤ br.rem) (.raise .truncated)
  if bs.width = 0 then
    .ok (List.replicate bs.count bs.const, br.alignUp)
  else do
    let (codes, br) ← unpackValues src ord bs.width bs.count br
    .ok (codes, br.alignUp)

/-- The loop of BS.STREAM (44_bitstuffer.md R284) with `cp` codes done and `last` the header of the
last block read: the codes still to come, the last header and the cursor. Each block has at least one
code, so `fuel = total` rounds are enough. -/
def streamBlocks (op : BitVec 8) (p : Params) (src : Source) (ord : BitOrder) (total : Nat) :
    (fuel cp : Nat) → Option Stuffer → BitReader →
      Except Stop (List Code × Option Stuffer × BitReader)
  | 0, _, last, br => .ok ([], last, br)
  | fuel + 1, cp, last, br =>
    if total ≤ cp then .ok ([], last, br)
    else do
      let (block, br) ← blockHeader op src br
      ensure (cp + block.count ≤ total) (.raise (.invalidField 13))
      let (codes, br) ← blockCodes p src ord block cp br
      let (rest, last, br) ←
        streamBlocks op p src ord total fuel (cp + block.count) (some block) br
      .ok (codes ++ rest, last, br)

/-- The body of BS.STREAM (44_bitstuffer.md R284): the codes, the last block's header and the cursor. -/
def stuffedStream (op : BitVec 8) (p : Params) (src : Source) (br : BitReader) (total : Nat) :
    Except Stop (List Code × Option Stuffer × BitReader) := do
  ensure (p.fitsOut total = true) (.raise .capacityExceeded)
  streamBlocks op p src stuffOrder total total 0 none br

/-- `BS` after a stream: the last block with nothing left, or as before where no block was read
(44_bitstuffer.md R282, R284). -/
def stufferAfter (before : Stuffer) : Option Stuffer → Stuffer
  | some block => { block with count := 0 }
  | none => before

/-- `BS.HDR` (44_bitstuffer.md R281). -/
def execBsHdr (s : State) : Host.Outcome State Fault Refusal :=
  command s do
    let (bs, br) ← blockHeader 0x50 s.source s.br
    .ok { s with bs := bs, br := br, r0 := toReg bs.width, r1 := toReg bs.count }

/-- `BS.UNPACK` (44_bitstuffer.md R282). -/
def execBsUnpack (s : State) : Host.Outcome State Fault Refusal :=
  command s do
    let (codes, br) ← blockCodes s.params s.source stuffOrder s.bs s.codes.length s.br
    .ok { s with codes := s.codes ++ codes, bs := { s.bs with count := 0 }, br := br }

/-- `BS.STREAM` (44_bitstuffer.md R284). `R0` and `R1` are those of the last BS.HDR it ran. -/
def execBsStream (s : State) : Host.Outcome State Fault Refusal :=
  command s do
    let (codes, last, br) ← stuffedStream 0x52 s.params s.source s.br s.a0.toNat
    .ok { s with
      codes := codes
      bs := stufferAfter s.bs last
      br := br
      r0 := (last.map fun block => toReg block.width).getD s.r0
      r1 := (last.map fun block => toReg block.count).getD s.r1 }

/-- `CODES.GET` (44_bitstuffer.md R286). -/
def execCodesGet (s : State) : Host.Outcome State Fault Refusal :=
  command s
    (match s.codes[s.a0.toNat]? with
     | none => .error (.raise (.illegalOperand 0x53))
     | some c => .ok { s with r0 := c.setWidth 64, r1 := toReg s.codes.length })

end Sys2Proof.Machine
end

