-- ==== Sys2Proof/Machine/Ieee.lean ====
section
/-!
DEFINITION. The IEEE 754 arithmetic of 00_scope.md R16: binary64 addition and multiplication, rounding to
binary32 and rounding to an integer. Every operation computes the exact result on integers and rounds
once. No NaN pattern is ever stored by the engine (46_band_decode.md R361), so a NaN has no payload
(log entry 19).
-/

namespace Sys2Proof.Machine

/-- A floating-point value: NaN, an infinity, or `(-1)^neg * mant * 2^exp`. -/
inductive FloatVal where
  | nan
  | inf (neg : Bool)
  | fin (neg : Bool) (mant : Nat) (exp : Int)
deriving DecidableEq, Repr

/-- An IEEE binary format: the precision, the exponents of the last place of the smallest and the
largest finite values, and the width of the exponent field. -/
structure FloatFormat where
  prec : Nat
  lsbMin : Int
  lsbMax : Int
  expBits : Nat
deriving DecidableEq, Repr

/-- IEEE 754 binary64. -/
def binary64 : FloatFormat := { prec := 53, lsbMin := -1074, lsbMax := 971, expBits := 11 }

/-- IEEE 754 binary32. -/
def binary32 : FloatFormat := { prec := 24, lsbMin := -149, lsbMax := 104, expBits := 8 }

/-- The binary64 value of a bit pattern (00_scope.md R15, `f64`). -/
def floatOfBits (b : BitVec 64) : FloatVal :=
  let neg := b.getLsbD 63
  let field := (b.extractLsb' 52 11).toNat
  let frac := (b.extractLsb' 0 52).toNat
  if field = 2047 then
    if frac = 0 then .inf neg else .nan
  else if field = 0 then .fin neg frac (-1074)
  else .fin neg (2 ^ 52 + frac) ((field : Int) - 1075)

/-- `m / 2^k` rounded to nearest, ties to even. -/
def shiftRightEven (m k : Nat) : Nat :=
  let q := m / 2 ^ k
  let r := m % 2 ^ k
  if 2 ^ k < 2 * r ∨ (2 * r = 2 ^ k ∧ q % 2 = 1) then q + 1 else q

/-- The value `(-1)^neg * m * 2^e` rounded to a format, to nearest with ties to even; a magnitude past
the largest finite value becomes an infinity, a tiny one a subnormal or a zero of the same sign. -/
def roundFinite (f : FloatFormat) (neg : Bool) (m : Nat) (e : Int) : FloatVal :=
  if m = 0 then .fin neg 0 f.lsbMin
  else
    let q := max (e + (Nat.log2 m + 1 : Nat) - f.prec) f.lsbMin
    let n := if q ≤ e then m * 2 ^ (e - q).toNat else shiftRightEven m (q - e).toNat
    let r : Nat × Int := if n = 2 ^ f.prec then (2 ^ (f.prec - 1), q + 1) else (n, q)
    if f.lsbMax < r.2 then .inf neg else .fin neg r.1 r.2

/-- `x (*) y` (00_scope.md R16). -/
def floatMul : FloatVal → FloatVal → FloatVal
  | .nan, _ => .nan
  | _, .nan => .nan
  | .inf s, .inf t => .inf (s != t)
  | .inf s, .fin t m _ => if m = 0 then .nan else .inf (s != t)
  | .fin s m _, .inf t => if m = 0 then .nan else .inf (s != t)
  | .fin s m e, .fin t n g => roundFinite binary64 (s != t) (m * n) (e + g)

/-- The integer `(-1)^neg * mant * 2^(exp - base)`, for `base ≤ exp`. -/
def scaledInt (neg : Bool) (mant : Nat) (exp base : Int) : Int :=
  let v : Int := (mant * 2 ^ (exp - base).toNat : Nat)
  if neg then -v else v

/-- `x (+) y` (00_scope.md R16). An exact zero sum is `+0` unless both operands are negative. -/
def floatAdd : FloatVal → FloatVal → FloatVal
  | .nan, _ => .nan
  | _, .nan => .nan
  | .inf s, .inf t => if s = t then .inf s else .nan
  | .inf s, .fin _ _ _ => .inf s
  | .fin _ _ _, .inf t => .inf t
  | .fin s m e, .fin t n g =>
    let base := min e g
    let sum := scaledInt s m e base + scaledInt t n g base
    if sum = 0 then .fin (s && t) 0 binary64.lsbMin
    else roundFinite binary64 (decide (sum < 0)) sum.natAbs base

/-- `toF64(n)` (00_scope.md R16), exact below `2^53`. -/
def toF64 (n : Nat) : FloatVal := roundFinite binary64 false n 0

/-- `rne32(x)` (00_scope.md R16). -/
def rne32 : FloatVal → FloatVal
  | .nan => .nan
  | .inf s => .inf s
  | .fin s m e => roundFinite binary32 s m e

/-- `roundHalfAway` of the finite value `(-1)^neg * m * 2^e` (00_scope.md R16): the nearest integer,
ties away from zero. -/
def roundHalfAway (neg : Bool) (m : Nat) (e : Int) : Int :=
  let mag : Nat :=
    if 0 ≤ e then m * 2 ^ e.toNat
    else
      let d := 2 ^ (-e).toNat
      (2 * m + d) / (2 * d)
  if neg then -(mag : Int) else mag

/-- The bit pattern of a value that `roundFinite` gave for the format, as a number. -/
def floatPattern (f : FloatFormat) : FloatVal → Nat
  | .nan => (2 ^ f.expBits - 1) * 2 ^ (f.prec - 1) + 2 ^ (f.prec - 2)
  | .inf neg => (if neg then 2 ^ (f.expBits + f.prec - 1) else 0) + (2 ^ f.expBits - 1) * 2 ^ (f.prec - 1)
  | .fin neg m e =>
    (if neg then 2 ^ (f.expBits + f.prec - 1) else 0) +
      (if m < 2 ^ (f.prec - 1) then m
       else ((e - f.lsbMin).toNat + 1) * 2 ^ (f.prec - 1) + (m - 2 ^ (f.prec - 1)))

/-- The value is finite. -/
def FloatVal.isFinite : FloatVal → Bool
  | .nan | .inf _ => false
  | .fin _ _ _ => true

/-- `x` is finite and `x >= 0`; negative zero is (45_blob_header.md R318). -/
def FloatVal.isFiniteNonneg : FloatVal → Bool
  | .nan | .inf _ => false
  | .fin neg m _ => !neg || m == 0

/-- The value is a zero of either sign (46_band_decode.md R360). -/
def FloatVal.isZero : FloatVal → Bool
  | .nan | .inf _ => false
  | .fin _ m _ => m == 0

/-- `x` and `y` are finite and `x >= y` (45_blob_header.md R320). -/
def FloatVal.finiteGe : FloatVal → FloatVal → Bool
  | .fin s m e, .fin t n g =>
    let base := min e g
    decide (scaledInt t n g base ≤ scaledInt s m e base)
  | .nan, _ | .inf _, _ | .fin _ _ _, .nan | .fin _ _ _, .inf _ => false

end Sys2Proof.Machine
end

