-- ==== Sys2Proof/Machine/HeaderParser.lean ====
section
/-!
DEFINITION. The blob header parser and INFO (45_blob_header.md R310 to R330).
-/

namespace Sys2Proof.Machine

/-- `u32(a)` as a field (00_scope.md R15). -/
def Source.field32 (src : Source) (a : Nat) : Except Stop (BitVec 32) := do
  let v ← src.uint a 4
  .ok (BitVec.ofNat 32 v)

/-- `u64(a)` as a field (00_scope.md R15). -/
def Source.field64 (src : Source) (a : Nat) : Except Stop (BitVec 64) := do
  let v ← src.uint a 8
  .ok (BitVec.ofNat 64 v)

/-- `data_type` as a kind, or `InvalidField(4)` (45_blob_header.md R316). -/
def kindField (code : BitVec 32) : Except Stop Kind :=
  match Kind.ofCode code.toNat with
  | some k => .ok k
  | none => .error (.raise (.invalidField 4))

/-- The descriptor entry at `e`, with the checks of step 8 for a header of `size` bytes
(45_blob_header.md R311, R320). -/
def parseDescriptor (src : Source) (size e : Nat) : Except Stop Descriptor := do
  let off ← src.field32 e
  let len ← src.field32 (e + 4)
  let zMin ← src.field64 (e + 8)
  let zMax ← src.field64 (e + 16)
  ensure (size ≤ off.toNat) (.raise (.invalidField 7))
  ensure ((floatOfBits zMin).isFinite = true) (.raise (.invalidField 8))
  ensure ((floatOfBits zMax).finiteGe (floatOfBits zMin) = true) (.raise (.invalidField 9))
  .ok { offset := off, length := len, zMin := zMin, zMax := zMax }

/-- Step 8 of 45_blob_header.md R311: the descriptors of the next `n` bands, from the entry at `e`. -/
def parseDescriptors (src : Source) (size : Nat) : (n e : Nat) → Except Stop (List Descriptor)
  | 0, _ => .ok []
  | n + 1, e => do
    let d ← parseDescriptor src size e
    let rest ← parseDescriptors src size n (e + 24)
    .ok (d :: rest)

/-- The version check of step 4, on the 32-bit pattern (45_blob_header.md R313). -/
def versionSupported (v : BitVec 32) : Bool :=
  decide (Config.minVersion ≤ v.toInt) && decide (v.toInt ≤ Config.maxVersion)

/-- `parseHeader()` (45_blob_header.md R311). -/
def parseHeader (src : Source) : Except Stop Header := do
  ensure (6 ≤ src.len) (.raise .truncated)
  let magic ← src.memRead 0 6
  ensure (magic = Config.magic) (.raise .badMagic)
  ensure (10 ≤ src.len) (.raise .truncated)
  let v ← src.field32 6
  ensure (versionSupported v = true) (.raise (.unsupportedVersion v))
  ensure (42 ≤ src.len) (.raise .truncated)
  let rows ← src.field32 10
  let cols ← src.field32 14
  let bands ← src.field32 18
  let dt ← src.field32 22
  let nValid ← src.field64 26
  let mze ← src.field64 34
  ensure (1 ≤ rows.toNat) (.raise (.invalidField 1))
  ensure (1 ≤ cols.toNat) (.raise (.invalidField 2))
  ensure (1 ≤ bands.toNat) (.raise (.invalidField 3))
  let kind ← kindField dt
  ensure (nValid.toNat ≤ rows.toNat * cols.toNat) (.raise (.invalidField 5))
  ensure ((floatOfBits mze).isFiniteNonneg = true) (.raise (.invalidField 6))
  let size := 42 + 24 * bands.toNat
  ensure (size ≤ src.len) (.raise .truncated)
  let desc ← parseDescriptors src size bands.toNat 42
  .ok { version := v, nRows := rows, nCols := cols, nBands := bands, kind := kind, nValid := nValid,
        maxZErr := mze, size := size, desc := desc }

/-- The INFO registers of a header (45_blob_header.md R330, 10_state.md R41). -/
def infoRegsOf (h : Header) : InfoRegs :=
  { version := h.version.setWidth 64
    rows := h.nRows.setWidth 64
    cols := h.nCols.setWidth 64
    bands := h.nBands.setWidth 64
    dtype := BitVec.ofNat 64 h.kind.code
    nValid := h.nValid
    maxZErr := h.maxZErr }

/-- `ORC <- reset; STAGE <- empty`: how INFO and DECODE begin (45_blob_header.md R330). -/
def State.resetOrchestrator (s : State) : State := { s with orc := Orchestrator.reset, stage := [] }

/-- `ORC.hvalid <- true; ORC.hdr <- h`. -/
def State.withHeader (s : State) (h : Header) : State := { s with orc := { s.orc with hdr := some h } }

/-- The state with another `STATUS.INFO_VALID`. -/
def State.withInfoValid (s : State) (b : Bool) : State :=
  { s with status := { s.status with infoValid := b } }

/-- `assert x[SRC_LEN] <= IN_SIZE` of a command that reads `IN` (20_memory.md R72). -/
def sourceFits (op : BitVec 8) (s : State) : Except Stop Unit :=
  ensure (s.params.fitsIn s.srcLen.toNat = true) (.raise (.illegalOperand op))

/-- INFO and DECODE up to `ORC.hdr <- h` (45_blob_header.md R330, 47_host_commands.md R404): the length
check at `s`, then the parse with `ORC` and `STAGE` reset. -/
def runHeader (op : BitVec 8) (s : State) : Run :=
  (runAt s (do sourceFits op s; .ok s.resetOrchestrator)).andThen fun t =>
    runAt t (do let h ← parseHeader t.source; .ok (t.withHeader h))

/-- The INFO registers and `STATUS.INFO_VALID` of a parsed header (45_blob_header.md R330). -/
def State.publishInfo (s : State) : State :=
  match s.orc.hdr with
  | some h => { s with info := infoRegsOf h, status := { s.status with infoValid := true } }
  | none => s

/-- `INFO` (45_blob_header.md R330). On an error the INFO registers keep their values and
`STATUS.INFO_VALID` is 0 (log entry 10). -/
def execInfo (s : State) : Host.Outcome State Fault Refusal :=
  (match runHeader 0x01 s with
   | .done t => .done t.publishInfo
   | .stopped e t => .stopped e (t.withInfoValid false)
   | .fault f => .fault f : Run).complete

end Sys2Proof.Machine
end

