-- ==== Sys2Proof/Machine/Huffman.lean ====
section
/-!
DEFINITION. The Huffman unit (43_huffman.md R240 to R252): table construction, the reference symbol
decoder, the lookup-table fast path and the segment. The bodies are shared with BAND.DATA
(46_band_decode.md R358). `op` is the opcode of the command the host wrote, the argument of an
`IllegalOperand` or `IllegalCommand` (60_exceptions.md R432).
-/

namespace Sys2Proof.Machine

/-! ### Table construction -/

/-- The body of HUF.LOADLEN (43_huffman.md R241): the 256 code lengths and the moved cursor. -/
def loadLengths (op : BitVec 8) (src : Source) (br : BitReader) :
    Except Stop (List Byte × BitReader) := do
  ensure (br.aligned = true) (.raise (.illegalOperand op))
  ensure (2048 ≤ br.rem) (.raise .truncated)
  let lens ← src.memRead br.cur 256
  .ok (lens, br.advance 2048)

/-- The symbols present, with their code lengths, in symbol order (43_huffman.md R243). -/
def presentSymbols (lens : List Byte) : List (Byte × Nat) :=
  lens.zipIdx.filterMap fun (l, s) => if l = 0 then none else some (BitVec.ofNat 8 s, l.toNat)

/-- The list `S` of 43_huffman.md R243: the symbols present, sorted by code length, then by symbol. -/
def canonicalOrder (lens : List Byte) : List (Byte × Nat) :=
  (List.range' 1 Config.maxCodeLen).flatMap fun l => (presentSymbols lens).filter fun p => p.2 == l

/-- The codes after a symbol whose code is `code` and whose length is `len` (43_huffman.md R243). -/
def codesAfter : (code len : Nat) → List (Byte × Nat) → List HuffEntry
  | _, _, [] => []
  | code, len, (s, l) :: rest =>
    let c := (code + 1) * 2 ^ (l - len)
    { sym := s, len := l, code := c } :: codesAfter c l rest

/-- `canonical(len)` (43_huffman.md R243): the symbols in canonical order with their codes. -/
def canonicalCodes : List (Byte × Nat) → List HuffEntry
  | [] => []
  | (s, l) :: rest => { sym := s, len := l, code := 0 } :: codesAfter 0 l rest

/-- The longest code length present, 0 for an empty table (43_huffman.md R243). -/
def longestCode (entries : List HuffEntry) : Nat :=
  match entries.getLast? with
  | some e => e.len
  | none => 0

/-- The short code whose `LUT_BITS`-wide continuations include `p` (43_huffman.md R244). -/
def lutEntry (entries : List HuffEntry) (p : Nat) : Option (Byte × Nat) :=
  (entries.find? fun e =>
    decide (e.len ≤ Config.lutBits) && p / 2 ^ (Config.lutBits - e.len) == e.code).map
    fun e => (e.sym, e.len)

/-- `buildLut` (43_huffman.md R244). No entry has two writers, since the codes are prefix-free. -/
def buildLut (entries : List HuffEntry) : List (Option (Byte × Nat)) :=
  (List.range (2 ^ Config.lutBits)).map (lutEntry entries)

/-- `K`, the Kraft sum in units of `2^-MAX_CODE_LEN` (43_huffman.md R242). -/
def kraftSum (lens : List Byte) : Nat :=
  ((presentSymbols lens).map fun p => 2 ^ (Config.maxCodeLen - p.2)).sum

/-- What HUF.BUILD stores for accepted lengths (43_huffman.md R242 to R244). -/
def tablesOf (lens : List Byte) : HuffTables :=
  let entries := canonicalCodes (canonicalOrder lens)
  { entries := entries, maxLen := longestCode entries, lut := buildLut entries }

/-- The body of HUF.BUILD (43_huffman.md R242). -/
def buildTables (lens : List Byte) : Except Stop HuffTables := do
  ensure (lens.all (fun l => decide (l.toNat ≤ Config.maxCodeLen)) = true)
    (.raise .huffmanTableCorrupt)
  ensure (kraftSum lens ≤ 2 ^ Config.maxCodeLen) (.raise .huffmanTableCorrupt)
  .ok (tablesOf lens)

/-! ### Symbol decoding -/

/-- The symbol whose code is the `l`-bit value `w` (43_huffman.md R245). -/
def matchCode (entries : List HuffEntry) (l w : Nat) : Option HuffEntry :=
  entries.find? fun e => e.len == l && e.code == w

/-- The loop of `hdec` (43_huffman.md R245) from length `l` on, for `fuel` lengths. -/
def decodeFrom (src : Source) (br : BitReader) (entries : List HuffEntry) :
    (fuel l : Nat) → Except Stop (Byte × BitReader)
  | 0, _ => .error (.raise .huffmanTableCorrupt)
  | fuel + 1, l => do
    ensure (l ≤ br.rem) (.raise .truncated)
    let w ← src.peekBits br l .msb
    match matchCode entries l w with
    | some e => .ok (e.sym, br.advance l)
    | none => decodeFrom src br entries fuel (l + 1)

/-- `hdec` of a built table (43_huffman.md R245). -/
def decodeSymbol (src : Source) (br : BitReader) (t : HuffTables) : Except Stop (Byte × BitReader) :=
  decodeFrom src br t.entries t.maxLen 1

/-- The lookup table's answer for the next `LUT_BITS` bits, if the window and the blob hold that many
(43_huffman.md R249; log entry 7). -/
def lutHit (src : Source) (br : BitReader) (t : HuffTables) : Option (Byte × Nat) :=
  if Config.lutBits ≤ br.rem then
    match src.peekBits br Config.lutBits .msb with
    | .ok p => (t.lut[p]?).join
    | .error _ => none
  else none

/-- HUF.DECF's symbol: the fast path on a hit, else `hdec` (43_huffman.md R249). -/
def decodeSymbolFast (src : Source) (br : BitReader) (t : HuffTables) :
    Except Stop (Byte × BitReader) :=
  match lutHit src br t with
  | some (sym, l) => .ok (sym, br.advance l)
  | none => decodeSymbol src br t

/-- `assert HT.built else raise IllegalCommand(op)` (43_huffman.md R245). -/
def builtTables (op : BitVec 8) (ht : Huffman) : Except Stop HuffTables :=
  match ht.tables with
  | some t => .ok t
  | none => .error (.raise (.illegalCommand op))

/-- `count` symbols in stream order, as codes (43_huffman.md R251). -/
def decodeSymbols (src : Source) (t : HuffTables) :
    (count : Nat) → BitReader → Except Stop (List Code × BitReader)
  | 0, br => .ok ([], br)
  | count + 1, br => do
    let (sym, br) ← decodeSymbol src br t
    let (rest, br) ← decodeSymbols src t count br
    .ok (sym.setWidth 32 :: rest, br)

/-- The body of HUF.RUN (43_huffman.md R251). -/
def huffmanRun (op : BitVec 8) (p : Params) (src : Source) (ht : Huffman) (br : BitReader)
    (count : Nat) : Except Stop (List Code × BitReader) := do
  let t ← builtTables op ht
  ensure (p.fitsOut count = true) (.raise .capacityExceeded)
  decodeSymbols src t count br

/-- The body of HUF.SEG (43_huffman.md R247): the segment length and the narrowed window. -/
def segmentWindow (op : BitVec 8) (src : Source) (br : BitReader) :
    Except Stop (Nat × BitReader) := do
  ensure (br.aligned = true) (.raise (.illegalOperand op))
  ensure (32 ≤ br.rem) (.raise .truncated)
  let len ← src.uint br.cur 4
  ensure (br.cur + 4 + len ≤ br.hi) (.raise .truncated)
  .ok (len, { br.advance 32 with hi := br.cur + 4 + len })

/-! ### Commands -/

/-- `HUF.LOADLEN` (43_huffman.md R241). -/
def execHufLoadlen (s : State) : Host.Outcome State Fault Refusal :=
  command s do
    let (lens, br) ← loadLengths 0x40 s.source s.br
    .ok { s with ht := { lens := lens, tables := none }, br := br }

/-- `HUF.BUILD` (43_huffman.md R242). -/
def execHufBuild (s : State) : Host.Outcome State Fault Refusal :=
  command s do
    let t ← buildTables s.ht.lens
    .ok { s with ht := { s.ht with tables := some t } }

/-- `HUF.SEG` (43_huffman.md R247). -/
def execHufSeg (s : State) : Host.Outcome State Fault Refusal :=
  command s do
    let (len, br) ← segmentWindow 0x42 s.source s.br
    .ok { s with r0 := toReg len, br := br }

/-- `HUF.DEC` (43_huffman.md R250). -/
def execHufDec (s : State) : Host.Outcome State Fault Refusal :=
  command s do
    let t ← builtTables 0x43 s.ht
    let (sym, br) ← decodeSymbol s.source s.br t
    .ok { s with r0 := sym.setWidth 64, br := br }

/-- `HUF.DECF` (43_huffman.md R249). -/
def execHufDecf (s : State) : Host.Outcome State Fault Refusal :=
  command s do
    let t ← builtTables 0x44 s.ht
    let (sym, br) ← decodeSymbolFast s.source s.br t
    .ok { s with r0 := sym.setWidth 64, br := br }

/-- `HUF.DECS` (43_huffman.md R248). -/
def execHufDecs (s : State) : Host.Outcome State Fault Refusal :=
  command s do
    let t ← builtTables 0x45 s.ht
    let (sym, br) ← decodeSymbol s.source s.br t
    .ok { s with r0 := sym.setWidth 64, br := br }

/-- `HUF.RUN` (43_huffman.md R251). -/
def execHufRun (s : State) : Host.Outcome State Fault Refusal :=
  command s do
    let (codes, br) ← huffmanRun 0x46 s.params s.source s.ht s.br s.a0.toNat
    .ok { s with codes := codes, br := br }

end Sys2Proof.Machine
end

