-- ==== Sys2Proof/Machine/MaskDecoder.lean ====
section
/-!
DEFINITION. The mask decoders (42_mask_decoders.md R210 to R215). Each body answers the frozen mask
and the moved cursor; the commands and BAND.MASK (46_band_decode.md R355) share the bodies. `op` is the
opcode of the command the host wrote, the argument of an `IllegalOperand` (60_exceptions.md R432).
-/

namespace Sys2Proof.Machine

/-- The body of MASK.ABSENT (42_mask_decoders.md R211). -/
def maskAbsentBody (p : Params) (n : Nat) : Except Stop BitMask := do
  ensure (p.fitsOut n = true) (.raise .capacityExceeded)
  .ok { bits := List.replicate n true, building := false }

/-- The body of MASK.RAW (42_mask_decoders.md R212). -/
def maskRawBody (op : BitVec 8) (p : Params) (src : Source) (br : BitReader) (n : Nat) :
    Except Stop (BitMask × BitReader) := do
  ensure (p.fitsOut n = true) (.raise .capacityExceeded)
  ensure (br.aligned = true) (.raise (.illegalOperand op))
  ensure (8 * ceil8 n ≤ br.rem) (.raise .truncated)
  let bits ← src.nextBits br n .msb
  .ok ({ bits := bits, building := false }, br.advance (8 * ceil8 n))

/-- The loop of MASK.RLE (42_mask_decoders.md R213) with `left = n - cum` pixels to go: the mask bits
still to come. Each pair takes at least one pixel, so `fuel = n` rounds are enough (R214). A pair past
`SRC_LEN` is missing like one past the window, with this rule's error (20_memory.md R71; log entry 6).
DESIGN CHOICE (log entry 9): a window that ends before the pairs do is `MaskLengthMismatch` (R213, R215,
60_exceptions.md R433) on the empty reset window as well, where 70_reset_and_hazards.md R473 says
`Truncated`. -/
def rleRuns (op : BitVec 8) (src : Source) :
    (fuel left : Nat) → BitReader → Except Stop (List Bool × BitReader)
  | 0, _, br => .ok ([], br)
  | fuel + 1, left, br =>
    if left = 0 then .ok ([], br)
    else do
      ensure (40 ≤ br.rem ∧ br.cur + 5 ≤ src.len) (.raise .maskLengthMismatch)
      let (v, br) ← src.readBytesLE br 1 op
      let (r, br) ← src.readBytesLE br 4 op
      ensure (v ≤ 1) (.raise (.invalidField 12))
      ensure (1 ≤ r) (.raise .maskLengthMismatch)
      ensure (r ≤ left) (.raise .maskLengthMismatch)
      let (rest, br) ← rleRuns op src fuel (left - r) br
      .ok (List.replicate r (v == 1) ++ rest, br)

/-- The body of MASK.RLE (42_mask_decoders.md R213). -/
def maskRleBody (op : BitVec 8) (p : Params) (src : Source) (br : BitReader) (n : Nat) :
    Except Stop (BitMask × BitReader) := do
  ensure (p.fitsOut n = true) (.raise .capacityExceeded)
  ensure (br.aligned = true) (.raise (.illegalOperand op))
  let (bits, br) ← rleRuns op src n n br
  .ok ({ bits := bits, building := false }, br)

/-- `MASK.ABSENT s` (42_mask_decoders.md R211). -/
def execMaskAbsent (sl : Slot) (s : State) : Host.Outcome State Fault Refusal :=
  command s do
    let m ← maskAbsentBody s.params s.a0.toNat
    .ok (s.setMask sl m)

/-- `MASK.RAW s` (42_mask_decoders.md R212). -/
def execMaskRaw (sl : Slot) (s : State) : Host.Outcome State Fault Refusal :=
  command s do
    let (m, br) ← maskRawBody 0x31 s.params s.source s.br s.a0.toNat
    .ok { s.setMask sl m with br := br }

/-- `MASK.RLE s` (42_mask_decoders.md R213). -/
def execMaskRle (sl : Slot) (s : State) : Host.Outcome State Fault Refusal :=
  command s do
    let (m, br) ← maskRleBody 0x32 s.params s.source s.br s.a0.toNat
    .ok { s.setMask sl m with br := br }

end Sys2Proof.Machine
end

