-- ==== Sys2Proof/Machine/Band.lean ====
section
/-!
DEFINITION. Band decode, dequantization, assembly and commit (46_band_decode.md R350 to R374). Each
rule is run by its own command and by DECODE (47_host_commands.md R404); `op` is the opcode of the
command the host wrote, the argument of an `IllegalCommand` or `IllegalOperand` (60_exceptions.md R432).
-/

namespace Sys2Proof.Machine

/-! ### Shared parts -/

/-- The header, or the sequencing error of the command `op` (46_band_decode.md R351). -/
def headerOf (op : BitVec 8) (s : State) : Except Stop Header :=
  match s.orc.hdr with
  | some h => .ok h
  | none => .error (.raise (.illegalCommand op))

/-- `h.desc[b]`. A header without that entry holds no value there (45_blob_header.md R321; log entry
14). -/
def descriptorOf (h : Header) (b : Nat) : Except Stop Descriptor :=
  match h.desc[b]? with
  | some d => .ok d
  | none => .error (.fault .descriptorNoValue)

/-- `mask_mode`: 0, 1 or 2, else `InvalidField(10)` (30_encoding.md R114, 46_band_decode.md R352). -/
def maskModeOf : Nat → Except Stop MaskMode
  | 0 => .ok .absent
  | 1 => .ok .raw
  | 2 => .ok .rle
  | _ => .error (.fail (.invalidField 10))

/-- The 8-bit kinds, the only ones Huffman mode admits (10_state.md R45). -/
def Kind.isByte : Kind → Bool
  | .i8 | .u8 => true
  | .i16 | .u16 | .i32 | .u32 | .f32 | .f64 => false

/-- The entropy checks of 46_band_decode.md R353, in its order. -/
def entropyModeOf (kind : Kind) : Nat → Except Stop EntropyMode
  | 0 => .ok .bitStuffed
  | 1 => if kind.isByte then .ok .huffman else .error (.fail (.invalidField 11))
  | 2 => .error (.fail (.unsupportedFeature 1))
  | _ => .error (.fail (.invalidField 11))

/-- `sectionChecks(off, len)` (46_band_decode.md R352, R353): the two selectors of a legal section. -/
def sectionChecks (src : Source) (kind : Kind) (off len : Nat) :
    Except Stop (MaskMode × EntropyMode) := do
  ensure (off + len ≤ src.len) (.fail .truncated)
  ensure (2 ≤ len) (.fail .truncated)
  let mm ← orFail (src.uint off 1)
  let mask ← maskModeOf mm
  let em ← orFail (src.uint (off + 1) 1)
  let entropy ← entropyModeOf kind em
  .ok (mask, entropy)

/-! ### BAND.BEGIN, BAND.MASK, BAND.DATA -/

/-- `bandBegin(b)` (46_band_decode.md R351). -/
def bandBeginRule (op : BitVec 8) (b : Nat) (s : State) : Except Stop State := do
  let h ← headerOf op s
  ensure ((s.orc.phase = .start ∨ s.orc.phase = .done) ∧ b = s.orc.bandsDone ∧ b < h.nBands.toNat)
    (.raise (.illegalCommand op))
  sourceFits op s
  ensure (s.params.fitsOut (h.pixels * h.nBands.toNat) = true) (.fail .capacityExceeded)
  let d ← descriptorOf h b
  let (mask, entropy) ← sectionChecks s.source h.kind d.offset.toNat d.length.toNat
  .ok { s with
    stage := if b = 0 then [] else s.stage
    br := { lo := d.offset.toNat + 2, hi := d.offset.toNat + d.length.toNat, pos := 0, order := .msb }
    orc := { s.orc with band := b, maskMode := mask, entropyMode := entropy,
                        phase := .headerValidated } }

/-- The body BAND.MASK selects (46_band_decode.md R355): the mask and the cursor. -/
def bandMaskBody (op : BitVec 8) (s : State) (n : Nat) : Except Stop (BitMask × BitReader) :=
  match s.orc.maskMode with
  | .absent => do
    let m ← maskAbsentBody s.params n
    .ok (m, s.br)
  | .raw => maskRawBody op s.params s.source s.br n
  | .rle => maskRleBody op s.params s.source s.br n

/-- `bandMask()` (46_band_decode.md R355, R356). -/
def bandMaskRule (op : BitVec 8) (s : State) : Except Stop State := do
  ensure (s.orc.phase = .headerValidated) (.raise (.illegalCommand op))
  let h ← headerOf op s
  let (m, br) ← orFail (bandMaskBody op s h.pixels)
  ensure (popcount m.bits = h.valid) (.fail .maskCountMismatch)
  .ok { s with ms0 := m, br := br, orc := { s.orc with phase := .maskDecoded } }

/-- The bit-stuffed payload (46_band_decode.md R359). -/
def bandStuffedBody (op : BitVec 8) (s : State) (count : Nat) : Except Stop State := do
  let (codes, last, br) ← stuffedStream op s.params s.source s.br count
  .ok { s with codes := codes, bs := stufferAfter s.bs last, br := br }

/-- The Huffman payload (46_band_decode.md R358). -/
def bandHuffmanBody (op : BitVec 8) (s : State) (count : Nat) : Except Stop State := do
  let (lens, br) ← loadLengths op s.source s.br
  let t ← buildTables lens
  let (_, br) ← segmentWindow op s.source br
  let (codes, br) ← huffmanRun op s.params s.source { lens := lens, tables := some t } br count
  .ok { s with codes := codes, ht := { lens := lens, tables := some t }, br := br }

/-- `bandData()` (46_band_decode.md R357). -/
def bandDataRule (op : BitVec 8) (s : State) : Except Stop State := do
  ensure (s.orc.phase = .maskDecoded) (.raise (.illegalCommand op))
  let h ← headerOf op s
  let t ← orFail
    (match s.orc.entropyMode with
     | .bitStuffed => bandStuffedBody op s h.valid
     | .huffman => bandHuffmanBody op s h.valid)
  .ok (t.withPhase .dataDecoded)

/-! ### Dequantization -/

/-- The quantization step (46_band_decode.md R360). -/
def quantStep (maxZErr : BitVec 64) : FloatVal :=
  if (floatOfBits maxZErr).isZero then .fin false 1 0
  else floatMul (.fin false 2 0) (floatOfBits maxZErr)

/-- The dequantized value before it takes the kind's form (46_band_decode.md R361). -/
def dequantValue (maxZErr zMin : BitVec 64) (code : Nat) : FloatVal :=
  floatAdd (floatOfBits zMin) (floatMul (toF64 code) (quantStep maxZErr))

/-- A finite value as an element of the kind (46_band_decode.md R361 to R363). -/
def elementOf (kind : Kind) (neg : Bool) (m : Nat) (e : Int) : Except Stop Element :=
  match kind with
  | .f64 => .ok (.f64 (BitVec.ofNat 64 (floatPattern binary64 (.fin neg m e))))
  | .f32 =>
    match rne32 (.fin neg m e) with
    | .fin neg' m' e' => .ok (.f32 (BitVec.ofNat 32 (floatPattern binary32 (.fin neg' m' e'))))
    | .inf _ | .nan => .error (.raise .arithmeticOverflow)
  | .i8 | .u8 | .i16 | .u16 | .i32 | .u32 => do
    let r := roundHalfAway neg m e
    ensure (kind.minInt ≤ r ∧ r ≤ kind.maxInt) (.raise .arithmeticOverflow)
    .ok (.int r)

/-- `deq(code)` (46_band_decode.md R361). -/
def dequantize (h : Header) (zMin : BitVec 64) (code : Nat) : Except Stop Element :=
  match dequantValue h.maxZErr zMin code with
  | .fin neg m e => elementOf h.kind neg m e
  | .inf _ | .nan => .error (.raise .arithmeticOverflow)

/-- The loop of BAND.DEQ (46_band_decode.md R364, R365): a code for each valid pixel in order, the zero
value for the others. A mask and codes that do not match in number are out of sequence. -/
def dequantizeBand (op : BitVec 8) (h : Header) (zMin : BitVec 64) :
    List Bool → List Code → Except Stop (List Element)
  | [], [] => .ok []
  | [], _ :: _ => .error (.raise (.illegalCommand op))
  | false :: bits, codes => do
    let rest ← dequantizeBand op h zMin bits codes
    .ok (h.kind.zero :: rest)
  | true :: _, [] => .error (.raise (.illegalCommand op))
  | true :: bits, c :: codes => do
    let e ← dequantize h zMin c.toNat
    let rest ← dequantizeBand op h zMin bits codes
    .ok (e :: rest)

/-- `STAGE[at_ .. at_ + |t| - 1] <- t`; positions before `at_` that hold nothing keep no value
(10_state.md R52; log entry 13). -/
def writeStage (stage : List (Option Element)) (at_ : Nat) (t : List Element) :
    List (Option Element) :=
  stage.take at_ ++ List.replicate (at_ - stage.length) none ++ t.map some ++
    stage.drop (at_ + t.length)

/-- `bandDeq()` (46_band_decode.md R364). -/
def bandDeqRule (op : BitVec 8) (s : State) : Except Stop State := do
  ensure (s.orc.phase = .dataDecoded) (.raise (.illegalCommand op))
  let h ← headerOf op s
  ensure (s.ms0.bits.length = h.pixels ∧ s.ms0.building = false ∧
      s.codes.length = popcount s.ms0.bits) (.raise (.illegalCommand op))
  let d ← descriptorOf h s.orc.band
  let t ← orFail (dequantizeBand op h d.zMin s.ms0.bits s.codes)
  .ok { s with stage := writeStage s.stage (s.orc.band * h.pixels) t,
               orc := { s.orc with phase := .dequantized } }

/-! ### BAND.END and COMMIT -/

/-- `bandEnd()` (46_band_decode.md R366). -/
def bandEndRule (op : BitVec 8) (s : State) : Except Stop State := do
  ensure (s.orc.phase = .dequantized) (.raise (.illegalCommand op))
  let h ← headerOf op s
  ensure (s.ms0.bits.length = h.pixels ∧ s.ms0.building = false ∧
      (s.orc.band = 0 ∨ (s.ms1.bits.length = h.pixels ∧ s.ms1.building = false)))
    (.raise (.illegalCommand op))
  .ok { s with
    ms1 := if s.orc.band = 0 then { bits := s.ms0.bits, building := false }
           else { s.ms1 with bits := andBits s.ms1.bits s.ms0.bits }
    ht := { s.ht with tables := none }
    orc := { s.orc with bandsDone := s.orc.bandsDone + 1, phase := .done } }

/-- `STAGE[0 .. n-1]`, every element of which must hold a value (10_state.md R57). -/
def stagedElements (stage : List (Option Element)) (n : Nat) : Except Stop (List Element) :=
  match (stage.take n).mapM id with
  | some es => if es.length = n then .ok es else .error (.fault .stageNoValue)
  | none => .error (.fault .stageNoValue)

/-- `commit()` (46_band_decode.md R372). -/
def commitRule (op : BitVec 8) (s : State) : Except Stop State := do
  let h ← headerOf op s
  ensure (s.orc.phase = .done ∧ s.orc.bandsDone = h.nBands.toNat ∧
      s.ms1.bits.length = h.pixels ∧ s.ms1.building = false) (.raise (.illegalCommand op))
  ensure (popcount s.ms1.bits = h.valid) (.fail .maskCountMismatch)
  let elems ← stagedElements s.stage (h.nBands.toNat * h.pixels)
  .ok { s with
    out := some { kind := h.kind, elems := elems }
    outMask := if h.valid = h.pixels then none else some s.ms1.bits
    status := { s.status with maskPresent := decide (h.valid ≠ h.pixels), outValid := true } }

/-! ### Commands -/

/-- `BAND.BEGIN` (46_band_decode.md R351). -/
def execBandBegin (s : State) : Host.Outcome State Fault Refusal :=
  command s (bandBeginRule 0x61 s.a0.toNat s)

/-- `BAND.MASK` (46_band_decode.md R355). -/
def execBandMask (s : State) : Host.Outcome State Fault Refusal := command s (bandMaskRule 0x62 s)

/-- `BAND.DATA` (46_band_decode.md R357). -/
def execBandData (s : State) : Host.Outcome State Fault Refusal := command s (bandDataRule 0x63 s)

/-- `BAND.DEQ` (46_band_decode.md R364). -/
def execBandDeq (s : State) : Host.Outcome State Fault Refusal := command s (bandDeqRule 0x64 s)

/-- `BAND.END` (46_band_decode.md R366). -/
def execBandEnd (s : State) : Host.Outcome State Fault Refusal := command s (bandEndRule 0x65 s)

/-- `DEQ.ONE` (46_band_decode.md R367). -/
def execDeqOne (s : State) : Host.Outcome State Fault Refusal :=
  command s do
    let h ← headerOf 0x66 s
    ensure (s.a0.toNat < 2 ^ 32) (.raise (.illegalOperand 0x66))
    let d ← descriptorOf h s.orc.band
    let e ← dequantize h d.zMin s.a0.toNat
    .ok { s with r0 := BitVec.ofNat 64 (e.image h.kind) }

/-- `COMMIT` (46_band_decode.md R372). -/
def execCommit (s : State) : Host.Outcome State Fault Refusal := command s (commitRule 0x67 s)

end Sys2Proof.Machine
end

