-- ==== Sys2Proof/Machine/HostCommand.lean ====
section
/-!
DEFINITION. The host commands NOP, SRST and DECODE (47_host_commands.md R401, R402, R404).
-/

namespace Sys2Proof.Machine

/-- `NOP` (47_host_commands.md R401). -/
def execNop (s : State) : Host.Outcome State Fault Refusal := command s (.ok s)

/-- Every piece of the machine's state at its reset value but `IN` (47_host_commands.md R402). The
parameters are no state, and `port` and `reply` are the host's side of the model (log entry 17). -/
def State.softReset (s : State) : State :=
  { State.reset with inMem := s.inMem, params := s.params, port := s.port, reply := s.reply }

/-- `SRST` (47_host_commands.md R402). -/
def execSrst (s : State) : Host.Outcome State Fault Refusal := command s (.ok s.softReset)

/-- One band of DECODE: `bandBegin(b)` to `bandEnd()` (47_host_commands.md R404). -/
def runBand (b : Nat) (s : State) : Run :=
  ((((runAt s (bandBeginRule 0x02 b s)).andThen fun t =>
    runAt t (bandMaskRule 0x02 t)).andThen fun t =>
    runAt t (bandDataRule 0x02 t)).andThen fun t =>
    runAt t (bandDeqRule 0x02 t)).andThen fun t =>
    runAt t (bandEndRule 0x02 t)

/-- The bands `b, b + 1, …` of DECODE, `n` of them, in order (47_host_commands.md R404, 10_state.md
R44). -/
def runBands : (n b : Nat) → State → Run
  | 0, _, s => .done s
  | n + 1, b, s => (runBand b s).andThen fun t => runBands n (b + 1) t

/-- The number of bands of the parsed header. -/
def State.bandCount (s : State) : Nat :=
  match s.orc.hdr with
  | some h => h.nBands.toNat
  | none => 0

/-- DECODE's steps up to COMMIT (47_host_commands.md R404). -/
def runDecode (s : State) : Run :=
  ((runHeader 0x02 s).andThen fun t =>
    runBands t.bandCount 0 t).andThen fun t =>
    runAt t (commitRule 0x02 t)

/-- The flags a failed DECODE clears (47_host_commands.md R404). -/
def State.clearResultFlags (s : State) : State :=
  { s with status := { s.status with infoValid := false, outValid := false, maskPresent := false } }

/-- `DECODE` (47_host_commands.md R404). -/
def execDecode (s : State) : Host.Outcome State Fault Refusal :=
  (match runDecode s with
   | .done t => .done t.publishInfo
   | .stopped e t => .stopped e t.clearResultFlags
   | .fault f => .fault f : Run).complete

end Sys2Proof.Machine
end

