-- ==== Sys2Proof/Machine/Dispatch.lean ====
section
/-!
DEFINITION. The dispatch of a decoded command to its meaning (47_host_commands.md R400, "run op's rule").
-/

namespace Sys2Proof.Machine

/-- The meaning of each command, in the order of spec/opcode_table.json. -/
def exec (i : Instr) (s : State) : Host.Outcome State Fault Refusal :=
  match i with
  | .nop => Sys2Proof.Machine.execNop s
  | .info => Sys2Proof.Machine.execInfo s
  | .decode => Sys2Proof.Machine.execDecode s
  | .srst => Sys2Proof.Machine.execSrst s
  | .brInit ord => Sys2Proof.Machine.execBrInit ord s
  | .brRead n => Sys2Proof.Machine.execBrRead n s
  | .brPeek n => Sys2Proof.Machine.execBrPeek n s
  | .brSkip => Sys2Proof.Machine.execBrSkip s
  | .brAlign => Sys2Proof.Machine.execBrAlign s
  | .brBytes k => Sys2Proof.Machine.execBrBytes k s
  | .brPos => Sys2Proof.Machine.execBrPos s
  | .bmNew sl v => Sys2Proof.Machine.execBmNew sl v s
  | .bmSet sl v => Sys2Proof.Machine.execBmSet sl v s
  | .bmFill sl v => Sys2Proof.Machine.execBmFill sl v s
  | .bmFreeze sl => Sys2Proof.Machine.execBmFreeze sl s
  | .bmGet sl => Sys2Proof.Machine.execBmGet sl s
  | .bmPopcnt sl => Sys2Proof.Machine.execBmPopcnt sl s
  | .bmNext sl => Sys2Proof.Machine.execBmNext sl s
  | .bmAnd => Sys2Proof.Machine.execBmAnd s
  | .bmLen sl => Sys2Proof.Machine.execBmLen sl s
  | .maskAbsent sl => Sys2Proof.Machine.execMaskAbsent sl s
  | .maskRaw sl => Sys2Proof.Machine.execMaskRaw sl s
  | .maskRle sl => Sys2Proof.Machine.execMaskRle sl s
  | .hufLoadlen => Sys2Proof.Machine.execHufLoadlen s
  | .hufBuild => Sys2Proof.Machine.execHufBuild s
  | .hufSeg => Sys2Proof.Machine.execHufSeg s
  | .hufDec => Sys2Proof.Machine.execHufDec s
  | .hufDecf => Sys2Proof.Machine.execHufDecf s
  | .hufDecs => Sys2Proof.Machine.execHufDecs s
  | .hufRun => Sys2Proof.Machine.execHufRun s
  | .bsHdr => Sys2Proof.Machine.execBsHdr s
  | .bsUnpack => Sys2Proof.Machine.execBsUnpack s
  | .bsStream => Sys2Proof.Machine.execBsStream s
  | .codesGet => Sys2Proof.Machine.execCodesGet s
  | .bandBegin => Sys2Proof.Machine.execBandBegin s
  | .bandMask => Sys2Proof.Machine.execBandMask s
  | .bandData => Sys2Proof.Machine.execBandData s
  | .bandDeq => Sys2Proof.Machine.execBandDeq s
  | .bandEnd => Sys2Proof.Machine.execBandEnd s
  | .deqOne => Sys2Proof.Machine.execDeqOne s
  | .commit => Sys2Proof.Machine.execCommit s

end Sys2Proof.Machine
end

