-- ==== Sys2Proof/Machine/HostPort.lean ====
section
/-!
DEFINITION. The host's side: register block accesses (10_state.md R32 to R43), memory accesses
(20_memory.md R70 to R74, 70_reset_and_hazards.md R475) and the command protocol (47_host_commands.md
R400). One access is one step (log entry 1).
-/

namespace Sys2Proof.Machine

/-- A write of `w` to `CMD` (47_host_commands.md R400): a rejected word posts its error and has no other
effect (30_encoding.md R104, R105), any other runs its command. -/
def runCommand (w : CmdWord) (s : State) : Host.Outcome State Fault Refusal :=
  match decode w with
  | .ok i => exec i s
  | .error (.illegalCommand op) => .next (s.finish (some (.illegalCommand op)))
  | .error (.illegalOperand op) => .next (s.finish (some (.illegalOperand op)))

/-- The value a host read of a register returns (10_state.md R32); reserved offsets read 0 (R43). -/
def State.readReg (s : State) (offset : Nat) : Reg :=
  match offset with
  | 0x00 => Config.idValue
  | 0x08 => 0
  | 0x10 => s.statusWord
  | 0x18 => s.errWord
  | 0x20 => s.srcLen
  | 0x28 => s.a0
  | 0x30 => s.a1
  | 0x38 => s.a2
  | 0x40 => s.a3
  | 0x48 => s.r0
  | 0x50 => s.r1
  | 0x58 => s.info.version
  | 0x60 => s.info.rows
  | 0x68 => s.info.cols
  | 0x70 => s.info.bands
  | 0x78 => s.info.dtype
  | 0x80 => s.info.nValid
  | 0x88 => s.info.maxZErr
  | 0x90 => Config.configValue
  | _ => 0

/-- A host write of a register: `CMD` runs a command, the read-write registers take the value, every
other write is ignored (10_state.md R32, R34, R43). -/
def writeReg (offset : Nat) (v : Reg) (s : State) : Host.Outcome State Fault Refusal :=
  match offset with
  | 0x08 => runCommand (v.extractLsb' 0 32) s
  | 0x20 => .next { s with srcLen := v }
  | 0x28 => .next { s with a0 := v }
  | 0x30 => .next { s with a1 := v }
  | 0x38 => .next { s with a2 := v }
  | 0x40 => .next { s with a3 := v }
  | _ => .next s

/-- Host accesses to the register block are 8 bytes wide at 8-byte-aligned offsets (10_state.md R43). -/
def registerShape (offset width : Nat) : Bool := width == 8 && offset % 8 == 0

/-- A register access: another shape is refused (10_state.md R43), an offset past the 256-byte block
names no register (R32; log entry 15). -/
def registerAccess (offset width : Nat) (act : Host.Outcome State Fault Refusal) :
    Host.Outcome State Fault Refusal :=
  if registerShape offset width then
    if offset < 256 then act else .fault (.registerOutside offset)
  else .refused .registerAccessShape

/-- A host write of a byte of `IN` (20_memory.md R70). -/
def hostWriteIn (a : Nat) (b : Byte) (s : State) : Host.Outcome State Fault Refusal :=
  if a < s.params.inSize then .next { s with inMem := s.inMem.write a b } else .fault (.inOutside a)

/-- A host read of a byte of `IN` (20_memory.md R70, 10_state.md R57). -/
def hostReadIn (a : Nat) (s : State) : Host.Outcome State Fault Refusal :=
  if a < s.params.inSize then
    match s.inMem.read a with
    | some b => .next { s with reply := .byte b }
    | none => .fault (.inNoValue a)
  else .fault (.inOutside a)

/-- A host read of a byte of `OUT`'s image (20_memory.md R73, 70_reset_and_hazards.md R475). -/
def hostReadOut (a : Nat) (s : State) : Host.Outcome State Fault Refusal :=
  match s.status.outValid, s.out with
  | true, some buf =>
    match buf.elems[a / buf.kind.bytes]? with
    | some e => .next { s with reply := .byte (e.byteAt buf.kind (a % buf.kind.bytes)) }
    | none => .fault (.outOutside a)
  | true, none => .fault .outNotValid
  | false, _ => .fault .outNotValid

/-- A host read of a bit of `OUTMASK` (20_memory.md R74, 70_reset_and_hazards.md R475). -/
def hostReadOutMask (i : Nat) (s : State) : Host.Outcome State Fault Refusal :=
  match s.status.outValid && s.status.maskPresent, s.outMask with
  | true, some bits =>
    match bits[i]? with
    | some b => .next { s with reply := .bit b }
    | none => .fault (.outMaskOutside i)
  | true, none => .fault .outMaskNotPresent
  | false, _ => .fault .outMaskNotPresent

/-- The machine after a platform reset (70_reset_and_hazards.md R470); the parameters and the host's
side of the model stay (log entry 16). -/
def State.platformReset (s : State) : State :=
  { State.reset with params := s.params, port := s.port, reply := s.reply }

/-- One access of the host. -/
def hostAccess (a : HostAccess) (s : State) : Host.Outcome State Fault Refusal :=
  match a with
  | .regWrite offset width v => registerAccess offset width (writeReg offset v s)
  | .regRead offset width =>
    registerAccess offset width (.next { s with reply := .reg (s.readReg offset) })
  | .inWrite a b => hostWriteIn a b s
  | .inRead a => hostReadIn a s
  | .outRead a => hostReadOut a s
  | .outMaskRead i => hostReadOutMask i s
  | .platformReset => .next s.platformReset

/-- The next host access of the port, or an idle engine (70_reset_and_hazards.md R471; log entry 1). -/
def serve (s : State) : Host.Outcome State Fault Refusal :=
  match s.port with
  | [] => .next s
  | a :: rest => hostAccess a { s with port := rest }

/-- The host access that writes the table row's `nbits` bits `w`, higher bits 0, to `CMD`
(10_state.md R34). -/
def commandAccess (nbits w : Nat) : HostAccess :=
  .regWrite 0x08 8 ((BitVec.ofNat 32 (w % 2 ^ nbits)).setWidth 64)

end Sys2Proof.Machine
end

