-- ==== Sys2Proof/Machine/Step.lean ====
section
/-!
DEFINITION. One step of the machine: the next host access, or an idle engine.
-/

namespace Sys2Proof.Machine

/-- One step (10_state.md R30; log entry 1). -/
def step : State → Host.Outcome State Fault Refusal := fun s => serve s

/-- `s` with a host write of the word to `CMD` as its next access. -/
def State.withFetchWord (s : State) (nbits w : Nat) : State :=
  { s with port := commandAccess nbits w :: s.port }

end Sys2Proof.Machine
end

