-- ==== Sys2Proof/Safety.lean ====
section
/-!
DEFINITION. The terms the claims use: when a run is safe (the invariant `State.Inv`), what it means that
`IN` holds some bytes, the blob layout of spec/30_encoding.md written out as bytes, independently of the
parsers, and the dequantized value over the rationals, independently of the model's arithmetic.
-/

namespace Sys2Proof.Machine

/-! ### Outcomes -/

/-- A command that succeeds and leaves `t`: `ERR` is 0 (47_host_commands.md R400). -/
def completesWith (t : State) : Host.Outcome State Fault Refusal := .next (t.finish none)

/-- A command that ends with the error `e` and has left `t` (60_exceptions.md R430). -/
def failsWith (e : EngineError) (t : State) : Host.Outcome State Fault Refusal :=
  .next (t.finish (some e))

/-! ### The opcode map as data (30_encoding.md R101, R103) -/

/-- The six immediate layouts of 30_encoding.md R101. -/
inductive Format where
  | f0 | fo1 | fn6 | fk4 | fs1 | fsv2
deriving DecidableEq, Repr

/-- An immediate whose must-be-0 bits are 0 and whose fields are legal (30_encoding.md R101). -/
def Format.legal : Format → Nat → Bool
  | .f0, imm => imm == 0
  | .fo1, imm => decide (imm < 2)
  | .fn6, imm => decide (imm ≤ 32)
  | .fk4, imm => imm == 1 || imm == 2 || imm == 4 || imm == 8
  | .fs1, imm => decide (imm < 2)
  | .fsv2, imm => decide (imm < 4)

/-- The opcode map of 30_encoding.md R103: every opcode with its format. -/
def opcodeMap : List (Nat × Format) :=
  [(0x00, .f0), (0x01, .f0), (0x02, .f0), (0x0F, .f0), (0x10, .fo1), (0x11, .fn6), (0x12, .fn6),
   (0x13, .f0), (0x14, .f0), (0x15, .fk4), (0x16, .f0)] ++
  [(0x20, .fsv2), (0x21, .fsv2), (0x22, .fsv2), (0x23, .fs1), (0x24, .fs1), (0x25, .fs1),
   (0x26, .fs1), (0x27, .f0), (0x28, .fs1), (0x30, .fs1), (0x31, .fs1), (0x32, .fs1)] ++
  [(0x40, .f0), (0x41, .f0), (0x42, .f0), (0x43, .f0), (0x44, .f0), (0x45, .f0), (0x46, .f0),
   (0x50, .f0), (0x51, .f0), (0x52, .f0), (0x53, .f0)] ++
  [(0x61, .f0), (0x62, .f0), (0x63, .f0), (0x64, .f0), (0x65, .f0), (0x66, .f0), (0x67, .f0)]

/-- The error codes of 60_exceptions.md R431 that an error posts. -/
def errorCodes : List (BitVec 8) :=
  [0x01, 0x02, 0x03, 0x04, 0x05, 0x06, 0x07, 0x08, 0x09, 0x0A, 0x80, 0x81, 0x82]

/-! ### What `IN` holds -/

/-- The blob holds exactly these bytes from `a` on, all below `SRC_LEN`. -/
abbrev Source.Holds (src : Source) (a : Nat) (bytes : List Byte) : Prop :=
  ∀ j, j < bytes.length → a + j < src.len ∧ src.mem.read (a + j) = bytes[j]?

/-- Every byte that the `n` stream bits from the cursor on touch can be read. -/
abbrev Source.BitsReadable (src : Source) (br : BitReader) (n : Nat) : Prop :=
  ∀ j, j < n → br.lo + (br.pos + j) / 8 < src.len ∧
    (src.mem.read (br.lo + (br.pos + j) / 8)).isSome = true

/-- Stream bit `k` of the window at `lo` as a number, by the formulas of 40_bitreader.md R151 (0 where
`IN` holds no value). -/
def Source.streamBit (src : Source) (lo k : Nat) (ord : BitOrder) : Nat :=
  match src.mem.read (lo + k / 8) with
  | some b =>
    match ord with
    | .msb => b.toNat / 2 ^ (7 - k % 8) % 2
    | .lsb => b.toNat / 2 ^ (k % 8) % 2
  | none => 0

/-- The value of the next `n` stream bits, by the sums of 40_bitreader.md R152 and R153. -/
def Source.streamValue (src : Source) (br : BitReader) (n : Nat) (ord : BitOrder) : Nat :=
  match ord with
  | .msb => ∑ j ∈ Finset.range n, src.streamBit br.lo (br.pos + j) .msb * 2 ^ (n - 1 - j)
  | .lsb => ∑ j ∈ Finset.range n, src.streamBit br.lo (br.pos + j) .lsb * 2 ^ j

/-- The stream bits from the cursor on are exactly `bits`, in `MSB` order, all inside the window and the
blob. -/
abbrev Source.BitsAre (src : Source) (br : BitReader) (bits : List Bool) : Prop :=
  bits.length ≤ br.rem ∧ src.BitsReadable br bits.length ∧
    ∀ j, j < bits.length → src.streamBit br.lo (br.pos + j) .msb = (bits.getD j false).toNat

/-- The `n` low bits of a number, the most significant first. -/
def msbBits (n v : Nat) : List Bool := (List.range n).map fun j => v.testBit (n - 1 - j)

/-- A number in `n` little-endian bytes (20_memory.md R76). -/
def leBytes : (n v : Nat) → List Byte
  | 0, _ => []
  | n + 1, v => BitVec.ofNat 8 v :: leBytes n (v / 256)

/-! ### The blob layout as bytes (30_encoding.md part 2) -/

/-- A descriptor entry (30_encoding.md R112). -/
def Descriptor.layout (d : Descriptor) : List Byte :=
  leBytes 4 d.offset.toNat ++ leBytes 4 d.length.toNat ++ leBytes 8 d.zMin.toNat ++
    leBytes 8 d.zMax.toNat

/-- The header and its descriptor table (30_encoding.md R110). -/
def Header.layout (h : Header) : List Byte :=
  Config.magic ++ leBytes 4 h.version.toNat ++ leBytes 4 h.nRows.toNat ++ leBytes 4 h.nCols.toNat ++
    leBytes 4 h.nBands.toNat ++ leBytes 4 h.kind.code ++ leBytes 8 h.nValid.toNat ++
    leBytes 8 h.maxZErr.toNat ++ h.desc.flatMap Descriptor.layout

/-- A descriptor that the header parser accepts (45_blob_header.md R320). -/
def Descriptor.legal (size : Nat) (d : Descriptor) : Bool :=
  decide (size ≤ d.offset.toNat) && (floatOfBits d.zMin).isFinite &&
    (floatOfBits d.zMax).finiteGe (floatOfBits d.zMin)

/-- A header record that the header parser can return (45_blob_header.md R311, R313, R316 to R321). -/
def Header.legal (h : Header) : Bool :=
  decide (2 ≤ h.version.toInt) && decide (h.version.toInt ≤ 6) && decide (1 ≤ h.nRows.toNat) &&
    decide (1 ≤ h.nCols.toNat) && decide (1 ≤ h.nBands.toNat) &&
    decide (h.nValid.toNat ≤ h.nRows.toNat * h.nCols.toNat) &&
    (floatOfBits h.maxZErr).isFiniteNonneg && h.size == 42 + 24 * h.nBands.toNat &&
    h.desc.length == h.nBands.toNat && h.desc.all (Descriptor.legal h.size)

/-- Header fields as they may stand in `IN`, legal or not (30_encoding.md R110, R112). -/
structure RawHeader where
  magic : List Byte
  version : BitVec 32
  nRows : BitVec 32
  nCols : BitVec 32
  nBands : BitVec 32
  dataType : BitVec 32
  nValid : BitVec 64
  maxZErr : BitVec 64
  desc : List Descriptor
deriving DecidableEq, Repr

/-- The bytes of raw header fields (30_encoding.md R110). -/
def RawHeader.layout (r : RawHeader) : List Byte :=
  r.magic ++ leBytes 4 r.version.toNat ++ leBytes 4 r.nRows.toNat ++ leBytes 4 r.nCols.toNat ++
    leBytes 4 r.nBands.toNat ++ leBytes 4 r.dataType.toNat ++ leBytes 8 r.nValid.toNat ++
    leBytes 8 r.maxZErr.toNat ++ r.desc.flatMap Descriptor.layout

/-- The first error of step 8 of 45_blob_header.md R311. -/
def descriptorsError (size : Nat) : List Descriptor → Option EngineError
  | [] => none
  | d :: rest =>
    if d.offset.toNat < size then some (.invalidField 7)
    else if (floatOfBits d.zMin).isFinite = false then some (.invalidField 8)
    else if (floatOfBits d.zMax).finiteGe (floatOfBits d.zMin) = false then some (.invalidField 9)
    else descriptorsError size rest

/-- The first error of 45_blob_header.md R311 for a blob of `len` bytes. -/
def RawHeader.error (r : RawHeader) (len : Nat) : Option EngineError :=
  if len < 6 then some .truncated
  else if r.magic ≠ Config.magic then some .badMagic
  else if len < 10 then some .truncated
  else if r.version.toInt < 2 ∨ 6 < r.version.toInt then some (.unsupportedVersion r.version)
  else if len < 42 then some .truncated
  else if r.nRows.toNat < 1 then some (.invalidField 1)
  else if r.nCols.toNat < 1 then some (.invalidField 2)
  else if r.nBands.toNat < 1 then some (.invalidField 3)
  else if 7 < r.dataType.toNat then some (.invalidField 4)
  else if r.nRows.toNat * r.nCols.toNat < r.nValid.toNat then some (.invalidField 5)
  else if (floatOfBits r.maxZErr).isFiniteNonneg = false then some (.invalidField 6)
  else if len < 42 + 24 * r.nBands.toNat then some .truncated
  else descriptorsError (42 + 24 * r.nBands.toNat) r.desc

/-- RLE pairs (30_encoding.md R117). -/
def rleLayout (runs : List (Bool × Nat)) : List Byte :=
  runs.flatMap fun r => leBytes 1 r.1.toNat ++ leBytes 4 r.2

/-- The mask that RLE pairs stand for (42_mask_decoders.md R213). -/
def rleMask (runs : List (Bool × Nat)) : List Bool := runs.flatMap fun r => List.replicate r.2 r.1

/-- A block of a bit-stuffed payload (30_encoding.md R119): its width, its codes, and for a block of
width 0 the constant every code equals. -/
structure PackedBlock where
  width : Nat
  const : Code
  codes : List Code
deriving DecidableEq, Repr

/-- A legal block: 1 to `2^32 - 1` codes of at most 32 bits, each fitting the width, all equal to the
constant when the width is 0 (30_encoding.md R119). -/
def PackedBlock.legal (b : PackedBlock) : Bool :=
  decide (b.width ≤ 32) && decide (1 ≤ b.codes.length) && decide (b.codes.length < 2 ^ 32) &&
    b.codes.all fun c =>
      if b.width = 0 then c == b.const else decide (c.toNat < 2 ^ b.width) && b.const == 0

/-- The bits of a block, `MSB` first, before its padding (30_encoding.md R119). -/
def PackedBlock.bits (b : PackedBlock) : List Bool :=
  (leBytes 1 b.width ++ leBytes 4 b.codes.length ++
      (if b.width = 0 then leBytes 4 b.const.toNat else [])).flatMap (fun y => msbBits 8 y.toNat) ++
    b.codes.flatMap fun c => msbBits b.width c.toNat

/-- The bytes a block takes, its padding among them (30_encoding.md R119). -/
def PackedBlock.byteCount (b : PackedBlock) : Nat := ceil8 b.bits.length

/-- The blocks stand one after another from a byte-aligned cursor on, inside the window; the padding
bits may have any value (44_bitstuffer.md R283). -/
def Source.HoldsBlocks (src : Source) : BitReader → List PackedBlock → Prop
  | _, [] => True
  | br, b :: rest => b.legal = true ∧ src.BitsAre br b.bits ∧
      src.HoldsBlocks (br.advance (8 * b.byteCount)) rest

/-- The block state a header of this block leaves (44_bitstuffer.md R281). -/
def PackedBlock.header (b : PackedBlock) : Stuffer :=
  { width := b.width, count := b.codes.length, const := b.const }

/-- The byte of a mask selector (30_encoding.md R114). -/
def MaskMode.code : MaskMode → Nat
  | .absent => 0
  | .raw => 1
  | .rle => 2

/-- The byte of an entropy selector (30_encoding.md R115). -/
def EntropyMode.code : EntropyMode → Nat
  | .bitStuffed => 0
  | .huffman => 1

/-- A mask payload (30_encoding.md R114, R116, R117). -/
inductive MaskPayload where
  | absent
  | raw
  | rle (runs : List (Bool × Nat))
deriving DecidableEq, Repr

/-- The selector of a mask payload (30_encoding.md R114). -/
def MaskPayload.mode : MaskPayload → MaskMode
  | .absent => .absent
  | .raw => .raw
  | .rle _ => .rle

/-- The bits that the payload of an `n`-pixel mask takes. -/
def MaskPayload.size (n : Nat) : MaskPayload → Nat
  | .absent => 0
  | .raw => 8 * ceil8 n
  | .rle runs => 40 * runs.length

/-- The payload at the cursor stands for this mask; each run is of 1 to `2^32 - 1` pixels. -/
def Source.HoldsMask (src : Source) (br : BitReader) (mask : List Bool) : MaskPayload → Prop
  | .absent => mask = List.replicate mask.length true
  | .raw => br.aligned = true ∧ 8 * ceil8 mask.length ≤ br.rem ∧ src.BitsAre br mask
  | .rle runs => br.aligned = true ∧ rleMask runs = mask ∧
      (∀ r ∈ runs, 1 ≤ r.2 ∧ r.2 < 2 ^ 32) ∧ 40 * runs.length ≤ br.rem ∧
      src.Holds br.cur (rleLayout runs)

/-- The bits of a sequence of symbols in a canonical code (30_encoding.md R118). -/
def codeStream (es : List HuffEntry) : List Bool := es.flatMap fun e => msbBits e.len e.code

/-- A data payload (30_encoding.md R115, R118, R119): blocks, or a code-length table, a segment length
and the symbols in the segment. -/
inductive DataPayload where
  | stuffed (blocks : List PackedBlock)
  | huffman (lens : List Byte) (segLen : Nat) (symbols : List HuffEntry)
deriving DecidableEq, Repr

/-- The selector of a data payload (30_encoding.md R115). -/
def DataPayload.mode : DataPayload → EntropyMode
  | .stuffed _ => .bitStuffed
  | .huffman _ _ _ => .huffman

/-- The codes of a data payload, in stream order. -/
def DataPayload.codes : DataPayload → List Code
  | .stuffed blocks => blocks.flatMap PackedBlock.codes
  | .huffman _ _ symbols => symbols.map fun e => e.sym.setWidth 32

/-- The bytes that blocks take. -/
def blockBytes (blocks : List PackedBlock) : Nat := (blocks.map PackedBlock.byteCount).sum

/-! ### Values -/

/-- The rational a finite floating-point value stands for. -/
def realOf (neg : Bool) (m : Nat) (e : Int) : ℚ := (if neg then -1 else 1) * (m : ℚ) * (2 : ℚ) ^ e

/-- The rational a floating-point value stands for, where it is finite. -/
def FloatVal.real : FloatVal → Option ℚ
  | .fin neg m e => some (realOf neg m e)
  | .nan | .inf _ => none

/-- The magnitude from which on rounding to nearest gives an infinity: half a unit past the largest
finite value of the format (00_scope.md R16). -/
def FloatFormat.limit (f : FloatFormat) : ℚ := ((2 : ℚ) ^ f.prec - 1 / 2) * (2 : ℚ) ^ f.lsbMax

/-- `v` is `x` rounded to the format, to nearest with ties to even (00_scope.md R16): no value of the
format is nearer, and where another is as near, the significand of `v` is even. -/
def FloatFormat.Rounds (f : FloatFormat) (x : ℚ) : FloatVal → Prop
  | .nan => False
  | .inf neg => f.limit ≤ |x| ∧ neg = decide (x < 0)
  | .fin neg n q => |x| < f.limit ∧ n < 2 ^ f.prec ∧ f.lsbMin ≤ q ∧ q ≤ f.lsbMax ∧
      ∀ (t : Bool) (k : Nat) (g : Int), k < 2 ^ f.prec → f.lsbMin ≤ g → g ≤ f.lsbMax →
        |realOf neg n q - x| ≤ |realOf t k g - x| ∧
        (|realOf neg n q - x| = |realOf t k g - x| →
          realOf t k g ≠ realOf neg n q → n % 2 = 0)

/-- The rational that an IEEE 754 bit pattern of `expBits` and `fracBits` bits stands for: the sign, the
biased exponent and the fraction, with exponent field 0 for the subnormals and zeros; none where the
exponent field is all ones (00_scope.md R15, `f64`; R16). -/
def ieeeValue (expBits fracBits pattern : Nat) : Option ℚ :=
  let field := pattern / 2 ^ fracBits % 2 ^ expBits
  let frac : ℚ := ((pattern % 2 ^ fracBits : Nat) : ℚ) / (2 : ℚ) ^ fracBits
  let sign : ℚ := if pattern.testBit (expBits + fracBits) then -1 else 1
  let bias : Int := 2 ^ (expBits - 1) - 1
  if field = 2 ^ expBits - 1 then none
  else if field = 0 then some (sign * frac * (2 : ℚ) ^ (1 - bias))
  else some (sign * (1 + frac) * (2 : ℚ) ^ ((field : Int) - bias))

/-- The element of a kind that the exact value `x` of binary64 becomes, none where it overflows
(46_band_decode.md R361 to R363): its pattern in F64, a zero being `+0.0`; rounded once more in F32,
the sign kept; the nearest integer, a tie going away from zero, in the integer kinds. -/
def IsElementOf (kind : Kind) (x : ℚ) (r : Option Element) : Prop :=
  match kind with
  | .f64 => ∃ b, r = some (.f64 b) ∧ ieeeValue 11 52 b.toNat = some x ∧ b.msb = decide (x < 0)
  | .f32 => ∃ w, binary32.Rounds x w ∧
      match w.real with
      | none => r = none
      | some y => ∃ b, r = some (.f32 b) ∧ ieeeValue 8 23 b.toNat = some y ∧ b.msb = decide (x < 0)
  | .i8 | .u8 | .i16 | .u16 | .i32 | .u32 =>
      ∃ n : Int, |(n : ℚ) - x| ≤ 1 / 2 ∧ (|(n : ℚ) - x| = 1 / 2 → |x| < |(n : ℚ)|) ∧
        r = if kind.minInt ≤ n ∧ n ≤ kind.maxInt then some (.int n) else none

/-- The quantization step for the tolerance `tol` (46_band_decode.md R360). -/
def IsStep (tol : ℚ) (step : FloatVal) : Prop :=
  if tol = 0 then step.real = some 1 else binary64.Rounds (2 * tol) step

/-- The element that code `c` stands for, none where it overflows, with the band's minimum `z` and the
tolerance `tol` (46_band_decode.md R360 to R363): the product with the step and the sum with the minimum
are each rounded to binary64, and an infinity on the way overflows. -/
def DequantizesTo (kind : Kind) (z tol : ℚ) (c : Nat) (r : Option Element) : Prop :=
  ∃ step, IsStep tol step ∧
    match step.real with
    | none => r = none
    | some d => ∃ prod, binary64.Rounds (c * d) prod ∧
      match prod.real with
      | none => r = none
      | some p => ∃ v, binary64.Rounds (z + p) v ∧
        match v.real with
        | none => r = none
        | some x => IsElementOf kind x r

/-- The integer kinds (10_state.md R45). -/
def Kind.isInteger : Kind → Bool
  | .i8 | .u8 | .i16 | .u16 | .i32 | .u32 => true
  | .f32 | .f64 => false

/-- An element of a kind: an integer in its range, or a finite IEEE pattern (46_band_decode.md R361). -/
def Element.ofKind (k : Kind) : Element → Bool
  | .int v => k.isInteger && decide (k.minInt ≤ v) && decide (v ≤ k.maxInt)
  | .f32 b => k == .f32 && decide ((b.extractLsb' 23 8).toNat ≠ 255)
  | .f64 b => k == .f64 && (floatOfBits b).isFinite

/-! ### The invariant -/

/-- The window and the cursor of 10_state.md R46: `lo <= hi` and `0 <= pos <= 8 * (hi - lo)`. -/
def BitReader.wf (br : BitReader) : Prop := br.lo ≤ br.hi ∧ br.pos ≤ 8 * (br.hi - br.lo)

/-- Lengths that HUF.BUILD accepts (43_huffman.md R242). -/
def acceptedLengths (lens : List Byte) : Prop :=
  lens.length = 256 ∧ (∀ l ∈ lens, l.toNat ≤ Config.maxCodeLen) ∧
    kraftSum lens ≤ 2 ^ Config.maxCodeLen

/-- The payload stands at the aligned cursor, inside the window. -/
def Source.HoldsData (src : Source) (br : BitReader) : DataPayload → Prop
  | .stuffed blocks => br.aligned = true ∧ src.HoldsBlocks br blocks
  | .huffman lens segLen symbols => br.aligned = true ∧ acceptedLengths lens ∧ segLen < 2 ^ 32 ∧
      2080 + 8 * segLen ≤ br.rem ∧ src.Holds br.cur (lens ++ leBytes 4 segLen) ∧
      (∀ e ∈ symbols, e ∈ (tablesOf lens).entries) ∧ (codeStream symbols).length ≤ 8 * segLen ∧
      src.BitsAre (br.advance 2080) (codeStream symbols)

/-- The Kraft sum in units of `2^-32` (43_huffman.md R242), over the 256 symbols. -/
def kraftOf (lens : List Byte) : Nat :=
  ∑ s ∈ Finset.range 256,
    if 0 < (lens.getD s 0).toNat then 2 ^ (32 - (lens.getD s 0).toNat) else 0

/-- The table that 43_huffman.md R243 and R244 describe for these lengths: the symbols present in the
order (length, symbol), each code from the one before, the longest length, and the lookup table. -/
structure HuffTables.Canonical (t : HuffTables) (lens : List Byte) : Prop where
  present : ∀ sym : Byte, ∀ l, (∃ e ∈ t.entries, e.sym = sym ∧ e.len = l) ↔
    0 < l ∧ l = (lens.getD sym.toNat 0).toNat
  first : ∀ e, t.entries[0]? = some e → e.code = 0
  next : ∀ i e f, t.entries[i]? = some e → t.entries[i + 1]? = some f →
    (e.len < f.len ∨ (e.len = f.len ∧ e.sym.toNat < f.sym.toNat)) ∧
      f.code = (e.code + 1) * 2 ^ (f.len - e.len)
  longest : t.maxLen = (t.entries.getLast?.map HuffEntry.len).getD 0
  lutSize : t.lut.length = 4096
  lutHit : ∀ p, p < 4096 → ∀ sym l, t.lut[p]? = some (some (sym, l)) ↔
    ∃ e ∈ t.entries, e.sym = sym ∧ e.len = l ∧ l ≤ 12 ∧ p / 2 ^ (12 - l) = e.code

/-- A built table was built from the lengths beside it (10_state.md R48). -/
def Huffman.Consistent (ht : Huffman) : Prop :=
  ht.lens.length = 256 ∧ ∀ t, ht.tables = some t → acceptedLengths ht.lens ∧ t = tablesOf ht.lens

/-- The window of a band's section (46_band_decode.md R354). -/
def Descriptor.window (d : Descriptor) : BitReader :=
  { lo := d.offset.toNat + 2, hi := d.offset.toNat + d.length.toNat, pos := 0, order := .msb }

/-- The blob holds a band section with these payloads, for this mask (30_encoding.md R113). -/
def Source.HoldsBand (src : Source) (kind : Kind) (d : Descriptor) (mask : List Bool)
    (m : MaskPayload) (p : DataPayload) : Prop :=
  2 ≤ d.length.toNat ∧ d.offset.toNat + d.length.toNat ≤ src.len ∧
    src.Holds d.offset.toNat [BitVec.ofNat 8 m.mode.code, BitVec.ofNat 8 p.mode.code] ∧
    (p.mode = .huffman → kind = .i8 ∨ kind = .u8) ∧ src.HoldsMask d.window mask m ∧
    src.HoldsData (d.window.advance (m.size mask.length)) p

/-- The elements of a band, pixel by pixel (46_band_decode.md R364, R365): an invalid pixel holds the
kind's zero value, and the `k`-th valid pixel the dequantized `k`-th code. -/
def bandElements (h : Header) (zMin : BitVec 64) (mask : List Bool) (codes : List Code)
    (es : List Element) : Prop :=
  es.length = mask.length ∧ ∀ i b e, mask[i]? = some b → es[i]? = some e →
    if b = true then
      ∃ c, codes[popcount (mask.take i)]? = some c ∧ dequantize h zMin c.toNat = .ok e
    else e = h.kind.zero

/-- How far a decode is, phase by phase (46_band_decode.md R350, R368). -/
def Orchestrator.Progress (o : Orchestrator) (h : Header) : Prop :=
  o.band < h.nBands.toNat ∧ o.bandsDone ≤ h.nBands.toNat ∧
    match o.phase with
    | .start => o.band = 0 ∧ o.bandsDone = 0
    | .headerValidated | .maskDecoded | .dataDecoded | .dequantized => o.band = o.bandsDone
    | .done => o.bandsDone = o.band + 1
    | .failed => o.band ≤ o.bandsDone

/-- The number of bands whose elements are staged (46_band_decode.md R364, R366). -/
def Orchestrator.staged (o : Orchestrator) : Nat :=
  o.bandsDone + (if o.phase = .dequantized then 1 else 0)

/-- A band has begun and nothing has failed (46_band_decode.md R350). -/
def Phase.running : Phase → Bool
  | .headerValidated | .maskDecoded | .dataDecoded | .dequantized | .done => true
  | .start | .failed => false

/-- The invariant of the machine: what every step keeps, from every state that has it. -/
structure State.Inv (s : State) : Prop where
  /-- `IN` is in its canonical form, inside `IN_SIZE` (20_memory.md R70). -/
  memWf : s.inMem.wf = true
  memInside : ∀ c ∈ s.inMem, c.1 < s.params.inSize
  /-- The BitReader's bounds (10_state.md R46). -/
  window : s.br.wf
  /-- The Huffman table (10_state.md R48). -/
  table : s.ht.Consistent
  /-- The BitStuffer's width (00_scope.md R10). -/
  width : s.bs.width ≤ Config.maxBitWidth
  /-- The capacities (00_scope.md R10). -/
  codesFit : s.params.fitsOut s.codes.length = true
  mask0Fits : s.params.fitsOut s.ms0.bits.length = true
  mask1Fits : s.params.fitsOut s.ms1.bits.length = true
  /-- `STATUS.ERR` and `ERR.CODE` agree, and the code is one of the table's (10_state.md R35,
  60_exceptions.md R431). -/
  errAgrees : s.status.err = decide (s.err.code ≠ 0)
  errListed : s.err.code = 0 ∨ s.err.code ∈ errorCodes
  /-- Without a header the orchestrator is at reset (10_state.md R51). -/
  noHeader : s.orc.hdr = none → s.orc = Orchestrator.reset ∧ s.stage = []
  /-- With a header: it is legal, the decode is where its phase says, and `STAGE` holds exactly the
  elements of the dequantized bands (45_blob_header.md R321, 46_band_decode.md R350, R364). -/
  headerLegal : ∀ h, s.orc.hdr = some h → h.legal = true
  progress : ∀ h, s.orc.hdr = some h → s.orc.Progress h
  capacity : ∀ h, s.orc.hdr = some h → s.orc.phase.running = true →
    s.params.fitsOut (h.pixels * h.nBands.toNat) = true
  stageFull : ∀ h, s.orc.hdr = some h → s.orc.phase ≠ .failed →
    s.stage.length = s.orc.staged * h.pixels ∧ none ∉ s.stage
  stageTyped : ∀ h e, s.orc.hdr = some h → some e ∈ s.stage → e.ofKind h.kind = true
  /-- The result flags (10_state.md R35, 70_reset_and_hazards.md R475). -/
  outHeld : s.status.outValid = true → s.out.isSome = true
  maskHeld : s.status.maskPresent = true → s.status.outValid = true ∧ s.outMask.isSome = true
  /-- `OUT` holds elements of one kind, within the capacity (20_memory.md R70, R73). -/
  outTyped : ∀ buf, s.out = some buf →
    s.params.fitsOut buf.elems.length = true ∧ ∀ e ∈ buf.elems, e.ofKind buf.kind = true

/-! ### Direct mode (47_host_commands.md R405) -/

/-- Goes on with `next` where a command succeeded, and stops at the first error. -/
def ifSucceeded (r : Host.Outcome State Fault Refusal)
    (next : State → Host.Outcome State Fault Refusal) : Host.Outcome State Fault Refusal :=
  match r with
  | .next t => if t.status.err then .next t else next t
  | .fault f => .fault f
  | .refused x => .refused x

/-- The host's `WR A0, b; BAND.BEGIN; BAND.MASK; BAND.DATA; BAND.DEQ; BAND.END`. -/
def directBand (b : Nat) (s : State) : Host.Outcome State Fault Refusal :=
  ifSucceeded (exec .bandBegin { s with a0 := BitVec.ofNat 64 b }) fun s =>
  ifSucceeded (exec .bandMask s) fun s =>
  ifSucceeded (exec .bandData s) fun s =>
  ifSucceeded (exec .bandDeq s) fun s =>
  exec .bandEnd s

/-- The bands `b, b + 1, …`, `n` of them, in order. -/
def directBands : (n b : Nat) → State → Host.Outcome State Fault Refusal
  | 0, _, s => .next s
  | n + 1, b, s => ifSucceeded (directBand b s) fun t => directBands n (b + 1) t

/-- The host sequence of 47_host_commands.md R405: INFO, every band, COMMIT. -/
def directDecode (s : State) : Host.Outcome State Fault Refusal :=
  ifSucceeded (exec .info s) fun t =>
  ifSucceeded (directBands t.bandCount 0 t) fun u =>
  exec .commit u

/-- Two states with the same unit state (47_host_commands.md R404). -/
def sameUnits (s t : State) : Prop :=
  s.br = t.br ∧ s.ms0 = t.ms0 ∧ s.ms1 = t.ms1 ∧ s.ht = t.ht ∧ s.codes = t.codes ∧ s.bs = t.bs ∧
    s.orc = t.orc ∧ s.stage = t.stage

/-- Two states with the same result: `OUT`, `OUTMASK` and their flags (47_host_commands.md R405). -/
def sameResult (s t : State) : Prop :=
  s.out = t.out ∧ s.outMask = t.outMask ∧ s.status.outValid = t.status.outValid ∧
    s.status.maskPresent = t.status.maskPresent

/-- The arguments that an error code comes with, for the command of opcode `op`
(60_exceptions.md R432): the version, the width, the feature, the field, the opcode, or 0. -/
def argAdmitted (op code : BitVec 8) (arg : BitVec 32) : Prop :=
  if code = 0x02 then arg.toInt < 2 ∨ 6 < arg.toInt
  else if code = 0x06 then 32 < arg.toNat ∧ arg.toNat < 256
  else if code = 0x08 then arg = 1
  else if code = 0x0A then 1 ≤ arg.toNat ∧ arg.toNat ≤ 13
  else if code = 0x80 ∨ code = 0x81 then arg = op.setWidth 32
  else arg = 0

/-- Two states in which the engine reads the same blob: the parameters, `SRC_LEN` and
`IN[0 .. SRC_LEN-1]` agree (20_memory.md R87). -/
def sameBlob (s t : State) : Prop :=
  s.params = t.params ∧ s.srcLen = t.srcLen ∧
    ∀ a, a < s.srcLen.toNat → s.inMem.read a = t.inMem.read a

end Sys2Proof.Machine
end

