-- ==== Sys2Proof/Certificates/Slice0/Obligations.lean ====
section
/-!
DEFINITION. The statements about the machine, one for each definition: encodings, the host's side, each
family of commands, and the rules of the whole machine.

A command's result is written as an equation: `completesWith t` is the next state `t` with `ERR` cleared,
`failsWith e t` the next state `t` with the error posted (47_host_commands.md R400), so an equation is
the command's frame as well as its effect: every field not named keeps its value.
-/

open Sys2Proof Sys2Proof.Machine

/-! ### Encodings (30_encoding.md) -/

/-- R100 to R103: every well-formed command's word decodes to that command, fields and all. -/
def Obligations.DecodeEncodeAgree : Prop :=
  ∀ i : Instr, i.wellFormed = true → decode (encode i) = .ok i

/-- R100 to R103: no bit of a word is dropped: a word that decodes to a command is that command's. -/
def Obligations.EncodeDecodeAgree : Prop :=
  ∀ (w : CmdWord) (i : Instr), decode w = .ok i → encode i = w

/-- R109: the example words. -/
def Obligations.ExampleWordsDecode : Prop :=
  decode 0x00000000 = .ok .nop ∧ decode 0x01000000 = .ok .info ∧ decode 0x02000000 = .ok .decode ∧
  decode 0x10000001 = .ok (.brInit .lsb) ∧ decode 0x11000005 = .ok (.brRead 5) ∧
  decode 0x11000020 = .ok (.brRead 32) ∧ decode 0x15000004 = .ok (.brBytes 4) ∧
  decode 0x20000003 = .ok (.bmNew .one true) ∧ decode 0x32000000 = .ok (.maskRle .zero) ∧
  decode 0x44000000 = .ok .hufDecf ∧ decode 0x67000000 = .ok .commit ∧
  (∀ s, runCommand 0x11000021 s = failsWith (.illegalOperand 0x11) s) ∧
  (∀ s, runCommand 0x17000000 s = failsWith (.illegalCommand 0x17) s)

/-- R104: a reserved opcode. The write of the word is a host access to `CMD`. -/
def Obligations.ReservedOpcodeEndsCommand : Prop :=
  ∀ (s : State) (v : Reg) (op : Nat), (v.extractLsb' 24 8).toNat = op →
    (0x03 ≤ op ∧ op ≤ 0x0E ∨ 0x17 ≤ op ∧ op ≤ 0x1F ∨ 0x29 ≤ op ∧ op ≤ 0x2F ∨
      0x33 ≤ op ∧ op ≤ 0x3F ∨ 0x47 ≤ op ∧ op ≤ 0x4F ∨ 0x54 ≤ op ∧ op ≤ 0x60 ∨
      0x68 ≤ op ∧ op ≤ 0xFF) →
    hostAccess (.regWrite 0x08 8 v) s =
      .next { s with
        err := { code := 0x80, arg := BitVec.ofNat 32 op }
        status := { s.status with done := true, err := true } }

/-- R105: an opcode of the map with an immediate that its format does not admit. -/
def Obligations.IllegalImmediateEndsCommand : Prop :=
  ∀ (s : State) (v : Reg) (op : Nat) (f : Format), (op, f) ∈ opcodeMap →
    (v.extractLsb' 24 8).toNat = op → f.legal (v.extractLsb' 0 24).toNat = false →
    hostAccess (.regWrite 0x08 8 v) s =
      .next { s with
        err := { code := 0x81, arg := BitVec.ofNat 32 op }
        status := { s.status with done := true, err := true } }

/-- A step of the machine is the next access of the host's port, taken off the port: where that access
writes a word to `CMD`, the step is `exec` of the instruction the word decodes to; an empty port leaves
the state alone (the port is the model's own, log entry 1). -/
def Obligations.StepRunsDecoded : Prop :=
  (∀ (s : State) (a : HostAccess) (rest : List HostAccess),
    s.port = a :: rest → step s = hostAccess a { s with port := rest }) ∧
  (∀ (s : State) (rest : List HostAccess) (v : Reg) (i : Instr),
    s.port = .regWrite 0x08 8 v :: rest → decode (v.extractLsb' 0 32) = .ok i →
    step s = exec i { s with port := rest }) ∧
  (∀ (s : State) (nbits w : Nat) (i : Instr),
    nbits ≤ 32 → decodeTableWord nbits w = some i → step (s.withFetchWord nbits w) = exec i s) ∧
  (∀ s : State, s.port = [] → step s = .next s)

/-! ### The host's side (10_state.md, 20_memory.md) -/

/-- R33, R35, R36, R37, R42: what a host reads from `ID`, `CONFIG`, `STATUS` and `ERR`, field by
field. -/
def Obligations.RegisterFields : Prop :=
  ∀ s : State, ∃ id cfg st er : Reg,
    hostAccess (.regRead 0x00 8) s = .next { s with reply := .reg id } ∧
    hostAccess (.regRead 0x90 8) s = .next { s with reply := .reg cfg } ∧
    hostAccess (.regRead 0x10 8) s = .next { s with reply := .reg st } ∧
    hostAccess (.regRead 0x18 8) s = .next { s with reply := .reg er } ∧
    id.extractLsb' 0 16 = 0x4C32 ∧ (id.extractLsb' 16 8).toNat = 2 ∧
    (id.extractLsb' 24 8).toNat = 6 ∧ id.extractLsb' 32 32 = 0 ∧
    (cfg.extractLsb' 0 8).toNat = 12 ∧ (cfg.extractLsb' 8 8).toNat = 32 ∧
    cfg.getLsbD 16 = false ∧ cfg.extractLsb' 17 7 = 0 ∧ (cfg.extractLsb' 24 8).toNat = 2 ∧
    (cfg.extractLsb' 32 8).toNat = 32 ∧ cfg.extractLsb' 40 24 = 0 ∧
    st.getLsbD 0 = s.status.done ∧ st.getLsbD 1 = s.status.err ∧
    st.getLsbD 2 = s.status.maskPresent ∧ st.getLsbD 3 = s.status.infoValid ∧
    st.getLsbD 4 = s.status.outValid ∧ st.extractLsb' 5 3 = 0 ∧ st.extractLsb' 12 20 = 0 ∧
    (st.extractLsb' 8 4).toNat =
      (match s.orc.phase with
        | .start => 0 | .headerValidated => 1 | .maskDecoded => 2 | .dataDecoded => 3
        | .dequantized => 4 | .done => 5 | .failed => 15) ∧
    (st.extractLsb' 32 32).toNat = s.orc.band % 2 ^ 32 ∧
    er.extractLsb' 0 8 = s.err.code ∧ er.extractLsb' 8 24 = 0 ∧ er.extractLsb' 32 32 = s.err.arg

/-- R43: reserved offsets read as 0 and ignore writes, a write to a read-only register changes nothing,
and an access of another shape is refused. -/
def Obligations.RegisterBlockAccess : Prop :=
  (∀ (s : State) (k : Nat), 0x98 ≤ 8 * k → 8 * k ≤ 0xF8 →
    hostAccess (.regRead (8 * k) 8) s = .next { s with reply := .reg 0 }) ∧
  (∀ (s : State) (k : Nat) (v : Reg), 8 * k ≤ 0xF8 → 8 * k ≠ 0x08 →
    ¬ (0x20 ≤ 8 * k ∧ 8 * k ≤ 0x40) → hostAccess (.regWrite (8 * k) 8 v) s = .next s) ∧
  (∀ (s : State) (offset width : Nat) (v : Reg), ¬ (width = 8 ∧ offset % 8 = 0) →
    hostAccess (.regRead offset width) s = .refused .registerAccessShape ∧
    hostAccess (.regWrite offset width v) s = .refused .registerAccessShape)

/-- R34, R38, R39, R70: a value written to `SRC_LEN` or `A0` to `A3` is read back and nothing else
changes, `CMD` reads as 0; a byte written to `IN` is read back, every other byte reads as before and the
memory keeps its canonical form. A write at or past `IN_SIZE` faults, the model's choice (log entry
15). -/
def Obligations.HostWritesReadBack : Prop :=
  (∀ (s : State) (v : Reg),
    (∀ offset ∈ [0x20, 0x28, 0x30, 0x38, 0x40], ∃ t,
      hostAccess (.regWrite offset 8 v) s = .next t ∧
      hostAccess (.regRead offset 8) t = .next { t with reply := .reg v } ∧
      { t with srcLen := s.srcLen, a0 := s.a0, a1 := s.a1, a2 := s.a2, a3 := s.a3 } = s ∧
      (∀ other ∈ [0x20, 0x28, 0x30, 0x38, 0x40], other ≠ offset → t.readReg other = s.readReg other)) ∧
    hostAccess (.regRead 0x08 8) s = .next { s with reply := .reg 0 }) ∧
  ∀ (s : State) (a : Nat) (b : Byte),
    (a < s.params.inSize → ∃ m, hostAccess (.inWrite a b) s = .next { s with inMem := m } ∧
      hostAccess (.inRead a) { s with inMem := m } =
        .next { s with inMem := m, reply := .byte b } ∧
      (∀ x, x ≠ a → m.read x = s.inMem.read x) ∧ (s.inMem.wf = true → m.wf = true)) ∧
    (s.params.inSize ≤ a → hostAccess (.inWrite a b) s = .fault (.inOutside a))

/-- R73, R74, R475: the byte image of `OUT`: byte `j` of element `idx` stands at `idx * bytes(kind) + j`,
least significant first: two's complement for integers, the bit pattern for F32 and F64. Bit `i` of
`OUTMASK` is the validity of pixel `i`. `OUT` is read only with `OUT_VALID`, `OUTMASK` only with
`MASK_PRESENT` as well. -/
def Obligations.OutputReads : Prop :=
  (∀ (s : State) (buf : OutBuffer) (idx j : Nat) (e : Element),
    s.status.outValid = true → s.out = some buf → buf.elems[idx]? = some e →
    e.ofKind buf.kind = true → j < buf.kind.bytes →
    ∃ b : Byte, hostAccess (.outRead (idx * buf.kind.bytes + j)) s = .next { s with reply := .byte b } ∧
      match e with
      | .int v => (b.toNat : Int) = v / (256 ^ j : Int) % 256
      | .f32 p => b = p.extractLsb' (8 * j) 8
      | .f64 p => b = p.extractLsb' (8 * j) 8) ∧
  (∀ (s : State) (i : Nat) (bits : List Bool) (b : Bool), s.status.outValid = true →
    s.status.maskPresent = true → s.outMask = some bits → bits[i]? = some b →
    hostAccess (.outMaskRead i) s = .next { s with reply := .bit b }) ∧
  (∀ (s : State) (a : Nat), s.status.outValid = false →
    hostAccess (.outRead a) s = .fault .outNotValid) ∧
  (∀ (s : State) (i : Nat), ¬ (s.status.outValid = true ∧ s.status.maskPresent = true) →
    hostAccess (.outMaskRead i) s = .fault .outMaskNotPresent)

/-! ### Reset (10_state.md R57, 47_host_commands.md R402) -/

/-- R57: the reset value of every piece of state; every register of the block but the two constants
reads 0, and a read of a memory that holds no value faults. -/
def Obligations.ResetValues : Prop :=
  (∀ k, 8 * k ≤ 0xF8 → 8 * k ≠ 0x00 → 8 * k ≠ 0x90 → State.reset.readReg (8 * k) = 0) ∧
  State.reset.readReg 0x00 = 0x0000000006024C32 ∧ State.reset.readReg 0x90 = 0x000000200200200C ∧
  State.reset.br = { lo := 0, hi := 0, pos := 0, order := .msb } ∧
  State.reset.ms0 = { bits := [], building := false } ∧
  State.reset.ms1 = { bits := [], building := false } ∧
  State.reset.ht.lens = List.replicate 256 0 ∧ State.reset.ht.tables = none ∧
  State.reset.codes = [] ∧ State.reset.bs = { width := 0, count := 0, const := 0 } ∧
  State.reset.orc.hdr = none ∧ State.reset.orc.phase = .start ∧ State.reset.orc.band = 0 ∧
  State.reset.orc.bandsDone = 0 ∧ State.reset.orc.maskMode.code = 0 ∧
  State.reset.orc.entropyMode.code = 0 ∧ State.reset.stage = [] ∧ State.reset.out = none ∧
  State.reset.outMask = none ∧
  ∀ a, State.reset.inMem.read a = none ∧ (∃ f, hostAccess (.inRead a) State.reset = .fault f) ∧
    (∃ f, hostAccess (.outRead a) State.reset = .fault f) ∧
    ∃ f, hostAccess (.outMaskRead a) State.reset = .fault f

/-- R401, R402, R470: NOP has no effect but on `ERR` and `STATUS`; SRST puts every piece of the machine
but `IN` into its reset value; a platform reset empties `IN` as well. The model's choices: the platform
reset is a host access (log entry 16), and `params`, `port` and `reply`, which are no state of the
machine, stay (log entries 3, 16 and 17). -/
def Obligations.NopAndResets : Prop :=
  ∀ s : State,
    exec .nop s = .next { s with
      err := { code := 0, arg := 0 }
      status := { s.status with done := true, err := false } } ∧
    (∃ t, exec .srst s = .next t ∧ t.statusWord = 1 ∧ t.errWord = 0 ∧
      t = { State.reset with
        inMem := s.inMem, params := s.params, port := s.port, reply := s.reply
        status := { State.reset.status with done := true } }) ∧
    hostAccess .platformReset s =
      .next { State.reset with params := s.params, port := s.port, reply := s.reply }

/-! ### Rules of the whole machine -/

/-- R400, R430 to R432: how a command ends: it is never refused, `STATUS.DONE` is 1, `STATUS.ERR` says
whether `ERR.CODE` is not 0, an error code is one of the table's, and `ERR.ARG` is of the table's form
for the code: after `IllegalCommand` and `IllegalOperand` the opcode of the command itself. -/
def Obligations.CommandPostsOutcome : Prop :=
  ∀ (i : Instr) (s : State), (∀ x, exec i s ≠ .refused x) ∧
    ∀ t, exec i s = .next t →
      t.status.done = true ∧ (t.status.err = true ↔ t.err.code ≠ 0) ∧
      (t.err.code = 0 ∨ t.err.code ∈ errorCodes) ∧ argAdmitted i.opcode t.err.code t.err.arg

/-- R38, R39, R71: no command writes `IN`, and none but SRST writes `SRC_LEN` or `A0` to `A3`; the
parameters and the host's side of the model stay (the model's own fields, log entries 1 to 3). -/
def Obligations.EngineKeepsHostState : Prop :=
  ∀ (i : Instr) (s t : State), exec i s = .next t →
    t.inMem = s.inMem ∧ (∀ a, t.inMem.read a = s.inMem.read a) ∧ t.params = s.params ∧
    t.port = s.port ∧ t.reply = s.reply ∧
    (i ≠ .srst → t.srcLen = s.srcLen ∧ t.a0 = s.a0 ∧ t.a1 = s.a1 ∧ t.a2 = s.a2 ∧ t.a3 = s.a3)

/-- R83, R372, R373: `OUT`, `OUTMASK` and their flags change only by COMMIT, DECODE and SRST, and by
COMMIT and DECODE the contents change only on success; the INFO registers change only by INFO, DECODE
and SRST, and by the first two only on success. -/
def Obligations.OnlyCommitWritesOutput : Prop :=
  ∀ (i : Instr) (s t : State), exec i s = .next t → i ≠ .srst →
    ((i ≠ .commit ∧ i ≠ .decode) ∨ t.err.code ≠ 0 → t.out = s.out ∧ t.outMask = s.outMask) ∧
    (i ≠ .commit → i ≠ .decode →
      t.status.outValid = s.status.outValid ∧ t.status.maskPresent = s.status.maskPresent) ∧
    ((i ≠ .info ∧ i ≠ .decode) ∨ t.err.code ≠ 0 → t.info = s.info) ∧
    (i ≠ .info → i ≠ .decode → t.status.infoValid = s.status.infoValid)

/-- The "results" and unit columns of R103's table: which opcodes may write which unit's state; every
other command leaves it as it was. -/
def Obligations.UnitStateFrame : Prop :=
  ∀ (i : Instr) (s t : State), exec i s = .next t →
    (i.opcode ∉ ([0x0F, 0x11, 0x12, 0x15, 0x16, 0x24, 0x25, 0x26, 0x28, 0x42, 0x43, 0x44, 0x45, 0x50,
        0x52, 0x53, 0x66] : List (BitVec 8)) → t.r0 = s.r0) ∧
    (i.opcode ∉ ([0x0F, 0x16, 0x50, 0x52, 0x53] : List (BitVec 8)) → t.r1 = s.r1) ∧
    (i.opcode ∉ ([0x02, 0x0F, 0x10, 0x11, 0x13, 0x14, 0x15, 0x31, 0x32, 0x40, 0x42, 0x43, 0x44, 0x45,
        0x46, 0x50, 0x51, 0x52, 0x61, 0x62, 0x63] : List (BitVec 8)) → t.br = s.br) ∧
    (i.opcode ∉ ([0x02, 0x0F, 0x10, 0x61] : List (BitVec 8)) → t.br.order = s.br.order ∧
      t.br.lo = s.br.lo ∧ t.br.hi ≤ s.br.hi) ∧
    (i.opcode ∉ ([0x02, 0x0F, 0x20, 0x21, 0x22, 0x23, 0x30, 0x31, 0x32, 0x62] : List (BitVec 8)) →
      t.ms0 = s.ms0) ∧
    (i.opcode ∉ ([0x02, 0x0F, 0x20, 0x21, 0x22, 0x23, 0x27, 0x30, 0x31, 0x32, 0x65] :
        List (BitVec 8)) → t.ms1 = s.ms1) ∧
    (i.opcode ∉ ([0x02, 0x0F, 0x40, 0x41, 0x63, 0x65] : List (BitVec 8)) → t.ht = s.ht) ∧
    (i.opcode ∉ ([0x02, 0x0F, 0x46, 0x51, 0x52, 0x63] : List (BitVec 8)) → t.codes = s.codes) ∧
    (i.opcode ∉ ([0x02, 0x0F, 0x50, 0x51, 0x52, 0x63] : List (BitVec 8)) → t.bs = s.bs) ∧
    (i.opcode ∉ ([0x01, 0x02, 0x0F, 0x61, 0x62, 0x63, 0x64, 0x65, 0x67] : List (BitVec 8)) →
      t.orc = s.orc) ∧
    (i.opcode ∉ ([0x01, 0x02, 0x0F, 0x61, 0x64] : List (BitVec 8)) → t.stage = s.stage)

/-- R163, R190, R240, R280, R369, R430: a micro-operation that fails changes nothing but `ERR` and
`STATUS`, and for BAND.BEGIN, BAND.MASK, BAND.DATA, BAND.DEQ and COMMIT also `ORC.phase`: it becomes
`Failed` for every error but `IllegalCommand` and `IllegalOperand`, and `IllegalCommand` leaves it. -/
def Obligations.FailureFrames : Prop :=
  ∀ (i : Instr) (s t : State), exec i s = .next t → t.err.code ≠ 0 → i ≠ .info → i ≠ .decode →
    t = { s with
      err := t.err
      status := { s.status with done := true, err := true }
      orc := { s.orc with phase := t.orc.phase } } ∧
    (i.opcode ∉ ([0x61, 0x62, 0x63, 0x64, 0x67] : List (BitVec 8)) →
      t.orc.phase = s.orc.phase) ∧
    (t.orc.phase = s.orc.phase ∨ t.orc.phase = .failed) ∧
    (i.opcode ∈ ([0x61, 0x62, 0x63, 0x64, 0x67] : List (BitVec 8)) →
      (t.err.code ≠ 0x80 → t.err.code ≠ 0x81 → t.orc.phase = .failed) ∧
      (t.err.code = 0x80 → t.orc.phase = s.orc.phase))

/-- R350, R369, R473, R479: a BAND micro-operation or COMMIT in a phase that is not its own ends with
`IllegalCommand` and no other effect, in every state, so `Failed` is terminal: no command but INFO,
DECODE and SRST changes the orchestrator's state once it has failed. Without a header BAND.BEGIN,
DEQ.ONE and COMMIT are refused alike. -/
def Obligations.OutOfSequenceRefused : Prop :=
  (∀ s : State,
    (s.orc.phase ≠ .start → s.orc.phase ≠ .done →
      exec .bandBegin s = failsWith (.illegalCommand 0x61) s) ∧
    (s.orc.phase ≠ .headerValidated → exec .bandMask s = failsWith (.illegalCommand 0x62) s) ∧
    (s.orc.phase ≠ .maskDecoded → exec .bandData s = failsWith (.illegalCommand 0x63) s) ∧
    (s.orc.phase ≠ .dataDecoded → exec .bandDeq s = failsWith (.illegalCommand 0x64) s) ∧
    (s.orc.phase ≠ .dequantized → exec .bandEnd s = failsWith (.illegalCommand 0x65) s) ∧
    (s.orc.phase ≠ .done → exec .commit s = failsWith (.illegalCommand 0x67) s) ∧
    (s.orc.hdr = none →
      exec .bandBegin s = failsWith (.illegalCommand 0x61) s ∧
      exec .deqOne s = failsWith (.illegalCommand 0x66) s ∧
      exec .commit s = failsWith (.illegalCommand 0x67) s)) ∧
  ∀ (i : Instr) (s t : State), s.orc.phase = .failed → exec i s = .next t →
    i ≠ .info → i ≠ .decode → i ≠ .srst → t.orc = s.orc ∧ t.stage = s.stage

/-- The invariant of the machine: every step keeps it, from every state that has it
(10_state.md R46, R48, R51; 20_memory.md R70; 46_band_decode.md R350, R364; 60_exceptions.md R431). -/
def Obligations.StepKeepsInv : Prop :=
  ∀ s t : State, s.Inv → step s = .next t → t.Inv

/-- The state after reset satisfies the invariant. -/
def Obligations.ResetHasInv : Prop := State.reset.Inv

/-! ### BitReader (40_bitreader.md) -/

/-- R156: BR.INIT, on every path. -/
def Obligations.BrInitCases : Prop :=
  ∀ (s : State) (ord : BitOrder),
    exec (.brInit ord) s =
      if s.params.inSize < s.srcLen.toNat then failsWith (.illegalOperand 0x10) s
      else if s.a1.toNat < s.a0.toNat then failsWith (.illegalOperand 0x10) s
      else if s.srcLen.toNat < s.a1.toNat then failsWith .truncated s
      else completesWith { s with br := { lo := s.a0.toNat, hi := s.a1.toNat, pos := 0, order := ord } }

/-- R151 to R154, R157, R158: BR.READ and BR.PEEK, on every path: the value of the next `n` bits as the
sum of the bits' weights, in either bit order; BR.PEEK leaves the cursor. -/
def Obligations.BrReadPeekValue : Prop :=
  ∀ (s : State) (n : BitVec 6),
    (n.toNat ≤ 32 → n.toNat ≤ s.br.rem → s.source.BitsReadable s.br n.toNat) →
    (exec (.brRead n) s =
      if 32 < n.toNat then failsWith (.illegalOperand 0x11) s
      else if 8 * (s.br.hi - s.br.lo) - s.br.pos < n.toNat then failsWith .truncated s
      else completesWith { s with
        r0 := BitVec.ofNat 64 (s.source.streamValue s.br n.toNat s.br.order)
        br := { s.br with pos := s.br.pos + n.toNat } }) ∧
    (exec (.brPeek n) s =
      if 32 < n.toNat then failsWith (.illegalOperand 0x12) s
      else if 8 * (s.br.hi - s.br.lo) - s.br.pos < n.toNat then failsWith .truncated s
      else completesWith { s with
        r0 := BitVec.ofNat 64 (s.source.streamValue s.br n.toNat s.br.order) })

/-- R159, R160, R162: BR.SKIP, BR.ALIGN and BR.POS, on every path: the aligned cursor is the next
multiple of 8, and stays inside the window; a position of `2^64` or more has no stated image in `R0`
(the model's free value, log entry 4). -/
def Obligations.BrCursorCommands : Prop :=
  ∀ s : State,
    (exec .brSkip s =
      if 8 * (s.br.hi - s.br.lo) - s.br.pos < s.a0.toNat then failsWith .truncated s
      else completesWith { s with br := { s.br with pos := s.br.pos + s.a0.toNat } }) ∧
    (∃ pos, exec .brAlign s = completesWith { s with br := { s.br with pos := pos } } ∧
      pos % 8 = 0 ∧ s.br.pos ≤ pos ∧ pos < s.br.pos + 8 ∧
      (s.br.pos ≤ 8 * (s.br.hi - s.br.lo) → pos ≤ 8 * (s.br.hi - s.br.lo))) ∧
    (∃ r0 r1, exec .brPos s = completesWith { s with r0 := r0, r1 := r1 } ∧
      (s.br.pos < 2 ^ 64 → r0.toNat = s.br.pos) ∧
      (8 * (s.br.hi - s.br.lo) - s.br.pos < 2 ^ 64 →
        r1.toNat = 8 * (s.br.hi - s.br.lo) - s.br.pos))

/-- R155, R161: BR.BYTES, on every path: whole bytes at the cursor, least significant first, whatever the
bit order. -/
def Obligations.BrBytesValue : Prop :=
  ∀ (s : State) (k : BitVec 4) (bytes : List Byte), bytes.length = k.toNat →
    (k = 1 ∨ k = 2 ∨ k = 4 ∨ k = 8 → s.br.pos % 8 = 0 → 8 * k.toNat ≤ s.br.rem →
      s.source.Holds (s.br.lo + s.br.pos / 8) bytes) →
    exec (.brBytes k) s =
      if ¬ (k = 1 ∨ k = 2 ∨ k = 4 ∨ k = 8) then failsWith (.illegalOperand 0x15) s
      else if s.br.pos % 8 ≠ 0 then failsWith (.illegalOperand 0x15) s
      else if 8 * (s.br.hi - s.br.lo) - s.br.pos < 8 * k.toNat then failsWith .truncated s
      else completesWith { s with
        r0 := BitVec.ofNat 64 (∑ j ∈ Finset.range k.toNat, (bytes.getD j 0).toNat * 256 ^ j)
        br := { s.br with pos := s.br.pos + 8 * k.toNat } }

/-! ### BitMask (41_bitmask.md) -/

/-- R181, R182, R183: BM.NEW, BM.SET and BM.FILL, on every path: BM.SET writes exactly position `A0`,
BM.FILL exactly the `A1` positions from `A0` on. -/
def Obligations.BmWrites : Prop :=
  ∀ (s : State) (sl : Slot) (v : Bool),
    ((∀ c, s.params.outCapacity = some c → s.a0.toNat ≤ c) → ∃ bits : List Bool,
      exec (.bmNew sl v) s = completesWith (s.setMask sl { bits := bits, building := true }) ∧
      bits.length = s.a0.toNat ∧ ∀ b ∈ bits, b = v) ∧
    (∀ c, s.params.outCapacity = some c → c < s.a0.toNat →
      exec (.bmNew sl v) s = failsWith .capacityExceeded s) ∧
    ((s.mask sl).building = false →
      exec (.bmSet sl v) s = failsWith (.illegalCommand 0x21) s ∧
      exec (.bmFill sl v) s = failsWith (.illegalCommand 0x22) s) ∧
    ((s.mask sl).building = true →
      ((s.mask sl).bits.length ≤ s.a0.toNat →
        exec (.bmSet sl v) s = failsWith (.illegalOperand 0x21) s) ∧
      (s.a0.toNat < (s.mask sl).bits.length → ∃ bits : List Bool,
        exec (.bmSet sl v) s = completesWith (s.setMask sl { bits := bits, building := true }) ∧
        ∀ j, bits[j]? = if j = s.a0.toNat then some v else (s.mask sl).bits[j]?) ∧
      ((s.mask sl).bits.length < s.a0.toNat + s.a1.toNat →
        exec (.bmFill sl v) s = failsWith (.illegalOperand 0x22) s) ∧
      (s.a0.toNat + s.a1.toNat ≤ (s.mask sl).bits.length → ∃ bits : List Bool,
        exec (.bmFill sl v) s = completesWith (s.setMask sl { bits := bits, building := true }) ∧
        ∀ j, bits[j]? =
          if s.a0.toNat ≤ j ∧ j < s.a0.toNat + s.a1.toNat then some v
          else (s.mask sl).bits[j]?))

/-- R185, R186, R189: BM.GET, BM.POPCNT and BM.LEN, on every path: the population is the number of set
positions; a count of `2^64` or more has no stated image in `R0` (log entry 4). -/
def Obligations.BmReads : Prop :=
  ∀ (s : State) (sl : Slot),
    ((s.mask sl).bits.length ≤ s.a0.toNat → exec (.bmGet sl) s = failsWith (.illegalOperand 0x24) s) ∧
    (∀ b, (s.mask sl).bits[s.a0.toNat]? = some b →
      exec (.bmGet sl) s = completesWith { s with r0 := if b = true then 1 else 0 }) ∧
    (∃ r0, exec (.bmPopcnt sl) s = completesWith { s with r0 := r0 } ∧
      ((s.mask sl).bits.length < 2 ^ 64 → r0.toNat =
        ((Finset.range (s.mask sl).bits.length).filter
          fun j => (s.mask sl).bits[j]? = some true).card)) ∧
    (∃ r0, exec (.bmLen sl) s = completesWith { s with r0 := r0 } ∧
      ((s.mask sl).bits.length < 2 ^ 64 → r0.toNat = (s.mask sl).bits.length))

/-- R187: BM.NEXT, on every path: the least set position from `A0` on, or the length. -/
def Obligations.BmNextLeast : Prop :=
  ∀ (s : State) (sl : Slot), ∃ j r0, exec (.bmNext sl) s = completesWith { s with r0 := r0 } ∧
    (j < 2 ^ 64 → r0.toNat = j) ∧
    (((s.mask sl).bits[j]? = some true ∧ s.a0.toNat ≤ j ∧
        ∀ i, s.a0.toNat ≤ i → i < j → (s.mask sl).bits[i]? = some false) ∨
      (j = (s.mask sl).bits.length ∧ ∀ i, s.a0.toNat ≤ i → (s.mask sl).bits[i]? ≠ some true))

/-- R184, R188: BM.FREEZE and BM.AND, on every path: the AND is bit by bit, and slot 0 keeps its bits. -/
def Obligations.BmFreezeAnd : Prop :=
  ∀ s : State,
    (∀ sl, exec (.bmFreeze sl) s = completesWith (s.setMask sl { s.mask sl with building := false })) ∧
    (s.ms0.building = true ∨ s.ms1.building = true →
      exec .bmAnd s = failsWith (.illegalCommand 0x27) s) ∧
    (s.ms0.building = false → s.ms1.building = false → s.ms0.bits.length ≠ s.ms1.bits.length →
      exec .bmAnd s = failsWith (.illegalOperand 0x27) s) ∧
    (s.ms0.building = false → s.ms1.building = false → s.ms0.bits.length = s.ms1.bits.length →
      ∃ bits : List Bool, exec .bmAnd s = completesWith { s with ms1 := { bits := bits, building := false } } ∧
        bits.length = s.ms1.bits.length ∧
        ∀ (j : Nat) (a b : Bool), s.ms1.bits[j]? = some a → s.ms0.bits[j]? = some b → bits[j]? = some (a && b))

/-! ### Mask decoders (42_mask_decoders.md) -/

/-- R211, R212: MASK.ABSENT and MASK.RAW, on every path: pixel `i` is stream bit `i`, most significant
first, and the cursor moves by whole bytes. -/
def Obligations.MaskAbsentRaw : Prop :=
  ∀ (s : State) (sl : Slot),
    (s.params.fitsOut s.a0.toNat = false →
      exec (.maskAbsent sl) s = failsWith .capacityExceeded s ∧
      exec (.maskRaw sl) s = failsWith .capacityExceeded s) ∧
    (s.params.fitsOut s.a0.toNat = true →
      exec (.maskAbsent sl) s =
        completesWith (s.setMask sl { bits := List.replicate s.a0.toNat true, building := false }) ∧
      (s.br.pos % 8 ≠ 0 → exec (.maskRaw sl) s = failsWith (.illegalOperand 0x31) s) ∧
      (s.br.pos % 8 = 0 → s.br.rem < 8 * ((s.a0.toNat + 7) / 8) →
        exec (.maskRaw sl) s = failsWith .truncated s) ∧
      (s.br.pos % 8 = 0 → 8 * ((s.a0.toNat + 7) / 8) ≤ s.br.rem →
        s.source.BitsReadable s.br s.a0.toNat → ∃ bits : List Bool,
          exec (.maskRaw sl) s = completesWith { s.setMask sl { bits := bits, building := false } with
            br := { s.br with pos := s.br.pos + 8 * ((s.a0.toNat + 7) / 8) } } ∧
          bits.length = s.a0.toNat ∧
          ∀ i b, bits[i]? = some b →
            (b = true ↔ s.source.streamBit s.br.lo (s.br.pos + i) .msb = 1)))

/-- R213: MASK.RLE where the pairs add up: the mask is the runs one after another, and the cursor moves
by five bytes a pair. -/
def Obligations.MaskRleRuns : Prop :=
  ∀ (s : State) (sl : Slot) (runs : List (Bool × Nat)),
    s.params.fitsOut s.a0.toNat = true → s.br.pos % 8 = 0 →
    (∀ r ∈ runs, 1 ≤ r.2 ∧ r.2 < 2 ^ 32) → (runs.map Prod.snd).sum = s.a0.toNat →
    40 * runs.length ≤ s.br.rem →
    s.source.Holds (s.br.lo + s.br.pos / 8)
      (runs.flatMap fun r => leBytes 1 r.1.toNat ++ leBytes 4 r.2) →
    exec (.maskRle sl) s = completesWith {
      s.setMask sl { bits := runs.flatMap fun r => List.replicate r.2 r.1, building := false } with
      br := { s.br with pos := s.br.pos + 40 * runs.length } }

/-- R213, R215, R433: MASK.RLE where it fails: never with `Truncated`; the checks before the loop, and after legal pairs a missing
pair, an illegal value byte, an empty run and a run past the pixel count. That the missing pair is
`MaskLengthMismatch` on the empty reset window too, and past a lowered `SRC_LEN`, is the model's choice
(log entries 9 and 6). -/
def Obligations.MaskRleErrors : Prop :=
  ∀ (s : State) (sl : Slot),
    (∀ t, exec (.maskRle sl) s = .next t → t.err.code ≠ 0x03) ∧
    (s.params.fitsOut s.a0.toNat = false → exec (.maskRle sl) s = failsWith .capacityExceeded s) ∧
    (s.params.fitsOut s.a0.toNat = true → s.br.pos % 8 ≠ 0 →
      exec (.maskRle sl) s = failsWith (.illegalOperand 0x32) s) ∧
    ∀ runs : List (Bool × Nat),
      s.params.fitsOut s.a0.toNat = true → s.br.pos % 8 = 0 →
      (∀ r ∈ runs, 1 ≤ r.2 ∧ r.2 < 2 ^ 32) → (runs.map Prod.snd).sum < s.a0.toNat →
      40 * runs.length ≤ s.br.rem → s.source.Holds s.br.cur (rleLayout runs) →
      (s.br.rem < 40 * runs.length + 40 ∨ s.srcLen.toNat < s.br.cur + 5 * runs.length + 5 →
        exec (.maskRle sl) s = failsWith .maskLengthMismatch s) ∧
      ∀ value run : Nat, value < 256 → run < 2 ^ 32 → 40 * runs.length + 40 ≤ s.br.rem →
        s.source.Holds (s.br.cur + 5 * runs.length) (leBytes 1 value ++ leBytes 4 run) →
        (1 < value → exec (.maskRle sl) s = failsWith (.invalidField 12) s) ∧
        (value ≤ 1 → run = 0 → exec (.maskRle sl) s = failsWith .maskLengthMismatch s) ∧
        (value ≤ 1 → s.a0.toNat < (runs.map Prod.snd).sum + run →
          exec (.maskRle sl) s = failsWith .maskLengthMismatch s)

/-! ### Huffman (43_huffman.md) -/

/-- R241, R247: HUF.LOADLEN and HUF.SEG, on every path: 256 lengths are loaded and the table is
discarded; the segment narrows the window. -/
def Obligations.HufLoadlenSeg : Prop :=
  (∀ (s : State) (lens : List Byte), lens.length = 256 →
    (s.br.pos % 8 = 0 → 2048 ≤ s.br.rem → s.source.Holds (s.br.lo + s.br.pos / 8) lens) →
    exec .hufLoadlen s =
      if s.br.pos % 8 ≠ 0 then failsWith (.illegalOperand 0x40) s
      else if s.br.rem < 2048 then failsWith .truncated s
      else completesWith { s with
        ht := { lens := lens, tables := none }
        br := { s.br with pos := s.br.pos + 2048 } }) ∧
  ∀ (s : State) (len : Nat), len < 2 ^ 32 →
    (s.br.pos % 8 = 0 → 32 ≤ s.br.rem → s.source.Holds (s.br.lo + s.br.pos / 8) (leBytes 4 len)) →
    exec .hufSeg s =
      if s.br.pos % 8 ≠ 0 then failsWith (.illegalOperand 0x42) s
      else if s.br.rem < 32 then failsWith .truncated s
      else if s.br.hi < s.br.lo + s.br.pos / 8 + 4 + len then failsWith .truncated s
      else completesWith { s with
        r0 := BitVec.ofNat 64 len
        br := { s.br with
          pos := s.br.pos + 32
          hi := s.br.lo + (s.br.pos + 32) / 8 + len } }

/-- R242 to R244: HUF.BUILD, on every path: over-long lengths and a Kraft sum above 1 are refused, any
other lengths give the canonical table. -/
def Obligations.HufBuildCases : Prop :=
  ∀ s : State, s.ht.lens.length = 256 →
    ((∃ l ∈ s.ht.lens, 32 < l.toNat) ∨ 2 ^ 32 < kraftOf s.ht.lens →
      exec .hufBuild s = failsWith .huffmanTableCorrupt s) ∧
    ((∀ l ∈ s.ht.lens, l.toNat ≤ 32) → kraftOf s.ht.lens ≤ 2 ^ 32 → ∃ t : HuffTables,
      exec .hufBuild s = completesWith { s with ht := { s.ht with tables := some t } } ∧
      t.Canonical s.ht.lens)

/-- R243: with a Kraft sum of at most 1 every code fits its length and none is a prefix of another. -/
def Obligations.CanonicalCodesPrefixFree : Prop :=
  ∀ lens : List Byte, acceptedLengths lens →
    (∀ e ∈ (tablesOf lens).entries, e.code < 2 ^ e.len) ∧
    ∀ e ∈ (tablesOf lens).entries, ∀ f ∈ (tablesOf lens).entries,
      e.len ≤ f.len → f.code / 2 ^ (f.len - e.len) = e.code → e = f

/-- R249, R250: HUF.DEC, HUF.DECF and HUF.DECS agree in every state with a built table, and each is
refused without one. Where the 12 bits of look-ahead cannot be read the fast path is the slow one, the
model's choice (log entry 7). -/
def Obligations.HufFastSlowEqual : Prop :=
  ∀ s : State, s.ht.Consistent →
    (s.ht.tables.isSome = true →
      exec .hufDecf s = exec .hufDecs s ∧ exec .hufDec s = exec .hufDecs s) ∧
    (s.ht.tables = none →
      exec .hufDec s = failsWith (.illegalCommand 0x43) s ∧
      exec .hufDecf s = failsWith (.illegalCommand 0x44) s ∧
      exec .hufDecs s = failsWith (.illegalCommand 0x45) s ∧
      exec .hufRun s = failsWith (.illegalCommand 0x46) s)

/-- R245, R246, R248: HUF.DEC, HUF.DECF and HUF.DECS with a built table: where the next bits are a
symbol's code, the symbol in `R0` and the cursor moved by exactly the code's length; where no code
matches, `Truncated` if the window ends before the longest length, else `HuffmanTableCorrupt`. For
HUF.DECF this rests on the model's choice of log entry 7. -/
def Obligations.HufDecodeCases : Prop :=
  ∀ (s : State) (t : HuffTables), s.ht.Consistent → s.ht.tables = some t →
    ∀ i ∈ [Instr.hufDec, Instr.hufDecf, Instr.hufDecs],
      (∀ e ∈ t.entries, s.source.BitsAre s.br (msbBits e.len e.code) →
        exec i s = completesWith { s with
          r0 := e.sym.setWidth 64
          br := { s.br with pos := s.br.pos + e.len } }) ∧
      (s.source.BitsReadable s.br (min t.maxLen s.br.rem) →
        (∀ e ∈ t.entries, ¬ s.source.BitsAre s.br (msbBits e.len e.code)) →
        exec i s =
          failsWith (if s.br.rem < t.maxLen then .truncated else .huffmanTableCorrupt) s)

/-- R251: HUF.RUN where the next bits are the codes of `A0` symbols: the symbols in `CODES`, and the
cursor moved by exactly their bits. -/
def Obligations.HufRunDecodesCodeStream : Prop :=
  ∀ (s : State) (t : HuffTables) (es : List HuffEntry), s.ht.Consistent → s.ht.tables = some t →
    (∀ e ∈ es, e ∈ t.entries) → es.length = s.a0.toNat →
    s.source.BitsAre s.br (codeStream es) →
    exec .hufRun s =
      if s.params.fitsOut s.a0.toNat = true then completesWith { s with
        codes := es.map fun e => e.sym.setWidth 32
        br := { s.br with pos := s.br.pos + (es.map HuffEntry.len).sum } }
      else failsWith .capacityExceeded s

/-! ### BitStuffer (44_bitstuffer.md) -/

/-- R281: BS.HDR, on every path. -/
def Obligations.BsHdrCases : Prop :=
  ∀ (s : State) (w c k : Nat), w < 256 → c < 2 ^ 32 → k < 2 ^ 32 →
    (s.br.pos % 8 = 0 → 8 ≤ s.br.rem → s.source.Holds s.br.cur (leBytes 1 w)) →
    (s.br.pos % 8 = 0 → 40 ≤ s.br.rem → w ≤ 32 → s.source.Holds (s.br.cur + 1) (leBytes 4 c)) →
    (s.br.pos % 8 = 0 → 72 ≤ s.br.rem → w = 0 → 0 < c →
      s.source.Holds (s.br.cur + 5) (leBytes 4 k)) →
    exec .bsHdr s =
      if s.br.pos % 8 ≠ 0 then failsWith (.illegalOperand 0x50) s
      else if s.br.rem < 8 then failsWith .truncated s
      else if 32 < w then failsWith (.invalidBitWidth (BitVec.ofNat 8 w)) s
      else if s.br.rem < 40 then failsWith .truncated s
      else if c = 0 then failsWith (.invalidField 13) s
      else if w = 0 then
        if s.br.rem < 72 then failsWith .truncated s
        else completesWith { s with
          bs := { width := 0, count := c, const := BitVec.ofNat 32 k }
          br := { s.br with pos := s.br.pos + 72 }
          r0 := 0
          r1 := BitVec.ofNat 64 c }
      else completesWith { s with
        bs := { width := w, count := c, const := 0 }
        br := { s.br with pos := s.br.pos + 40 }
        r0 := BitVec.ofNat 64 w
        r1 := BitVec.ofNat 64 c }

/-- R282, R283, R285: BS.UNPACK, on every path: the block's codes after those already there, each of
exactly `width` bits with nothing between, and the cursor on the next byte boundary. -/
def Obligations.BsUnpackValue : Prop :=
  ∀ (s : State) (codes : List Code), s.bs.width ≤ 32 → codes.length = s.bs.count →
    (s.bs.width = 0 → ∀ c ∈ codes, c = s.bs.const) →
    (∀ c ∈ codes, s.bs.width ≠ 0 → c.toNat < 2 ^ s.bs.width) →
    (s.bs.count * s.bs.width ≤ s.br.rem →
      s.source.BitsAre s.br (codes.flatMap fun c => msbBits s.bs.width c.toNat)) →
    exec .bsUnpack s =
      if s.params.fitsOut (s.codes.length + s.bs.count) = false then failsWith .capacityExceeded s
      else if s.br.rem < s.bs.count * s.bs.width then failsWith .truncated s
      else completesWith { s with
        codes := s.codes ++ codes
        bs := { s.bs with count := 0 }
        br := { s.br with pos := 8 * ((s.br.pos + s.bs.count * s.bs.width + 7) / 8) } }

/-- R284: BS.STREAM where the blocks add up to `A0`: all their codes in order; `BS`, `R0` and `R1` are
those of the last block, and stay as they were where there is none. -/
def Obligations.BsStreamDecodesBlocks : Prop :=
  ∀ (s : State) (blocks : List PackedBlock), s.br.pos % 8 = 0 →
    s.source.HoldsBlocks s.br blocks →
    (blocks.flatMap PackedBlock.codes).length = s.a0.toNat →
    exec .bsStream s =
      if s.params.fitsOut s.a0.toNat = false then failsWith .capacityExceeded s
      else completesWith { s with
        codes := blocks.flatMap PackedBlock.codes
        br := { s.br with pos := s.br.pos + 8 * blockBytes blocks }
        bs := match blocks.getLast? with
          | some b => { width := b.width, count := 0, const := b.const }
          | none => s.bs
        r0 := match blocks.getLast? with
          | some b => BitVec.ofNat 64 b.width
          | none => s.r0
        r1 := match blocks.getLast? with
          | some b => BitVec.ofNat 64 b.codes.length
          | none => s.r1 }

/-- R284, R359: BS.STREAM where, after blocks that do not pass the total, a block header stands whose
count does: `InvalidField(13)`, and nothing changes. The header alone decides: nothing is asked of the
bytes after it. -/
def Obligations.BsStreamOverrun : Prop :=
  ∀ (s : State) (blocks : List PackedBlock) (w c k : Nat), s.br.pos % 8 = 0 →
    s.params.fitsOut s.a0.toNat = true → s.source.HoldsBlocks s.br blocks →
    w ≤ 32 → 1 ≤ c → c < 2 ^ 32 → k < 2 ^ 32 →
    let header := leBytes 1 w ++ leBytes 4 c ++ if w = 0 then leBytes 4 k else []
    8 * blockBytes blocks + 8 * header.length ≤ s.br.rem →
    s.source.Holds (s.br.lo + s.br.pos / 8 + blockBytes blocks) header →
    (blocks.flatMap PackedBlock.codes).length < s.a0.toNat →
    s.a0.toNat < (blocks.flatMap PackedBlock.codes).length + c →
    exec .bsStream s = failsWith (.invalidField 13) s

/-- R286: CODES.GET, on every path; a count of `2^64` or more has no stated image in `R1` (log
entry 4). -/
def Obligations.CodesGetCases : Prop :=
  ∀ s : State,
    (s.codes.length ≤ s.a0.toNat → exec .codesGet s = failsWith (.illegalOperand 0x53) s) ∧
    (∀ c, s.codes[s.a0.toNat]? = some c → ∃ r1,
      exec .codesGet s = completesWith { s with r0 := c.setWidth 64, r1 := r1 } ∧
      (s.codes.length < 2 ^ 64 → r1.toNat = s.codes.length))

/-! ### Header parser (45_blob_header.md) -/

/-- R110 to R112, R311, R321, R330, R41, R45: INFO of a blob that starts with a legal header: the INFO
registers hold its fields, the orchestrator its record, and nothing else changes. The kinds have the
codes, the widths and, for the integers, the ranges of R45's table. -/
def Obligations.InfoReadsHeaderLayout : Prop :=
  ([Kind.i8, .u8, .i16, .u16, .i32, .u32, .f32, .f64].map fun k => (k.code, k.bytes)) =
    [(0, 1), (1, 1), (2, 2), (3, 2), (4, 4), (5, 4), (6, 4), (7, 8)] ∧
  ([Kind.i8, .u8, .i16, .u16, .i32, .u32].map fun k => (k.minInt, k.maxInt)) =
    [(-128, 127), (0, 255), (-32768, 32767), (0, 65535), (-2147483648, 2147483647),
      (0, 4294967295)] ∧
  ∀ (s : State) (h : Header), h.legal = true → s.srcLen.toNat ≤ s.params.inSize →
    s.source.Holds 0 h.layout →
    exec .info s = completesWith { s with
      orc := { hdr := some h, phase := .start, band := 0, bandsDone := 0, maskMode := .absent,
               entropyMode := .bitStuffed }
      stage := []
      info := { version := h.version.setWidth 64, rows := h.nRows.setWidth 64,
                cols := h.nCols.setWidth 64, bands := h.nBands.setWidth 64,
                dtype := BitVec.ofNat 64 h.kind.code, nValid := h.nValid, maxZErr := h.maxZErr }
      status := { s.status with infoValid := true } }

/-- R72, R311 to R320, R330, R434: the error INFO ends with is the first of R311's checks that fails;
the orchestrator is reset and `INFO_VALID` is 0 (after `IllegalOperand` too, the model's choice, log
entry 10). -/
def Obligations.InfoHeaderChecks : Prop :=
  ∀ (s : State),
    (s.params.inSize < s.srcLen.toNat →
      exec .info s = failsWith (.illegalOperand 0x01)
        { s with status := { s.status with infoValid := false } }) ∧
    ∀ (r : RawHeader) (e : EngineError), s.srcLen.toNat ≤ s.params.inSize → r.magic.length = 6 →
      (∀ j, j < s.srcLen.toNat → j < r.layout.length → s.inMem.read j = r.layout[j]?) →
      (42 + 24 * r.nBands.toNat ≤ s.srcLen.toNat → r.desc.length = r.nBands.toNat) →
      r.error s.srcLen.toNat = some e →
      exec .info s = failsWith e { s with
        orc := Orchestrator.reset
        stage := []
        status := { s.status with infoValid := false } }

/-- R322: INFO reads no byte at or after the declared header size, whatever it ends with: it does the
same for every `IN` that agrees below it. -/
def Obligations.InfoIgnoresPayload : Prop :=
  ∀ (s t : State) (m : Memory) (bands : Nat),
    (∀ a, a < 42 + 24 * bands → m.read a = s.inMem.read a) →
    (∀ bytes, s.source.memRead 18 4 = .ok bytes → le bytes = bands) →
    exec .info s = .next t → exec .info { s with inMem := m } = .next { t with inMem := m }

/-! ### Band decode (46_band_decode.md) -/

/-- R351 to R354: BAND.BEGIN with a header, on every path, its checks in their order. -/
def Obligations.BandBeginCases : Prop :=
  ∀ (s : State) (h : Header) (d : Descriptor) (mm em : Byte), s.orc.hdr = some h →
    (s.a0.toNat < h.nBands.toNat → h.desc[s.a0.toNat]? = some d) →
    (d.offset.toNat + d.length.toNat ≤ s.srcLen.toNat → 2 ≤ d.length.toNat →
      s.source.Holds d.offset.toNat [mm, em]) →
    exec .bandBegin s =
      if ¬ ((s.orc.phase = .start ∨ s.orc.phase = .done) ∧ s.a0.toNat = s.orc.bandsDone ∧
          s.a0.toNat < h.nBands.toNat) then failsWith (.illegalCommand 0x61) s
      else if s.params.inSize < s.srcLen.toNat then failsWith (.illegalOperand 0x61) s
      else if s.params.fitsOut (h.pixels * h.nBands.toNat) = false then
        failsWith .capacityExceeded (s.withPhase .failed)
      else if s.srcLen.toNat < d.offset.toNat + d.length.toNat then
        failsWith .truncated (s.withPhase .failed)
      else if d.length.toNat < 2 then failsWith .truncated (s.withPhase .failed)
      else if 2 < mm.toNat then failsWith (.invalidField 10) (s.withPhase .failed)
      else if em.toNat = 2 then failsWith (.unsupportedFeature 1) (s.withPhase .failed)
      else if 2 < em.toNat then failsWith (.invalidField 11) (s.withPhase .failed)
      else if em.toNat = 1 ∧ h.kind ≠ .i8 ∧ h.kind ≠ .u8 then
        failsWith (.invalidField 11) (s.withPhase .failed)
      else completesWith { s with
        stage := if s.a0.toNat = 0 then [] else s.stage
        br := { lo := d.offset.toNat + 2, hi := d.offset.toNat + d.length.toNat, pos := 0,
                order := .msb }
        orc := { s.orc with
          band := s.a0.toNat
          maskMode := if mm.toNat = 0 then .absent else if mm.toNat = 1 then .raw else .rle
          entropyMode := if em.toNat = 0 then .bitStuffed else .huffman
          phase := .headerValidated } }

/-- R355, R356: BAND.MASK where the window holds a mask payload of the band's mode: the mask in slot 0
and the cursor after the payload, or `MaskCountMismatch` where its population is not the header's. -/
def Obligations.BandMaskCompletes : Prop :=
  ∀ (s : State) (h : Header) (mask : List Bool) (m : MaskPayload),
    s.orc.phase = .headerValidated → s.orc.hdr = some h → s.orc.maskMode = m.mode →
    mask.length = h.nRows.toNat * h.nCols.toNat → s.params.fitsOut mask.length = true →
    s.source.HoldsMask s.br mask m →
    exec .bandMask s =
      if popcount mask = h.nValid.toNat then completesWith { s with
        ms0 := { bits := mask, building := false }
        br := { s.br with pos := s.br.pos + m.size mask.length }
        orc := { s.orc with phase := .maskDecoded } }
      else failsWith .maskCountMismatch (s.withPhase .failed)

/-- R357 to R359: BAND.DATA where the window holds a data payload of the band's mode with the header's
number of codes: the codes, the cursor after the payload, and the block state or the Huffman table that
the payload leaves; `R0` and `R1` stay. -/
def Obligations.BandDataCompletes : Prop :=
  ∀ (s : State) (h : Header) (p : DataPayload), s.orc.phase = .maskDecoded → s.orc.hdr = some h →
    s.orc.entropyMode = p.mode → p.codes.length = h.nValid.toNat →
    s.params.fitsOut h.nValid.toNat = true → s.source.HoldsData s.br p →
    exec .bandData s = completesWith (
      match p with
      | .stuffed blocks => { s with
          codes := p.codes
          br := { s.br with pos := s.br.pos + 8 * blockBytes blocks }
          bs := match blocks.getLast? with
            | some b => { width := b.width, count := 0, const := b.const }
            | none => s.bs
          orc := { s.orc with phase := .dataDecoded } }
      | .huffman lens segLen es => { s with
          codes := p.codes
          br := { s.br with
            pos := s.br.pos + 2080 + (es.map HuffEntry.len).sum
            hi := s.br.lo + s.br.pos / 8 + 260 + segLen }
          ht := { lens := lens, tables := some (tablesOf lens) }
          orc := { s.orc with phase := .dataDecoded } })

/-- R364, R365: BAND.DEQ, on every path in its phase: the `k`-th code goes to the `k`-th valid pixel, an
invalid pixel takes the zero value, and exactly the band's elements of `STAGE` are written; a code that
has no value in the kind is `ArithmeticOverflow`; a mask and codes that do not match are refused. -/
def Obligations.BandDeqElements : Prop :=
  ∀ (s : State) (h : Header) (d : Descriptor), s.orc.phase = .dataDecoded → s.orc.hdr = some h →
    h.desc[s.orc.band]? = some d →
    (¬ (s.ms0.bits.length = h.pixels ∧ s.ms0.building = false ∧
        s.codes.length = popcount s.ms0.bits) →
      exec .bandDeq s = failsWith (.illegalCommand 0x64) s) ∧
    (s.ms0.bits.length = h.pixels → s.ms0.building = false →
      s.codes.length = popcount s.ms0.bits →
      ((∃ c ∈ s.codes, ∀ e, dequantize h d.zMin c.toNat ≠ .ok e) →
        exec .bandDeq s = failsWith .arithmeticOverflow (s.withPhase .failed)) ∧
      ∀ es, bandElements h d.zMin s.ms0.bits s.codes es →
        s.orc.band * h.pixels ≤ s.stage.length → ∃ stage : List (Option Element),
          exec .bandDeq s = completesWith { s with
            stage := stage
            orc := { s.orc with phase := .dequantized } } ∧
          ∀ j, stage[j]? =
            if s.orc.band * h.pixels ≤ j ∧ j < s.orc.band * h.pixels + h.pixels then
              some es[j - s.orc.band * h.pixels]?
            else s.stage[j]?)

/-- R366, R368: BAND.END, on every path in its phase: slot 1 is the AND of the bands' masks, bit by bit,
the table is discarded and the band is counted. -/
def Obligations.BandEndMergesMask : Prop :=
  ∀ (s : State) (h : Header), s.orc.phase = .dequantized → s.orc.hdr = some h →
    let legal := s.ms0.bits.length = h.pixels ∧ s.ms0.building = false ∧
      (s.orc.band = 0 ∨ (s.ms1.bits.length = h.pixels ∧ s.ms1.building = false))
    (¬ legal → exec .bandEnd s = failsWith (.illegalCommand 0x65) s) ∧
    (legal → ∃ bits : List Bool,
      exec .bandEnd s = completesWith { s with
        ms1 := { bits := bits, building := false }
        ht := { s.ht with tables := none }
        orc := { s.orc with bandsDone := s.orc.bandsDone + 1, phase := .done } } ∧
      bits.length = h.pixels ∧
      ∀ j, j < h.pixels → (bits[j]? = some true ↔
        s.ms0.bits[j]? = some true ∧ (s.orc.band = 0 ∨ s.ms1.bits[j]? = some true)))

/-- R372: COMMIT, on every path in its phase: the staged elements and the merged mask become the result;
with a band missing or another mask size it is refused, and with another population it fails. -/
def Obligations.CommitPublishes : Prop :=
  ∀ (s : State) (h : Header), s.orc.hdr = some h → s.orc.phase = .done →
    let legal := s.orc.bandsDone = h.nBands.toNat ∧ s.ms1.bits.length = h.pixels ∧
      s.ms1.building = false
    (¬ legal → exec .commit s = failsWith (.illegalCommand 0x67) s) ∧
    (legal → popcount s.ms1.bits ≠ h.nValid.toNat →
      exec .commit s = failsWith .maskCountMismatch (s.withPhase .failed)) ∧
    ∀ es : List Element, legal → popcount s.ms1.bits = h.nValid.toNat →
      es.length = h.nBands.toNat * h.pixels → s.stage.take es.length = es.map some →
      exec .commit s = completesWith { s with
        out := some { kind := h.kind, elems := es }
        outMask := if h.nValid.toNat = h.pixels then none else some s.ms1.bits
        status := { s.status with
          maskPresent := decide (h.nValid.toNat ≠ h.pixels)
          outValid := true } }

/-- R360 to R363, R367: DEQ.ONE, on every path with a header: the element's byte image, least
significant byte first, in `R0`; an error does not set `Failed`. What `dequantize` gives, for every
finite minimum, every tolerance that is not negative and every code, lossy and lossless, in every kind:
the element that R360 to R363 describe, or `ArithmeticOverflow`. -/
def Obligations.DeqOneCases : Prop :=
  (∀ (h : Header) (zMin : BitVec 64) (c : Nat) (z tol : ℚ), c < 2 ^ 32 →
    ieeeValue 11 52 zMin.toNat = some z → ieeeValue 11 52 h.maxZErr.toNat = some tol → 0 ≤ tol →
    ∃ r, DequantizesTo h.kind z tol c r ∧
      dequantize h zMin c =
        match r with
        | some e => .ok e
        | none => .error (.raise .arithmeticOverflow)) ∧
  ∀ (s : State) (h : Header) (d : Descriptor), s.orc.hdr = some h →
    h.desc[s.orc.band]? = some d →
    (2 ^ 32 ≤ s.a0.toNat → exec .deqOne s = failsWith (.illegalOperand 0x66) s) ∧
    (s.a0.toNat < 2 ^ 32 →
      ((∀ e, dequantize h d.zMin s.a0.toNat ≠ .ok e) →
        exec .deqOne s = failsWith .arithmeticOverflow s) ∧
      ∀ e, dequantize h d.zMin s.a0.toNat = .ok e → ∃ r0,
        exec .deqOne s = completesWith { s with r0 := r0 } ∧
        match e with
        | .int v => (r0.toNat : Int) = v % (256 ^ h.kind.bytes : Int)
        | .f32 b => r0 = b.setWidth 64
        | .f64 b => r0 = b)

/-! ### Dequantization (46_band_decode.md R360 to R363, 00_scope.md R16) -/

/-- R360, R361, R363: lossless mode: with a tolerance of either zero and an integral minimum `z`, an
integer kind decodes code `c` to exactly `z + c`, or overflows where that is outside its range. -/
def Obligations.LosslessIntegersExact : Prop :=
  ∀ (h : Header) (zMin : BitVec 64) (neg : Bool) (m : Nat) (e z : Int) (c : Nat),
    h.kind.isInteger = true → h.maxZErr = 0x0000000000000000 ∨ h.maxZErr = 0x8000000000000000 →
    floatOfBits zMin = .fin neg m e → realOf neg m e = (z : ℚ) → c < 2 ^ 32 →
    -(2 ^ 53) < z + c → z + c < 2 ^ 53 →
    dequantize h zMin c =
      if h.kind.minInt ≤ z + c ∧ z + c ≤ h.kind.maxInt then .ok (.int (z + c))
      else .error (.raise .arithmeticOverflow)

/-- R16: `roundFinite` is rounding to nearest, ties to even, in binary64 and binary32: no value of the
format is nearer, a tie goes to the even significand, and the result is infinite exactly from half a
unit past the largest finite value on. -/
def Obligations.RoundsToNearestEven : Prop :=
  ∀ f ∈ [binary64, binary32], ∀ (neg : Bool) (m : Nat) (e : Int),
    match roundFinite f neg m e with
    | .nan => False
    | .inf s => s = neg ∧
        ((2 : ℚ) ^ f.prec - 1 / 2) * (2 : ℚ) ^ f.lsbMax ≤ realOf false m e
    | .fin s n q => s = neg ∧ n < 2 ^ f.prec ∧ f.lsbMin ≤ q ∧ q ≤ f.lsbMax ∧
        realOf false m e < ((2 : ℚ) ^ f.prec - 1 / 2) * (2 : ℚ) ^ f.lsbMax ∧
        ∀ (k : Nat) (g : Int), k < 2 ^ f.prec → f.lsbMin ≤ g → g ≤ f.lsbMax →
          |realOf false n q - realOf false m e| ≤ |realOf false k g - realOf false m e| ∧
          (|realOf false n q - realOf false m e| = |realOf false k g - realOf false m e| →
            realOf false k g ≠ realOf false n q → n % 2 = 0)

/-- R16, R311: `roundHalfAway` is the nearest integer, a tie going away from zero; `finiteGe` is the order
of the real values. -/
def Obligations.RoundHalfAwayAndOrder : Prop :=
  (∀ (neg : Bool) (m : Nat) (e : Int),
    |(roundHalfAway neg m e : ℚ) - realOf neg m e| ≤ 1 / 2 ∧
    (|(roundHalfAway neg m e : ℚ) - realOf neg m e| = 1 / 2 →
      |realOf neg m e| < |(roundHalfAway neg m e : ℚ)|)) ∧
  (∀ (s t : Bool) (m n : Nat) (e g : Int),
    (FloatVal.fin s m e).finiteGe (.fin t n g) = true ↔ realOf t n g ≤ realOf s m e)

/-! ### DECODE (47_host_commands.md) -/

/-- R404: DECODE of a blob that holds a legal header and a section for every band, all with one mask:
the bands' elements one after another in `OUT`, the mask in `OUTMASK` unless every pixel is valid, the
header in the INFO registers, and the flags. -/
def Obligations.DecodeCompletes : Prop :=
  ∀ (s : State) (h : Header) (mask : List Bool)
    (bands : List (MaskPayload × DataPayload × List Element)),
    h.legal = true → s.srcLen.toNat ≤ s.params.inSize → s.source.Holds 0 h.layout →
    s.params.fitsOut (h.pixels * h.nBands.toNat) = true → mask.length = h.pixels →
    popcount mask = h.valid → bands.length = h.nBands.toNat →
    (∀ (b : Nat) (d : Descriptor) (m : MaskPayload) (p : DataPayload) (es : List Element),
      h.desc[b]? = some d → bands[b]? = some (m, p, es) →
      s.source.HoldsBand h.kind d mask m p ∧ p.codes.length = h.valid ∧
        bandElements h d.zMin mask p.codes es) →
    ∃ t, exec .decode s = .next t ∧ t.err = { code := 0, arg := 0 } ∧
      t.status = { done := true, err := false, maskPresent := decide (h.valid ≠ h.pixels),
                   infoValid := true, outValid := true } ∧
      t.out = some { kind := h.kind, elems := bands.flatMap fun x => x.2.2 } ∧
      t.outMask = (if h.valid = h.pixels then none else some mask) ∧
      t.info = infoRegsOf h ∧ t.orc.hdr = some h ∧ t.orc.phase = .done ∧
      t.orc.bandsDone = h.nBands.toNat

/-- R405: DECODE and direct mode agree: the same fault, or the same first error and unit state, and on
success the same result; with `SRC_LEN` past `IN_SIZE` both end with `IllegalOperand`, each with the opcode
of its own command: DECODE's, and that of the INFO the direct sequence begins with. -/
def Obligations.DecodeDirectAgree : Prop :=
  ∀ s : State,
    (∀ f, exec .decode s = .fault f ↔ directDecode s = .fault f) ∧
    ∀ t, exec .decode s = .next t → ∃ u, directDecode s = .next u ∧ sameUnits t u ∧
      t.err.code = u.err.code ∧ (s.srcLen.toNat ≤ s.params.inSize → t.err = u.err) ∧
      (s.params.inSize < s.srcLen.toNat →
        t.err = { code := 0x81, arg := 0x02 } ∧ u.err = { code := 0x81, arg := 0x01 }) ∧
      (t.err.code = 0 → sameResult t u)

/-- R407: DECODE is idempotent: run again, it changes nothing, whatever it ended with. -/
def Obligations.DecodeIdempotent : Prop :=
  ∀ s t : State, exec .decode s = .next t → exec .decode t = .next t

/-- R87: INFO and DECODE depend on `SRC_LEN` and `IN[0 .. SRC_LEN-1]` alone: from two states that agree
on these, the same outcome: the same fault, or the same error, and on success the same registers,
result and orchestrator. -/
def Obligations.DecodeDeterministic : Prop :=
  ∀ s t : State, sameBlob s t → ∀ i ∈ [Instr.info, Instr.decode],
    (∀ f, exec i s = .fault f ↔ exec i t = .fault f) ∧
    ∀ u, exec i s = .next u → ∃ v, exec i t = .next v ∧ u.err = v.err ∧
      u.status.infoValid = v.status.infoValid ∧
      (u.err.code = 0 → u.info = v.info ∧ u.orc = v.orc ∧ u.stage = v.stage) ∧
      (i = .decode → u.err.code = 0 → sameResult u v) ∧
      (i = .decode → u.err.code ≠ 0 →
        u.status.outValid = false ∧ u.status.maskPresent = false ∧ u.status.infoValid = false)

/-- R370, R372, R73, R74: what a successful DECODE or COMMIT leaves, from a state of the machine: an
element for every pixel of every band, and a mask of exactly the header's population wherever not every
pixel is valid. -/
def Obligations.ResultKeepsHeaderCounts : Prop :=
  ∀ (s t : State), ∀ i ∈ [Instr.commit, Instr.decode], exec i s = .next t → t.err.code = 0 →
    ∃ h buf, t.orc.hdr = some h ∧ t.out = some buf ∧ buf.kind = h.kind ∧
      buf.elems.length = h.nBands.toNat * (h.nRows.toNat * h.nCols.toNat) ∧
      (t.status.maskPresent = true ↔ h.nValid.toNat ≠ h.nRows.toNat * h.nCols.toNat) ∧
      (h.nValid.toNat = h.nRows.toNat * h.nCols.toNat → t.outMask = none) ∧
      (h.nValid.toNat ≠ h.nRows.toNat * h.nCols.toNat → ∃ bits, t.outMask = some bits ∧
        bits.length = h.nRows.toNat * h.nCols.toNat ∧ popcount bits = h.nValid.toNat)
end

