-- ==== Sys2Proof/Laws/State.lean ====
section
/-!
SUPPORT. What each state update does to each field of the state, so that no later proof unfolds a
record update.
-/

namespace Sys2Proof.Machine

/-! ### `finish` -/

@[simp] theorem State.finish_status (s : State) (e : Option EngineError) : (s.finish e).status = { s.status with done := true, err := decide ((errFieldsOf e).code ≠ 0) } := rfl
@[simp] theorem State.finish_err (s : State) (e : Option EngineError) : (s.finish e).err = errFieldsOf e := rfl
@[simp] theorem State.finish_srcLen (s : State) (e : Option EngineError) : (s.finish e).srcLen = s.srcLen := rfl
@[simp] theorem State.finish_a0 (s : State) (e : Option EngineError) : (s.finish e).a0 = s.a0 := rfl
@[simp] theorem State.finish_a1 (s : State) (e : Option EngineError) : (s.finish e).a1 = s.a1 := rfl
@[simp] theorem State.finish_a2 (s : State) (e : Option EngineError) : (s.finish e).a2 = s.a2 := rfl
@[simp] theorem State.finish_a3 (s : State) (e : Option EngineError) : (s.finish e).a3 = s.a3 := rfl
@[simp] theorem State.finish_r0 (s : State) (e : Option EngineError) : (s.finish e).r0 = s.r0 := rfl
@[simp] theorem State.finish_r1 (s : State) (e : Option EngineError) : (s.finish e).r1 = s.r1 := rfl
@[simp] theorem State.finish_info (s : State) (e : Option EngineError) : (s.finish e).info = s.info := rfl
@[simp] theorem State.finish_br (s : State) (e : Option EngineError) : (s.finish e).br = s.br := rfl
@[simp] theorem State.finish_ms0 (s : State) (e : Option EngineError) : (s.finish e).ms0 = s.ms0 := rfl
@[simp] theorem State.finish_ms1 (s : State) (e : Option EngineError) : (s.finish e).ms1 = s.ms1 := rfl
@[simp] theorem State.finish_ht (s : State) (e : Option EngineError) : (s.finish e).ht = s.ht := rfl
@[simp] theorem State.finish_codes (s : State) (e : Option EngineError) : (s.finish e).codes = s.codes := rfl
@[simp] theorem State.finish_bs (s : State) (e : Option EngineError) : (s.finish e).bs = s.bs := rfl
@[simp] theorem State.finish_orc (s : State) (e : Option EngineError) : (s.finish e).orc = s.orc := rfl
@[simp] theorem State.finish_stage (s : State) (e : Option EngineError) : (s.finish e).stage = s.stage := rfl
@[simp] theorem State.finish_out (s : State) (e : Option EngineError) : (s.finish e).out = s.out := rfl
@[simp] theorem State.finish_outMask (s : State) (e : Option EngineError) : (s.finish e).outMask = s.outMask := rfl
@[simp] theorem State.finish_inMem (s : State) (e : Option EngineError) : (s.finish e).inMem = s.inMem := rfl
@[simp] theorem State.finish_params (s : State) (e : Option EngineError) : (s.finish e).params = s.params := rfl
@[simp] theorem State.finish_port (s : State) (e : Option EngineError) : (s.finish e).port = s.port := rfl
@[simp] theorem State.finish_reply (s : State) (e : Option EngineError) : (s.finish e).reply = s.reply := rfl

/-! ### `withPhase` -/

@[simp] theorem State.withPhase_status (s : State) (p : Phase) : (s.withPhase p).status = s.status := rfl
@[simp] theorem State.withPhase_err (s : State) (p : Phase) : (s.withPhase p).err = s.err := rfl
@[simp] theorem State.withPhase_srcLen (s : State) (p : Phase) : (s.withPhase p).srcLen = s.srcLen := rfl
@[simp] theorem State.withPhase_a0 (s : State) (p : Phase) : (s.withPhase p).a0 = s.a0 := rfl
@[simp] theorem State.withPhase_a1 (s : State) (p : Phase) : (s.withPhase p).a1 = s.a1 := rfl
@[simp] theorem State.withPhase_a2 (s : State) (p : Phase) : (s.withPhase p).a2 = s.a2 := rfl
@[simp] theorem State.withPhase_a3 (s : State) (p : Phase) : (s.withPhase p).a3 = s.a3 := rfl
@[simp] theorem State.withPhase_r0 (s : State) (p : Phase) : (s.withPhase p).r0 = s.r0 := rfl
@[simp] theorem State.withPhase_r1 (s : State) (p : Phase) : (s.withPhase p).r1 = s.r1 := rfl
@[simp] theorem State.withPhase_info (s : State) (p : Phase) : (s.withPhase p).info = s.info := rfl
@[simp] theorem State.withPhase_br (s : State) (p : Phase) : (s.withPhase p).br = s.br := rfl
@[simp] theorem State.withPhase_ms0 (s : State) (p : Phase) : (s.withPhase p).ms0 = s.ms0 := rfl
@[simp] theorem State.withPhase_ms1 (s : State) (p : Phase) : (s.withPhase p).ms1 = s.ms1 := rfl
@[simp] theorem State.withPhase_ht (s : State) (p : Phase) : (s.withPhase p).ht = s.ht := rfl
@[simp] theorem State.withPhase_codes (s : State) (p : Phase) : (s.withPhase p).codes = s.codes := rfl
@[simp] theorem State.withPhase_bs (s : State) (p : Phase) : (s.withPhase p).bs = s.bs := rfl
@[simp] theorem State.withPhase_orc (s : State) (p : Phase) : (s.withPhase p).orc = { s.orc with phase := p } := rfl
@[simp] theorem State.withPhase_stage (s : State) (p : Phase) : (s.withPhase p).stage = s.stage := rfl
@[simp] theorem State.withPhase_out (s : State) (p : Phase) : (s.withPhase p).out = s.out := rfl
@[simp] theorem State.withPhase_outMask (s : State) (p : Phase) : (s.withPhase p).outMask = s.outMask := rfl
@[simp] theorem State.withPhase_inMem (s : State) (p : Phase) : (s.withPhase p).inMem = s.inMem := rfl
@[simp] theorem State.withPhase_params (s : State) (p : Phase) : (s.withPhase p).params = s.params := rfl
@[simp] theorem State.withPhase_port (s : State) (p : Phase) : (s.withPhase p).port = s.port := rfl
@[simp] theorem State.withPhase_reply (s : State) (p : Phase) : (s.withPhase p).reply = s.reply := rfl

/-! ### `resetOrchestrator` -/

@[simp] theorem State.resetOrchestrator_status (s : State) : (s.resetOrchestrator).status = s.status := rfl
@[simp] theorem State.resetOrchestrator_err (s : State) : (s.resetOrchestrator).err = s.err := rfl
@[simp] theorem State.resetOrchestrator_srcLen (s : State) : (s.resetOrchestrator).srcLen = s.srcLen := rfl
@[simp] theorem State.resetOrchestrator_a0 (s : State) : (s.resetOrchestrator).a0 = s.a0 := rfl
@[simp] theorem State.resetOrchestrator_a1 (s : State) : (s.resetOrchestrator).a1 = s.a1 := rfl
@[simp] theorem State.resetOrchestrator_a2 (s : State) : (s.resetOrchestrator).a2 = s.a2 := rfl
@[simp] theorem State.resetOrchestrator_a3 (s : State) : (s.resetOrchestrator).a3 = s.a3 := rfl
@[simp] theorem State.resetOrchestrator_r0 (s : State) : (s.resetOrchestrator).r0 = s.r0 := rfl
@[simp] theorem State.resetOrchestrator_r1 (s : State) : (s.resetOrchestrator).r1 = s.r1 := rfl
@[simp] theorem State.resetOrchestrator_info (s : State) : (s.resetOrchestrator).info = s.info := rfl
@[simp] theorem State.resetOrchestrator_br (s : State) : (s.resetOrchestrator).br = s.br := rfl
@[simp] theorem State.resetOrchestrator_ms0 (s : State) : (s.resetOrchestrator).ms0 = s.ms0 := rfl
@[simp] theorem State.resetOrchestrator_ms1 (s : State) : (s.resetOrchestrator).ms1 = s.ms1 := rfl
@[simp] theorem State.resetOrchestrator_ht (s : State) : (s.resetOrchestrator).ht = s.ht := rfl
@[simp] theorem State.resetOrchestrator_codes (s : State) : (s.resetOrchestrator).codes = s.codes := rfl
@[simp] theorem State.resetOrchestrator_bs (s : State) : (s.resetOrchestrator).bs = s.bs := rfl
@[simp] theorem State.resetOrchestrator_orc (s : State) : (s.resetOrchestrator).orc = Orchestrator.reset := rfl
@[simp] theorem State.resetOrchestrator_stage (s : State) : (s.resetOrchestrator).stage = [] := rfl
@[simp] theorem State.resetOrchestrator_out (s : State) : (s.resetOrchestrator).out = s.out := rfl
@[simp] theorem State.resetOrchestrator_outMask (s : State) : (s.resetOrchestrator).outMask = s.outMask := rfl
@[simp] theorem State.resetOrchestrator_inMem (s : State) : (s.resetOrchestrator).inMem = s.inMem := rfl
@[simp] theorem State.resetOrchestrator_params (s : State) : (s.resetOrchestrator).params = s.params := rfl
@[simp] theorem State.resetOrchestrator_port (s : State) : (s.resetOrchestrator).port = s.port := rfl
@[simp] theorem State.resetOrchestrator_reply (s : State) : (s.resetOrchestrator).reply = s.reply := rfl

/-! ### `withHeader` -/

@[simp] theorem State.withHeader_status (s : State) (h : Header) : (s.withHeader h).status = s.status := rfl
@[simp] theorem State.withHeader_err (s : State) (h : Header) : (s.withHeader h).err = s.err := rfl
@[simp] theorem State.withHeader_srcLen (s : State) (h : Header) : (s.withHeader h).srcLen = s.srcLen := rfl
@[simp] theorem State.withHeader_a0 (s : State) (h : Header) : (s.withHeader h).a0 = s.a0 := rfl
@[simp] theorem State.withHeader_a1 (s : State) (h : Header) : (s.withHeader h).a1 = s.a1 := rfl
@[simp] theorem State.withHeader_a2 (s : State) (h : Header) : (s.withHeader h).a2 = s.a2 := rfl
@[simp] theorem State.withHeader_a3 (s : State) (h : Header) : (s.withHeader h).a3 = s.a3 := rfl
@[simp] theorem State.withHeader_r0 (s : State) (h : Header) : (s.withHeader h).r0 = s.r0 := rfl
@[simp] theorem State.withHeader_r1 (s : State) (h : Header) : (s.withHeader h).r1 = s.r1 := rfl
@[simp] theorem State.withHeader_info (s : State) (h : Header) : (s.withHeader h).info = s.info := rfl
@[simp] theorem State.withHeader_br (s : State) (h : Header) : (s.withHeader h).br = s.br := rfl
@[simp] theorem State.withHeader_ms0 (s : State) (h : Header) : (s.withHeader h).ms0 = s.ms0 := rfl
@[simp] theorem State.withHeader_ms1 (s : State) (h : Header) : (s.withHeader h).ms1 = s.ms1 := rfl
@[simp] theorem State.withHeader_ht (s : State) (h : Header) : (s.withHeader h).ht = s.ht := rfl
@[simp] theorem State.withHeader_codes (s : State) (h : Header) : (s.withHeader h).codes = s.codes := rfl
@[simp] theorem State.withHeader_bs (s : State) (h : Header) : (s.withHeader h).bs = s.bs := rfl
@[simp] theorem State.withHeader_orc (s : State) (h : Header) : (s.withHeader h).orc = { s.orc with hdr := some h } := rfl
@[simp] theorem State.withHeader_stage (s : State) (h : Header) : (s.withHeader h).stage = s.stage := rfl
@[simp] theorem State.withHeader_out (s : State) (h : Header) : (s.withHeader h).out = s.out := rfl
@[simp] theorem State.withHeader_outMask (s : State) (h : Header) : (s.withHeader h).outMask = s.outMask := rfl
@[simp] theorem State.withHeader_inMem (s : State) (h : Header) : (s.withHeader h).inMem = s.inMem := rfl
@[simp] theorem State.withHeader_params (s : State) (h : Header) : (s.withHeader h).params = s.params := rfl
@[simp] theorem State.withHeader_port (s : State) (h : Header) : (s.withHeader h).port = s.port := rfl
@[simp] theorem State.withHeader_reply (s : State) (h : Header) : (s.withHeader h).reply = s.reply := rfl

/-! ### `withInfoValid` -/

@[simp] theorem State.withInfoValid_status (s : State) (b : Bool) : (s.withInfoValid b).status = { s.status with infoValid := b } := rfl
@[simp] theorem State.withInfoValid_err (s : State) (b : Bool) : (s.withInfoValid b).err = s.err := rfl
@[simp] theorem State.withInfoValid_srcLen (s : State) (b : Bool) : (s.withInfoValid b).srcLen = s.srcLen := rfl
@[simp] theorem State.withInfoValid_a0 (s : State) (b : Bool) : (s.withInfoValid b).a0 = s.a0 := rfl
@[simp] theorem State.withInfoValid_a1 (s : State) (b : Bool) : (s.withInfoValid b).a1 = s.a1 := rfl
@[simp] theorem State.withInfoValid_a2 (s : State) (b : Bool) : (s.withInfoValid b).a2 = s.a2 := rfl
@[simp] theorem State.withInfoValid_a3 (s : State) (b : Bool) : (s.withInfoValid b).a3 = s.a3 := rfl
@[simp] theorem State.withInfoValid_r0 (s : State) (b : Bool) : (s.withInfoValid b).r0 = s.r0 := rfl
@[simp] theorem State.withInfoValid_r1 (s : State) (b : Bool) : (s.withInfoValid b).r1 = s.r1 := rfl
@[simp] theorem State.withInfoValid_info (s : State) (b : Bool) : (s.withInfoValid b).info = s.info := rfl
@[simp] theorem State.withInfoValid_br (s : State) (b : Bool) : (s.withInfoValid b).br = s.br := rfl
@[simp] theorem State.withInfoValid_ms0 (s : State) (b : Bool) : (s.withInfoValid b).ms0 = s.ms0 := rfl
@[simp] theorem State.withInfoValid_ms1 (s : State) (b : Bool) : (s.withInfoValid b).ms1 = s.ms1 := rfl
@[simp] theorem State.withInfoValid_ht (s : State) (b : Bool) : (s.withInfoValid b).ht = s.ht := rfl
@[simp] theorem State.withInfoValid_codes (s : State) (b : Bool) : (s.withInfoValid b).codes = s.codes := rfl
@[simp] theorem State.withInfoValid_bs (s : State) (b : Bool) : (s.withInfoValid b).bs = s.bs := rfl
@[simp] theorem State.withInfoValid_orc (s : State) (b : Bool) : (s.withInfoValid b).orc = s.orc := rfl
@[simp] theorem State.withInfoValid_stage (s : State) (b : Bool) : (s.withInfoValid b).stage = s.stage := rfl
@[simp] theorem State.withInfoValid_out (s : State) (b : Bool) : (s.withInfoValid b).out = s.out := rfl
@[simp] theorem State.withInfoValid_outMask (s : State) (b : Bool) : (s.withInfoValid b).outMask = s.outMask := rfl
@[simp] theorem State.withInfoValid_inMem (s : State) (b : Bool) : (s.withInfoValid b).inMem = s.inMem := rfl
@[simp] theorem State.withInfoValid_params (s : State) (b : Bool) : (s.withInfoValid b).params = s.params := rfl
@[simp] theorem State.withInfoValid_port (s : State) (b : Bool) : (s.withInfoValid b).port = s.port := rfl
@[simp] theorem State.withInfoValid_reply (s : State) (b : Bool) : (s.withInfoValid b).reply = s.reply := rfl

/-! ### `clearResultFlags` -/

@[simp] theorem State.clearResultFlags_status (s : State) : (s.clearResultFlags).status = { s.status with infoValid := false, outValid := false, maskPresent := false } := rfl
@[simp] theorem State.clearResultFlags_err (s : State) : (s.clearResultFlags).err = s.err := rfl
@[simp] theorem State.clearResultFlags_srcLen (s : State) : (s.clearResultFlags).srcLen = s.srcLen := rfl
@[simp] theorem State.clearResultFlags_a0 (s : State) : (s.clearResultFlags).a0 = s.a0 := rfl
@[simp] theorem State.clearResultFlags_a1 (s : State) : (s.clearResultFlags).a1 = s.a1 := rfl
@[simp] theorem State.clearResultFlags_a2 (s : State) : (s.clearResultFlags).a2 = s.a2 := rfl
@[simp] theorem State.clearResultFlags_a3 (s : State) : (s.clearResultFlags).a3 = s.a3 := rfl
@[simp] theorem State.clearResultFlags_r0 (s : State) : (s.clearResultFlags).r0 = s.r0 := rfl
@[simp] theorem State.clearResultFlags_r1 (s : State) : (s.clearResultFlags).r1 = s.r1 := rfl
@[simp] theorem State.clearResultFlags_info (s : State) : (s.clearResultFlags).info = s.info := rfl
@[simp] theorem State.clearResultFlags_br (s : State) : (s.clearResultFlags).br = s.br := rfl
@[simp] theorem State.clearResultFlags_ms0 (s : State) : (s.clearResultFlags).ms0 = s.ms0 := rfl
@[simp] theorem State.clearResultFlags_ms1 (s : State) : (s.clearResultFlags).ms1 = s.ms1 := rfl
@[simp] theorem State.clearResultFlags_ht (s : State) : (s.clearResultFlags).ht = s.ht := rfl
@[simp] theorem State.clearResultFlags_codes (s : State) : (s.clearResultFlags).codes = s.codes := rfl
@[simp] theorem State.clearResultFlags_bs (s : State) : (s.clearResultFlags).bs = s.bs := rfl
@[simp] theorem State.clearResultFlags_orc (s : State) : (s.clearResultFlags).orc = s.orc := rfl
@[simp] theorem State.clearResultFlags_stage (s : State) : (s.clearResultFlags).stage = s.stage := rfl
@[simp] theorem State.clearResultFlags_out (s : State) : (s.clearResultFlags).out = s.out := rfl
@[simp] theorem State.clearResultFlags_outMask (s : State) : (s.clearResultFlags).outMask = s.outMask := rfl
@[simp] theorem State.clearResultFlags_inMem (s : State) : (s.clearResultFlags).inMem = s.inMem := rfl
@[simp] theorem State.clearResultFlags_params (s : State) : (s.clearResultFlags).params = s.params := rfl
@[simp] theorem State.clearResultFlags_port (s : State) : (s.clearResultFlags).port = s.port := rfl
@[simp] theorem State.clearResultFlags_reply (s : State) : (s.clearResultFlags).reply = s.reply := rfl

/-! ### `softReset` -/

@[simp] theorem State.softReset_status (s : State) : (s.softReset).status = State.reset.status := rfl
@[simp] theorem State.softReset_err (s : State) : (s.softReset).err = State.reset.err := rfl
@[simp] theorem State.softReset_srcLen (s : State) : (s.softReset).srcLen = State.reset.srcLen := rfl
@[simp] theorem State.softReset_a0 (s : State) : (s.softReset).a0 = State.reset.a0 := rfl
@[simp] theorem State.softReset_a1 (s : State) : (s.softReset).a1 = State.reset.a1 := rfl
@[simp] theorem State.softReset_a2 (s : State) : (s.softReset).a2 = State.reset.a2 := rfl
@[simp] theorem State.softReset_a3 (s : State) : (s.softReset).a3 = State.reset.a3 := rfl
@[simp] theorem State.softReset_r0 (s : State) : (s.softReset).r0 = State.reset.r0 := rfl
@[simp] theorem State.softReset_r1 (s : State) : (s.softReset).r1 = State.reset.r1 := rfl
@[simp] theorem State.softReset_info (s : State) : (s.softReset).info = State.reset.info := rfl
@[simp] theorem State.softReset_br (s : State) : (s.softReset).br = State.reset.br := rfl
@[simp] theorem State.softReset_ms0 (s : State) : (s.softReset).ms0 = State.reset.ms0 := rfl
@[simp] theorem State.softReset_ms1 (s : State) : (s.softReset).ms1 = State.reset.ms1 := rfl
@[simp] theorem State.softReset_ht (s : State) : (s.softReset).ht = State.reset.ht := rfl
@[simp] theorem State.softReset_codes (s : State) : (s.softReset).codes = State.reset.codes := rfl
@[simp] theorem State.softReset_bs (s : State) : (s.softReset).bs = State.reset.bs := rfl
@[simp] theorem State.softReset_orc (s : State) : (s.softReset).orc = State.reset.orc := rfl
@[simp] theorem State.softReset_stage (s : State) : (s.softReset).stage = State.reset.stage := rfl
@[simp] theorem State.softReset_out (s : State) : (s.softReset).out = State.reset.out := rfl
@[simp] theorem State.softReset_outMask (s : State) : (s.softReset).outMask = State.reset.outMask := rfl
@[simp] theorem State.softReset_inMem (s : State) : (s.softReset).inMem = s.inMem := rfl
@[simp] theorem State.softReset_params (s : State) : (s.softReset).params = s.params := rfl
@[simp] theorem State.softReset_port (s : State) : (s.softReset).port = s.port := rfl
@[simp] theorem State.softReset_reply (s : State) : (s.softReset).reply = s.reply := rfl

/-! ### `platformReset` -/

@[simp] theorem State.platformReset_status (s : State) : (s.platformReset).status = State.reset.status := rfl
@[simp] theorem State.platformReset_err (s : State) : (s.platformReset).err = State.reset.err := rfl
@[simp] theorem State.platformReset_srcLen (s : State) : (s.platformReset).srcLen = State.reset.srcLen := rfl
@[simp] theorem State.platformReset_a0 (s : State) : (s.platformReset).a0 = State.reset.a0 := rfl
@[simp] theorem State.platformReset_a1 (s : State) : (s.platformReset).a1 = State.reset.a1 := rfl
@[simp] theorem State.platformReset_a2 (s : State) : (s.platformReset).a2 = State.reset.a2 := rfl
@[simp] theorem State.platformReset_a3 (s : State) : (s.platformReset).a3 = State.reset.a3 := rfl
@[simp] theorem State.platformReset_r0 (s : State) : (s.platformReset).r0 = State.reset.r0 := rfl
@[simp] theorem State.platformReset_r1 (s : State) : (s.platformReset).r1 = State.reset.r1 := rfl
@[simp] theorem State.platformReset_info (s : State) : (s.platformReset).info = State.reset.info := rfl
@[simp] theorem State.platformReset_br (s : State) : (s.platformReset).br = State.reset.br := rfl
@[simp] theorem State.platformReset_ms0 (s : State) : (s.platformReset).ms0 = State.reset.ms0 := rfl
@[simp] theorem State.platformReset_ms1 (s : State) : (s.platformReset).ms1 = State.reset.ms1 := rfl
@[simp] theorem State.platformReset_ht (s : State) : (s.platformReset).ht = State.reset.ht := rfl
@[simp] theorem State.platformReset_codes (s : State) : (s.platformReset).codes = State.reset.codes := rfl
@[simp] theorem State.platformReset_bs (s : State) : (s.platformReset).bs = State.reset.bs := rfl
@[simp] theorem State.platformReset_orc (s : State) : (s.platformReset).orc = State.reset.orc := rfl
@[simp] theorem State.platformReset_stage (s : State) : (s.platformReset).stage = State.reset.stage := rfl
@[simp] theorem State.platformReset_out (s : State) : (s.platformReset).out = State.reset.out := rfl
@[simp] theorem State.platformReset_outMask (s : State) : (s.platformReset).outMask = State.reset.outMask := rfl
@[simp] theorem State.platformReset_inMem (s : State) : (s.platformReset).inMem = State.reset.inMem := rfl
@[simp] theorem State.platformReset_params (s : State) : (s.platformReset).params = s.params := rfl
@[simp] theorem State.platformReset_port (s : State) : (s.platformReset).port = s.port := rfl
@[simp] theorem State.platformReset_reply (s : State) : (s.platformReset).reply = s.reply := rfl

/-! ### `setMask` -/

@[simp] theorem State.setMask_status (s : State) (sl : Slot) (m : BitMask) :
    (s.setMask sl m).status = s.status := by cases sl <;> rfl
@[simp] theorem State.setMask_err (s : State) (sl : Slot) (m : BitMask) :
    (s.setMask sl m).err = s.err := by cases sl <;> rfl
@[simp] theorem State.setMask_srcLen (s : State) (sl : Slot) (m : BitMask) :
    (s.setMask sl m).srcLen = s.srcLen := by cases sl <;> rfl
@[simp] theorem State.setMask_a0 (s : State) (sl : Slot) (m : BitMask) :
    (s.setMask sl m).a0 = s.a0 := by cases sl <;> rfl
@[simp] theorem State.setMask_a1 (s : State) (sl : Slot) (m : BitMask) :
    (s.setMask sl m).a1 = s.a1 := by cases sl <;> rfl
@[simp] theorem State.setMask_a2 (s : State) (sl : Slot) (m : BitMask) :
    (s.setMask sl m).a2 = s.a2 := by cases sl <;> rfl
@[simp] theorem State.setMask_a3 (s : State) (sl : Slot) (m : BitMask) :
    (s.setMask sl m).a3 = s.a3 := by cases sl <;> rfl
@[simp] theorem State.setMask_r0 (s : State) (sl : Slot) (m : BitMask) :
    (s.setMask sl m).r0 = s.r0 := by cases sl <;> rfl
@[simp] theorem State.setMask_r1 (s : State) (sl : Slot) (m : BitMask) :
    (s.setMask sl m).r1 = s.r1 := by cases sl <;> rfl
@[simp] theorem State.setMask_info (s : State) (sl : Slot) (m : BitMask) :
    (s.setMask sl m).info = s.info := by cases sl <;> rfl
@[simp] theorem State.setMask_br (s : State) (sl : Slot) (m : BitMask) :
    (s.setMask sl m).br = s.br := by cases sl <;> rfl
@[simp] theorem State.setMask_zero_ms0 (s : State) (m : BitMask) : (s.setMask .zero m).ms0 = m := rfl
@[simp] theorem State.setMask_one_ms0 (s : State) (m : BitMask) : (s.setMask .one m).ms0 = s.ms0 := rfl
@[simp] theorem State.setMask_zero_ms1 (s : State) (m : BitMask) : (s.setMask .zero m).ms1 = s.ms1 := rfl
@[simp] theorem State.setMask_one_ms1 (s : State) (m : BitMask) : (s.setMask .one m).ms1 = m := rfl
@[simp] theorem State.setMask_ht (s : State) (sl : Slot) (m : BitMask) :
    (s.setMask sl m).ht = s.ht := by cases sl <;> rfl
@[simp] theorem State.setMask_codes (s : State) (sl : Slot) (m : BitMask) :
    (s.setMask sl m).codes = s.codes := by cases sl <;> rfl
@[simp] theorem State.setMask_bs (s : State) (sl : Slot) (m : BitMask) :
    (s.setMask sl m).bs = s.bs := by cases sl <;> rfl
@[simp] theorem State.setMask_orc (s : State) (sl : Slot) (m : BitMask) :
    (s.setMask sl m).orc = s.orc := by cases sl <;> rfl
@[simp] theorem State.setMask_stage (s : State) (sl : Slot) (m : BitMask) :
    (s.setMask sl m).stage = s.stage := by cases sl <;> rfl
@[simp] theorem State.setMask_out (s : State) (sl : Slot) (m : BitMask) :
    (s.setMask sl m).out = s.out := by cases sl <;> rfl
@[simp] theorem State.setMask_outMask (s : State) (sl : Slot) (m : BitMask) :
    (s.setMask sl m).outMask = s.outMask := by cases sl <;> rfl
@[simp] theorem State.setMask_inMem (s : State) (sl : Slot) (m : BitMask) :
    (s.setMask sl m).inMem = s.inMem := by cases sl <;> rfl
@[simp] theorem State.setMask_params (s : State) (sl : Slot) (m : BitMask) :
    (s.setMask sl m).params = s.params := by cases sl <;> rfl
@[simp] theorem State.setMask_port (s : State) (sl : Slot) (m : BitMask) :
    (s.setMask sl m).port = s.port := by cases sl <;> rfl
@[simp] theorem State.setMask_reply (s : State) (sl : Slot) (m : BitMask) :
    (s.setMask sl m).reply = s.reply := by cases sl <;> rfl

/-- Reading a slot after writing it. -/
@[simp] theorem State.mask_setMask_same (s : State) (sl : Slot) (m : BitMask) :
    (s.setMask sl m).mask sl = m := by cases sl <;> rfl

/-- Writing one slot leaves the other. -/
theorem State.mask_setMask_other (s : State) {sl sl' : Slot} (m : BitMask) (h : sl' ≠ sl) :
    (s.setMask sl m).mask sl' = s.mask sl' := by
  cases sl <;> cases sl' <;> first | rfl | exact absurd rfl h

/-! ### `publishInfo` -/

/-- Publishing a header writes the INFO registers and `STATUS.INFO_VALID`. -/
theorem State.publishInfo_some {s : State} {h : Header} (hh : s.orc.hdr = some h) :
    s.publishInfo =
      { s with info := infoRegsOf h, status := { s.status with infoValid := true } } := by
  simp [State.publishInfo, hh]

/-- Without a header nothing is published. -/
theorem State.publishInfo_none {s : State} (hh : s.orc.hdr = none) : s.publishInfo = s := by
  simp [State.publishInfo, hh]

end Sys2Proof.Machine
end

