-- ==== Sys2Proof/Laws/Ops.lean ====
section
/-!
SUPPORT. Once for each shared operation, everything it can do: the ends of a command, the bounded reads
of `IN`, and the stream functions of the BitReader.
-/

namespace Sys2Proof.Machine

/-! ### `Except` -/

@[simp] theorem except_ok_bind {ε α β : Type} (a : α) (f : α → Except ε β) :
    (Except.ok a >>= f) = f a := rfl

@[simp] theorem except_error_bind {ε α β : Type} (e : ε) (f : α → Except ε β) :
    ((Except.error e : Except ε α) >>= f) = .error e := rfl

/-- A sequence succeeds exactly when its first part does and the rest does with its answer. -/
theorem except_bind_ok {ε α β : Type} {x : Except ε α} {f : α → Except ε β} {b : β} :
    (x >>= f) = .ok b ↔ ∃ a, x = .ok a ∧ f a = .ok b := by
  cases x with
  | error e => simp
  | ok a => simp

/-- A sequence ends with an error where its first part does, or the rest does. -/
theorem except_bind_error {ε α β : Type} {x : Except ε α} {f : α → Except ε β} {e : ε} :
    (x >>= f) = .error e ↔ x = .error e ∨ ∃ a, x = .ok a ∧ f a = .error e := by
  cases x with
  | error e' => simp
  | ok a => simp

/-! ### `ensure` -/

/-- `assert` as the choice it is. -/
theorem ensure_bind {α : Type} (c : Prop) [Decidable c] (stop : Stop) (f : Unit → Except Stop α) :
    (ensure c stop >>= f) = if c then f () else .error stop := by
  by_cases h : c <;> simp [ensure, h]

/-- An assertion that holds. -/
theorem ensure_true {c : Prop} [Decidable c] (stop : Stop) (h : c) : ensure c stop = .ok () := by
  simp [ensure, h]

/-- An assertion that does not hold. -/
theorem ensure_false {c : Prop} [Decidable c] (stop : Stop) (h : ¬c) :
    ensure c stop = .error stop := by
  simp [ensure, h]

/-- When an assertion passes. -/
theorem ensure_ok_iff {c : Prop} [Decidable c] {stop : Stop} {u : Unit} :
    ensure c stop = .ok u ↔ c := by
  by_cases h : c <;> simp [ensure, h]

/-! ### Ends of a command -/

@[simp] theorem runAt_ok (s t : State) : runAt s (.ok t) = .done t := rfl
@[simp] theorem runAt_raise (s : State) (e : EngineError) :
    runAt s (.error (.raise e)) = .stopped e s := rfl
@[simp] theorem runAt_fail (s : State) (e : EngineError) :
    runAt s (.error (.fail e)) = .stopped e (s.withPhase .failed) := rfl
@[simp] theorem runAt_fault (s : State) (f : Fault) : runAt s (.error (.fault f)) = .fault f := rfl

@[simp] theorem andThen_done (s : State) (k : State → Run) : (Run.done s).andThen k = k s := rfl
@[simp] theorem andThen_stopped (e : EngineError) (s : State) (k : State → Run) :
    (Run.stopped e s).andThen k = .stopped e s := rfl
@[simp] theorem andThen_fault (f : Fault) (k : State → Run) : (Run.fault f).andThen k = .fault f := rfl

@[simp] theorem complete_done (s : State) : (Run.done s).complete = .next (s.finish none) := rfl
@[simp] theorem complete_stopped (e : EngineError) (s : State) :
    (Run.stopped e s).complete = .next (s.finish (some e)) := rfl
@[simp] theorem complete_fault (f : Fault) : (Run.fault f).complete = .fault f := rfl

/-- A sequence of rules is done exactly when both parts are. -/
theorem andThen_eq_done {r : Run} {k : State → Run} {t : State} :
    r.andThen k = .done t ↔ ∃ s, r = .done s ∧ k s = .done t := by
  cases r <;> simp

/-- Everything a run's end can be. -/
theorem complete_eq_next {r : Run} {t : State} :
    r.complete = .next t ↔
      (∃ u, r = .done u ∧ t = u.finish none) ∨
      (∃ e u, r = .stopped e u ∧ t = u.finish (some e)) := by
  cases r <;> simp [eq_comm]

/-- Everything a command that checks before it writes can do. -/
theorem command_eq_next {s t : State} {r : Except Stop State} :
    command s r = .next t ↔
      (∃ u, r = .ok u ∧ t = u.finish none) ∨
      (∃ e, r = .error (.raise e) ∧ t = s.finish (some e)) ∨
      (∃ e, r = .error (.fail e) ∧ t = (s.withPhase .failed).finish (some e)) := by
  unfold command
  rcases r with (e | e | f) | u <;> simp [runAt, eq_comm]

/-- A command that checks before it writes is never refused. -/
theorem command_ne_refused (s : State) (r : Except Stop State) (x : Refusal) :
    command s r ≠ .refused x := by
  unfold command
  rcases r with (e | e | f) | u <;> simp [runAt]

@[simp] theorem orFail_ok {α : Type} (a : α) : orFail (.ok a) = .ok a := rfl

/-- A body's success is the step's. -/
theorem orFail_eq_ok {α : Type} {x : Except Stop α} {a : α} : orFail x = .ok a ↔ x = .ok a := by
  rcases x with (e | e | f) | a <;> simp [orFail]

/-- A step of an orchestrator rule never ends with a plain `raise`. -/
theorem orFail_ne_raise {α : Type} (x : Except Stop α) (e : EngineError) :
    orFail x ≠ .error (.raise e) := by
  rcases x with (e | e | f) | a <;> simp [orFail]

/-! ### Registers and capacities -/

/-- A result that fits the register is stored as it is. -/
theorem toReg_of_lt {v : Nat} (h : v < 2 ^ 64) : toReg v = BitVec.ofNat 64 v := if_pos h

/-- The register holds the result where it fits. -/
theorem toReg_toNat {v : Nat} (h : v < 2 ^ 64) : (toReg v).toNat = v := by
  rw [toReg_of_lt h, BitVec.toNat_ofNat]
  exact Nat.mod_eq_of_lt h

@[simp] theorem fitsOut_zero (p : Params) : p.fitsOut 0 = true := rfl

/-- The capacity check against a bound. -/
theorem fitsOut_iff (p : Params) (n : Nat) :
    p.fitsOut n = true ↔ ∀ c, p.outCapacity = some c → n ≤ c := by
  cases n with
  | zero => simp
  | succ m => cases h : p.outCapacity <;> simp [Params.fitsOut, h]

/-- What fits keeps fitting when it shrinks. -/
theorem fitsOut_mono {p : Params} {m n : Nat} (h : m ≤ n) (hn : p.fitsOut n = true) :
    p.fitsOut m = true :=
  (fitsOut_iff p m).2 fun c hc => h.trans ((fitsOut_iff p n).1 hn c hc)

/-- The input size check. -/
theorem fitsIn_iff (p : Params) (n : Nat) : p.fitsIn n = true ↔ n ≤ p.inSize := by
  simp only [Params.fitsIn, Bool.or_eq_true, beq_iff_eq, decide_eq_true_eq]
  omega

/-! ### Reads of `IN` -/

/-- When a byte is read. -/
theorem byte_eq_ok {src : Source} {a : Nat} {b : Byte} :
    src.byte a = .ok b ↔ src.mem.read a = some b := by
  unfold Source.byte
  cases src.mem.read a <;> simp

/-- The only way a byte's read ends early is the fault of a location without a value. -/
theorem byte_eq_error {src : Source} {a : Nat} {st : Stop} :
    src.byte a = .error st ↔ src.mem.read a = none ∧ st = .fault (.inNoValue a) := by
  unfold Source.byte
  cases src.mem.read a <;> simp [eq_comm]

/-- When bytes are read: each is there, in order. -/
theorem collect_eq_ok {src : Source} {n a : Nat} {bytes : List Byte} :
    src.collect a n = .ok bytes ↔
      bytes.length = n ∧ ∀ j b, bytes[j]? = some b → src.mem.read (a + j) = some b := by
  induction n generalizing a bytes with
  | zero =>
    simp only [Source.collect, Except.ok.injEq]
    constructor
    · rintro rfl; simp
    · rintro ⟨h, -⟩; exact (List.eq_nil_of_length_eq_zero h).symm
  | succ n ih =>
    simp only [Source.collect, except_bind_ok, byte_eq_ok, ih, Except.ok.injEq]
    constructor
    · rintro ⟨b, hb, rest, ⟨hl, hr⟩, rfl⟩
      refine ⟨by simp [hl], fun j c hj => ?_⟩
      cases j with
      | zero => simp at hj; subst hj; simpa using hb
      | succ j =>
        have := hr j c (by simpa using hj)
        rwa [show a + 1 + j = a + (j + 1) by omega] at this
    · rintro ⟨hl, hr⟩
      cases bytes with
      | nil => simp at hl
      | cons b rest =>
        refine ⟨b, by simpa using hr 0 b rfl, rest, ⟨by simpa using hl, fun j c hj => ?_⟩, rfl⟩
        rw [show a + 1 + j = a + (j + 1) by omega]
        exact hr (j + 1) c (by simpa using hj)

/-- Everything `MemRead` can answer: bytes inside the blob, each with a value. -/
theorem memRead_eq_ok {src : Source} {a n : Nat} {bytes : List Byte} :
    src.memRead a n = .ok bytes ↔
      (n = 0 ∨ a + n ≤ src.len) ∧ bytes.length = n ∧
        ∀ j b, bytes[j]? = some b → src.mem.read (a + j) = some b := by
  simp only [Source.memRead, except_bind_ok, ensure_ok_iff, collect_eq_ok]
  constructor
  · rintro ⟨_, h, h'⟩; exact ⟨h, h'⟩
  · rintro ⟨h, h'⟩; exact ⟨(), h, h'⟩

/-- `MemRead` past `SRC_LEN` is `Truncated` (20_memory.md R71). -/
theorem memRead_truncated {src : Source} {a n : Nat} (hn : n ≠ 0) (h : src.len < a + n) :
    src.memRead a n = .error (.raise .truncated) := by
  rw [Source.memRead, ensure_bind, if_neg]
  omega

/-- A little-endian value is below `256` to the number of its bytes. -/
theorem le_lt (bytes : List Byte) : le bytes < 256 ^ bytes.length := by
  induction bytes with
  | nil => simp [le]
  | cons b rest ih =>
    have hb : b.toNat < 256 := by simpa using b.isLt
    simp only [le, List.length_cons, pow_succ]
    omega

/-- Everything `uint` can answer: the value of bytes inside the blob. -/
theorem uint_eq_ok {src : Source} {a n v : Nat} :
    src.uint a n = .ok v ↔ ∃ bytes, src.memRead a n = .ok bytes ∧ le bytes = v := by
  simp only [Source.uint, except_bind_ok, Except.ok.injEq]

/-- A value read from `n` bytes fits `n` bytes. -/
theorem uint_lt {src : Source} {a n v : Nat} (h : src.uint a n = .ok v) : v < 256 ^ n := by
  obtain ⟨bytes, hb, rfl⟩ := uint_eq_ok.1 h
  obtain ⟨-, hl, -⟩ := memRead_eq_ok.1 hb
  exact hl ▸ le_lt bytes

/-! ### The BitReader's stream functions -/

@[simp] theorem advance_lo (br : BitReader) (n : Nat) : (br.advance n).lo = br.lo := rfl
@[simp] theorem advance_hi (br : BitReader) (n : Nat) : (br.advance n).hi = br.hi := rfl
@[simp] theorem advance_pos (br : BitReader) (n : Nat) : (br.advance n).pos = br.pos + n := rfl
@[simp] theorem advance_order (br : BitReader) (n : Nat) : (br.advance n).order = br.order := rfl
@[simp] theorem advance_zero (br : BitReader) : br.advance 0 = br := rfl

/-- Two moves are one. -/
@[simp] theorem advance_advance (br : BitReader) (m n : Nat) :
    (br.advance m).advance n = br.advance (m + n) := by
  simp [BitReader.advance, Nat.add_assoc]

/-- The bits left after a move. -/
@[simp] theorem rem_advance (br : BitReader) (n : Nat) : (br.advance n).rem = br.rem - n := by
  simp only [BitReader.rem, advance_hi, advance_lo, advance_pos]
  omega

/-- The cursor is on a byte boundary. -/
theorem aligned_iff (br : BitReader) : br.aligned = true ↔ br.pos % 8 = 0 := by
  simp [BitReader.aligned]

/-- An aligned cursor stays aligned over whole bytes. -/
theorem aligned_advance {br : BitReader} (n : Nat) (h : br.aligned = true) :
    (br.advance (8 * n)).aligned = true := by
  rw [aligned_iff] at *
  simp only [advance_pos]
  omega

/-- `BR.ALIGN` leaves the cursor aligned. -/
theorem alignUp_aligned (br : BitReader) : br.alignUp.aligned = true := by
  simp [aligned_iff, BitReader.alignUp]

/-- `BR.ALIGN` does not move an aligned cursor (40_bitreader.md R160). -/
theorem alignUp_of_aligned {br : BitReader} (h : br.aligned = true) : br.alignUp = br := by
  rw [aligned_iff] at h
  have : 8 * ceil8 br.pos = br.pos := by unfold ceil8; omega
  simp [BitReader.alignUp, this]

/-- When stream bits are read: each byte they touch is there. -/
theorem collectBits_eq_ok {src : Source} {lo n k : Nat} {ord : BitOrder} {bits : List Bool} :
    src.collectBits lo ord k n = .ok bits ↔
      bits.length = n ∧ ∀ j c, bits[j]? = some c →
        ∃ b, src.mem.read (lo + (k + j) / 8) = some b ∧ bitOfByte b (k + j) ord = c := by
  induction n generalizing k bits with
  | zero =>
    simp only [Source.collectBits, Except.ok.injEq]
    constructor
    · rintro rfl; simp
    · rintro ⟨h, -⟩; exact (List.eq_nil_of_length_eq_zero h).symm
  | succ n ih =>
    simp only [Source.collectBits, Source.bitAt, except_bind_ok, byte_eq_ok, ih, Except.ok.injEq]
    constructor
    · rintro ⟨c, ⟨b, hb, rfl⟩, rest, ⟨hl, hr⟩, rfl⟩
      refine ⟨by simp [hl], fun j d hj => ?_⟩
      cases j with
      | zero => simp at hj; exact ⟨b, hb, hj⟩
      | succ j =>
        have := hr j d (by simpa using hj)
        rwa [show k + 1 + j = k + (j + 1) by omega] at this
    · rintro ⟨hl, hr⟩
      cases bits with
      | nil => simp at hl
      | cons c rest =>
        obtain ⟨b, hb, hc⟩ := hr 0 c rfl
        refine ⟨c, ⟨b, hb, hc⟩, rest, ⟨by simpa using hl, fun j d hj => ?_⟩, rfl⟩
        rw [show k + 1 + j = k + (j + 1) by omega]
        exact hr (j + 1) d (by simpa using hj)

/-- Everything a read of stream bits can answer. -/
theorem nextBits_eq_ok {src : Source} {br : BitReader} {n : Nat} {ord : BitOrder}
    {bits : List Bool} :
    src.nextBits br n ord = .ok bits ↔
      (n = 0 ∨ br.lo + (br.pos + n - 1) / 8 < src.len) ∧ bits.length = n ∧
        ∀ j c, bits[j]? = some c →
          ∃ b, src.mem.read (br.lo + (br.pos + j) / 8) = some b ∧
            bitOfByte b (br.pos + j) ord = c := by
  simp only [Source.nextBits, except_bind_ok, ensure_ok_iff, collectBits_eq_ok]
  constructor
  · rintro ⟨_, h, h'⟩; exact ⟨h, h'⟩
  · rintro ⟨h, h'⟩; exact ⟨(), h, h'⟩

/-- Everything `peekBits` can answer. -/
theorem peekBits_eq_ok {src : Source} {br : BitReader} {n v : Nat} {ord : BitOrder} :
    src.peekBits br n ord = .ok v ↔
      ∃ bits, src.nextBits br n ord = .ok bits ∧ bitsValue ord bits = v := by
  simp only [Source.peekBits, except_bind_ok, Except.ok.injEq]

/-- Everything `readBits` can answer (40_bitreader.md R154). -/
theorem readBits_eq_ok {src : Source} {br br' : BitReader} {n v : Nat} {ord : BitOrder} :
    src.readBits br n ord = .ok (v, br') ↔
      n ≤ br.rem ∧ src.peekBits br n ord = .ok v ∧ br' = br.advance n := by
  simp only [Source.readBits, except_bind_ok, ensure_ok_iff, Except.ok.injEq, Prod.mk.injEq]
  constructor
  · rintro ⟨_, h, w, hw, rfl, rfl⟩; exact ⟨h, hw, rfl⟩
  · rintro ⟨h, hw, rfl⟩; exact ⟨(), h, v, hw, rfl, rfl⟩

/-- Everything `readBytesLE` can answer (40_bitreader.md R155). -/
theorem readBytesLE_eq_ok {src : Source} {br br' : BitReader} {k v : Nat} {op : BitVec 8} :
    src.readBytesLE br k op = .ok (v, br') ↔
      br.aligned = true ∧ 8 * k ≤ br.rem ∧ src.uint br.cur k = .ok v ∧
        br' = br.advance (8 * k) := by
  simp only [Source.readBytesLE, except_bind_ok, ensure_ok_iff, Except.ok.injEq, Prod.mk.injEq]
  constructor
  · rintro ⟨_, ha, _, h, w, hw, rfl, rfl⟩; exact ⟨ha, h, hw, rfl⟩
  · rintro ⟨ha, h, hw, rfl⟩; exact ⟨(), ha, (), h, v, hw, rfl, rfl⟩

/-- An `MSB` value is below two to the number of its bits. -/
theorem msbValue_lt (bits : List Bool) : msbValue bits < 2 ^ bits.length := by
  have h : ∀ (l : List Bool) (v : Nat),
      l.foldl (fun v b => 2 * v + b.toNat) v < (v + 1) * 2 ^ l.length := by
    intro l
    induction l with
    | nil => simp
    | cons b rest ih =>
      intro v
      have hb : b.toNat < 2 := Bool.toNat_lt b
      calc _ < (2 * v + b.toNat + 1) * 2 ^ rest.length := ih _
        _ ≤ (2 * (v + 1)) * 2 ^ rest.length := Nat.mul_le_mul_right _ (by omega)
        _ = (v + 1) * 2 ^ (b :: rest).length := by simp [pow_succ]; ring
  simpa [msbValue] using h bits 0

/-- An `LSB` value is below two to the number of its bits. -/
theorem lsbValue_lt (bits : List Bool) : lsbValue bits < 2 ^ bits.length := by
  induction bits with
  | nil => simp [lsbValue]
  | cons b rest ih =>
    have hb : b.toNat < 2 := Bool.toNat_lt b
    simp only [lsbValue, List.length_cons, pow_succ]
    omega

/-- A value of `n` stream bits is below `2^n`. -/
theorem peekBits_lt {src : Source} {br : BitReader} {n v : Nat} {ord : BitOrder}
    (h : src.peekBits br n ord = .ok v) : v < 2 ^ n := by
  obtain ⟨bits, hb, rfl⟩ := peekBits_eq_ok.1 h
  obtain ⟨-, hl, -⟩ := nextBits_eq_ok.1 hb
  cases ord
  · exact hl ▸ msbValue_lt bits
  · exact hl ▸ lsbValue_lt bits

end Sys2Proof.Machine
end

