-- ==== Sys2Proof/Laws/BitStuffer.lean ====
section
/-!
SUPPORT. Everything the BitStuffer's bodies can answer.
-/

namespace Sys2Proof.Machine

/-- Everything BS.HDR's body can answer (44_bitstuffer.md R281). -/
theorem blockHeader_eq_ok {op : BitVec 8} {src : Source} {br br' : BitReader} {b : Stuffer} :
    blockHeader op src br = .ok (b, br') ↔
      br.aligned = true ∧ 40 ≤ br.rem ∧ src.uint br.cur 1 = .ok b.width ∧
        b.width ≤ Config.maxBitWidth ∧ src.uint (br.cur + 1) 4 = .ok b.count ∧ 1 ≤ b.count ∧
        ((b.width = 0 ∧ 72 ≤ br.rem ∧ br' = br.advance 72 ∧
            ∃ k, src.uint (br.cur + 5) 4 = .ok k ∧ b.const = BitVec.ofNat 32 k) ∨
          (b.width ≠ 0 ∧ b.const = 0 ∧ br' = br.advance 40)) := by
  obtain ⟨width, count, const⟩ := b
  simp only [blockHeader, except_bind_ok, ensure_ok_iff]
  constructor
  · rintro ⟨_, h1, _, h2, w, h3, _, h4, _, h5, c, h6, _, h7, h⟩
    split at h
    · next h0 =>
      simp only [except_bind_ok, ensure_ok_iff, Except.ok.injEq, Prod.mk.injEq, Stuffer.mk.injEq] at h
      obtain ⟨_, h8, k, h9, ⟨rfl, rfl, rfl⟩, rfl⟩ := h
      exact ⟨h1, h5, h3, h4, h6, h7, .inl ⟨h0, h8, rfl, k, h9, rfl⟩⟩
    · next h0 =>
      simp only [Except.ok.injEq, Prod.mk.injEq, Stuffer.mk.injEq] at h
      obtain ⟨⟨rfl, rfl, rfl⟩, rfl⟩ := h
      exact ⟨h1, h5, h3, h4, h6, h7, .inr ⟨h0, rfl, rfl⟩⟩
  · rintro ⟨h1, h5, h3, h4, h6, h7, h⟩
    refine ⟨(), h1, (), by omega, width, h3, (), h4, (), h5, count, h6, (), h7, ?_⟩
    rcases h with ⟨h0, h8, rfl, k, h9, rfl⟩ | ⟨h0, rfl, rfl⟩
    · subst h0
      simp [h9, ensure_true _ h8]
    · simp [h0]

/-- Everything the packed values can be: that many codes, and the cursor moved by their bits
(44_bitstuffer.md R282). -/
theorem unpackValues_eq_ok {src : Source} {ord : BitOrder} {width count : Nat} {br br' : BitReader}
    {codes : List Code} (h : unpackValues src ord width count br = .ok (codes, br')) :
    codes.length = count ∧ br' = br.advance (count * width) ∧ count * width ≤ br.rem := by
  induction count generalizing br codes with
  | zero =>
    simp only [unpackValues, Except.ok.injEq, Prod.mk.injEq] at h
    obtain ⟨rfl, rfl⟩ := h
    simp
  | succ count ih =>
    simp only [unpackValues, except_bind_ok, Prod.exists, readBits_eq_ok, Except.ok.injEq,
      Prod.mk.injEq] at h
    obtain ⟨v, b1, ⟨h1, -, rfl⟩, rest, b2, h2, rfl, rfl⟩ := h
    obtain ⟨hl, rfl, hn⟩ := ih h2
    simp only [rem_advance] at hn
    refine ⟨by simp [hl], ?_, ?_⟩
    · simp only [advance_advance]
      congr 1
      ring
    · have : (count + 1) * width = count * width + width := by ring
      omega

/-- Everything BS.UNPACK's body can answer (44_bitstuffer.md R282, R283, R285). -/
theorem blockCodes_eq_ok {p : Params} {src : Source} {ord : BitOrder} {bs : Stuffer} {cp : Nat}
    {br br' : BitReader} {codes : List Code}
    (h : blockCodes p src ord bs cp br = .ok (codes, br')) :
    p.fitsOut (cp + bs.count) = true ∧ bs.count * bs.width ≤ br.rem ∧
      codes.length = bs.count ∧ br' = (br.advance (bs.count * bs.width)).alignUp ∧
      (bs.width = 0 → codes = List.replicate bs.count bs.const) := by
  simp only [blockCodes, except_bind_ok, ensure_ok_iff] at h
  obtain ⟨_, h1, _, h2, h⟩ := h
  split at h
  · next h0 =>
    simp only [Except.ok.injEq, Prod.mk.injEq] at h
    obtain ⟨rfl, rfl⟩ := h
    refine ⟨h1, h2, by simp, by simp [h0], fun _ => rfl⟩
  · next h0 =>
    simp only [except_bind_ok, Prod.exists, Except.ok.injEq, Prod.mk.injEq] at h
    obtain ⟨cs, b1, h3, rfl, rfl⟩ := h
    obtain ⟨hl, rfl, -⟩ := unpackValues_eq_ok h3
    exact ⟨h1, h2, hl, rfl, fun h => absurd h h0⟩

/-- One block after another adds up to the total (44_bitstuffer.md R284). -/
theorem streamBlocks_length {op : BitVec 8} {p : Params} {src : Source} {ord : BitOrder} {total fuel cp : Nat}
    {last last' : Option Stuffer} {br br' : BitReader} {codes : List Code}
    (hf : total ≤ cp + fuel) (hc : cp ≤ total)
    (h : streamBlocks op p src ord total fuel cp last br = .ok (codes, last', br')) :
    cp + codes.length = total := by
  induction fuel generalizing cp last br codes with
  | zero =>
    simp only [streamBlocks, Except.ok.injEq, Prod.mk.injEq] at h
    obtain ⟨rfl, -, -⟩ := h
    simp; omega
  | succ fuel ih =>
    rw [streamBlocks] at h
    split at h
    · simp only [Except.ok.injEq, Prod.mk.injEq] at h
      obtain ⟨rfl, -, -⟩ := h
      simp; omega
    · simp only [except_bind_ok, ensure_ok_iff, Prod.exists, Except.ok.injEq, Prod.mk.injEq] at h
      obtain ⟨block, b1, h1, _, h2, cs, b2, h3, rest, l3, b3, h4, rfl, rfl, rfl⟩ := h
      have hb := blockHeader_eq_ok.1 h1
      obtain ⟨-, -, hl, -⟩ := blockCodes_eq_ok h3
      have := ih (by omega) (by omega) h4
      simp only [List.length_append]
      omega

/-- Everything BS.STREAM's body can answer, in number: exactly the codes wanted (44_bitstuffer.md R284,
46_band_decode.md R359). -/
theorem stuffedStream_length {op : BitVec 8} {p : Params} {src : Source} {br br' : BitReader} {total : Nat}
    {last : Option Stuffer} {codes : List Code}
    (h : stuffedStream op p src br total = .ok (codes, last, br')) :
    p.fitsOut total = true ∧ codes.length = total := by
  simp only [stuffedStream, except_bind_ok, ensure_ok_iff] at h
  obtain ⟨_, h1, h2⟩ := h
  have := streamBlocks_length (by omega) (Nat.zero_le _) h2
  exact ⟨h1, by omega⟩

end Sys2Proof.Machine
end

