-- ==== Sys2Proof/Laws/Header.lean ====
section
/-!
SUPPORT. Everything the header parser can answer.
-/

namespace Sys2Proof.Machine

/-- Everything `field32` can answer. -/
theorem field32_eq_ok {src : Source} {a : Nat} {v : BitVec 32} :
    src.field32 a = .ok v ↔ ∃ n, src.uint a 4 = .ok n ∧ v = BitVec.ofNat 32 n := by
  simp only [Source.field32, except_bind_ok, Except.ok.injEq]
  constructor <;> rintro ⟨n, h, rfl⟩ <;> exact ⟨n, h, rfl⟩

/-- Everything `field64` can answer. -/
theorem field64_eq_ok {src : Source} {a : Nat} {v : BitVec 64} :
    src.field64 a = .ok v ↔ ∃ n, src.uint a 8 = .ok n ∧ v = BitVec.ofNat 64 n := by
  simp only [Source.field64, except_bind_ok, Except.ok.injEq]
  constructor <;> rintro ⟨n, h, rfl⟩ <;> exact ⟨n, h, rfl⟩

/-- When a type code names a kind (45_blob_header.md R316). -/
theorem kindField_eq_ok {code : BitVec 32} {k : Kind} :
    kindField code = .ok k ↔ Kind.ofCode code.toNat = some k := by
  unfold kindField
  cases Kind.ofCode code.toNat <;> simp

/-- The kind codes are 0 to 7, and each names its kind (10_state.md R45). -/
theorem kindOfCode_eq_some {n : Nat} {k : Kind} : Kind.ofCode n = some k ↔ k.code = n := by
  constructor
  · intro h
    unfold Kind.ofCode at h
    split at h <;> simp at h <;> subst h <;> rfl
  · rintro rfl
    cases k <;> rfl

/-- Everything a descriptor entry can be read as (45_blob_header.md R311, R320). -/
theorem parseDescriptor_eq_ok {src : Source} {size e : Nat} {d : Descriptor} :
    parseDescriptor src size e = .ok d ↔
      src.field32 e = .ok d.offset ∧ src.field32 (e + 4) = .ok d.length ∧
        src.field64 (e + 8) = .ok d.zMin ∧ src.field64 (e + 16) = .ok d.zMax ∧
        d.legal size = true := by
  obtain ⟨off, len, zMin, zMax⟩ := d
  simp only [parseDescriptor, except_bind_ok, ensure_ok_iff, Except.ok.injEq, Descriptor.mk.injEq,
    Descriptor.legal, Bool.and_eq_true, decide_eq_true_eq]
  constructor
  · rintro ⟨_, h1, _, h2, _, h3, _, h4, _, h5, _, h6, _, h7, rfl, rfl, rfl, rfl⟩
    exact ⟨h1, h2, h3, h4, ⟨h5, h6⟩, h7⟩
  · rintro ⟨h1, h2, h3, h4, ⟨h5, h6⟩, h7⟩
    exact ⟨_, h1, _, h2, _, h3, _, h4, (), h5, (), h6, (), h7, rfl, rfl, rfl, rfl⟩

/-- Everything the descriptor table can be read as: that many legal entries, 24 bytes apart. -/
theorem parseDescriptors_eq_ok {src : Source} {size n e : Nat} {ds : List Descriptor} :
    parseDescriptors src size n e = .ok ds ↔
      ds.length = n ∧ ∀ b d, ds[b]? = some d → parseDescriptor src size (e + 24 * b) = .ok d := by
  induction n generalizing e ds with
  | zero =>
    simp only [parseDescriptors, Except.ok.injEq]
    constructor
    · rintro rfl; simp
    · rintro ⟨h, -⟩; exact (List.eq_nil_of_length_eq_zero h).symm
  | succ n ih =>
    simp only [parseDescriptors, except_bind_ok, ih, Except.ok.injEq]
    constructor
    · rintro ⟨d, hd, rest, ⟨hl, hr⟩, rfl⟩
      refine ⟨by simp [hl], fun b c hb => ?_⟩
      cases b with
      | zero => simp at hb; subst hb; simpa using hd
      | succ b =>
        have := hr b c (by simpa using hb)
        rwa [show e + 24 + 24 * b = e + 24 * (b + 1) by omega] at this
    · rintro ⟨hl, hr⟩
      cases ds with
      | nil => simp at hl
      | cons d rest =>
        refine ⟨d, by simpa using hr 0 d rfl, rest, ⟨by simpa using hl, fun b c hb => ?_⟩, rfl⟩
        rw [show e + 24 + 24 * b = e + 24 * (b + 1) by omega]
        exact hr (b + 1) c (by simpa using hb)

/-- Every descriptor the parser returns is legal (45_blob_header.md R320). -/
theorem parseDescriptors_legal {src : Source} {size n e : Nat} {ds : List Descriptor}
    (h : parseDescriptors src size n e = .ok ds) : ds.all (Descriptor.legal size) = true := by
  rw [List.all_eq_true]
  intro d hd
  obtain ⟨b, hb⟩ := List.mem_iff_getElem?.1 hd
  exact (parseDescriptor_eq_ok.1 ((parseDescriptors_eq_ok.1 h).2 b d hb)).2.2.2.2

/-- Everything `parseHeader` can answer (45_blob_header.md R311): the fields at their offsets, and a
record that keeps every check. -/
theorem parseHeader_eq_ok {src : Source} {h : Header} :
    parseHeader src = .ok h ↔
      src.memRead 0 6 = .ok Config.magic ∧ src.field32 6 = .ok h.version ∧
        src.field32 10 = .ok h.nRows ∧ src.field32 14 = .ok h.nCols ∧
        src.field32 18 = .ok h.nBands ∧ src.field32 22 = .ok (BitVec.ofNat 32 h.kind.code) ∧
        src.field64 26 = .ok h.nValid ∧ src.field64 34 = .ok h.maxZErr ∧
        h.size ≤ src.len ∧ parseDescriptors src h.size h.nBands.toNat 42 = .ok h.desc ∧
        h.legal = true := by
  obtain ⟨v, rows, cols, bands, kind, nValid, mze, size, desc⟩ := h
  simp only [parseHeader, except_bind_ok, ensure_ok_iff, Except.ok.injEq, kindField_eq_ok,
    kindOfCode_eq_some, Header.mk.injEq, Header.legal, versionSupported, Config.minVersion,
    Config.maxVersion, Bool.and_eq_true, decide_eq_true_eq, beq_iff_eq]
  constructor
  · rintro ⟨_, h1, m, h2, _, rfl, _, h4, v', h5, _, h6, _, h7, r, h8, c, h9, b, h10, dt, h11, nv, h12,
      z, h13, _, h14, _, h15, _, h16, k, h17, _, h18, _, h19, _, h20, ds, h21, rfl, rfl, rfl, rfl, rfl,
      rfl, rfl, rfl, rfl⟩
    have hk : BitVec.ofNat 32 k.code = dt := by rw [h17]; simp
    refine ⟨h2, h5, h8, h9, h10, hk ▸ h11, h12, h13, h20, h21, ?_⟩
    exact ⟨⟨⟨⟨⟨⟨⟨⟨⟨of_decide_eq_true h6.1, of_decide_eq_true h6.2⟩, h14⟩, h15⟩, h16⟩, h18⟩, h19⟩, rfl⟩, (parseDescriptors_eq_ok.1 h21).1⟩,
      parseDescriptors_legal h21⟩
  · rintro ⟨h1, h2, h3, h4, h5, h6, h7, h8, h9, h10,
      ⟨⟨⟨⟨⟨⟨⟨⟨⟨a1, a2⟩, a3⟩, a4⟩, a5⟩, a6⟩, a7⟩, rfl⟩, a9⟩, a10⟩⟩
    have hk : kind.code = (BitVec.ofNat 32 kind.code).toNat := by cases kind <;> rfl
    exact ⟨(), by omega, _, h1, (), rfl, (), by omega, _, h2, (), ⟨decide_eq_true a1, decide_eq_true a2⟩, (), by omega, _, h3, _, h4,
      _, h5, _, h6, _, h7, _, h8, (), a3, (), a4, (), a5, kind, hk, (), a6, (), a7, (), h9, _, h10, rfl,
      rfl, rfl, rfl, rfl, rfl, rfl, rfl, rfl⟩

/-- Every header the parser returns is legal (45_blob_header.md R311). -/
theorem parseHeader_legal {src : Source} {h : Header} (hp : parseHeader src = .ok h) :
    h.legal = true := (parseHeader_eq_ok.1 hp).2.2.2.2.2.2.2.2.2.2

/-- A legal header has a descriptor for each of its bands. -/
theorem Header.desc_of_legal {h : Header} (hl : h.legal = true) {b : Nat} (hb : b < h.nBands.toNat) :
    ∃ d, h.desc[b]? = some d := by
  simp only [Header.legal, Bool.and_eq_true, beq_iff_eq] at hl
  exact ⟨_, List.getElem?_eq_getElem (by omega)⟩

/-- When the first part of INFO and DECODE ends with a header stored. -/
theorem runHeader_eq_done {op : BitVec 8} {s t : State} :
    runHeader op s = .done t ↔
      s.params.fitsIn s.srcLen.toNat = true ∧ ∃ h, parseHeader s.source = .ok h ∧
        t = s.resetOrchestrator.withHeader h := by
  unfold runHeader sourceFits
  by_cases hf : s.params.fitsIn s.srcLen.toNat = true
  · rw [ensure_true _ hf]
    simp only [except_ok_bind, runAt_ok, andThen_done, hf, true_and]
    have : s.resetOrchestrator.source = s.source := rfl
    rw [this]
    rcases parseHeader s.source with (e | e | f) | h <;> simp [eq_comm]
  · rw [ensure_false _ hf]
    simp [hf]

end Sys2Proof.Machine
end

