-- ==== Sys2Proof/Laws/Huffman.lean ====
section
/-!
SUPPORT. Everything the Huffman unit's bodies can answer.
-/

namespace Sys2Proof.Machine

/-- Everything HUF.LOADLEN's body can answer (43_huffman.md R241). -/
theorem loadLengths_eq_ok {op : BitVec 8} {src : Source} {br br' : BitReader} {lens : List Byte} :
    loadLengths op src br = .ok (lens, br') ↔
      br.aligned = true ∧ 2048 ≤ br.rem ∧ src.memRead br.cur 256 = .ok lens ∧
        br' = br.advance 2048 := by
  simp only [loadLengths, except_bind_ok, ensure_ok_iff, Except.ok.injEq, Prod.mk.injEq]
  constructor
  · rintro ⟨_, h1, _, h2, l, h3, rfl, rfl⟩; exact ⟨h1, h2, h3, rfl⟩
  · rintro ⟨h1, h2, h3, rfl⟩; exact ⟨(), h1, (), h2, lens, h3, rfl, rfl⟩

/-- HUF.LOADLEN loads 256 lengths. -/
theorem loadLengths_length {op : BitVec 8} {src : Source} {br br' : BitReader} {lens : List Byte}
    (h : loadLengths op src br = .ok (lens, br')) : lens.length = 256 :=
  (memRead_eq_ok.1 (loadLengths_eq_ok.1 h).2.2.1).2.1

/-- Everything HUF.BUILD's body can answer (43_huffman.md R242). -/
theorem buildTables_eq_ok {lens : List Byte} {t : HuffTables} :
    buildTables lens = .ok t ↔
      (∀ l ∈ lens, l.toNat ≤ Config.maxCodeLen) ∧ kraftSum lens ≤ 2 ^ Config.maxCodeLen ∧
        t = tablesOf lens := by
  simp only [buildTables, except_bind_ok, ensure_ok_iff, Except.ok.injEq, List.all_eq_true,
    decide_eq_true_eq]
  constructor
  · rintro ⟨_, h1, _, h2, rfl⟩; exact ⟨h1, h2, rfl⟩
  · rintro ⟨h1, h2, rfl⟩; exact ⟨(), h1, (), h2, rfl⟩

/-- The only error HUF.BUILD's body can end with (43_huffman.md R242). -/
theorem buildTables_eq_error {lens : List Byte} {st : Stop} (h : buildTables lens = .error st) :
    st = .raise .huffmanTableCorrupt := by
  simp only [buildTables, ensure_bind] at h
  split at h
  · split at h
    · cases h
    · cases h; rfl
  · cases h; rfl

/-- What a found symbol is: an entry of the table with that length and code. -/
theorem matchCode_eq_some {entries : List HuffEntry} {l w : Nat} {e : HuffEntry}
    (h : matchCode entries l w = some e) : e ∈ entries ∧ e.len = l ∧ e.code = w := by
  have h1 := List.find?_some h
  simp only [Bool.and_eq_true, beq_iff_eq] at h1
  exact ⟨List.mem_of_find?_eq_some h, h1⟩

/-- Everything the symbol loop can answer: an entry whose code is the next bits, and the cursor moved by
exactly its length (43_huffman.md R245, R246). -/
theorem decodeFrom_eq_ok {src : Source} {br br' : BitReader} {entries : List HuffEntry}
    {fuel l : Nat} {sym : Byte} (h : decodeFrom src br entries fuel l = .ok (sym, br')) :
    ∃ e ∈ entries, l ≤ e.len ∧ e.len < l + fuel ∧ e.len ≤ br.rem ∧
      src.peekBits br e.len .msb = .ok e.code ∧ sym = e.sym ∧ br' = br.advance e.len := by
  induction fuel generalizing l with
  | zero => simp [decodeFrom] at h
  | succ fuel ih =>
    simp only [decodeFrom, except_bind_ok, ensure_ok_iff] at h
    obtain ⟨_, hl, w, hw, h⟩ := h
    split at h
    · next e he =>
      simp only [Except.ok.injEq, Prod.mk.injEq] at h
      obtain ⟨rfl, rfl⟩ := h
      obtain ⟨hm, rfl, rfl⟩ := matchCode_eq_some he
      exact ⟨e, hm, le_refl _, by omega, hl, hw, rfl, rfl⟩
    · obtain ⟨e, hm, h1, h2, h3⟩ := ih h
      exact ⟨e, hm, by omega, by omega, h3⟩

/-- Everything `hdec` can answer (43_huffman.md R245, R246). -/
theorem decodeSymbol_eq_ok {src : Source} {br br' : BitReader} {t : HuffTables} {sym : Byte}
    (h : decodeSymbol src br t = .ok (sym, br')) :
    ∃ e ∈ t.entries, 1 ≤ e.len ∧ e.len ≤ t.maxLen ∧ e.len ≤ br.rem ∧
      src.peekBits br e.len .msb = .ok e.code ∧ sym = e.sym ∧ br' = br.advance e.len := by
  obtain ⟨e, hm, h1, h2, h3⟩ := decodeFrom_eq_ok h
  exact ⟨e, hm, h1, by omega, h3⟩

/-- Everything a run of symbols can answer: that many codes, and the cursor inside the window
(43_huffman.md R251, R252). -/
theorem decodeSymbols_eq_ok {src : Source} {t : HuffTables} {count : Nat} {br br' : BitReader}
    {codes : List Code} (h : decodeSymbols src t count br = .ok (codes, br')) :
    codes.length = count ∧ ∃ n, br' = br.advance n ∧ n ≤ br.rem := by
  induction count generalizing br codes with
  | zero =>
    simp only [decodeSymbols, Except.ok.injEq, Prod.mk.injEq] at h
    obtain ⟨rfl, rfl⟩ := h
    exact ⟨rfl, 0, by simp⟩
  | succ count ih =>
    simp only [decodeSymbols, except_bind_ok, Prod.exists, Except.ok.injEq, Prod.mk.injEq] at h
    obtain ⟨sym, b1, h1, rest, b2, h2, rfl, rfl⟩ := h
    obtain ⟨e, -, -, -, h3, -, -, rfl⟩ := decodeSymbol_eq_ok h1
    obtain ⟨hl, n, rfl, hn⟩ := ih h2
    refine ⟨by simp [hl], e.len + n, by simp, ?_⟩
    simp only [rem_advance] at hn
    omega

/-- When the table is built. -/
theorem builtTables_eq_ok {op : BitVec 8} {ht : Huffman} {t : HuffTables} :
    builtTables op ht = .ok t ↔ ht.tables = some t := by
  unfold builtTables
  cases ht.tables <;> simp

/-- Everything HUF.RUN's body can answer (43_huffman.md R251). -/
theorem huffmanRun_eq_ok {op : BitVec 8} {p : Params} {src : Source} {ht : Huffman} {br br' : BitReader}
    {count : Nat} {codes : List Code} :
    huffmanRun op p src ht br count = .ok (codes, br') ↔
      p.fitsOut count = true ∧ ∃ t, ht.tables = some t ∧
        decodeSymbols src t count br = .ok (codes, br') := by
  simp only [huffmanRun, except_bind_ok, builtTables_eq_ok, ensure_ok_iff]
  constructor
  · rintro ⟨t, h1, _, h2, h3⟩; exact ⟨h2, t, h1, h3⟩
  · rintro ⟨h2, t, h1, h3⟩; exact ⟨t, h1, (), h2, h3⟩

/-- Everything HUF.SEG's body can answer (43_huffman.md R247). -/
theorem segmentWindow_eq_ok {op : BitVec 8} {src : Source} {br br' : BitReader} {len : Nat} :
    segmentWindow op src br = .ok (len, br') ↔
      br.aligned = true ∧ 32 ≤ br.rem ∧ src.uint br.cur 4 = .ok len ∧
        br.cur + 4 + len ≤ br.hi ∧ br' = { br.advance 32 with hi := br.cur + 4 + len } := by
  simp only [segmentWindow, except_bind_ok, ensure_ok_iff, Except.ok.injEq, Prod.mk.injEq]
  constructor
  · rintro ⟨_, h1, _, h2, l, h3, _, h4, rfl, rfl⟩; exact ⟨h1, h2, h3, h4, rfl⟩
  · rintro ⟨h1, h2, h3, h4, rfl⟩; exact ⟨(), h1, (), h2, len, h3, (), h4, rfl, rfl⟩

end Sys2Proof.Machine
end

