-- ==== Sys2Proof/Laws/Masks.lean ====
section
/-!
SUPPORT. What the BitMask operations compute and everything the mask decoders can answer.
-/

namespace Sys2Proof.Machine

/-- A fill keeps the length. -/
theorem length_fillBits {bits : List Bool} {start len : Nat} (v : Bool)
    (h : start + len ≤ bits.length) : (fillBits bits start len v).length = bits.length := by
  simp only [fillBits, List.length_append, List.length_take, List.length_replicate,
    List.length_drop]
  omega

/-- The AND of two masks of one length has that length. -/
theorem length_andBits (x y : List Bool) : (andBits x y).length = min x.length y.length := by
  simp [andBits]

/-- The AND, bit by bit (41_bitmask.md R188). -/
theorem getElem?_andBits {x y : List Bool} (h : x.length = y.length) (j : Nat) :
    (andBits x y)[j]? = (x[j]?).bind fun a => (y[j]?).map fun b => a && b := by
  by_cases hj : j < x.length
  · simp [andBits, hj, h ▸ hj]
  · have : x[j]? = none := by simpa using hj
    simp [andBits, List.getElem?_zipWith, this]

/-- A population count is at most the length. -/
theorem popcount_le (bits : List Bool) : popcount bits ≤ bits.length := List.countP_le_length

@[simp] theorem popcount_nil : popcount [] = 0 := rfl

@[simp] theorem popcount_cons (b : Bool) (bits : List Bool) :
    popcount (b :: bits) = popcount bits + b.toNat := by
  cases b <;> simp [popcount]

/-- BM.NEXT answers a position from the first one to the end. -/
theorem nextSet_bounds (bits : List Bool) (at_ start : Nat) :
    at_ ≤ nextSet bits at_ start ∧ nextSet bits at_ start ≤ at_ + bits.length := by
  induction bits generalizing at_ with
  | nil => simp [nextSet]
  | cons b rest ih =>
    simp only [nextSet]
    split
    · simp
    · have := ih (at_ + 1)
      simp only [List.length_cons]
      omega

/-- Every bit that BM.NEXT passes over is before the start or not set (41_bitmask.md R187). -/
theorem nextSet_skips (bits : List Bool) (at_ start j : Nat) (h : at_ + j < nextSet bits at_ start) :
    bits[j]? = some false ∨ at_ + j < start := by
  induction bits generalizing at_ j with
  | nil => simp [nextSet] at h
  | cons b rest ih =>
    simp only [nextSet] at h
    split at h
    · omega
    · next hb =>
      cases j with
      | zero =>
        cases b
        · simp
        · simp at hb; omega
      | succ j =>
        rcases ih (at_ + 1) j (by omega) with h | h
        · exact .inl (by simpa using h)
        · exact .inr (by omega)

/-- The bit BM.NEXT stops at is set and not before the start (41_bitmask.md R187). -/
theorem nextSet_found (bits : List Bool) (at_ start : Nat)
    (h : nextSet bits at_ start < at_ + bits.length) :
    start ≤ nextSet bits at_ start ∧ bits[nextSet bits at_ start - at_]? = some true := by
  induction bits generalizing at_ with
  | nil => simp [nextSet] at h
  | cons b rest ih =>
    by_cases hb : (b && decide (start ≤ at_)) = true
    · simp only [nextSet, if_pos hb]
      simp only [Bool.and_eq_true, decide_eq_true_eq] at hb
      simp [hb.1, hb.2]
    · simp only [nextSet, if_neg hb, List.length_cons] at h ⊢
      have hl := (nextSet_bounds rest (at_ + 1) start).1
      obtain ⟨h1, h2⟩ := ih (at_ + 1) (by omega)
      refine ⟨h1, ?_⟩
      rw [show nextSet rest (at_ + 1) start - at_ = (nextSet rest (at_ + 1) start - (at_ + 1)) + 1 by
        omega, List.getElem?_cons_succ]
      exact h2

/-- Everything MASK.ABSENT's body can answer (42_mask_decoders.md R211). -/
theorem maskAbsentBody_eq_ok {p : Params} {n : Nat} {m : BitMask} :
    maskAbsentBody p n = .ok m ↔
      p.fitsOut n = true ∧ m = { bits := List.replicate n true, building := false } := by
  simp only [maskAbsentBody, except_bind_ok, ensure_ok_iff, Except.ok.injEq]
  constructor
  · rintro ⟨_, h, rfl⟩; exact ⟨h, rfl⟩
  · rintro ⟨h, rfl⟩; exact ⟨(), h, rfl⟩

/-- Everything MASK.RAW's body can answer (42_mask_decoders.md R212). -/
theorem maskRawBody_eq_ok {op : BitVec 8} {p : Params} {src : Source} {br br' : BitReader} {n : Nat} {m : BitMask} :
    maskRawBody op p src br n = .ok (m, br') ↔
      p.fitsOut n = true ∧ br.aligned = true ∧ 8 * ceil8 n ≤ br.rem ∧
        src.nextBits br n .msb = .ok m.bits ∧ m.building = false ∧
        br' = br.advance (8 * ceil8 n) := by
  simp only [maskRawBody, except_bind_ok, ensure_ok_iff, Except.ok.injEq, Prod.mk.injEq]
  constructor
  · rintro ⟨_, h1, _, h2, _, h3, bits, h4, rfl, rfl⟩
    exact ⟨h1, h2, h3, h4, rfl, rfl⟩
  · rintro ⟨h1, h2, h3, h4, h5, rfl⟩
    obtain ⟨bits, building⟩ := m
    simp only at h5
    subst h5
    exact ⟨(), h1, (), h2, (), h3, bits, h4, rfl, rfl⟩

/-- Everything MASK.RLE's loop can answer: exactly the pixels that were left, five bytes a pair
(42_mask_decoders.md R213). -/
theorem rleRuns_eq_ok {op : BitVec 8} {src : Source} {fuel left : Nat} {br br' : BitReader} {bits : List Bool}
    (hf : left ≤ fuel) (h : rleRuns op src fuel left br = .ok (bits, br')) :
    bits.length = left ∧ ∃ pairs, br' = br.advance (40 * pairs) ∧ 40 * pairs ≤ br.rem ∧
      pairs ≤ left := by
  induction fuel generalizing left br bits with
  | zero =>
    simp only [rleRuns, Except.ok.injEq, Prod.mk.injEq] at h
    obtain ⟨rfl, rfl⟩ := h
    exact ⟨by simp; omega, 0, by simp⟩
  | succ fuel ih =>
    rw [rleRuns] at h
    split at h
    · next h0 =>
      simp only [Except.ok.injEq, Prod.mk.injEq] at h
      obtain ⟨rfl, rfl⟩ := h
      exact ⟨by simp [h0], 0, by simp⟩
    · simp only [except_bind_ok, ensure_ok_iff, Prod.exists, readBytesLE_eq_ok, Except.ok.injEq,
        Prod.mk.injEq] at h
      obtain ⟨_, ⟨h40, -⟩, v, _, ⟨-, -, -, rfl⟩, r, _, ⟨-, -, -, rfl⟩, _, -, _, h1, _, hr, rest, b3, hrest,
        rfl, rfl⟩ := h
      obtain ⟨hl, pairs, rfl, hp, hq⟩ := ih (by omega) hrest
      refine ⟨by simp [hl]; omega, pairs + 1, ?_, ?_, by omega⟩
      · simp only [advance_advance]
        congr 1
        omega
      · simp only [rem_advance] at hp
        omega

/-- Everything MASK.RLE's body can answer (42_mask_decoders.md R213). -/
theorem maskRleBody_eq_ok {op : BitVec 8} {p : Params} {src : Source} {br br' : BitReader} {n : Nat} {m : BitMask} :
    maskRleBody op p src br n = .ok (m, br') ↔
      p.fitsOut n = true ∧ br.aligned = true ∧ rleRuns op src n n br = .ok (m.bits, br') ∧
        m.building = false := by
  simp only [maskRleBody, except_bind_ok, ensure_ok_iff, Except.ok.injEq, Prod.mk.injEq, Prod.exists]
  constructor
  · rintro ⟨_, h1, _, h2, bits, _, h3, rfl, rfl⟩
    exact ⟨h1, h2, h3, rfl⟩
  · rintro ⟨h1, h2, h3, h5⟩
    obtain ⟨bits, building⟩ := m
    simp only at h5
    subst h5
    exact ⟨(), h1, (), h2, bits, br', h3, rfl, rfl⟩

end Sys2Proof.Machine
end

