-- ==== Sys2Proof/Laws/Band.lean ====
section
/-!
SUPPORT. Everything the orchestrator's rules can do.
-/

namespace Sys2Proof.Machine

/-! ### Shared parts -/

/-- When a rule has a header. -/
theorem headerOf_eq_ok {op : BitVec 8} {s : State} {h : Header} :
    headerOf op s = .ok h ↔ s.orc.hdr = some h := by
  unfold headerOf
  cases s.orc.hdr <;> simp

/-- When a header has a descriptor for the band. -/
theorem descriptorOf_eq_ok {h : Header} {b : Nat} {d : Descriptor} :
    descriptorOf h b = .ok d ↔ h.desc[b]? = some d := by
  unfold descriptorOf
  cases h.desc[b]? <;> simp

/-- When a byte selects a mask decoder (46_band_decode.md R352). -/
theorem maskModeOf_eq_ok {n : Nat} {m : MaskMode} : maskModeOf n = .ok m ↔ n = m.code := by
  constructor
  · intro h
    unfold maskModeOf at h
    split at h <;> simp at h <;> subst h <;> rfl
  · rintro rfl
    cases m <;> rfl

/-- When a byte selects an entropy decoder for a kind (46_band_decode.md R353). -/
theorem entropyModeOf_eq_ok {k : Kind} {n : Nat} {m : EntropyMode} :
    entropyModeOf k n = .ok m ↔ n = m.code ∧ (m = .huffman → k.isByte = true) := by
  constructor
  · intro h
    unfold entropyModeOf at h
    split at h
    · cases h; exact ⟨rfl, nofun⟩
    · split at h
      · next hk => cases h; exact ⟨rfl, fun _ => hk⟩
      · cases h
    · cases h
    · cases h
  · rintro ⟨rfl, h⟩
    cases m
    · rfl
    · simp [EntropyMode.code, entropyModeOf, h rfl]

/-- Everything the section checks can answer (46_band_decode.md R352, R353). -/
theorem sectionChecks_eq_ok {src : Source} {kind : Kind} {off len : Nat} {mask : MaskMode}
    {entropy : EntropyMode} :
    sectionChecks src kind off len = .ok (mask, entropy) ↔
      off + len ≤ src.len ∧ 2 ≤ len ∧ src.uint off 1 = .ok mask.code ∧
        src.uint (off + 1) 1 = .ok entropy.code ∧ (entropy = .huffman → kind.isByte = true) := by
  simp only [sectionChecks, except_bind_ok, ensure_ok_iff, orFail_eq_ok, maskModeOf_eq_ok,
    entropyModeOf_eq_ok, Except.ok.injEq, Prod.mk.injEq]
  constructor
  · rintro ⟨_, h1, _, h2, _, h3, _, rfl, _, h4, _, ⟨rfl, h5⟩, rfl, rfl⟩
    exact ⟨h1, h2, h3, h4, h5⟩
  · rintro ⟨h1, h2, h3, h4, h5⟩
    exact ⟨(), h1, (), h2, _, h3, _, rfl, _, h4, _, ⟨rfl, h5⟩, rfl, rfl⟩

/-! ### The band rules -/

/-- Everything `bandBegin` can do (46_band_decode.md R351). -/
theorem bandBeginRule_eq_ok {op : BitVec 8} {b : Nat} {s t : State} :
    bandBeginRule op b s = .ok t ↔ ∃ h d mask entropy,
      s.orc.hdr = some h ∧ (s.orc.phase = .start ∨ s.orc.phase = .done) ∧ b = s.orc.bandsDone ∧
        b < h.nBands.toNat ∧ s.params.fitsIn s.srcLen.toNat = true ∧
        s.params.fitsOut (h.pixels * h.nBands.toNat) = true ∧ h.desc[b]? = some d ∧
        sectionChecks s.source h.kind d.offset.toNat d.length.toNat = .ok (mask, entropy) ∧
        t = { s with
          stage := if b = 0 then [] else s.stage
          br := { lo := d.offset.toNat + 2, hi := d.offset.toNat + d.length.toNat, pos := 0,
                  order := .msb }
          orc := { s.orc with band := b, maskMode := mask, entropyMode := entropy,
                              phase := .headerValidated } } := by
  simp only [bandBeginRule, sourceFits, except_bind_ok, ensure_ok_iff, headerOf_eq_ok,
    descriptorOf_eq_ok, Prod.exists, Except.ok.injEq]
  constructor
  · rintro ⟨h, h1, _, ⟨h2, h3, h4⟩, _, h5, _, h6, d, h7, mask, entropy, h8, rfl⟩
    exact ⟨h, d, mask, entropy, h1, h2, h3, h4, h5, h6, h7, h8, rfl⟩
  · rintro ⟨h, d, mask, entropy, h1, h2, h3, h4, h5, h6, h7, h8, rfl⟩
    exact ⟨h, h1, (), ⟨h2, h3, h4⟩, (), h5, (), h6, d, h7, mask, entropy, h8, rfl⟩

/-- Everything `bandMask` can do (46_band_decode.md R355). -/
theorem bandMaskRule_eq_ok {op : BitVec 8} {s t : State} :
    bandMaskRule op s = .ok t ↔ ∃ h m br,
      s.orc.phase = .headerValidated ∧ s.orc.hdr = some h ∧ bandMaskBody op s h.pixels = .ok (m, br) ∧
        popcount m.bits = h.valid ∧
        t = { s with ms0 := m, br := br, orc := { s.orc with phase := .maskDecoded } } := by
  simp only [bandMaskRule, except_bind_ok, ensure_ok_iff, headerOf_eq_ok, orFail_eq_ok, Prod.exists,
    Except.ok.injEq]
  constructor
  · rintro ⟨_, h1, h, h2, m, br, h3, _, h4, rfl⟩
    exact ⟨h, m, br, h1, h2, h3, h4, rfl⟩
  · rintro ⟨h, m, br, h1, h2, h3, h4, rfl⟩
    exact ⟨(), h1, h, h2, m, br, h3, (), h4, rfl⟩

/-- What a band's mask is: frozen, one bit for each pixel, the cursor moved inside the window
(46_band_decode.md R355). -/
theorem bandMaskBody_eq_ok {op : BitVec 8} {s : State} {n : Nat} {m : BitMask} {br : BitReader}
    (h : bandMaskBody op s n = .ok (m, br)) :
    s.params.fitsOut n = true ∧ m.bits.length = n ∧ m.building = false ∧
      ∃ k, br = s.br.advance k ∧ k ≤ s.br.rem := by
  unfold bandMaskBody at h
  split at h
  · simp only [except_bind_ok, maskAbsentBody_eq_ok, Except.ok.injEq, Prod.mk.injEq] at h
    obtain ⟨_, ⟨h1, rfl⟩, rfl, rfl⟩ := h
    exact ⟨h1, by simp, rfl, 0, by simp⟩
  · obtain ⟨h1, -, h3, h4, h5, rfl⟩ := maskRawBody_eq_ok.1 h
    exact ⟨h1, (nextBits_eq_ok.1 h4).2.1, h5, _, rfl, h3⟩
  · obtain ⟨h1, -, h3, h4⟩ := maskRleBody_eq_ok.1 h
    obtain ⟨hl, pairs, rfl, hp, -⟩ := rleRuns_eq_ok (le_refl _) h3
    exact ⟨h1, hl, h4, _, rfl, hp⟩

/-- Everything the bit-stuffed payload can do (46_band_decode.md R359). -/
theorem bandStuffedBody_eq_ok {op : BitVec 8} {s t : State} {count : Nat} :
    bandStuffedBody op s count = .ok t ↔ ∃ codes last br,
      stuffedStream op s.params s.source s.br count = .ok (codes, last, br) ∧
        t = { s with codes := codes, bs := stufferAfter s.bs last, br := br } := by
  simp only [bandStuffedBody, except_bind_ok, Prod.exists, Except.ok.injEq]
  constructor <;> rintro ⟨codes, last, br, h, rfl⟩ <;> exact ⟨codes, last, br, h, rfl⟩

/-- Everything the Huffman payload can do (46_band_decode.md R358). -/
theorem bandHuffmanBody_eq_ok {op : BitVec 8} {s t : State} {count : Nat} :
    bandHuffmanBody op s count = .ok t ↔ ∃ lens br1 tab len br2 codes br3,
      loadLengths op s.source s.br = .ok (lens, br1) ∧ buildTables lens = .ok tab ∧
        segmentWindow op s.source br1 = .ok (len, br2) ∧ s.params.fitsOut count = true ∧
        decodeSymbols s.source tab count br2 = .ok (codes, br3) ∧
        t = { s with codes := codes, ht := { lens := lens, tables := some tab }, br := br3 } := by
  simp only [bandHuffmanBody, except_bind_ok, Prod.exists, huffmanRun_eq_ok, Except.ok.injEq,
    Option.some.injEq]
  constructor
  · rintro ⟨lens, br1, h1, tab, h2, len, br2, h3, codes, br3, ⟨h4, _, rfl, h5⟩, rfl⟩
    exact ⟨lens, br1, tab, len, br2, codes, br3, h1, h2, h3, h4, h5, rfl⟩
  · rintro ⟨lens, br1, tab, len, br2, codes, br3, h1, h2, h3, h4, h5, rfl⟩
    exact ⟨lens, br1, h1, tab, h2, len, br2, h3, codes, br3, ⟨h4, tab, rfl, h5⟩, rfl⟩

/-- Everything `bandData` can do (46_band_decode.md R357). -/
theorem bandDataRule_eq_ok {op : BitVec 8} {s t : State} :
    bandDataRule op s = .ok t ↔ ∃ h u,
      s.orc.phase = .maskDecoded ∧ s.orc.hdr = some h ∧
        (match s.orc.entropyMode with
          | .bitStuffed => bandStuffedBody op s h.valid
          | .huffman => bandHuffmanBody op s h.valid) = .ok u ∧
        t = u.withPhase .dataDecoded := by
  simp only [bandDataRule, except_bind_ok, ensure_ok_iff, headerOf_eq_ok, orFail_eq_ok,
    Except.ok.injEq]
  constructor
  · rintro ⟨_, h1, h, h2, u, h3, rfl⟩; exact ⟨h, u, h1, h2, h3, rfl⟩
  · rintro ⟨h, u, h1, h2, h3, rfl⟩; exact ⟨(), h1, h, h2, u, h3, rfl⟩

/-- Everything the dequantization loop can answer: an element for each pixel, from a code for each
valid one (46_band_decode.md R364, R365). -/
theorem dequantizeBand_length {op : BitVec 8} {h : Header} {zMin : BitVec 64} {bits : List Bool} {codes : List Code}
    {es : List Element} (hd : dequantizeBand op h zMin bits codes = .ok es) :
    es.length = bits.length ∧ codes.length = popcount bits := by
  induction bits generalizing codes es with
  | nil =>
    cases codes <;> simp [dequantizeBand] at hd
    subst hd; simp
  | cons b bits ih =>
    cases b with
    | false =>
      simp only [dequantizeBand, except_bind_ok, Except.ok.injEq] at hd
      obtain ⟨rest, hr, rfl⟩ := hd
      obtain ⟨h1, h2⟩ := ih hr
      simp [h1, h2]
    | true =>
      cases codes with
      | nil => simp [dequantizeBand] at hd
      | cons c codes =>
        simp only [dequantizeBand, except_bind_ok, Except.ok.injEq] at hd
        obtain ⟨e, -, rest, hr, rfl⟩ := hd
        obtain ⟨h1, h2⟩ := ih hr
        simp [h1, h2]

/-- Writing a band right after the elements already staged appends it (46_band_decode.md R364). -/
theorem writeStage_append {stage : List (Option Element)} {t : List Element} :
    writeStage stage stage.length t = stage ++ t.map some := by
  simp [writeStage]

/-- Everything `bandDeq` can do (46_band_decode.md R364). -/
theorem bandDeqRule_eq_ok {op : BitVec 8} {s t : State} :
    bandDeqRule op s = .ok t ↔ ∃ h d es,
      s.orc.phase = .dataDecoded ∧ s.orc.hdr = some h ∧ s.ms0.bits.length = h.pixels ∧
        s.ms0.building = false ∧ s.codes.length = popcount s.ms0.bits ∧
        h.desc[s.orc.band]? = some d ∧ dequantizeBand op h d.zMin s.ms0.bits s.codes = .ok es ∧
        t = { s with stage := writeStage s.stage (s.orc.band * h.pixels) es,
                     orc := { s.orc with phase := .dequantized } } := by
  simp only [bandDeqRule, except_bind_ok, ensure_ok_iff, headerOf_eq_ok, descriptorOf_eq_ok,
    orFail_eq_ok, Except.ok.injEq]
  constructor
  · rintro ⟨_, h1, h, h2, _, ⟨h3, h4, h5⟩, d, h6, es, h7, rfl⟩
    exact ⟨h, d, es, h1, h2, h3, h4, h5, h6, h7, rfl⟩
  · rintro ⟨h, d, es, h1, h2, h3, h4, h5, h6, h7, rfl⟩
    exact ⟨(), h1, h, h2, (), ⟨h3, h4, h5⟩, d, h6, es, h7, rfl⟩

/-- Everything `bandEnd` can do (46_band_decode.md R366). -/
theorem bandEndRule_eq_ok {op : BitVec 8} {s t : State} :
    bandEndRule op s = .ok t ↔ ∃ h,
      s.orc.phase = .dequantized ∧ s.orc.hdr = some h ∧ s.ms0.bits.length = h.pixels ∧
        s.ms0.building = false ∧
        (s.orc.band = 0 ∨ (s.ms1.bits.length = h.pixels ∧ s.ms1.building = false)) ∧
        t = { s with
          ms1 := if s.orc.band = 0 then { bits := s.ms0.bits, building := false }
                 else { s.ms1 with bits := andBits s.ms1.bits s.ms0.bits }
          ht := { s.ht with tables := none }
          orc := { s.orc with bandsDone := s.orc.bandsDone + 1, phase := .done } } := by
  simp only [bandEndRule, except_bind_ok, ensure_ok_iff, headerOf_eq_ok, Except.ok.injEq]
  constructor
  · rintro ⟨_, h1, h, h2, _, ⟨h3, h4, h5⟩, rfl⟩; exact ⟨h, h1, h2, h3, h4, h5, rfl⟩
  · rintro ⟨h, h1, h2, h3, h4, h5, rfl⟩; exact ⟨(), h1, h, h2, (), ⟨h3, h4, h5⟩, rfl⟩

/-! ### COMMIT -/

/-- When a list of optional elements is all present. -/
theorem mapM_id_eq_some {l : List (Option Element)} {es : List Element} :
    l.mapM id = some es ↔ l = es.map some := by
  induction l generalizing es with
  | nil => cases es <;> simp
  | cons x rest ih =>
    cases x with
    | none => cases es <;> simp
    | some e =>
      have h : (some e :: rest).mapM id = (rest.mapM id).map (e :: ·) := by
        cases h : rest.mapM id <;> simp [h]
      rw [h, Option.map_eq_some_iff]
      simp only [ih]
      constructor
      · rintro ⟨es, rfl, rfl⟩; rfl
      · intro h
        cases es with
        | nil => simp at h
        | cons f fs =>
          simp only [List.map_cons, List.cons.injEq, Option.some.injEq] at h
          exact ⟨fs, h.2, by rw [h.1]⟩

/-- When `STAGE` holds the first `n` elements. -/
theorem stagedElements_eq_ok {stage : List (Option Element)} {n : Nat} {es : List Element} :
    stagedElements stage n = .ok es ↔ es.length = n ∧ stage.take n = es.map some := by
  unfold stagedElements
  cases h : (stage.take n).mapM id with
  | none =>
    simp only [reduceCtorEq, false_iff, not_and]
    intro _ h'
    rw [mapM_id_eq_some.2 h'] at h
    exact absurd h (by simp)
  | some fs =>
    have hf := mapM_id_eq_some.1 h
    simp only
    split
    · next hl =>
      simp only [Except.ok.injEq]
      constructor
      · rintro rfl; exact ⟨hl, hf⟩
      · rintro ⟨-, h'⟩
        rw [hf] at h'
        exact List.map_injective_iff.2 (Option.some_injective _) h'
    · next hl =>
      simp only [reduceCtorEq, false_iff, not_and]
      intro hn h'
      rw [hf] at h'
      exact hl (List.map_injective_iff.2 (Option.some_injective _) h' ▸ hn)

/-- Everything `commit` can do (46_band_decode.md R372). -/
theorem commitRule_eq_ok {op : BitVec 8} {s t : State} :
    commitRule op s = .ok t ↔ ∃ h es,
      s.orc.hdr = some h ∧ s.orc.phase = .done ∧ s.orc.bandsDone = h.nBands.toNat ∧
        s.ms1.bits.length = h.pixels ∧ s.ms1.building = false ∧ popcount s.ms1.bits = h.valid ∧
        es.length = h.nBands.toNat * h.pixels ∧
        s.stage.take (h.nBands.toNat * h.pixels) = es.map some ∧
        t = { s with
          out := some { kind := h.kind, elems := es }
          outMask := if h.valid = h.pixels then none else some s.ms1.bits
          status := { s.status with maskPresent := decide (h.valid ≠ h.pixels),
                                    outValid := true } } := by
  simp only [commitRule, except_bind_ok, ensure_ok_iff, headerOf_eq_ok, stagedElements_eq_ok,
    Except.ok.injEq]
  constructor
  · rintro ⟨h, h1, _, ⟨h2, h3, h4, h5⟩, _, h6, es, ⟨h7, h8⟩, rfl⟩
    exact ⟨h, es, h1, h2, h3, h4, h5, h6, h7, h8, rfl⟩
  · rintro ⟨h, es, h1, h2, h3, h4, h5, h6, h7, h8, rfl⟩
    exact ⟨h, h1, (), ⟨h2, h3, h4, h5⟩, (), h6, es, ⟨h7, h8⟩, rfl⟩

end Sys2Proof.Machine
end

