-- ==== Sys2Proof/Laws/PerInstr.lean ====
section
/-!
SUPPORT. What holds of every command as syntax, one lemma for each constructor.
-/

/-- The encoding of a command stands in the opcode map (30_encoding.md R101, R103): its word carries the
opcode in bits 31:24 and the immediate in bits 23:0, the opcode is one of the map's, and the immediate
is legal in that row's format exactly when the command is well formed. -/
def Sys2Proof.Laws.EncodesOpcode.Statement (i : Sys2Proof.Instr) : Prop :=
  Sys2Proof.opcodeOf (Sys2Proof.encode i) = i.opcode ∧
    Sys2Proof.immOf (Sys2Proof.encode i) = i.imm ∧
    ∃ f, (i.opcode.toNat, f) ∈ Sys2Proof.Machine.opcodeMap ∧ f.legal i.imm.toNat = i.wellFormed

namespace Sys2Proof

theorem Laws.EncodesOpcode.nop : Laws.EncodesOpcode.Statement .nop := by
  exact ⟨rfl, rfl, .f0, by decide, rfl⟩

theorem Laws.EncodesOpcode.info : Laws.EncodesOpcode.Statement .info := by
  exact ⟨rfl, rfl, .f0, by decide, rfl⟩

theorem Laws.EncodesOpcode.decode : Laws.EncodesOpcode.Statement .decode := by
  exact ⟨rfl, rfl, .f0, by decide, rfl⟩

theorem Laws.EncodesOpcode.srst : Laws.EncodesOpcode.Statement .srst := by
  exact ⟨rfl, rfl, .f0, by decide, rfl⟩

theorem Laws.EncodesOpcode.brInit (ord : BitOrder) : Laws.EncodesOpcode.Statement (.brInit ord) := by
  cases ord <;> exact ⟨rfl, rfl, .fo1, by decide, rfl⟩

theorem Laws.EncodesOpcode.brRead (n : BitVec 6) : Laws.EncodesOpcode.Statement (.brRead n) := by
  refine ⟨?_, ?_, .fn6, ?_, ?_⟩ <;> (revert n; decide)

theorem Laws.EncodesOpcode.brPeek (n : BitVec 6) : Laws.EncodesOpcode.Statement (.brPeek n) := by
  refine ⟨?_, ?_, .fn6, ?_, ?_⟩ <;> (revert n; decide)

theorem Laws.EncodesOpcode.brSkip : Laws.EncodesOpcode.Statement .brSkip := by
  exact ⟨rfl, rfl, .f0, by decide, rfl⟩

theorem Laws.EncodesOpcode.brAlign : Laws.EncodesOpcode.Statement .brAlign := by
  exact ⟨rfl, rfl, .f0, by decide, rfl⟩

theorem Laws.EncodesOpcode.brBytes (k : BitVec 4) : Laws.EncodesOpcode.Statement (.brBytes k) := by
  refine ⟨?_, ?_, .fk4, ?_, ?_⟩ <;> (revert k; decide)

theorem Laws.EncodesOpcode.brPos : Laws.EncodesOpcode.Statement .brPos := by
  exact ⟨rfl, rfl, .f0, by decide, rfl⟩

theorem Laws.EncodesOpcode.bmNew (sl : Slot) (v : Bool) : Laws.EncodesOpcode.Statement (.bmNew sl v) := by
  cases sl <;> cases v <;> exact ⟨rfl, rfl, .fsv2, by decide, rfl⟩

theorem Laws.EncodesOpcode.bmSet (sl : Slot) (v : Bool) : Laws.EncodesOpcode.Statement (.bmSet sl v) := by
  cases sl <;> cases v <;> exact ⟨rfl, rfl, .fsv2, by decide, rfl⟩

theorem Laws.EncodesOpcode.bmFill (sl : Slot) (v : Bool) : Laws.EncodesOpcode.Statement (.bmFill sl v) := by
  cases sl <;> cases v <;> exact ⟨rfl, rfl, .fsv2, by decide, rfl⟩

theorem Laws.EncodesOpcode.bmFreeze (sl : Slot) : Laws.EncodesOpcode.Statement (.bmFreeze sl) := by
  cases sl <;> exact ⟨rfl, rfl, .fs1, by decide, rfl⟩

theorem Laws.EncodesOpcode.bmGet (sl : Slot) : Laws.EncodesOpcode.Statement (.bmGet sl) := by
  cases sl <;> exact ⟨rfl, rfl, .fs1, by decide, rfl⟩

theorem Laws.EncodesOpcode.bmPopcnt (sl : Slot) : Laws.EncodesOpcode.Statement (.bmPopcnt sl) := by
  cases sl <;> exact ⟨rfl, rfl, .fs1, by decide, rfl⟩

theorem Laws.EncodesOpcode.bmNext (sl : Slot) : Laws.EncodesOpcode.Statement (.bmNext sl) := by
  cases sl <;> exact ⟨rfl, rfl, .fs1, by decide, rfl⟩

theorem Laws.EncodesOpcode.bmAnd : Laws.EncodesOpcode.Statement .bmAnd := by
  exact ⟨rfl, rfl, .f0, by decide, rfl⟩

theorem Laws.EncodesOpcode.bmLen (sl : Slot) : Laws.EncodesOpcode.Statement (.bmLen sl) := by
  cases sl <;> exact ⟨rfl, rfl, .fs1, by decide, rfl⟩

theorem Laws.EncodesOpcode.maskAbsent (sl : Slot) : Laws.EncodesOpcode.Statement (.maskAbsent sl) := by
  cases sl <;> exact ⟨rfl, rfl, .fs1, by decide, rfl⟩

theorem Laws.EncodesOpcode.maskRaw (sl : Slot) : Laws.EncodesOpcode.Statement (.maskRaw sl) := by
  cases sl <;> exact ⟨rfl, rfl, .fs1, by decide, rfl⟩

theorem Laws.EncodesOpcode.maskRle (sl : Slot) : Laws.EncodesOpcode.Statement (.maskRle sl) := by
  cases sl <;> exact ⟨rfl, rfl, .fs1, by decide, rfl⟩

theorem Laws.EncodesOpcode.hufLoadlen : Laws.EncodesOpcode.Statement .hufLoadlen := by
  exact ⟨rfl, rfl, .f0, by decide, rfl⟩

theorem Laws.EncodesOpcode.hufBuild : Laws.EncodesOpcode.Statement .hufBuild := by
  exact ⟨rfl, rfl, .f0, by decide, rfl⟩

theorem Laws.EncodesOpcode.hufSeg : Laws.EncodesOpcode.Statement .hufSeg := by
  exact ⟨rfl, rfl, .f0, by decide, rfl⟩

theorem Laws.EncodesOpcode.hufDec : Laws.EncodesOpcode.Statement .hufDec := by
  exact ⟨rfl, rfl, .f0, by decide, rfl⟩

theorem Laws.EncodesOpcode.hufDecf : Laws.EncodesOpcode.Statement .hufDecf := by
  exact ⟨rfl, rfl, .f0, by decide, rfl⟩

theorem Laws.EncodesOpcode.hufDecs : Laws.EncodesOpcode.Statement .hufDecs := by
  exact ⟨rfl, rfl, .f0, by decide, rfl⟩

theorem Laws.EncodesOpcode.hufRun : Laws.EncodesOpcode.Statement .hufRun := by
  exact ⟨rfl, rfl, .f0, by decide, rfl⟩

theorem Laws.EncodesOpcode.bsHdr : Laws.EncodesOpcode.Statement .bsHdr := by
  exact ⟨rfl, rfl, .f0, by decide, rfl⟩

theorem Laws.EncodesOpcode.bsUnpack : Laws.EncodesOpcode.Statement .bsUnpack := by
  exact ⟨rfl, rfl, .f0, by decide, rfl⟩

theorem Laws.EncodesOpcode.bsStream : Laws.EncodesOpcode.Statement .bsStream := by
  exact ⟨rfl, rfl, .f0, by decide, rfl⟩

theorem Laws.EncodesOpcode.codesGet : Laws.EncodesOpcode.Statement .codesGet := by
  exact ⟨rfl, rfl, .f0, by decide, rfl⟩

theorem Laws.EncodesOpcode.bandBegin : Laws.EncodesOpcode.Statement .bandBegin := by
  exact ⟨rfl, rfl, .f0, by decide, rfl⟩

theorem Laws.EncodesOpcode.bandMask : Laws.EncodesOpcode.Statement .bandMask := by
  exact ⟨rfl, rfl, .f0, by decide, rfl⟩

theorem Laws.EncodesOpcode.bandData : Laws.EncodesOpcode.Statement .bandData := by
  exact ⟨rfl, rfl, .f0, by decide, rfl⟩

theorem Laws.EncodesOpcode.bandDeq : Laws.EncodesOpcode.Statement .bandDeq := by
  exact ⟨rfl, rfl, .f0, by decide, rfl⟩

theorem Laws.EncodesOpcode.bandEnd : Laws.EncodesOpcode.Statement .bandEnd := by
  exact ⟨rfl, rfl, .f0, by decide, rfl⟩

theorem Laws.EncodesOpcode.deqOne : Laws.EncodesOpcode.Statement .deqOne := by
  exact ⟨rfl, rfl, .f0, by decide, rfl⟩

theorem Laws.EncodesOpcode.commit : Laws.EncodesOpcode.Statement .commit := by
  exact ⟨rfl, rfl, .f0, by decide, rfl⟩

end Sys2Proof
end

