-- ==== Sys2Proof/Tests/Slice0.lean ====
section
/-!
SUPPORT. The model's own tests: ill-formed commands, the decoding of words written out from the spec's
tables, single commands on the vectors of spec/95_test_vectors.md, and for each statement with
hypotheses a state that meets them.
-/

namespace Sys2Proof.Tests

/- One theorem after another: elaborated at once, the theorems that the kernel evaluates wait for each
other, each on a thread and a stack of its own, which takes the compile to its memory limit. -/
set_option Elab.async false

open Sys2Proof Sys2Proof.Machine

/-! ### Well-formedness (30_encoding.md R101) -/

theorem test_wf_refuses_read_33 : (Instr.brRead 33).wellFormed = false := by decide
theorem test_wf_refuses_peek_63 : (Instr.brPeek 63).wellFormed = false := by decide
theorem test_wf_refuses_bytes_0_3_9 :
    (Instr.brBytes 0).wellFormed = false ∧ (Instr.brBytes 3).wellFormed = false ∧
      (Instr.brBytes 9).wellFormed = false := by decide
theorem test_wf_accepts : (Instr.brRead 32).wellFormed = true ∧ (Instr.brPeek 0).wellFormed = true ∧
    (Instr.brBytes 8).wellFormed = true := by decide

/-! ### Decoding: words written out as opcode, must-be-0 bits and fields (R100, R101, R103) -/

/-- A word with this opcode and immediate, bit by bit as R100 lays it out. -/
def word (op imm : Nat) : CmdWord := BitVec.ofNat 32 (op * 0x1000000 + imm)

theorem test_decode_host : decode (word 0x00 0) = .ok .nop ∧ decode (word 0x01 0) = .ok .info ∧
    decode (word 0x02 0) = .ok .decode ∧ decode (word 0x0F 0) = .ok .srst := by decide
theorem test_decode_bitreader :
    decode 0b00010000_00000000_00000000_00000000 = .ok (.brInit .msb) ∧
    decode 0b00010000_00000000_00000000_00000001 = .ok (.brInit .lsb) ∧
    decode 0b00010001_00000000_00000000_00100000 = .ok (.brRead 32) ∧
    decode 0b00010010_00000000_00000000_00001100 = .ok (.brPeek 12) ∧
    decode (word 0x13 0) = .ok .brSkip ∧ decode (word 0x14 0) = .ok .brAlign ∧
    decode 0b00010101_00000000_00000000_00001000 = .ok (.brBytes 8) ∧
    decode (word 0x16 0) = .ok .brPos := by decide
theorem test_decode_bitmask :
    decode 0b00100000_00000000_00000000_00000010 = .ok (.bmNew .zero true) ∧
    decode 0b00100001_00000000_00000000_00000001 = .ok (.bmSet .one false) ∧
    decode 0b00100010_00000000_00000000_00000011 = .ok (.bmFill .one true) ∧
    decode (word 0x23 1) = .ok (.bmFreeze .one) ∧ decode (word 0x24 0) = .ok (.bmGet .zero) ∧
    decode (word 0x25 1) = .ok (.bmPopcnt .one) ∧ decode (word 0x26 0) = .ok (.bmNext .zero) ∧
    decode (word 0x27 0) = .ok .bmAnd ∧ decode (word 0x28 1) = .ok (.bmLen .one) := by decide
theorem test_decode_mask : decode (word 0x30 1) = .ok (.maskAbsent .one) ∧
    decode (word 0x31 0) = .ok (.maskRaw .zero) ∧ decode (word 0x32 1) = .ok (.maskRle .one) := by
  decide
theorem test_decode_huffman : decode (word 0x40 0) = .ok .hufLoadlen ∧
    decode (word 0x41 0) = .ok .hufBuild ∧ decode (word 0x42 0) = .ok .hufSeg ∧
    decode (word 0x43 0) = .ok .hufDec ∧ decode (word 0x44 0) = .ok .hufDecf ∧
    decode (word 0x45 0) = .ok .hufDecs ∧ decode (word 0x46 0) = .ok .hufRun := by decide
theorem test_decode_bitstuffer : decode (word 0x50 0) = .ok .bsHdr ∧
    decode (word 0x51 0) = .ok .bsUnpack ∧ decode (word 0x52 0) = .ok .bsStream ∧
    decode (word 0x53 0) = .ok .codesGet := by decide
theorem test_decode_orchestrator : decode (word 0x61 0) = .ok .bandBegin ∧
    decode (word 0x62 0) = .ok .bandMask ∧ decode (word 0x63 0) = .ok .bandData ∧
    decode (word 0x64 0) = .ok .bandDeq ∧ decode (word 0x65 0) = .ok .bandEnd ∧
    decode (word 0x66 0) = .ok .deqOne ∧ decode (word 0x67 0) = .ok .commit := by decide
theorem test_decode_rejects : decode (word 0x00 1) = .error (.illegalOperand 0x00) ∧
    decode (word 0x20 4) = .error (.illegalOperand 0x20) ∧
    decode (word 0x11 0x40) = .error (.illegalOperand 0x11) ∧
    decode (word 0x17 0) = .error (.illegalCommand 0x17) ∧
    decode (word 0x60 0) = .error (.illegalCommand 0x60) ∧
    decode (word 0xFF 0) = .error (.illegalCommand 0xFF) := by decide
theorem test_decode_table_word : decodeTableWord 32 0x11000005 = some (.brRead 5) ∧
    decodeTableWord 32 0x17000000 = none := by decide

/-! ### States for the tests -/

/-- The machine after reset, with an `IN` of 1024 bytes and an `OUT` of 64 elements. -/
def base : State := { State.reset with params := { inSize := 1024, outCapacity := some 64 } }

/-- Bytes of `IN` from offset 0 on. -/
def memory (bytes : List Byte) : Memory := bytes.zipIdx.map fun p => (p.2, p.1)

/-- A blob of these bytes, with the window over all of it. -/
def window (bytes : List Byte) (ord : BitOrder := .msb) : State :=
  { base with
    inMem := memory bytes
    srcLen := BitVec.ofNat 64 bytes.length
    br := { lo := 0, hi := bytes.length, pos := 0, order := ord } }

/-- The state a step leaves, if it leaves one. -/
def after : Host.Outcome State Fault Refusal → Option State
  | .next s => some s
  | .fault _ | .refused _ => none

/-- The code lengths `{0:1, 1:2, 2:2}` (95_test_vectors.md H1). -/
def lens122 : List Byte := [1, 2, 2] ++ List.replicate 253 0

/-- A window with the table of `lens122` built. -/
def coded (bytes : List Byte) : State :=
  { window bytes with ht := { lens := lens122, tables := some (tablesOf lens122) } }

/-- The header of vector L1-2. -/
def header12 : Header :=
  { version := 3, nRows := 2, nCols := 2, nBands := 1, kind := .f32, nValid := 4,
    maxZErr := 0x3FE0000000000000, size := 66,
    desc := [{ offset := 66, length := 8, zMin := 0x4024000000000000, zMax := 0x4028000000000000 }] }

/-- The bytes of vector L1-2, from its field list. -/
def blob12 : List Byte :=
  [0x4C, 0x65, 0x72, 0x63, 0x32, 0x20, 3, 0, 0, 0, 2, 0, 0, 0, 2, 0, 0, 0, 1, 0, 0, 0, 6, 0, 0, 0] ++
  [4, 0, 0, 0, 0, 0, 0, 0, 0, 0, 0, 0, 0, 0, 0xE0, 0x3F] ++
  [66, 0, 0, 0, 8, 0, 0, 0, 0, 0, 0, 0, 0, 0, 0x24, 0x40, 0, 0, 0, 0, 0, 0, 0x28, 0x40] ++
  [0, 0, 2, 4, 0, 0, 0, 0x22]

/-- `IN` holds vector L1-2. -/
def loaded12 : State := { base with inMem := memory blob12, srcLen := 74 }

/-- After INFO on vector L1-2, in a phase, with band 0 routed as its section says. -/
def inPhase (p : Phase) : State :=
  { loaded12 with orc := { Orchestrator.reset with hdr := some header12, phase := p } }

/-- Four valid pixels, frozen. -/
def mask4 : BitMask := { bits := [true, true, true, true], building := false }

/-- The elements 10.0, 12.0, 10.0, 12.0 of vector L1-2. -/
def elems12 : List Element := [.f32 0x41200000, .f32 0x41400000, .f32 0x41200000, .f32 0x41400000]

/-! ### Commands on the vectors of 95_test_vectors.md -/

/-- E3. -/
theorem test_nop : (after (exec .nop base)).map State.statusWord = some 1 := by decide
/-- E7. -/
theorem test_srst : (after (exec .srst (window [0xB5] .lsb))).map
    (fun t => (t.statusWord, t.srcLen, t.br.order, t.inMem)) = some (1, 0, .msb, [(0, 0xB5)]) := by
  decide
/-- P1's layout, on vector L1-2. -/
theorem test_info : (after (exec .info loaded12)).map
    (fun t => (t.statusWord, t.info.rows, t.info.dtype, t.info.maxZErr)) =
    some (9, 2, 6, 0x3FE0000000000000) := by decide +kernel
/-- L1-3. -/
theorem test_info_version_99 :
    (after (exec .info (window [0x4C, 0x65, 0x72, 0x63, 0x32, 0x20, 0x63, 0, 0, 0]))).map
      (fun t => (t.statusWord, t.errWord)) = some (3, 0x0000006300000002) := by decide +kernel
/-- L1-2. -/
theorem test_decode : (after (exec .decode loaded12)).map (fun t => (t.statusWord, t.out, t.outMask)) =
    some (0x519, some { kind := .f32, elems := elems12 }, none) := by decide +kernel
/-- L1-4, truncated inside the section. -/
theorem test_decode_truncated : (after (exec .decode { loaded12 with srcLen := 73 })).map
    (fun t => (t.statusWord, t.errWord)) = some (0xF03, 3) := by decide +kernel
/-- B17. -/
theorem test_br_init : (after (exec (.brInit .lsb) { window [1, 2] with a0 := 1, a1 := 1 })).map State.br =
    some { lo := 1, hi := 1, pos := 0, order := .lsb } := by decide
/-- B15. -/
theorem test_br_init_truncated : (after (exec (.brInit .msb) { window [1, 2] with a1 := 3 })).map
    (fun t => (t.errWord, t.br.hi)) = some (3, 2) := by decide
/-- B1. -/
theorem test_br_read_msb : (after (exec (.brRead 12) (window [0xB5, 0x3C]))).map
    (fun t => (t.r0, t.br.pos)) = some (0xB53, 12) := by decide
/-- B5. -/
theorem test_br_read_lsb : (after (exec (.brRead 12) (window [0xB5, 0x3C] .lsb))).map
    (fun t => (t.r0, t.br.pos)) = some (0xCB5, 12) := by decide
/-- B4. -/
theorem test_br_peek : (after (exec (.brPeek 3) (window [0xB5, 0x3C] .lsb))).map
    (fun t => (t.r0, t.br.pos)) = some (5, 0) := by decide
/-- B18. -/
theorem test_br_skip : (after (exec .brSkip { window [0xB5, 0x3C] with a0 := 17 })).map
    (fun t => (t.errWord, t.br.pos)) = some (3, 0) := by decide
/-- R160's example. -/
theorem test_br_align :
    (after (exec .brAlign { window [1, 2] with br := ⟨0, 2, 3, .msb⟩ })).map (fun t => t.br.pos) =
    some 8 := by decide
/-- B8. -/
theorem test_br_bytes : (after (exec (.brBytes 2) (window [0xB5, 0x3C]))).map
    (fun t => (t.r0, t.br.pos)) = some (0x3CB5, 16) := by decide
/-- B9. -/
theorem test_br_bytes_unaligned :
    (after (exec (.brBytes 1) { window [0xB5, 0x3C] with br := ⟨0, 2, 3, .msb⟩ })).map
      (fun t => (t.errWord, t.br.pos)) = some (0x0000001500000081, 3) := by decide
/-- B19. -/
theorem test_br_pos : (after (exec .brPos { window [1, 2] with br := ⟨0, 2, 3, .msb⟩ })).map
    (fun t => (t.r0, t.r1)) = some (3, 13) := by decide
/-- M1. -/
theorem test_bm_new : (after (exec (.bmNew .zero true) { base with a0 := 4 })).map State.ms0 =
    some { bits := [true, true, true, true], building := true } := by decide
/-- M17. -/
theorem test_bm_new_capacity : (after (exec (.bmNew .zero false) { base with a0 := 65 })).map
    (fun t => (t.errWord, t.ms0.building)) = some (0x82, false) := by decide
/-- M2. -/
theorem test_bm_set : (after (exec (.bmSet .zero false)
      { base with a0 := 2, ms0 := { mask4 with building := true } })).map (fun t => t.ms0.bits) =
    some [true, true, false, true] := by decide
/-- M7. -/
theorem test_bm_set_frozen : (after (exec (.bmSet .zero false) { base with ms0 := mask4 })).map
    (fun t => (t.errWord, t.ms0)) = some (0x0000002100000080, mask4) := by decide
/-- M8. -/
theorem test_bm_fill : (after (exec (.bmFill .one true)
      { base with a0 := 2, a1 := 3, ms1 := ⟨List.replicate 8 false, true⟩ })).map
      (fun t => t.ms1.bits) = some [false, false, true, true, true, false, false, false] := by decide
/-- R184's example. -/
theorem test_bm_freeze : (after (exec (.bmFreeze .zero) { base with ms0 := ⟨[true], true⟩ })).map State.ms0 =
    some ⟨[true], false⟩ := by decide
/-- M4, M5. -/
theorem test_bm_get : (after (exec (.bmGet .zero)
      { base with a0 := 2, r0 := 7, ms0 := ⟨[true, true, false, true], true⟩ })).map State.r0 = some 0 := by
  decide
/-- M3. -/
theorem test_bm_popcnt : (after (exec (.bmPopcnt .zero)
      { base with ms0 := ⟨[true, true, false, true], true⟩ })).map State.r0 = some 3 := by decide
/-- M10, M9. -/
theorem test_bm_next : (after (exec (.bmNext .one)
      { base with a0 := 3, ms1 := ⟨[false, false, true, true, false], true⟩ })).map State.r0 =
    some 3 := by decide
theorem test_bm_next_none : (after (exec (.bmNext .one)
      { base with a0 := 4, ms1 := ⟨[false, false, true, true, false], true⟩ })).map State.r0 =
    some 5 := by decide
/-- M13. -/
theorem test_bm_and : (after (exec .bmAnd
      { base with ms0 := ⟨[true, true, false, true], false⟩, ms1 := ⟨[true, false, true, true], false⟩ })).map
      (fun t => (t.ms1, t.ms0.bits)) =
    some (⟨[true, false, false, true], false⟩, [true, true, false, true]) := by decide
/-- R189's example. -/
theorem test_bm_len : (after (exec (.bmLen .one) { base with ms1 := mask4 })).map State.r0 = some 4 := by
  decide
/-- K1. -/
theorem test_mask_absent : (after (exec (.maskAbsent .one) { base with a0 := 5 })).map State.ms1 =
    some ⟨List.replicate 5 true, false⟩ := by decide
/-- K2. -/
theorem test_mask_raw : (after (exec (.maskRaw .zero) { window [0xD0] .lsb with a0 := 4 })).map
    (fun t => (t.ms0, t.br.pos)) = some (⟨[true, true, false, true], false⟩, 8) := by decide
/-- R213's example. -/
theorem test_mask_rle : (after (exec (.maskRle .zero)
      { window [1, 2, 0, 0, 0, 0, 3, 0, 0, 0, 1, 1, 0, 0, 0] with a0 := 6 })).map
      (fun t => (t.ms0, t.br.pos)) =
    some (⟨[true, true, false, false, false, true], false⟩, 120) := by decide +kernel
/-- K11; and K8 with `SRC_LEN` lowered into its pair (R71, R433). -/
theorem test_mask_rle_errors :
    (after (exec (.maskRle .zero) { window [2, 6, 0, 0, 0] with a0 := 6 })).map
      (fun t => (t.errWord, t.ms0.bits)) = some (0x0000000C0000000A, []) ∧
    (after (exec (.maskRle .zero) { window [1, 2, 0, 0, 0] with a0 := 6, srcLen := 4 })).map
      State.errWord = some 0x04 := by decide +kernel
/-- H18. -/
theorem test_huf_loadlen : (after (exec .hufLoadlen (coded lens122))).map
    (fun t => (t.ht.lens, t.ht.tables.isNone, t.br.pos)) = some (lens122, true, 2048) := by decide +kernel
/-- H1. -/
theorem test_huf_build : (after (exec .hufBuild { base with ht := ⟨lens122, none⟩ })).map
    (fun t => t.ht.tables.map fun u => (u.entries, u.maxLen)) =
    some (some ([⟨0, 1, 0⟩, ⟨1, 2, 2⟩, ⟨2, 2, 3⟩], 2)) := by decide +kernel
/-- H2. -/
theorem test_huf_build_corrupt :
    (after (exec .hufBuild { base with ht := ⟨[1, 1, 1] ++ List.replicate 253 0, none⟩ })).map
      (fun t => (t.errWord, t.ht.tables.isNone)) = some (7, true) := by decide +kernel
/-- H20. -/
theorem test_huf_seg : (after (exec .hufSeg (window [3, 0, 0, 0, 0x58, 0xBE, 0x1C, 0xFF]))).map
    (fun t => (t.r0, t.br)) = some (3, ⟨0, 7, 32, .msb⟩) := by decide +kernel
/-- H7, H8: the symbol 2 is the code `11`. -/
theorem test_huf_dec : (after (exec .hufDec (coded [0xFF]))).map (fun t => (t.r0, t.br.pos)) =
    some (2, 2) := by decide +kernel
theorem test_huf_decs : (after (exec .hufDecs { coded [0x7F] with br := ⟨0, 1, 7, .lsb⟩ })).map
    (fun t => (t.errWord, t.br.pos)) = some (3, 7) := by decide +kernel
theorem test_huf_decf : (after (exec .hufDecf (coded [0x9F, 0xFF]))).map (fun t => (t.r0, t.br.pos)) =
    some (1, 2) := by decide +kernel
/-- H22, the first symbols. -/
theorem test_huf_run : (after (exec .hufRun { coded [0x58, 0xBE, 0x1C] with a0 := 4 })).map
    (fun t => (t.codes, t.br.pos)) = some ([0, 1, 2, 0], 6) := by decide +kernel
/-- H17. -/
theorem test_huf_run_unbuilt : (after (exec .hufRun base)).map State.errWord =
    some 0x0000004600000080 := by decide +kernel
/-- S12. -/
theorem test_bs_hdr : (after (exec .bsHdr (window [2, 4, 0, 0, 0, 0x22]))).map
    (fun t => (t.bs, t.r0, t.r1, t.br.pos)) = some (⟨2, 4, 0⟩, 2, 4, 40) := by decide +kernel
/-- S4. -/
theorem test_bs_hdr_width : (after (exec .bsHdr (window [0x21, 1, 0, 0, 0, 0, 0, 0, 0]))).map State.errWord =
    some 0x0000002100000006 := by decide +kernel
/-- S12. -/
theorem test_bs_unpack : (after (exec .bsUnpack
      { window [2, 4, 0, 0, 0, 0x22] with br := ⟨0, 6, 40, .lsb⟩, bs := ⟨2, 4, 0⟩, codes := [9] })).map
      (fun t => (t.codes, t.bs, t.br.pos)) = some ([9, 0, 2, 0, 2], ⟨2, 0, 0⟩, 48) := by decide +kernel
/-- S6. -/
theorem test_bs_stream : (after (exec .bsStream
      { window [3, 3, 0, 0, 0, 0x37, 0x80, 1, 2, 0, 0, 0, 0x80] with a0 := 5 })).map
      (fun t => (t.codes, t.br.pos, t.r0, t.r1)) = some ([1, 5, 7, 1, 0], 104, 1, 2) := by decide +kernel
/-- S7. -/
theorem test_bs_stream_overrun : (after (exec .bsStream { window [1, 5, 0, 0, 0, 0xF8] with a0 := 4 })).map
    (fun t => (t.errWord, t.codes, t.br.pos)) = some (0x0000000D0000000A, [], 0) := by decide +kernel
/-- S13. -/
theorem test_codes_get : (after (exec .codesGet { base with a0 := 1, codes := [0, 2, 0, 2] })).map
    (fun t => (t.r0, t.r1)) = some (2, 4) := by decide
/-- O3, on vector L1-2 (P4). -/
theorem test_band_begin : (after (exec .bandBegin (inPhase .start))).map (fun t => (t.br, t.orc.phase)) =
    some (⟨68, 74, 0, .msb⟩, .headerValidated) := by decide +kernel
/-- D1. -/
theorem test_band_begin_truncated :
    (after (exec .bandBegin { inPhase .start with srcLen := 73 })).map (fun t => (t.errWord, t.orc.phase)) =
    some (3, .failed) := by decide +kernel
/-- P4. -/
theorem test_band_mask : (after (exec .bandMask (inPhase .headerValidated))).map
    (fun t => (t.ms0, t.orc.phase)) = some (mask4, .maskDecoded) := by decide +kernel
/-- D8: a valid count of 3 with no mask. -/
theorem test_band_mask_count : (after (exec .bandMask { inPhase .headerValidated with
      orc := { (inPhase .headerValidated).orc with hdr := some { header12 with nValid := 3 } } })).map
      (fun t => (t.errWord, t.orc.phase, t.ms0.bits)) = some (5, .failed, []) := by decide +kernel
/-- P4. -/
theorem test_band_data :
    (after (exec .bandData { inPhase .maskDecoded with br := ⟨68, 74, 0, .msb⟩ })).map
      (fun t => (t.codes, t.br.pos, t.r0, t.orc.phase)) =
    some ([0, 2, 0, 2], 48, 0, .dataDecoded) := by decide +kernel
/-- R364's example: an invalid pixel takes no code. -/
theorem test_band_deq : (after (exec .bandDeq { inPhase .dataDecoded with
      ms0 := ⟨[true, false, true, true], false⟩, codes := [0, 2, 1] })).map State.stage =
    some [some (.f32 0x41200000), some (.f32 0), some (.f32 0x41400000), some (.f32 0x41300000)] := by
  decide +kernel
/-- O9. -/
theorem test_band_deq_mismatch : (after (exec .bandDeq { inPhase .dataDecoded with
      ms0 := ⟨List.replicate 8 true, true⟩, codes := [0, 2, 1] })).map State.errWord =
    some 0x0000006400000080 := by decide +kernel
/-- P4. -/
theorem test_band_end : (after (exec .bandEnd { inPhase .dequantized with ms0 := mask4 })).map
    (fun t => (t.ms1, t.orc.bandsDone, t.orc.phase)) = some (mask4, 1, .done) := by decide +kernel
/-- Q13. -/
theorem test_deq_one : (after (exec .deqOne { inPhase .start with a0 := 2 })).map State.r0 =
    some 0x41400000 := by decide +kernel
/-- Q25. -/
theorem test_deq_one_operand : (after (exec .deqOne { inPhase .start with a0 := 0x100000000 })).map
    (fun t => (t.errWord, t.orc.phase)) = some (0x0000006600000081, .start) := by decide +kernel
/-- A band done, ready for COMMIT. -/
def allDone : State :=
  { inPhase .done with
    ms1 := mask4
    stage := elems12.map some
    orc := { (inPhase .done).orc with bandsDone := 1 } }
/-- O6. -/
theorem test_commit : (after (exec .commit allDone)).map (fun t => (t.out, t.outMask, t.status.outValid)) =
    some (some ⟨.f32, elems12⟩, none, true) := by decide +kernel
/-- P3-a's check. -/
theorem test_commit_count :
    (after (exec .commit { allDone with ms1 := ⟨[true, true, true, false], false⟩ })).map
      (fun t => (t.errWord, t.orc.phase, t.out)) = some (5, .failed, none) := by decide +kernel

/-! ### Dequantization (Q vectors) and the host's side -/

/-- DEQ.ONE of code 0 in a kind, lossless, with this minimum: `R0` and `ERR`. -/
def deqZero (kind : Kind) (zMin : BitVec 64) : Option (Reg × Reg) :=
  (after (exec .deqOne { base with
    orc := { Orchestrator.reset with
      hdr := some { header12 with
        kind := kind, maxZErr := 0, desc := [{ offset := 66, length := 8, zMin := zMin, zMax := zMin }] } }
    })).map fun t => (t.r0, t.errWord)

/-- Q10: the value below one half rounds to 0. -/
theorem test_deq_below_half : deqZero .u8 0x3FDFFFFFFFFFFFFF = some (0, 0) := by decide +kernel
/-- Q9: a tie goes away from zero. -/
theorem test_deq_tie_away : deqZero .i32 0xC004000000000000 = some (0xFFFFFFFD, 0) := by decide +kernel
/-- Q17: half an ulp past the largest binary32 rounds to an infinity. -/
theorem test_deq_f32_overflow : deqZero .f32 0x47EFFFFFF0000000 = some (0, 9) := by decide +kernel
/-- Q18: underflow keeps the sign, with no error. -/
theorem test_deq_f32_underflow : deqZero .f32 0xB66244CE242C5561 = some (0x80000000, 0) := by decide +kernel
/-- E1. -/
theorem test_id_config : (after (hostAccess (.regRead 0 8) base)).map State.reply =
      some (.reg 0x0000000006024C32) ∧
    (after (hostAccess (.regRead 0x90 8) base)).map State.reply =
      some (.reg 0x000000200200200C) := by decide
/-- R73: the second byte of -97 in an I16 buffer (P3). -/
theorem test_out_byte : (after (hostAccess (.outRead 3)
      { base with status := { base.status with outValid := true }
                  out := some ⟨.i16, [.int (-100), .int (-97)]⟩ })).map State.reply =
    some (.byte 0xFF) := by decide
/-- A step runs the next host access: the word of BR.READ 5, from reset. -/
theorem test_step_runs_word : (after (step (base.withFetchWord 32 0x11000005))).map State.errWord =
    some 3 := by decide

/-! ### Witnesses: for each statement with hypotheses, a state and operands that meet them -/

/-- A step whose outcome is a next state with a property. -/
theorem exists_next {o : Host.Outcome State Fault Refusal} {p : State → Bool}
    (h : (after o).any p = true) : ∃ t, o = .next t ∧ p t = true := by
  cases o with
  | next t => exact ⟨t, rfl, by simpa [after] using h⟩
  | fault f => simp [after] at h
  | refused r => simp [after] at h

theorem witness_DecodeEncodeAgree : (Instr.brRead 32).wellFormed = true := by decide

theorem witness_EncodeDecodeAgree : decode 0x15000008 = .ok (.brBytes 8) := by decide

/-- Both ends of each reserved range. -/
theorem witness_ReservedOpcodeEndsCommand :
    ∀ op ∈ [0x03, 0x0E, 0x17, 0x1F, 0x29, 0x2F, 0x33, 0x3F, 0x47, 0x4F, 0x54, 0x60, 0x68, 0xFF],
      ((BitVec.ofNat 64 (op * 0x1000000)).extractLsb' 24 8).toNat = op ∧
      (0x03 ≤ op ∧ op ≤ 0x0E ∨ 0x17 ≤ op ∧ op ≤ 0x1F ∨ 0x29 ≤ op ∧ op ≤ 0x2F ∨
        0x33 ≤ op ∧ op ≤ 0x3F ∨ 0x47 ≤ op ∧ op ≤ 0x4F ∨ 0x54 ≤ op ∧ op ≤ 0x60 ∨
        0x68 ≤ op ∧ op ≤ 0xFF) := by decide

/-- The least illegal immediate of each format. -/
theorem witness_IllegalImmediateEndsCommand :
    ∀ x ∈ [(0x00, Format.f0, 1), (0x10, .fo1, 2), (0x11, .fn6, 33), (0x15, .fk4, 0), (0x15, .fk4, 9),
        (0x23, .fs1, 2), (0x20, .fsv2, 4), (0x67, .f0, 0xFFFFFF)],
      (x.1, x.2.1) ∈ opcodeMap ∧
      ((BitVec.ofNat 64 (x.1 * 0x1000000 + x.2.2)).extractLsb' 24 8).toNat = x.1 ∧
      x.2.1.legal ((BitVec.ofNat 64 (x.1 * 0x1000000 + x.2.2)).extractLsb' 0 24).toNat = false := by
  decide

/-- Any access at the head of the port, a write to `CMD` among them, and an empty port. -/
theorem witness_StepRunsDecoded :
    ({ base with port := [.inRead 0] } : State).port = .inRead 0 :: [] ∧
    ((base.withFetchWord 32 0x11000005).port = .regWrite 0x08 8 0x11000005 :: base.port ∧
      decode ((0x11000005 : Reg).extractLsb' 0 32) = .ok (.brRead 5)) ∧
    (32 ≤ 32 ∧ decodeTableWord 32 0x11000005 = some (.brRead 5)) ∧ base.port = [] := by decide

/-- The ends of the reserved offsets, of the read-only ones, and two wrong shapes. -/
theorem witness_RegisterBlockAccess :
    (0x98 ≤ 8 * 19 ∧ 8 * 19 ≤ 0xF8 ∧ 0x98 ≤ 8 * 31 ∧ 8 * 31 ≤ 0xF8) ∧
    (∀ k ∈ [0, 2, 3, 9, 19, 31], 8 * k ≤ 0xF8 ∧ 8 * k ≠ 0x08 ∧ ¬ (0x20 ≤ 8 * k ∧ 8 * k ≤ 0x40)) ∧
    ¬ (4 = 8 ∧ 0x20 % 8 = 0) ∧ ¬ (8 = 8 ∧ 0x24 % 8 = 0) := by decide

/-- The last byte of `IN` and the first past it. -/
theorem witness_HostWritesReadBack :
    1023 < base.params.inSize ∧ base.params.inSize ≤ 1024 ∧ loaded12.inMem.wf = true := by
  decide +kernel

/-- A valid result of a kind. -/
def resultOf (kind : Kind) (elems : List Element) (mask : Option (List Bool)) : State :=
  { base with
    status := { base.status with outValid := true, maskPresent := mask.isSome }
    out := some { kind := kind, elems := elems }
    outMask := mask }

theorem witness_OutputReads :
    ((resultOf .i16 [.int (-100)] none).status.outValid = true ∧
      [Element.int (-100)][0]? = some (.int (-100)) ∧ (Element.int (-100)).ofKind .i16 = true ∧
      1 < Kind.i16.bytes) ∧
    ((Element.f32 0x41200000).ofKind .f32 = true ∧ 3 < Kind.f32.bytes) ∧
    ((Element.f64 0x4024000000000000).ofKind .f64 = true ∧ 7 < Kind.f64.bytes) ∧
    ((resultOf .u8 [.int 1, .int 0] (some [true, false])).status.maskPresent = true ∧
      [true, false][1]? = some false) ∧
    base.status.outValid = false ∧
    ¬ ((resultOf .u8 [.int 1] none).status.outValid = true ∧
      (resultOf .u8 [.int 1] none).status.maskPresent = true) := by decide

theorem witness_ResetValues : ∀ k ∈ [1, 2, 17, 19, 31],
    8 * k ≤ 0xF8 ∧ 8 * k ≠ 0x00 ∧ 8 * k ≠ 0x90 := by decide

theorem witness_CommandPostsOutcome : ∃ t, exec .hufRun base = .next t ∧ (t.err.code == 0x80) = true :=
  exists_next (p := fun t => t.err.code == 0x80) (by decide +kernel)

theorem witness_EngineKeepsHostState :
    (∃ t, exec .decode loaded12 = .next t ∧ (t.err.code == 0) = true) ∧ Instr.decode ≠ .srst :=
  ⟨exists_next (p := fun t => t.err.code == 0) (by decide +kernel), by decide⟩

/-- A command of neither kind, a COMMIT that fails and an INFO that fails. -/
theorem witness_OnlyCommitWritesOutput :
    (∃ t, exec .brPos base = .next t ∧ (t.err.code == 0) = true) ∧
    (∃ t, exec .commit base = .next t ∧ (t.err.code == 0x80) = true) ∧
    (∃ t, exec .info base = .next t ∧ (t.err.code == 3) = true) :=
  ⟨exists_next (p := fun t => t.err.code == 0) (by decide +kernel),
   exists_next (p := fun t => t.err.code == 0x80) (by decide +kernel),
   exists_next (p := fun t => t.err.code == 3) (by decide +kernel)⟩

/-- NOP is in none of the lists. -/
theorem witness_UnitStateFrame : (∃ t, exec .nop base = .next t ∧ (t.err.code == 0) = true) ∧
    Instr.nop.opcode ∉ ([0x01, 0x02, 0x0F, 0x10, 0x61, 0x66] : List (BitVec 8)) :=
  ⟨exists_next (p := fun t => t.err.code == 0) (by decide +kernel), by decide⟩

/-- A unit command that fails, and BAND.BEGIN failing with `Truncated` and with `IllegalCommand`. -/
theorem witness_FailureFrames :
    (∃ t, exec (.brRead 1) base = .next t ∧ (t.err.code != 0) = true) ∧
    (∃ t, exec .bandBegin { inPhase .start with srcLen := 73 } = .next t ∧
      (t.err.code == 3) = true) ∧
    (∃ t, exec .bandBegin base = .next t ∧ (t.err.code == 0x80) = true) :=
  ⟨exists_next (p := fun t => t.err.code != 0) (by decide +kernel),
   exists_next (p := fun t => t.err.code == 3) (by decide +kernel),
   exists_next (p := fun t => t.err.code == 0x80) (by decide +kernel)⟩

theorem witness_OutOfSequenceRefused :
    (inPhase .failed).orc.phase = .failed ∧ (inPhase .failed).orc.phase ≠ .start ∧
    (inPhase .start).orc.phase ≠ .done ∧ base.orc.hdr = none ∧
    (∃ t, exec .commit (inPhase .failed) = .next t ∧ (t.err.code == 0x80) = true) :=
  ⟨by decide, by decide, by decide, by decide,
   exists_next (p := fun t => t.err.code == 0x80) (by decide +kernel)⟩

/-- A state in the middle of a band that satisfies the invariant, with an access to serve. -/
def midBand : State :=
  { inPhase .maskDecoded with
    status := { base.status with done := true, infoValid := true }
    br := header12.desc.head?.elim base.br Descriptor.window
    ms0 := mask4
    port := [.regWrite 0x08 8 0x63000000] }

theorem witness_StepKeepsInv :
    midBand.Inv ∧ ∃ t, step midBand = .next t ∧ (t.orc.phase == .dataDecoded) = true := by
  refine ⟨?_, exists_next (p := fun t => t.orc.phase == .dataDecoded) (by decide +kernel)⟩
  constructor
  case memInside => decide +kernel
  case memWf => decide +kernel
  case window => unfold BitReader.wf; decide
  case table => exact ⟨by decide +kernel, nofun⟩
  case noHeader => nofun
  case headerLegal => rintro h ⟨⟩; decide +kernel
  case progress => rintro h ⟨⟩; exact ⟨by decide, by decide, rfl⟩
  case capacity => rintro h ⟨⟩ -; decide
  case stageFull => rintro h ⟨⟩ -; decide
  case stageTyped => rintro h e ⟨⟩ he; cases he
  case outTyped => nofun
  all_goals decide

/-- Each path of BR.INIT: the blob past `IN_SIZE`, `lo` past `hi`, `hi` past the blob, and a window. -/
theorem witness_BrInitCases :
    base.params.inSize < ({ base with srcLen := 1025 } : State).srcLen.toNat ∧
    ¬ base.params.inSize < ({ base with srcLen := 1024 } : State).srcLen.toNat := by decide

/-- Exactly the bits left, and one more, in both orders. -/
theorem witness_BrReadPeekValue :
    (((16 : BitVec 6).toNat ≤ 32 → (16 : BitVec 6).toNat ≤ (window [0xB5, 0x3C]).br.rem →
        (window [0xB5, 0x3C]).source.BitsReadable (window [0xB5, 0x3C]).br (16 : BitVec 6).toNat) ∧
      (16 : BitVec 6).toNat = (window [0xB5, 0x3C]).br.rem) ∧
    ((17 : BitVec 6).toNat ≤ 32 → (17 : BitVec 6).toNat ≤ (window [0xB5, 0x3C] .lsb).br.rem →
      (window [0xB5, 0x3C] .lsb).source.BitsReadable (window [0xB5, 0x3C] .lsb).br
        (17 : BitVec 6).toNat) := by decide +kernel

theorem witness_BrCursorCommands :
    (window [0xB5, 0x3C]).br.pos ≤ 8 * ((window [0xB5, 0x3C]).br.hi - (window [0xB5, 0x3C]).br.lo) ∧
    (window [0xB5, 0x3C]).br.pos < 2 ^ 64 := by decide

theorem witness_BrBytesValue :
    ([0xB5, 0x3C] : List Byte).length = (2 : BitVec 4).toNat ∧
    8 * (2 : BitVec 4).toNat ≤ (window [0xB5, 0x3C]).br.rem ∧
    (window [0xB5, 0x3C]).source.Holds
      ((window [0xB5, 0x3C]).br.lo + (window [0xB5, 0x3C]).br.pos / 8) [0xB5, 0x3C] := by
  decide +kernel

/-- At the capacity and one past it; a building slot at its last index and one past it. -/
theorem witness_BmWrites :
    (∀ c, ({ base with a0 := 64 } : State).params.outCapacity = some c →
      ({ base with a0 := 64 } : State).a0.toNat ≤ c) ∧
    (base.params.outCapacity = some 64 ∧ 64 < ({ base with a0 := 65 } : State).a0.toNat) ∧
    (base.mask .zero).building = false ∧
    (({ base with ms1 := ⟨[true, false], true⟩ } : State).mask .one).building = true ∧
    (({ base with ms1 := ⟨[true, false], true⟩ } : State).mask .one).bits.length = 2 := by
  refine ⟨?_, by decide, by decide, by decide, by decide⟩
  intro c hc
  cases hc
  decide

theorem witness_BmReads :
    (base.mask .zero).bits.length ≤ base.a0.toNat ∧
    ((({ base with ms1 := mask4, a0 := 3 } : State).mask .one).bits[(3 : Reg).toNat]? = some true) ∧
    (base.mask .zero).bits.length < 2 ^ 64 := by decide

theorem witness_BmFreezeAnd :
    (({ base with ms1 := ⟨[], true⟩ } : State).ms0.building = true ∨
      ({ base with ms1 := ⟨[], true⟩ } : State).ms1.building = true) ∧
    (({ base with ms0 := mask4 } : State).ms0.building = false ∧
      ({ base with ms0 := mask4 } : State).ms0.bits.length ≠
        ({ base with ms0 := mask4 } : State).ms1.bits.length) ∧
    (({ base with ms0 := mask4, ms1 := mask4 } : State).ms0.bits.length =
      ({ base with ms0 := mask4, ms1 := mask4 } : State).ms1.bits.length ∧ mask4.building = false) := by
  decide

/-- Nine pixels in two bytes, one byte, and an unaligned cursor; a count past the capacity. -/
theorem witness_MaskAbsentRaw :
    ({ base with a0 := 65 } : State).params.fitsOut (65 : Reg).toNat = false ∧
    ({ window [0xFF, 0x80] with a0 := 9 } : State).params.fitsOut (9 : Reg).toNat = true ∧
    (window [0xFF, 0x80]).br.pos % 8 = 0 ∧ 8 * ((9 + 7) / 8) ≤ (window [0xFF, 0x80]).br.rem ∧
    (window [0xFF, 0x80]).source.BitsReadable (window [0xFF, 0x80]).br 9 ∧
    (window [0xFF]).br.rem < 8 * ((9 + 7) / 8) ∧
    ({ window [0xFF] with br := ⟨0, 1, 3, .msb⟩ } : State).br.pos % 8 ≠ 0 := by decide +kernel

/-- The bytes of the runs `(1, 2) (0, 3) (1, 1)`. -/
def runBytes : List Byte := [1, 2, 0, 0, 0, 0, 3, 0, 0, 0, 1, 1, 0, 0, 0]

theorem witness_MaskRleRuns :
    base.params.fitsOut (6 : Reg).toNat = true ∧ (window runBytes).br.pos % 8 = 0 ∧
    (∀ r ∈ [(true, 2), (false, 3), (true, 1)], 1 ≤ r.2 ∧ r.2 < 2 ^ 32) ∧
    ([(true, 2), (false, 3), (true, 1)].map Prod.snd).sum = (6 : Reg).toNat ∧
    40 * [(true, 2), (false, 3), (true, 1)].length ≤ (window runBytes).br.rem ∧
    (window runBytes).source.Holds ((window runBytes).br.lo + (window runBytes).br.pos / 8)
      ([(true, 2), (false, 3), (true, 1)].flatMap
        fun r => leBytes 1 r.1.toNat ++ leBytes 4 r.2) := by decide +kernel

/-- After the runs `(1, 2) (0, 3)`: no pair left; the pair `(1, 1)` overruns 5 + 1 pixels of 5 wanted
only when fewer are wanted; a value byte of 2; a run of 0. -/
theorem witness_MaskRleErrors :
    (∃ t, exec (.maskRle .zero) { window runBytes with a0 := 7 } = .next t ∧
      (t.err.code == 4) = true) ∧
    base.params.fitsOut (65 : Reg).toNat = false ∧
    ({ window runBytes with br := ⟨0, 15, 3, .msb⟩ } : State).br.pos % 8 ≠ 0 ∧
    ([(true, 2), (false, 3)].map Prod.snd).sum < (6 : Reg).toNat ∧
    (window (runBytes.take 10)).br.rem < 40 * [(true, 2), (false, 3)].length + 40 ∧
    (window (runBytes.take 10)).source.Holds (window (runBytes.take 10)).br.cur
      (rleLayout [(true, 2), (false, 3)]) ∧
    ({ window runBytes with srcLen := 14 } : State).srcLen.toNat <
      (window runBytes).br.cur + 5 * [(true, 2), (false, 3)].length + 5 ∧
    ({ window runBytes with srcLen := 14 } : State).source.Holds (window runBytes).br.cur
      (rleLayout [(true, 2), (false, 3)]) ∧
    (∀ x ∈ [(2, 1), (1, 0), (1, 2)],
      40 * [(true, 2), (false, 3)].length + 40 ≤
        (window (runBytes.take 10 ++ leBytes 1 x.1 ++ leBytes 4 x.2)).br.rem ∧
      (window (runBytes.take 10 ++ leBytes 1 x.1 ++ leBytes 4 x.2)).source.Holds
        (0 + 5 * [(true, 2), (false, 3)].length) (leBytes 1 x.1 ++ leBytes 4 x.2)) ∧
    (6 : Reg).toNat < ([(true, 2), (false, 3)].map Prod.snd).sum + 2 :=
  ⟨exists_next (p := fun t => t.err.code == 4) (by decide +kernel), by decide +kernel⟩

theorem witness_HufLoadlenSeg :
    (lens122.length = 256 ∧ (window lens122).br.rem = 2048 ∧
      (window lens122).source.Holds ((window lens122).br.lo + (window lens122).br.pos / 8) lens122) ∧
    ((window [0, 0, 0, 0]).br.rem = 32 ∧ (window [0, 0, 0, 0]).source.Holds 0 (leBytes 4 0)) ∧
    (window [1, 0, 0, 0]).source.Holds 0 (leBytes 4 1) := by decide +kernel

theorem lens122_length : lens122.length = 256 := by decide +kernel

theorem le_of_all {lens : List Byte} (h : (lens.all fun l => decide (l.toNat ≤ 32)) = true) :
    ∀ l ∈ lens, l.toNat ≤ 32 :=
  fun l hl => of_decide_eq_true (List.all_eq_true.mp h l hl)

theorem lens122_le : ∀ l ∈ lens122, l.toNat ≤ 32 := le_of_all (by decide +kernel)

/-- An over-long length, a Kraft sum above 1, and one of exactly 1. -/
theorem witness_HufBuildCases :
    ((33 :: List.replicate 255 0 : List Byte).length = 256 ∧
      ∃ l ∈ (33 :: List.replicate 255 0 : List Byte), 32 < l.toNat) ∧
    2 ^ 32 < kraftOf (1 :: 1 :: 32 :: List.replicate 253 0) ∧
    (lens122.length = 256 ∧ (∀ l ∈ lens122, l.toNat ≤ 32) ∧ kraftOf lens122 = 2 ^ 32) := by
  refine ⟨⟨by decide +kernel, 33, .head _, by decide⟩, by decide +kernel, lens122_length, lens122_le, by decide +kernel⟩

theorem witness_acceptedLengths : acceptedLengths lens122 :=
  ⟨lens122_length, lens122_le, by decide +kernel⟩

theorem witness_CanonicalCodesPrefixFree :
    acceptedLengths lens122 ∧ (⟨1, 2, 2⟩ : HuffEntry) ∈ (tablesOf lens122).entries ∧
      (⟨2, 2, 3⟩ : HuffEntry) ∈ (tablesOf lens122).entries :=
  ⟨witness_acceptedLengths, by decide +kernel, by decide +kernel⟩

theorem witness_Consistent (bytes : List Byte) :
    (coded bytes).ht.Consistent ∧ (coded bytes).ht.tables = some (tablesOf lens122) := by
  refine ⟨⟨lens122_length, ?_⟩, rfl⟩
  rintro t ⟨⟩
  exact ⟨witness_acceptedLengths, rfl⟩

theorem witness_HufFastSlowEqual :
    ((coded [0xFF, 0xFF]).ht.Consistent ∧ (coded [0xFF, 0xFF]).ht.tables.isSome = true) ∧
    base.ht.Consistent ∧ base.ht.tables = none :=
  ⟨⟨(witness_Consistent _).1, rfl⟩, ⟨by decide +kernel, nofun⟩, rfl⟩

/-- A symbol that ends the window; an unused pattern of the code `{0:2, 1:2}`; a window that ends
first. -/
theorem witness_HufDecodeCases :
    ((⟨2, 2, 3⟩ : HuffEntry) ∈ (tablesOf lens122).entries ∧
      ({ coded [0xFF] with br := ⟨0, 1, 6, .msb⟩ } : State).source.BitsAre ⟨0, 1, 6, .msb⟩
        (msbBits 2 3)) ∧
    (acceptedLengths ([2, 2] ++ List.replicate 254 0) ∧
      (window [0xC0]).source.BitsReadable (window [0xC0]).br
        (min (tablesOf ([2, 2] ++ List.replicate 254 0)).maxLen (window [0xC0]).br.rem) ∧
      ∀ e ∈ (tablesOf ([2, 2] ++ List.replicate 254 0)).entries,
        ¬ (window [0xC0]).source.BitsAre (window [0xC0]).br (msbBits e.len e.code)) ∧
    (({ coded [0x7F] with br := ⟨0, 1, 7, .msb⟩ } : State).br.rem < (tablesOf lens122).maxLen ∧
      ({ coded [0x7F] with br := ⟨0, 1, 7, .msb⟩ } : State).source.BitsReadable ⟨0, 1, 7, .msb⟩
        (min (tablesOf lens122).maxLen (BitReader.rem ⟨0, 1, 7, .msb⟩)) ∧
      ∀ e ∈ (tablesOf lens122).entries,
        ¬ ({ coded [0x7F] with br := ⟨0, 1, 7, .msb⟩ } : State).source.BitsAre ⟨0, 1, 7, .msb⟩
          (msbBits e.len e.code)) := by
  refine ⟨⟨by decide +kernel, by decide +kernel⟩, ⟨⟨by decide +kernel, le_of_all (by decide +kernel), by decide +kernel⟩,
    by decide +kernel, by decide +kernel⟩, by decide +kernel, by decide +kernel, by decide +kernel⟩

theorem witness_HufRunDecodesCodeStream :
    (∀ e ∈ [(⟨0, 1, 0⟩ : HuffEntry), ⟨1, 2, 2⟩, ⟨2, 2, 3⟩, ⟨0, 1, 0⟩],
      e ∈ (tablesOf lens122).entries) ∧
    [(⟨0, 1, 0⟩ : HuffEntry), ⟨1, 2, 2⟩, ⟨2, 2, 3⟩, ⟨0, 1, 0⟩].length =
      ({ coded [0x58] with a0 := 4 } : State).a0.toNat ∧
    ({ coded [0x58] with a0 := 4 } : State).source.BitsAre
      ({ coded [0x58] with a0 := 4 } : State).br
      (codeStream [⟨0, 1, 0⟩, ⟨1, 2, 2⟩, ⟨2, 2, 3⟩, ⟨0, 1, 0⟩]) := by
  refine ⟨by decide +kernel, by decide, by decide +kernel⟩

/-- The widest legal width, one past it, width 0 with its constant, and a count of 0. -/
theorem witness_BsHdrCases :
    (∀ x ∈ [(32, 1, 0), (33, 1, 0), (0, 3, 7), (5, 0, 0)],
      (window (leBytes 1 x.1 ++ leBytes 4 x.2.1 ++ leBytes 4 x.2.2)).source.Holds 0 (leBytes 1 x.1) ∧
      (window (leBytes 1 x.1 ++ leBytes 4 x.2.1 ++ leBytes 4 x.2.2)).source.Holds 1 (leBytes 4 x.2.1) ∧
      (window (leBytes 1 x.1 ++ leBytes 4 x.2.1 ++ leBytes 4 x.2.2)).source.Holds 5
        (leBytes 4 x.2.2)) := by decide +kernel

/-- The block of vector S1, whose bits are exactly those left. -/
def blockS1 : PackedBlock := { width := 2, const := 0, codes := [0, 2, 0, 2] }

/-- The header of S1 read, its four codes still to unpack. -/
def headerRead : State :=
  { window [2, 4, 0, 0, 0, 0x22] with br := ⟨0, 6, 40, .msb⟩, bs := ⟨2, 4, 0⟩ }

theorem witness_BsUnpackValue :
    headerRead.bs.width ≤ 32 ∧ ([0, 2, 0, 2] : List Code).length = headerRead.bs.count ∧
    (∀ c ∈ ([0, 2, 0, 2] : List Code), c.toNat < 2 ^ headerRead.bs.width) ∧
    headerRead.bs.count * headerRead.bs.width = headerRead.br.rem ∧
    headerRead.source.BitsAre headerRead.br
      (([0, 2, 0, 2] : List Code).flatMap fun c => msbBits headerRead.bs.width c.toNat) :=
  ⟨by decide, rfl, by simp [headerRead], by decide, by decide +kernel⟩

/-- The block of S1 and a header of width 0 after it. -/
def overrunS1 : State := window [2, 4, 0, 0, 0, 0x22, 0, 2, 0, 0, 0, 7, 0, 0, 0]

theorem holdsS1 : (window [2, 4, 0, 0, 0, 0x22]).source.HoldsBlocks
    (window [2, 4, 0, 0, 0, 0x22]).br [blockS1] :=
  ⟨by decide +kernel, by decide +kernel, trivial⟩

theorem witness_BsStreamDecodesBlocks :
    (window [2, 4, 0, 0, 0, 0x22]).br.pos % 8 = 0 ∧
    (window [2, 4, 0, 0, 0, 0x22]).source.HoldsBlocks (window [2, 4, 0, 0, 0, 0x22]).br [blockS1] ∧
    ([blockS1].flatMap PackedBlock.codes).length = (4 : Reg).toNat :=
  ⟨by decide, holdsS1, by decide⟩

/-- The header of vector S1 with nothing after it, and a header of width 0 after the block of S1. -/
theorem witness_BsStreamOverrun :
    (base.params.fitsOut (3 : Reg).toNat = true ∧
      8 * blockBytes [] + 8 * (leBytes 1 2 ++ leBytes 4 4).length ≤ (window [2, 4, 0, 0, 0]).br.rem ∧
      (window [2, 4, 0, 0, 0]).source.Holds 0 (leBytes 1 2 ++ leBytes 4 4) ∧
      0 < (3 : Reg).toNat ∧ (3 : Reg).toNat < 0 + 4) ∧
    (overrunS1.source.HoldsBlocks overrunS1.br [blockS1] ∧
      8 * blockBytes [blockS1] + 8 * (leBytes 1 0 ++ leBytes 4 2 ++ leBytes 4 7).length ≤
        overrunS1.br.rem ∧
      overrunS1.source.Holds (0 + 0 / 8 + blockBytes [blockS1]) (leBytes 1 0 ++ leBytes 4 2 ++ leBytes 4 7) ∧
      [blockS1].flatMap PackedBlock.codes = [0, 2, 0, 2] ∧ 4 < (5 : Reg).toNat ∧
      (5 : Reg).toNat < 4 + 2) := by
  refine ⟨by decide, ⟨by decide, by decide +kernel, trivial⟩, by decide, by decide +kernel, by decide,
    by decide, by decide⟩

/-- R432: on an unaligned cursor the argument is BS.STREAM's own opcode, not BS.HDR's. -/
theorem test_bs_stream_unaligned : (after (exec .bsStream { window [1, 1] with
    a0 := 1, br := ⟨0, 2, 1, .msb⟩ })).map State.errWord = some 0x0000005200000081 := by decide

/-- R432: BAND.MASK's own opcode, not MASK.RAW's; DECODE's, not INFO's. -/
theorem test_err_arg_of_command :
    (after (exec .bandMask { inPhase .headerValidated with
      br := ⟨0, 2, 1, .msb⟩
      orc := { (inPhase .headerValidated).orc with maskMode := .raw } })).map State.errWord =
        some 0x0000006200000081 ∧
    (after (exec .decode { base with srcLen := 1025 })).map State.errWord =
        some 0x0000000200000081 := by decide +kernel

theorem witness_CodesGetCases :
    ({ base with codes := [5] } : State).codes.length ≤ (1 : Reg).toNat ∧
    ({ base with codes := [5] } : State).codes[(0 : Reg).toNat]? = some 5 := by decide

theorem holds12 : loaded12.source.Holds 0 header12.layout := by decide +kernel

theorem witness_InfoReadsHeaderLayout : header12.legal = true ∧
    loaded12.srcLen.toNat ≤ loaded12.params.inSize ∧ loaded12.source.Holds 0 header12.layout :=
  ⟨by decide +kernel, by decide, holds12⟩

/-- The fields of vector L1-2, with another kind code. -/
def rawHeader (dataType : BitVec 32) : RawHeader :=
  { magic := [0x4C, 0x65, 0x72, 0x63, 0x32, 0x20], version := 3, nRows := 2, nCols := 2, nBands := 1,
    dataType := dataType, nValid := 4, maxZErr := 0x3FE0000000000000, desc := header12.desc }

/-- A blob past `IN_SIZE`; a kind code of 8; a blob that ends in the descriptor table. -/
theorem witness_InfoHeaderChecks :
    base.params.inSize < ({ base with srcLen := 1025 } : State).srcLen.toNat ∧
    (∀ j, j < 74 → j < (rawHeader 8).layout.length →
      (memory ((rawHeader 8).layout ++ blob12.drop 66)).read j = (rawHeader 8).layout[j]?) ∧
    (rawHeader 8).error 74 = some (.invalidField 4) ∧
    (∀ j, j < 65 → j < (rawHeader 6).layout.length → loaded12.inMem.read j = (rawHeader 6).layout[j]?) ∧
    (rawHeader 6).error 65 = some .truncated ∧ (rawHeader 6).magic.length = 6 ∧
    (rawHeader 6).desc.length = (rawHeader 6).nBands.toNat := by
  refine ⟨by decide, by decide +kernel, by decide +kernel, by decide +kernel, by decide +kernel,
    by decide, by decide⟩

/-- Another `IN` that differs from the first byte of the section on. -/
theorem witness_InfoIgnoresPayload :
    (∀ a, a < 42 + 24 * 1 → (memory (blob12.take 66 ++ [9])).read a = loaded12.inMem.read a) ∧
    (∀ bytes, loaded12.source.memRead 18 4 = .ok bytes → le bytes = 1) ∧
    ∃ t, exec .info loaded12 = .next t ∧ (t.err.code == 0) = true := by
  refine ⟨by decide +kernel, ?_, exists_next (p := fun t => t.err.code == 0) (by decide +kernel)⟩
  intro bytes h
  have : loaded12.source.memRead 18 4 = .ok [1, 0, 0, 0] := by rfl
  rw [this] at h
  cases h
  decide

theorem witness_BandBeginCases : (inPhase .start).orc.hdr = some header12 ∧
    header12.desc[(inPhase .start).a0.toNat]? = header12.desc.head? ∧
    (inPhase .start).source.Holds 66 [0, 0] := by decide +kernel

/-- A mask of each mode that has the header's population. -/
theorem witness_BandMaskCompletes :
    ((inPhase .headerValidated).orc.phase = .headerValidated ∧
      (inPhase .headerValidated).orc.maskMode = MaskPayload.absent.mode ∧
      mask4.bits.length = header12.nRows.toNat * header12.nCols.toNat ∧
      (inPhase .headerValidated).params.fitsOut mask4.bits.length = true) ∧
    base.source.HoldsMask base.br mask4.bits .absent ∧
    (window [0xF0]).source.HoldsMask (window [0xF0]).br mask4.bits .raw ∧
    (window [1, 4, 0, 0, 0]).source.HoldsMask (window [1, 4, 0, 0, 0]).br mask4.bits
      (.rle [(true, 4)]) :=
  ⟨by decide, rfl, ⟨by decide, by decide, by decide +kernel⟩,
    by decide, by decide, by decide, by decide, by decide +kernel⟩

/-- The data payload of vector L1-2, and a Huffman payload of two symbols. -/
theorem witness_BandDataCompletes :
    (DataPayload.stuffed [blockS1]).codes.length = header12.nValid.toNat ∧
    (window [2, 4, 0, 0, 0, 0x22]).source.HoldsData (window [2, 4, 0, 0, 0, 0x22]).br
      (.stuffed [blockS1]) ∧
    (window (lens122 ++ [1, 0, 0, 0, 0x58])).source.HoldsData (window (lens122 ++ [1, 0, 0, 0, 0x58])).br
      (.huffman lens122 1 [⟨0, 1, 0⟩, ⟨1, 2, 2⟩]) :=
  ⟨by decide, ⟨by decide, holdsS1⟩,
    by decide, witness_acceptedLengths, by decide, by decide +kernel, by decide +kernel,
    by decide +kernel, by decide, by decide +kernel⟩

theorem ok_of_toOption {r : Except Stop Element} {e : Element} (h : r.toOption = some e) : r = .ok e := by
  cases r with
  | ok x => simpa [Except.toOption] using h
  | error _ => simp [Except.toOption] at h

theorem deq_ten : dequantize header12 0x4024000000000000 0 = .ok (.f32 0x41200000) :=
  ok_of_toOption (by decide +kernel)

theorem deq_twelve : dequantize header12 0x4024000000000000 2 = .ok (.f32 0x41400000) :=
  ok_of_toOption (by decide +kernel)

/-- Codes that match the mask. -/
theorem witness_BandDeqElements :
    (inPhase .dataDecoded).orc.phase = .dataDecoded ∧
    header12.desc[(inPhase .dataDecoded).orc.band]? = header12.desc.head? ∧
    ([0, 2] : List Code).length = popcount [true, false, false, true] ∧
    [true, false, false, true].length = header12.pixels ∧
    bandElements header12 0x4024000000000000 [true, false, false, true] [0, 2]
      [.f32 0x41200000, .f32 0, .f32 0, .f32 0x41400000] := by
  refine ⟨by decide, by decide, by decide, by decide, by decide, ?_⟩
  intro i b e hb he
  match i with
  | 0 => cases hb; cases he; exact ⟨0, by decide, deq_ten⟩
  | 1 => cases hb; cases he; rfl
  | 2 => cases hb; cases he; rfl
  | 3 => cases hb; cases he; exact ⟨2, by decide, deq_twelve⟩
  | i + 4 => simp at hb

theorem witness_BandEndMergesMask :
    (inPhase .dequantized).orc.phase = .dequantized ∧ mask4.bits.length = header12.pixels ∧
    mask4.building = false ∧ (inPhase .dequantized).orc.band = 0 := by decide

theorem witness_CommitPublishes :
    allDone.orc.phase = .done ∧ allDone.orc.bandsDone = header12.nBands.toNat ∧
    allDone.ms1.bits.length = header12.pixels ∧ allDone.ms1.building = false ∧
    popcount allDone.ms1.bits = header12.nValid.toNat ∧
    elems12.length = header12.nBands.toNat * header12.pixels ∧
    allDone.stage.take elems12.length = elems12.map some := by decide

/-- The minimum 10.0 and the tolerance 0.5 of vector L1-2. -/
theorem witness_DeqOneCases :
    (ieeeValue 11 52 (0x4024000000000000 : BitVec 64).toNat = some 10 ∧
      ieeeValue 11 52 header12.maxZErr.toNat = some (1 / 2) ∧ (0 : ℚ) ≤ 1 / 2) ∧
    (inPhase .start).orc.hdr = some header12 ∧
    header12.desc[(inPhase .start).orc.band]? = header12.desc.head? ∧
    2 ^ 32 ≤ (0x100000000 : Reg).toNat ∧ (0xFFFFFFFF : Reg).toNat < 2 ^ 32 ∧
    dequantize header12 0x4024000000000000 2 = .ok (.f32 0x41400000) :=
  ⟨⟨by decide +kernel, by decide +kernel, by norm_num⟩,
   by decide, by decide, by decide, by decide, deq_twelve⟩

/-- The minimum -128 of an I8 band, and its largest code. -/
theorem witness_LosslessIntegersExact :
    Kind.i8.isInteger = true ∧ floatOfBits 0xC060000000000000 = .fin true (2 ^ 52) (-45) ∧
    realOf true (2 ^ 52) (-45) = ((-128 : Int) : ℚ) ∧ -(2 ^ 53) < (-128 : Int) + 255 ∧
    (-128 : Int) + 255 < 2 ^ 53 :=
  ⟨by decide, by decide +kernel, by norm_num [realOf], by norm_num, by norm_num⟩

/-- The descriptor of vector L1-2. -/
def section12 : Descriptor :=
  { offset := 66, length := 8, zMin := 0x4024000000000000, zMax := 0x4028000000000000 }

/-- Vector L1-2, whose one band has no mask and one block. -/
theorem witness_DecodeCompletes :
    header12.legal = true ∧ loaded12.srcLen.toNat ≤ loaded12.params.inSize ∧
    loaded12.source.Holds 0 header12.layout ∧
    loaded12.params.fitsOut (header12.pixels * header12.nBands.toNat) = true ∧
    mask4.bits.length = header12.pixels ∧ popcount mask4.bits = header12.valid ∧
    header12.desc = [section12] ∧
    loaded12.source.HoldsBand .f32 section12 mask4.bits .absent (.stuffed [blockS1]) ∧
    (DataPayload.stuffed [blockS1]).codes.length = header12.valid ∧
    bandElements header12 0x4024000000000000 mask4.bits (DataPayload.stuffed [blockS1]).codes
      elems12 := by
  refine ⟨by decide +kernel, by decide, holds12, by decide, by decide, by decide, by decide,
    ⟨by decide, by decide, by decide +kernel, nofun, rfl,
      by decide, ⟨by decide +kernel, by decide +kernel, trivial⟩⟩, by decide, by decide, ?_⟩
  intro i b e hb he
  match i with
  | 0 => cases hb; cases he; exact ⟨0, by decide, deq_ten⟩
  | 1 => cases hb; cases he; exact ⟨2, by decide, deq_twelve⟩
  | 2 => cases hb; cases he; exact ⟨0, by decide, deq_ten⟩
  | 3 => cases hb; cases he; exact ⟨2, by decide, deq_twelve⟩
  | i + 4 => simp [mask4] at hb

/-- DECODE of vector L1-2 answers a next state; so it does on a truncated blob and one past `IN_SIZE`. -/
theorem witness_DecodeDirectAgree :
    (∃ t, exec .decode loaded12 = .next t ∧ (t.err.code == 0) = true) ∧
    (∃ t, exec .decode { loaded12 with srcLen := 73 } = .next t ∧ (t.err.code == 3) = true) ∧
    (∃ t, directDecode loaded12 = .next t ∧ (t.err.code == 0) = true) ∧
    base.params.inSize < (1025 : Reg).toNat ∧
    (∃ t, exec .decode { base with srcLen := 1025 } = .next t ∧ (t.err.code == 0x81) = true) :=
  ⟨exists_next (p := fun t => t.err.code == 0) (by decide +kernel),
   exists_next (p := fun t => t.err.code == 3) (by decide +kernel),
   exists_next (p := fun t => t.err.code == 0) (by decide +kernel), by decide,
   exists_next (p := fun t => t.err.code == 0x81) (by decide +kernel)⟩

theorem witness_DecodeIdempotent :
    ∃ t, exec .decode loaded12 = .next t ∧ (t.status.outValid) = true :=
  exists_next (p := fun t => t.status.outValid) (by decide +kernel)

/-- Two states that agree on the blob and differ in a byte past it and in the units. -/
theorem witness_DecodeDeterministic :
    sameBlob loaded12 { loaded12 with inMem := loaded12.inMem.write 74 0xFF, ms0 := mask4, r0 := 1 } :=
  ⟨rfl, rfl, by
    have h : loaded12.srcLen.toNat = 74 := by decide
    rw [h]
    decide +kernel⟩

theorem witness_ResultKeepsHeaderCounts :
    (∃ t, exec .commit allDone = .next t ∧ (t.err.code == 0) = true) ∧
    (∃ t, exec .decode loaded12 = .next t ∧ (t.err.code == 0) = true) :=
  ⟨exists_next (p := fun t => t.err.code == 0) (by decide +kernel),
   exists_next (p := fun t => t.err.code == 0) (by decide +kernel)⟩

end Sys2Proof.Tests
end

