-- ==== Sys2Proof/Proofs/FloatRounding.lean ====
section
/-!
SUPPORT. The rational values behind the model's floating-point numbers, and the proof that `roundFinite`
rounds to nearest with ties to even, `roundHalfAway` to nearest with ties away from zero, and `finiteGe`
compares real values (00_scope.md R16, 45_blob_header.md R311).

A value is measured in units of the last place: `m * 2^e` is `m * 2^(e - q)` units `2^q`, and rounding
it to the format is rounding that rational to an integer.
-/

namespace Sys2Proof.Machine

/-! ### The rational a float stands for -/

theorem realOf_false (m : Nat) (e : Int) : realOf false m e = m * (2 : ℚ) ^ e := by simp [realOf]

theorem realOf_true (m : Nat) (e : Int) : realOf true m e = -realOf false m e := by simp [realOf]

theorem realOf_not (s : Bool) (m : Nat) (e : Int) : realOf (!s) m e = -realOf s m e := by
  cases s <;> simp [realOf]

theorem realOf_zero (s : Bool) (e : Int) : realOf s 0 e = 0 := by simp [realOf]

theorem realOf_false_nonneg (m : Nat) (e : Int) : 0 ≤ realOf false m e := by
  rw [realOf_false]; positivity

/-- A distance depends on the signs only through their difference. -/
theorem abs_realOf_sub (t s : Bool) (k m : Nat) (g e : Int) :
    |realOf t k g - realOf s m e| = |realOf (t ^^ s) k g - realOf false m e| := by
  cases s
  · rw [Bool.xor_false]
  · rw [Bool.xor_true, realOf_not, realOf_true, ← abs_neg]
    congr 1; ring

theorem realOf_xor_eq_iff (t s : Bool) (k m : Nat) (g e : Int) :
    realOf (t ^^ s) k g = realOf false m e ↔ realOf t k g = realOf s m e := by
  rw [← sub_eq_zero, ← abs_eq_zero, ← abs_realOf_sub, abs_eq_zero, sub_eq_zero]

theorem abs_realOf (s : Bool) (m : Nat) (e : Int) : |realOf s m e| = realOf false m e := by
  cases s
  · exact abs_of_nonneg (realOf_false_nonneg m e)
  · rw [realOf_true, abs_neg, abs_of_nonneg (realOf_false_nonneg m e)]

theorem two_zpow_of_nonneg {k : Int} (h : 0 ≤ k) : (2 : ℚ) ^ k = ((2 ^ k.toNat : Nat) : ℚ) := by
  lift k to Nat using h
  simp

theorem two_pow_mod_two {k : Nat} (h : k ≠ 0) : 2 ^ k % 2 = 0 :=
  Nat.mod_eq_zero_of_dvd (dvd_pow_self 2 h)

/-- An integer significand in units of a smaller exponent's last place. -/
theorem scaledInt_mul_two_zpow (s : Bool) (m : Nat) {e b : Int} (h : b ≤ e) :
    (scaledInt s m e b : ℚ) * (2 : ℚ) ^ b = realOf s m e := by
  have hpow : (2 : ℚ) ^ e = ((2 ^ (e - b).toNat : Nat) : ℚ) * (2 : ℚ) ^ b := by
    rw [← two_zpow_of_nonneg (by omega), ← zpow_add₀ two_ne_zero, sub_add_cancel]
  cases s <;> simp only [scaledInt, realOf, hpow] <;> push_cast <;> ring

/-- A value on a coarser grid is an integer in units of a finer one. -/
theorem realOf_eq_int_mul (s : Bool) (k : Nat) {g q : Int} (h : q ≤ g) :
    ∃ j : ℤ, realOf s k g = j * (2 : ℚ) ^ q :=
  ⟨scaledInt s k g q, (scaledInt_mul_two_zpow s k h).symm⟩

/-! ### Rounding a rational to an integer, ties to even -/

/-- `n` is an integer nearest to `t`, the even one of two. -/
def IsNearestEven (t : ℚ) (n : Nat) : Prop :=
  |(n : ℚ) - t| ≤ 1 / 2 ∧ (|(n : ℚ) - t| = 1 / 2 → n % 2 = 0)

theorem isNearestEven_natCast (n : Nat) : IsNearestEven n n := by simp [IsNearestEven]

theorem shiftRightEven_nearest (m k : Nat) :
    IsNearestEven ((m : ℚ) / (2 ^ k : Nat)) (shiftRightEven m k) := by
  have hd : 0 < 2 ^ k := by positivity
  have hr : m % 2 ^ k < 2 ^ k := Nat.mod_lt _ hd
  have hm : ((2 ^ k * (m / 2 ^ k) + m % 2 ^ k : Nat) : ℚ) = m := by rw [Nat.div_add_mod]
  simp only [shiftRightEven]
  generalize m / 2 ^ k = q at *
  generalize m % 2 ^ k = r at *
  generalize 2 ^ k = d at *
  have hdq : (0 : ℚ) < d := by exact_mod_cast hd
  have hdown : (q : ℚ) - m / d = -(r / d) := by rw [← hm]; push_cast; field_simp; ring
  have hup : ((q + 1 : Nat) : ℚ) - m / d = 1 - r / d := by push_cast; linarith
  have hfrac : (0 : ℚ) ≤ r / d := by positivity
  have hlt : (r : ℚ) / d < 1 := (div_lt_one hdq).2 (by exact_mod_cast hr)
  split_ifs with hc
  · have hhalf : (1 : ℚ) / 2 ≤ r / d := by
      rw [div_le_div_iff₀ two_pos hdq]; norm_cast; omega
    rw [IsNearestEven, hup, abs_of_pos (by linarith)]
    refine ⟨by linarith, fun htie => ?_⟩
    have : (r : ℚ) * 2 = d := by
      have : (r : ℚ) / d = 1 / 2 := by linarith
      field_simp at this; linarith
    have : r * 2 = d := by exact_mod_cast this
    omega
  · have hhalf : (r : ℚ) / d ≤ 1 / 2 := by
      rw [div_le_div_iff₀ hdq two_pos]; norm_cast; omega
    rw [IsNearestEven, hdown, abs_neg, abs_of_nonneg hfrac]
    refine ⟨hhalf, fun htie => ?_⟩
    have : (r : ℚ) * 2 = d := by field_simp at htie; linarith
    have : r * 2 = d := by exact_mod_cast this
    omega

/-- Two different integers are at least 1 apart, so no other integer is nearer than a nearest one, and
one that is as near makes a tie. -/
theorem IsNearestEven.dist_le {t : ℚ} {n : Nat} (h : IsNearestEven t n) (j : ℤ) :
    |(n : ℚ) - t| ≤ |(j : ℚ) - t| ∧
      (|(n : ℚ) - t| = |(j : ℚ) - t| → (j : ℚ) ≠ n → n % 2 = 0) := by
  obtain ⟨hhalf, htie⟩ := h
  by_cases hj : j = n
  · simp [hj]
  have hapart : (1 : ℚ) ≤ |(j : ℚ) - n| := by
    exact_mod_cast Int.one_le_abs (sub_ne_zero.2 hj)
  have htri : |(j : ℚ) - n| ≤ |(j : ℚ) - t| + |(n : ℚ) - t| := by
    rw [abs_sub_comm (n : ℚ)]; exact abs_sub_le _ _ _
  exact ⟨by linarith, fun heq _ => htie (by linarith)⟩

/-- A value strictly below an integer that is at most `t` is farther from `t` than a nearest integer. -/
theorem IsNearestEven.dist_lt {t w : ℚ} {n : Nat} (h : IsNearestEven t n) {p : Nat}
    (hw : w < p) (hp : (p : ℚ) ≤ t) : |(n : ℚ) - t| < |w - t| := by
  calc |(n : ℚ) - t| ≤ |((p : ℤ) : ℚ) - t| := (h.dist_le p).1
    _ = t - p := by rw [Int.cast_natCast, abs_sub_comm, abs_of_nonneg (by linarith)]
    _ < t - w := by linarith
    _ = |w - t| := by rw [abs_sub_comm, abs_of_pos (by linarith)]

theorem IsNearestEven.le_of_lt {t : ℚ} {n p : Nat} (h : IsNearestEven t n) (ht : t < p) : n ≤ p := by
  obtain ⟨hlo, hhi⟩ := abs_le.1 h.1
  have : (n : ℚ) < (p + 1 : Nat) := by push_cast; linarith
  exact Nat.lt_succ_iff.1 (by exact_mod_cast this)

/-- Below an odd integer's upper tie: what rounds to `n < p` for an even `p` lies below `p - 1/2`. -/
theorem IsNearestEven.lt_sub_half {t : ℚ} {n p : Nat} (h : IsNearestEven t n) (hn : n < p)
    (hp : p % 2 = 0) : t < p - 1 / 2 := by
  obtain ⟨hlo, -⟩ := abs_le.1 h.1
  have hnp : (n : ℚ) + 1 ≤ p := by exact_mod_cast hn
  refine lt_of_le_of_ne (by linarith) fun heq => ?_
  have hn' : n + 1 = p := by
    have : (p : ℚ) ≤ n + 1 := by linarith
    exact le_antisymm hn (by exact_mod_cast this)
  have hodd := h.2 (by rw [heq, ← hn']; push_cast; rw [abs_eq (by norm_num)]; right; ring)
  omega

/-! ### `roundFinite` -/

/-- The exponent of the last place to which `roundFinite` rounds `m * 2^e`. -/
def FloatFormat.lsb (f : FloatFormat) (m : Nat) (e : Int) : Int :=
  max (e + (Nat.log2 m + 1 : Nat) - f.prec) f.lsbMin

/-- `m * 2^e` in units `2^q`, rounded to an integer. -/
def roundToUnit (m : Nat) (e q : Int) : Nat :=
  if q ≤ e then m * 2 ^ (e - q).toNat else shiftRightEven m (q - e).toNat

theorem roundFinite_zero (f : FloatFormat) (neg : Bool) (e : Int) :
    roundFinite f neg 0 e = .fin neg 0 f.lsbMin := by simp [roundFinite]

/-- Rounding in a single binade, and the carry out of it. -/
theorem roundFinite_pos (f : FloatFormat) (neg : Bool) {m : Nat} (e : Int) (hm : m ≠ 0) :
    roundFinite f neg m e =
      if roundToUnit m e (f.lsb m e) = 2 ^ f.prec then
        if f.lsbMax < f.lsb m e + 1 then .inf neg else .fin neg (2 ^ (f.prec - 1)) (f.lsb m e + 1)
      else if f.lsbMax < f.lsb m e then .inf neg
      else .fin neg (roundToUnit m e (f.lsb m e)) (f.lsb m e) := by
  rw [roundFinite, if_neg hm]
  by_cases hc : roundToUnit m e (f.lsb m e) = 2 ^ f.prec
  · rw [if_pos hc]; unfold roundToUnit FloatFormat.lsb at hc; simp only [hc]; rfl
  · rw [if_neg hc]; unfold roundToUnit FloatFormat.lsb at hc ⊢; simp only [hc]; rfl

theorem roundToUnit_nearest (m : Nat) (e q : Int) :
    IsNearestEven (realOf false m (e - q)) (roundToUnit m e q) := by
  rw [realOf_false, roundToUnit]
  split_ifs with h
  · rw [two_zpow_of_nonneg (by omega), ← Nat.cast_mul]
    exact isNearestEven_natCast _
  · have := shiftRightEven_nearest m (q - e).toNat
    rwa [← two_zpow_of_nonneg (by omega), div_eq_mul_inv, ← zpow_neg, neg_sub] at this

theorem realOf_false_eq_units (m : Nat) (e q : Int) :
    realOf false m e = realOf false m (e - q) * (2 : ℚ) ^ q := by
  rw [realOf_false, realOf_false, mul_assoc, ← zpow_add₀ two_ne_zero, sub_add_cancel]

/-- A value never exceeds the significands of its binade. -/
theorem units_lt (f : FloatFormat) (m : Nat) (e : Int) :
    realOf false m (e - f.lsb m e) < (2 ^ f.prec : Nat) := by
  have hlog : (m : ℚ) < (2 : ℚ) ^ ((Nat.log2 m + 1 : Nat) : Int) := by
    rw [zpow_natCast]; exact_mod_cast Nat.lt_log2_self
  have hq : e + (Nat.log2 m + 1 : Nat) - f.prec ≤ f.lsb m e := le_max_left _ _
  calc realOf false m (e - f.lsb m e)
      < (2 : ℚ) ^ ((Nat.log2 m + 1 : Nat) : Int) * (2 : ℚ) ^ (e - f.lsb m e) := by
        rw [realOf_false]; gcongr
    _ = (2 : ℚ) ^ (((Nat.log2 m + 1 : Nat) : Int) + (e - f.lsb m e)) := (zpow_add₀ two_ne_zero _ _).symm
    _ ≤ (2 : ℚ) ^ (f.prec : Int) := zpow_le_zpow_right₀ one_le_two (by omega)
    _ = (2 ^ f.prec : Nat) := by simp

/-- Above the subnormals the significand has full precision. -/
theorem le_units (f : FloatFormat) {m : Nat} (e : Int) (hm : m ≠ 0) (hp : 1 ≤ f.prec)
    (hq : f.lsbMin < f.lsb m e) : ((2 ^ (f.prec - 1) : Nat) : ℚ) ≤ realOf false m (e - f.lsb m e) := by
  have hlog : (2 : ℚ) ^ (Nat.log2 m : Int) ≤ m := by
    rw [zpow_natCast]; exact_mod_cast Nat.log2_self_le hm
  have hq' : f.lsb m e = e + (Nat.log2 m + 1 : Nat) - f.prec :=
    (max_choice _ _).resolve_right fun h => by rw [FloatFormat.lsb, h] at hq; exact lt_irrefl _ hq
  calc ((2 ^ (f.prec - 1) : Nat) : ℚ)
      = (2 : ℚ) ^ ((Nat.log2 m : Int) + (e - f.lsb m e)) := by
        rw [hq', two_zpow_of_nonneg (by omega)]; congr 3; omega
    _ = (2 : ℚ) ^ (Nat.log2 m : Int) * (2 : ℚ) ^ (e - f.lsb m e) := zpow_add₀ two_ne_zero _ _
    _ ≤ realOf false m (e - f.lsb m e) := by rw [realOf_false]; gcongr

/-- A value of the format with a smaller last place than the result lies below the result's binade. -/
theorem realOf_lt_binade {f : FloatFormat} (t : Bool) {k : Nat} {g q : Int} (hp : 1 ≤ f.prec)
    (hk : k < 2 ^ f.prec) (hg : g < q) :
    realOf t k g < ((2 ^ (f.prec - 1) : Nat) : ℚ) * (2 : ℚ) ^ q := by
  calc realOf t k g ≤ |realOf t k g| := le_abs_self _
    _ = k * (2 : ℚ) ^ g := by rw [abs_realOf, realOf_false]
    _ < ((2 ^ f.prec : Nat) : ℚ) * (2 : ℚ) ^ g := by gcongr
    _ = ((2 ^ (f.prec - 1) : Nat) : ℚ) * (2 : ℚ) ^ (g + 1) := by
        rw [zpow_add_one₀ two_ne_zero, ← pow_sub_one_mul (by omega : f.prec ≠ 0)]; push_cast; ring
    _ ≤ ((2 ^ (f.prec - 1) : Nat) : ℚ) * (2 : ℚ) ^ q := by
        gcongr
        · exact one_le_two
        · omega

/-- R16: the rounded significand is a nearest value of the whole format, and where another is as near
it is even. -/
theorem roundToUnit_nearest_in_format (f : FloatFormat) {m : Nat} (e : Int) (hm : m ≠ 0)
    (hp : 1 ≤ f.prec) (t : Bool) {k : Nat} {g : Int} (hk : k < 2 ^ f.prec) (hg : f.lsbMin ≤ g) :
    let q := f.lsb m e
    let n := roundToUnit m e q
    |realOf false n q - realOf false m e| ≤ |realOf t k g - realOf false m e| ∧
      (|realOf false n q - realOf false m e| = |realOf t k g - realOf false m e| →
        realOf t k g ≠ realOf false n q → n % 2 = 0) := by
  intro q n
  have hu : (0 : ℚ) < (2 : ℚ) ^ q := by positivity
  have hn : IsNearestEven (realOf false m (e - q)) n := roundToUnit_nearest m e q
  have hdist (a : ℚ) : |a * (2 : ℚ) ^ q - realOf false m e|
      = |a - realOf false m (e - q)| * (2 : ℚ) ^ q := by
    rw [realOf_false_eq_units m e q, ← sub_mul, abs_mul, abs_of_pos hu]
  rw [realOf_false n q, hdist]
  by_cases hgq : q ≤ g
  · obtain ⟨j, hj⟩ := realOf_eq_int_mul t k hgq
    rw [hj, hdist]
    obtain ⟨hle, htie⟩ := hn.dist_le j
    exact ⟨by gcongr, fun heq hne => htie (mul_right_cancel₀ hu.ne' heq) fun h => hne (by rw [h])⟩
  · obtain ⟨w, hw⟩ : ∃ w, realOf t k g = w * (2 : ℚ) ^ q := ⟨_, (div_mul_cancel₀ _ hu.ne').symm⟩
    have hwlt : w < ((2 ^ (f.prec - 1) : Nat) : ℚ) := by
      have := realOf_lt_binade t hp hk (not_le.1 hgq)
      rw [hw] at this
      exact lt_of_mul_lt_mul_right this hu.le
    have hlt := mul_lt_mul_of_pos_right (hn.dist_lt hwlt (le_units f e hm hp (by omega))) hu
    rw [hw, hdist]
    exact ⟨hlt.le, fun heq => absurd heq hlt.ne⟩

/-- The whole of a binade below the last one is below the overflow threshold. -/
theorem two_pow_mul_lt_limit (f : FloatFormat) {q : Int} (hp : 1 ≤ f.prec) (hq : q < f.lsbMax) :
    ((2 ^ f.prec : Nat) : ℚ) * (2 : ℚ) ^ q < f.limit := by
  have hq' : (2 : ℚ) ^ q ≤ (2 : ℚ) ^ (f.lsbMax - 1) := zpow_le_zpow_right₀ one_le_two (by omega)
  have hone : (2 : ℚ) ≤ (2 : ℚ) ^ f.prec := by
    calc (2 : ℚ) = 2 ^ 1 := (pow_one _).symm
      _ ≤ 2 ^ f.prec := pow_le_pow_right₀ one_le_two hp
  calc ((2 ^ f.prec : Nat) : ℚ) * (2 : ℚ) ^ q
      ≤ (2 : ℚ) ^ f.prec * (2 : ℚ) ^ (f.lsbMax - 1) := by push_cast; gcongr
    _ = ((2 : ℚ) ^ f.prec / 2) * (2 : ℚ) ^ f.lsbMax := by rw [zpow_sub_one₀ two_ne_zero]; ring
    _ < f.limit := by rw [FloatFormat.limit]; gcongr; linarith

theorem FloatFormat.limit_pos (f : FloatFormat) : 0 < f.limit := by
  have : (1 : ℚ) ≤ 2 ^ f.prec := one_le_pow₀ one_le_two
  exact mul_pos (by linarith) (by positivity)

theorem limit_le_of_overflow (f : FloatFormat) {m : Nat} (e : Int) (hm : m ≠ 0) (hp : 1 ≤ f.prec)
    (hr : f.lsbMin ≤ f.lsbMax)
    (ho : f.lsbMax < f.lsb m e ∨
      f.lsb m e = f.lsbMax ∧ roundToUnit m e (f.lsb m e) = 2 ^ f.prec) :
    f.limit ≤ realOf false m e := by
  rw [realOf_false_eq_units m e (f.lsb m e), FloatFormat.limit]
  rcases ho with hq | ⟨hq, hn⟩
  · have hunits := le_units f e hm hp (by omega)
    calc ((2 : ℚ) ^ f.prec - 1 / 2) * (2 : ℚ) ^ f.lsbMax
        ≤ (2 : ℚ) ^ f.prec * (2 : ℚ) ^ f.lsbMax := by gcongr; linarith
      _ = ((2 ^ (f.prec - 1) : Nat) : ℚ) * (2 : ℚ) ^ (f.lsbMax + 1) := by
          rw [zpow_add_one₀ two_ne_zero, ← pow_sub_one_mul (by omega : f.prec ≠ 0)]; push_cast; ring
      _ ≤ realOf false m (e - f.lsb m e) * (2 : ℚ) ^ f.lsb m e := by
          gcongr
          · exact realOf_false_nonneg _ _
          · exact one_le_two
          · omega
  · obtain ⟨-, hhi⟩ := abs_le.1 (roundToUnit_nearest m e (f.lsb m e)).1
    rw [hn] at hhi
    push_cast at hhi
    rw [hq] at hhi ⊢
    gcongr
    linarith

theorem lt_limit_of_no_overflow (f : FloatFormat) (m : Nat) (e : Int) (hp : 1 ≤ f.prec)
    (ho : f.lsb m e < f.lsbMax ∨
      f.lsb m e = f.lsbMax ∧ roundToUnit m e (f.lsb m e) ≠ 2 ^ f.prec) :
    realOf false m e < f.limit := by
  have hlt := units_lt f m e
  rw [realOf_false_eq_units m e (f.lsb m e)]
  rcases ho with hq | ⟨hq, hn⟩
  · exact (mul_lt_mul_of_pos_right hlt (by positivity)).trans (two_pow_mul_lt_limit f hp hq)
  · have hnear := roundToUnit_nearest m e (f.lsb m e)
    have hhalf := hnear.lt_sub_half (lt_of_le_of_ne (hnear.le_of_lt hlt) hn)
      (two_pow_mod_two (by omega))
    rw [FloatFormat.limit, ← hq]
    push_cast at hhalf
    gcongr

/-- A finite result is rounded correctly when its value is that of the rounded significand, which is even
only if the result's is. -/
theorem rounds_of_realOf_eq (f : FloatFormat) (neg : Bool) {m : Nat} (e : Int) (hm : m ≠ 0)
    (hp : 1 ≤ f.prec) {n : Nat} {q : Int}
    (hval : realOf false n q = realOf false (roundToUnit m e (f.lsb m e)) (f.lsb m e))
    (heven : roundToUnit m e (f.lsb m e) % 2 = 0 → n % 2 = 0) (hlim : realOf false m e < f.limit)
    (hn : n < 2 ^ f.prec) (hlo : f.lsbMin ≤ q) (hhi : q ≤ f.lsbMax) :
    f.Rounds (realOf neg m e) (.fin neg n q) := by
  refine ⟨by rwa [abs_realOf], hn, hlo, hhi, fun t k g hk hg _ => ?_⟩
  obtain ⟨hle, htie⟩ := roundToUnit_nearest_in_format f e hm hp (t ^^ neg) hk hg
  rw [abs_realOf_sub neg neg, abs_realOf_sub t neg, Bool.xor_self, ne_eq, ← realOf_xor_eq_iff, hval]
  exact ⟨hle, fun heq hne => heven (htie heq hne)⟩

theorem rounds_zero (f : FloatFormat) (neg : Bool) (e : Int) (hr : f.lsbMin ≤ f.lsbMax) :
    f.Rounds (realOf neg 0 e) (.fin neg 0 f.lsbMin) := by
  simp [FloatFormat.Rounds, realOf_zero, f.limit_pos, hr]

theorem rounds_inf (f : FloatFormat) (neg : Bool) {m : Nat} {e : Int}
    (h : f.limit ≤ realOf false m e) : f.Rounds (realOf neg m e) (.inf neg) := by
  have hpos : 0 < realOf false m e := f.limit_pos.trans_le h
  refine ⟨by rwa [abs_realOf], ?_⟩
  cases neg
  · simp [hpos.le]
  · simp [realOf_true, hpos]

/-- R16: `roundFinite` rounds to nearest, ties to even. -/
theorem roundFinite_rounds (f : FloatFormat) (neg : Bool) (m : Nat) (e : Int) (hp : 2 ≤ f.prec)
    (hr : f.lsbMin ≤ f.lsbMax) : f.Rounds (realOf neg m e) (roundFinite f neg m e) := by
  rcases eq_or_ne m 0 with rfl | hm
  · rw [roundFinite_zero]; exact rounds_zero f neg e hr
  have hp1 : 1 ≤ f.prec := by omega
  have hlo : f.lsbMin ≤ f.lsb m e := le_max_right _ _
  rw [roundFinite_pos f neg e hm]
  split_ifs with hcarry hover hover
  · exact rounds_inf f neg (limit_le_of_overflow f e hm hp1 hr (by omega))
  · refine rounds_of_realOf_eq f neg e hm hp1 ?_ (fun _ => ?_)
      (lt_limit_of_no_overflow f m e hp1 (by omega)) (Nat.pow_lt_pow_right one_lt_two (by omega))
      (by omega) (by omega)
    · rw [hcarry, realOf_false, realOf_false, zpow_add_one₀ two_ne_zero,
        ← pow_sub_one_mul (by omega : f.prec ≠ 0)]
      push_cast; ring
    · exact two_pow_mod_two (by omega)
  · exact rounds_inf f neg (limit_le_of_overflow f e hm hp1 hr (by omega))
  · have hle := (roundToUnit_nearest m e (f.lsb m e)).le_of_lt (units_lt f m e)
    exact rounds_of_realOf_eq f neg e hm hp1 rfl id (lt_limit_of_no_overflow f m e hp1 (by omega))
      (lt_of_le_of_ne hle hcarry) hlo (by omega)

/-- Rounding keeps the sign, of a zero and of an infinity too. -/
theorem roundFinite_sign (f : FloatFormat) (neg : Bool) (m : Nat) (e : Int) :
    roundFinite f neg m e = .inf neg ∨ ∃ n q, roundFinite f neg m e = .fin neg n q := by
  rcases eq_or_ne m 0 with rfl | hm
  · exact .inr ⟨_, _, roundFinite_zero f neg e⟩
  rw [roundFinite_pos f neg e hm]
  split_ifs <;> simp

/-- Settles O54: the result has the operand's sign and is rounded as `FloatFormat.Rounds` says. -/
theorem roundsToNearestEven : Obligations.RoundsToNearestEven := by
  intro f hf neg m e
  have hformat : 2 ≤ f.prec ∧ f.lsbMin ≤ f.lsbMax := by
    revert f; decide
  have hround := roundFinite_rounds f neg m e hformat.1 hformat.2
  rcases roundFinite_sign f neg m e with hv | ⟨n, q, hv⟩
  · rw [hv] at hround ⊢
    obtain ⟨hlim, -⟩ := hround
    rw [abs_realOf] at hlim
    exact ⟨rfl, hlim⟩
  · rw [hv] at hround ⊢
    obtain ⟨hlim, hn, hlo, hhi, hnear⟩ := hround
    rw [abs_realOf] at hlim
    refine ⟨rfl, hn, hlo, hhi, hlim, fun k g hk hg hg' => ?_⟩
    have hk := hnear neg k g hk hg hg'
    rwa [abs_realOf_sub neg neg, abs_realOf_sub neg neg, Bool.xor_self, ne_eq, ← realOf_xor_eq_iff,
      Bool.xor_self] at hk

/-! ### `roundHalfAway` and `finiteGe` -/

theorem roundHalfAway_true (m : Nat) (e : Int) :
    roundHalfAway true m e = -roundHalfAway false m e := rfl

/-- The magnitude is the floor of the value plus a half. -/
theorem roundHalfAway_false_bounds (m : Nat) (e : Int) :
    realOf false m e - 1 / 2 < roundHalfAway false m e ∧
      (roundHalfAway false m e : ℚ) ≤ realOf false m e + 1 / 2 := by
  rw [realOf_false, roundHalfAway]
  by_cases he : 0 ≤ e
  · rw [two_zpow_of_nonneg he]
    simp [he]
  · have hexp : (2 : ℚ) ^ e = ((2 ^ (-e).toNat : Nat) : ℚ)⁻¹ := by
      rw [← two_zpow_of_nonneg (by omega), ← zpow_neg, neg_neg]
    have hd : 0 < 2 ^ (-e).toNat := by positivity
    simp only [he, hexp, if_false, Bool.false_eq_true, Int.cast_natCast]
    generalize 2 ^ (-e).toNat = d at hd ⊢
    have hdq : (0 : ℚ) < d := by exact_mod_cast hd
    have hlo : (((2 * m + d) / (2 * d) : Nat) : ℚ) * (2 * d) ≤ 2 * m + d := by
      exact_mod_cast Nat.div_mul_le_self _ _
    have hhi : (2 * m + d : ℚ) < 2 * d * (((2 * m + d) / (2 * d) : Nat) + 1) := by
      exact_mod_cast Nat.lt_mul_div_succ _ (by omega)
    have hval : (m : ℚ) = m * (d : ℚ)⁻¹ * d := by field_simp
    rw [hval] at hlo hhi
    constructor
    · exact lt_of_mul_lt_mul_right (by linarith) (by positivity : (0 : ℚ) ≤ 2 * d)
    · exact le_of_mul_le_mul_right (by linarith) (by positivity : (0 : ℚ) < 2 * d)

theorem roundHalfAway_nearest (neg : Bool) (m : Nat) (e : Int) :
    |(roundHalfAway neg m e : ℚ) - realOf neg m e| ≤ 1 / 2 ∧
      (|(roundHalfAway neg m e : ℚ) - realOf neg m e| = 1 / 2 →
        |realOf neg m e| < |(roundHalfAway neg m e : ℚ)|) := by
  have hmag : |(roundHalfAway neg m e : ℚ) - realOf neg m e|
      = |(roundHalfAway false m e : ℚ) - realOf false m e| := by
    cases neg
    · rfl
    · rw [roundHalfAway_true, realOf_true, Int.cast_neg, ← abs_neg]; congr 1; ring
  have habs : |(roundHalfAway neg m e : ℚ)| = |(roundHalfAway false m e : ℚ)| := by
    cases neg
    · rfl
    · rw [roundHalfAway_true, Int.cast_neg, abs_neg]
  obtain ⟨hlo, hhi⟩ := roundHalfAway_false_bounds m e
  rw [hmag, habs, abs_realOf]
  refine ⟨abs_le.2 ⟨by linarith, by linarith⟩, fun htie => lt_of_lt_of_le ?_ (le_abs_self _)⟩
  rcases (abs_eq (by norm_num)).1 htie with h | h <;> linarith

theorem finiteGe_iff (s t : Bool) (m n : Nat) (e g : Int) :
    (FloatVal.fin s m e).finiteGe (.fin t n g) = true ↔ realOf t n g ≤ realOf s m e := by
  rw [← scaledInt_mul_two_zpow t n (min_le_right e g), ← scaledInt_mul_two_zpow s m (min_le_left e g),
    mul_le_mul_iff_left₀ (by positivity), Int.cast_le]
  exact decide_eq_true_iff

/-- Settles O55: rounding is a floor of the magnitude plus a half, and `finiteGe` compares on a common
exponent. -/
theorem roundHalfAwayAndOrder : Obligations.RoundHalfAwayAndOrder :=
  ⟨roundHalfAway_nearest, finiteGe_iff⟩

end Sys2Proof.Machine
end

