-- ==== Sys2Proof/Proofs/MachineState.lean ====
section
/-!
SUPPORT. The state of the machine between commands: what the host reads and writes (10_state.md R32
to R43, R57), what no command writes (R38, R39), and the invariant that every step keeps.

A command's rule is followed part by part. `Keeps P s r` says that whatever the rule `r` leaves when
it runs at `s` satisfies `P`; `Keeps.bind` and `Keeps.bindFail` reduce it to the state that the rule
succeeds with. The host's side of the state (`SameHost`) and the invariant (`State.Inv`) are two
such properties, and `KeptByRules` takes either through INFO and DECODE.
-/

namespace Sys2Proof.Machine

/-! ### The register block -/

/-- The fields of `STATUS` at their places (10_state.md R35). -/
theorem statusWord_fields (band : BitVec 32) (phase : BitVec 4) (outV infoV maskP err done : Bool) :
    let w := band ++ 0#20 ++ phase ++ 0#3 ++ BitVec.ofBool outV ++ BitVec.ofBool infoV ++
      BitVec.ofBool maskP ++ BitVec.ofBool err ++ BitVec.ofBool done
    w.getLsbD 0 = done ∧ w.getLsbD 1 = err ∧ w.getLsbD 2 = maskP ∧ w.getLsbD 3 = infoV ∧
      w.getLsbD 4 = outV ∧ w.extractLsb' 5 3 = 0 ∧ w.extractLsb' 12 20 = 0 ∧
      w.extractLsb' 8 4 = phase ∧ w.extractLsb' 32 32 = band := by
  intro w
  refine ⟨?_, ?_, ?_, ?_, ?_, ?_, ?_, ?_, ?_⟩
  all_goals
    simp (disch := decide) only [w, BitVec.getLsbD_append, BitVec.extractLsb'_append_eq_of_le,
      BitVec.extractLsb'_append_eq_of_add_le]
    simp

/-- The fields of `ERR` at their places (10_state.md R37). -/
theorem errWord_fields (arg : BitVec 32) (code : BitVec 8) :
    let w := arg ++ 0#24 ++ code
    w.extractLsb' 0 8 = code ∧ w.extractLsb' 8 24 = 0 ∧ w.extractLsb' 32 32 = arg := by
  intro w
  refine ⟨?_, ?_, ?_⟩
  all_goals
    simp (disch := decide) only [w, BitVec.extractLsb'_append_eq_of_le,
      BitVec.extractLsb'_append_eq_of_add_le]
    simp

/-- Settles O7: the constants by evaluation, `STATUS` and `ERR` by the places of their fields. -/
theorem registerFields : Obligations.RegisterFields := by
  intro s
  obtain ⟨hdone, herr, hmask, hinfo, hout, hlow, hhigh, hphase, hband⟩ :=
    statusWord_fields (.ofNat 32 s.orc.band) s.orc.phase.code s.status.outValid s.status.infoValid
      s.status.maskPresent s.status.err s.status.done
  refine ⟨Config.idValue, Config.configValue, _, _, rfl, rfl, rfl, rfl, by decide,
    by decide, by decide, by decide, by decide, by decide, by decide, by decide, by decide,
    by decide, by decide,
    hdone, herr, hmask, hinfo, hout, hlow, hhigh, ?_, ?_, errWord_fields s.err.arg s.err.code⟩
  · refine (congrArg BitVec.toNat hphase).trans ?_
    cases s.orc.phase <;> rfl
  · exact (congrArg BitVec.toNat hband).trans (BitVec.toNat_ofNat ..)

/-- An access of the block's shape is served (10_state.md R43). -/
theorem registerAccess_word {k : Nat} (hk : 8 * k ≤ 0xF8) (act : Host.Outcome State Fault Refusal) :
    registerAccess (8 * k) 8 act = act := by
  simp [registerAccess, registerShape, show 8 * k < 256 by omega]

/-- An access of another shape is refused (10_state.md R43). -/
theorem registerAccess_otherShape {offset width : Nat} (h : ¬(width = 8 ∧ offset % 8 = 0))
    (act : Host.Outcome State Fault Refusal) :
    registerAccess offset width act = .refused .registerAccessShape := by
  simp [registerAccess, registerShape, h]

/-- The offsets past the last register read as 0 (10_state.md R43). -/
theorem readReg_reserved (s : State) {offset : Nat} (h : 0x98 ≤ offset) : s.readReg offset = 0 := by
  unfold State.readReg
  split <;> simp at h ⊢

/-- A write takes effect only at `CMD` and at the read-write registers (10_state.md R32, R43). -/
theorem writeReg_ignored (s : State) (v : Reg) {offset : Nat} (hcmd : offset ≠ 0x08)
    (hrw : ¬(0x20 ≤ offset ∧ offset ≤ 0x40)) : writeReg offset v s = .next s := by
  unfold writeReg
  split <;> simp at hcmd hrw ⊢

/-- Settles O8. -/
theorem registerBlockAccess : Obligations.RegisterBlockAccess := by
  refine ⟨fun s k hlo hhi => ?_, fun s k v hhi hcmd hrw => ?_, fun s offset width v h => ?_⟩
  · rw [hostAccess, registerAccess_word hhi, readReg_reserved s hlo]
  · rw [hostAccess, registerAccess_word hhi, writeReg_ignored s v hcmd hrw]
  · exact ⟨registerAccess_otherShape h _, registerAccess_otherShape h _⟩

/-- Settles O9: the read-write registers one by one, then `IN` by the laws of `Memory.write`. -/
theorem hostWritesReadBack : Obligations.HostWritesReadBack := by
  refine ⟨fun s v => ⟨fun offset hoff => ?_, rfl⟩, fun s a b => ⟨fun ha => ?_, fun ha => ?_⟩⟩
  · simp only [List.mem_cons, List.not_mem_nil, or_false] at hoff
    rcases hoff with rfl | rfl | rfl | rfl | rfl
    all_goals exact ⟨_, rfl, rfl, rfl, by simp [State.readReg]⟩
  · refine ⟨s.inMem.write a b, if_pos ha, ?_, fun x hx => Memory.read_write_other _ b hx,
      Memory.wf_write _ a b⟩
    simp [hostAccess, hostReadIn, ha]
  · exact if_neg (Nat.not_lt.2 ha)

/-- After reset every register but the two constants reads 0 (10_state.md R57). -/
theorem reset_readReg {offset : Nat} (hid : offset ≠ 0x00) (hcfg : offset ≠ 0x90) :
    State.reset.readReg offset = 0 := by
  unfold State.readReg
  split <;> trivial

/-- Settles O11. -/
theorem resetValues : Obligations.ResetValues := by
  refine ⟨fun k _ => reset_readReg, rfl, rfl, rfl, rfl, rfl, rfl, rfl, rfl, rfl, rfl, rfl, rfl, rfl,
    rfl, rfl, rfl, rfl, rfl, fun a => ⟨rfl, ?_, ⟨_, rfl⟩, ⟨_, rfl⟩⟩⟩
  by_cases ha : a < State.reset.params.inSize
  · exact ⟨.inNoValue a, if_pos ha⟩
  · exact ⟨.inOutside a, if_neg ha⟩

/-! ### Rules that never end with `fail` -/

/-- The rule never ends with `fail`, so it never sets `ORC.phase` to `Failed` (46_band_decode.md
R369). -/
def NoFail {α : Type} (x : Except Stop α) : Prop := ∀ e, x ≠ .error (.fail e)

theorem NoFail.ok {α : Type} (a : α) : NoFail (.ok a) := nofun

theorem NoFail.raise {α : Type} (e : EngineError) : NoFail (.error (.raise e) : Except Stop α) :=
  nofun

theorem NoFail.fault {α : Type} (f : Fault) : NoFail (.error (.fault f) : Except Stop α) := nofun

theorem NoFail.ensure (c : Prop) [Decidable c] (e : EngineError) :
    NoFail (ensure c (.raise e)) := by
  by_cases h : c
  · rw [ensure_true _ h]; exact .ok ()
  · rw [ensure_false _ h]; exact .raise e

theorem NoFail.bind {α β : Type} {x : Except Stop α} {f : α → Except Stop β} (hx : NoFail x)
    (hf : ∀ a, NoFail (f a)) : NoFail (x >>= f) := by
  intro e h
  rcases except_bind_error.1 h with h | ⟨a, -, h⟩
  · exact hx e h
  · exact hf a e h

section Bodies

variable (op : BitVec 8) (p : Params) (src : Source) (br : BitReader)

theorem noFail_byte (a : Nat) : NoFail (src.byte a) := by
  unfold Source.byte
  split
  · exact .ok _
  · exact .fault _

theorem noFail_collect (a n : Nat) : NoFail (src.collect a n) := by
  induction n generalizing a with
  | zero => exact .ok _
  | succ n ih => exact .bind (noFail_byte src a) fun _ => .bind (ih (a + 1)) fun _ => .ok _

theorem noFail_uint (a n : Nat) : NoFail (src.uint a n) :=
  .bind (.bind (.ensure _ _) fun _ => noFail_collect src a n) fun _ => .ok _

theorem noFail_collectBits (lo : Nat) (ord : BitOrder) (k n : Nat) :
    NoFail (src.collectBits lo ord k n) := by
  induction n generalizing k with
  | zero => exact .ok _
  | succ n ih =>
    exact .bind (.bind (noFail_byte src _) fun _ => .ok _) fun _ =>
      .bind (ih (k + 1)) fun _ => .ok _

theorem noFail_nextBits (n : Nat) (ord : BitOrder) : NoFail (src.nextBits br n ord) :=
  .bind (.ensure _ _) fun _ => noFail_collectBits src _ _ _ _

theorem noFail_peekBits (n : Nat) (ord : BitOrder) : NoFail (src.peekBits br n ord) :=
  .bind (noFail_nextBits src br n ord) fun _ => .ok _

theorem noFail_readBits (n : Nat) (ord : BitOrder) : NoFail (src.readBits br n ord) :=
  .bind (.ensure _ _) fun _ => .bind (noFail_peekBits src br n ord) fun _ => .ok _

theorem noFail_readBytesLE (k : Nat) : NoFail (src.readBytesLE br k op) :=
  .bind (.ensure _ _) fun _ => .bind (.ensure _ _) fun _ =>
    .bind (noFail_uint src _ _) fun _ => .ok _

theorem noFail_blockHeader : NoFail (blockHeader op src br) := by
  refine .bind (.ensure _ _) fun _ => .bind (.ensure _ _) fun _ =>
    .bind (noFail_uint _ _ _) fun w => .bind (.ensure _ _) fun _ =>
    .bind (.ensure _ _) fun _ => .bind (noFail_uint _ _ _) fun c =>
    .bind (.ensure _ _) fun _ => ?_
  split
  · exact .bind (.ensure _ _) fun _ => .bind (noFail_uint _ _ _) fun _ => .ok _
  · exact .ok _

theorem noFail_unpackValues (ord : BitOrder) (width count : Nat) :
    NoFail (unpackValues src ord width count br) := by
  induction count generalizing br with
  | zero => exact .ok _
  | succ count ih =>
    exact .bind (noFail_readBits src br width ord) fun ⟨_, br'⟩ => .bind (ih br') fun _ => .ok _

theorem noFail_blockCodes (ord : BitOrder) (bs : Stuffer) (cp : Nat) :
    NoFail (blockCodes p src ord bs cp br) := by
  refine .bind (.ensure _ _) fun _ => .bind (.ensure _ _) fun _ => ?_
  split
  · exact .ok _
  · exact .bind (noFail_unpackValues src br _ _ _) fun _ => .ok _

theorem noFail_streamBlocks (ord : BitOrder) (total fuel cp : Nat) (last : Option Stuffer) :
    NoFail (streamBlocks op p src ord total fuel cp last br) := by
  induction fuel generalizing cp last br with
  | zero => exact .ok _
  | succ fuel ih =>
    rw [streamBlocks]
    split
    · exact .ok _
    · exact .bind (noFail_blockHeader op src br) fun ⟨_, _⟩ => .bind (.ensure _ _) fun _ =>
        .bind (noFail_blockCodes p src _ _ _ _) fun ⟨_, _⟩ => .bind (ih _ _ _) fun _ => .ok _

theorem noFail_stuffedStream (total : Nat) : NoFail (stuffedStream op p src br total) :=
  .bind (.ensure _ _) fun _ => noFail_streamBlocks op p src br _ _ _ _ _

theorem noFail_loadLengths : NoFail (loadLengths op src br) :=
  .bind (.ensure _ _) fun _ => .bind (.ensure _ _) fun _ =>
    .bind (.bind (.ensure _ _) fun _ => noFail_collect src _ _) fun _ => .ok _

theorem noFail_buildTables (lens : List Byte) : NoFail (buildTables lens) := by
  intro e h
  cases buildTables_eq_error h

theorem noFail_decodeSymbol (t : HuffTables) : NoFail (decodeSymbol src br t) := by
  have hloop (fuel : Nat) : ∀ l, NoFail (decodeFrom src br t.entries fuel l) := by
    induction fuel with
    | zero => exact fun _ => .raise _
    | succ fuel ih =>
      refine fun l => .bind (.ensure _ _) fun _ => .bind (noFail_peekBits src br l .msb) fun w => ?_
      split
      · exact .ok _
      · exact ih (l + 1)
  exact hloop t.maxLen 1

theorem noFail_decodeSymbolFast (t : HuffTables) : NoFail (decodeSymbolFast src br t) := by
  unfold decodeSymbolFast
  split
  · exact .ok _
  · exact noFail_decodeSymbol src br t

theorem noFail_builtTables (ht : Huffman) : NoFail (builtTables op ht) := by
  unfold builtTables
  split
  · exact .ok _
  · exact .raise _

theorem noFail_decodeSymbols (t : HuffTables) (count : Nat) :
    NoFail (decodeSymbols src t count br) := by
  induction count generalizing br with
  | zero => exact .ok _
  | succ count ih =>
    exact .bind (noFail_decodeSymbol src br t) fun ⟨_, br'⟩ => .bind (ih br') fun _ => .ok _

theorem noFail_huffmanRun (ht : Huffman) (count : Nat) : NoFail (huffmanRun op p src ht br count) :=
  .bind (noFail_builtTables op ht) fun t => .bind (.ensure _ _) fun _ =>
    noFail_decodeSymbols src br t count

theorem noFail_segmentWindow : NoFail (segmentWindow op src br) :=
  .bind (.ensure _ _) fun _ => .bind (.ensure _ _) fun _ => .bind (noFail_uint src _ _) fun _ =>
    .bind (.ensure _ _) fun _ => .ok _

theorem noFail_maskAbsentBody (n : Nat) : NoFail (maskAbsentBody p n) :=
  .bind (.ensure _ _) fun _ => .ok _

theorem noFail_maskRawBody (n : Nat) : NoFail (maskRawBody op p src br n) :=
  .bind (.ensure _ _) fun _ => .bind (.ensure _ _) fun _ => .bind (.ensure _ _) fun _ =>
    .bind (noFail_nextBits src br n .msb) fun _ => .ok _

theorem noFail_rleRuns (fuel left : Nat) : NoFail (rleRuns op src fuel left br) := by
  induction fuel generalizing left br with
  | zero => exact .ok _
  | succ fuel ih =>
    rw [rleRuns]
    split
    · exact .ok _
    · exact .bind (.ensure _ _) fun _ => .bind (noFail_readBytesLE op src br 1) fun ⟨_, br'⟩ =>
        .bind (noFail_readBytesLE op src br' 4) fun ⟨_, _⟩ => .bind (.ensure _ _) fun _ =>
        .bind (.ensure _ _) fun _ => .bind (.ensure _ _) fun _ => .bind (ih _ _) fun _ => .ok _

theorem noFail_maskRleBody (n : Nat) : NoFail (maskRleBody op p src br n) :=
  .bind (.ensure _ _) fun _ => .bind (.ensure _ _) fun _ =>
    .bind (noFail_rleRuns op src br n n) fun _ => .ok _

theorem noFail_kindField (code : BitVec 32) : NoFail (kindField code) := by
  unfold kindField
  split
  · exact .ok _
  · exact .raise _

theorem noFail_field32 (a : Nat) : NoFail (src.field32 a) :=
  .bind (noFail_uint src a 4) fun _ => .ok _

theorem noFail_field64 (a : Nat) : NoFail (src.field64 a) :=
  .bind (noFail_uint src a 8) fun _ => .ok _

theorem noFail_parseDescriptors (size n e : Nat) : NoFail (parseDescriptors src size n e) := by
  induction n generalizing e with
  | zero => exact .ok _
  | succ n ih =>
    refine .bind ?_ fun _ => .bind (ih _) fun _ => .ok _
    exact .bind (noFail_field32 src _) fun _ => .bind (noFail_field32 src _) fun _ =>
      .bind (noFail_field64 src _) fun _ => .bind (noFail_field64 src _) fun _ =>
      .bind (.ensure _ _) fun _ => .bind (.ensure _ _) fun _ => .bind (.ensure _ _) fun _ => .ok _

theorem noFail_parseHeader : NoFail (parseHeader src) :=
  .bind (.ensure _ _) fun _ => .bind (.bind (.ensure _ _) fun _ => noFail_collect src _ _) fun _ =>
    .bind (.ensure _ _) fun _ => .bind (.ensure _ _) fun _ => .bind (noFail_field32 src _) fun _ =>
    .bind (.ensure _ _) fun _ => .bind (.ensure _ _) fun _ => .bind (noFail_field32 src _) fun _ =>
    .bind (noFail_field32 src _) fun _ => .bind (noFail_field32 src _) fun _ =>
    .bind (noFail_field32 src _) fun _ => .bind (noFail_field64 src _) fun _ =>
    .bind (noFail_field64 src _) fun _ => .bind (.ensure _ _) fun _ => .bind (.ensure _ _) fun _ =>
    .bind (.ensure _ _) fun _ => .bind (noFail_kindField _) fun _ => .bind (.ensure _ _) fun _ =>
    .bind (.ensure _ _) fun _ => .bind (.ensure _ _) fun _ =>
    .bind (noFail_parseDescriptors src _ _ _) fun _ => .ok _

end Bodies

theorem noFail_bitCountOperand (op : BitVec 8) (n : BitVec 6) : NoFail (bitCountOperand op n) :=
  .bind (.ensure _ _) fun _ => .ok _

theorem noFail_byteCountOperand (op : BitVec 8) (k : BitVec 4) : NoFail (byteCountOperand op k) :=
  .bind (.ensure _ _) fun _ => .ok _

theorem noFail_headerOf (op : BitVec 8) (s : State) : NoFail (headerOf op s) := by
  unfold headerOf
  split
  · exact .ok _
  · exact .raise _

theorem noFail_descriptorOf (h : Header) (b : Nat) : NoFail (descriptorOf h b) := by
  unfold descriptorOf
  split
  · exact .ok _
  · exact .fault _

theorem noFail_dequantize (h : Header) (zMin : BitVec 64) (code : Nat) :
    NoFail (dequantize h zMin code) := by
  have helement (neg : Bool) (m : Nat) (e : Int) : NoFail (elementOf h.kind neg m e) := by
    unfold elementOf
    split
    · exact .ok _
    · split
      · exact .ok _
      · exact .raise _
      · exact .raise _
    all_goals exact .bind (.ensure _ _) fun _ => .ok _
  unfold dequantize
  split
  · exact helement _ _ _
  · exact .raise _
  · exact .raise _

/-! ### Predicates along runs -/

/-- Every state in which the run ends or stops satisfies `P`. -/
def Run.All (P : State → Prop) : Run → Prop
  | .done s => P s
  | .stopped _ s => P s
  | .fault _ => True

/-- Every next state of the outcome satisfies `P`. -/
def Leads (P : State → Prop) : Host.Outcome State Fault Refusal → Prop
  | .next t => P t
  | .fault _ => True
  | .refused _ => True

/-- What a rule run at `s` may leave satisfies `P`: the state it succeeds with, and `s` with
`ORC.phase = Failed` where it ends with `fail` (46_band_decode.md R369). -/
def Keeps (P : State → Prop) (s : State) : Except Stop State → Prop
  | .ok t => P t
  | .error (.raise _) => True
  | .error (.fail _) => P (s.withPhase .failed)
  | .error (.fault _) => True

section Runs

variable {P : State → Prop} {s : State}

theorem Keeps.ok {t : State} (h : P t) : Keeps P s (.ok t) := h

theorem Keeps.raise (e : EngineError) : Keeps P s (.error (.raise e)) := trivial

/-- After a part that never ends with `fail`, the rest decides. -/
theorem Keeps.bind {α : Type} {x : Except Stop α} {f : α → Except Stop State} (hx : NoFail x)
    (hf : ∀ a, x = .ok a → Keeps P s (f a)) : Keeps P s (x >>= f) := by
  rcases x with (e | e | f) | a
  · trivial
  · exact absurd rfl (hx e)
  · trivial
  · exact hf a rfl

/-- Where `Failed` satisfies `P`, any part may come first. -/
theorem Keeps.bindFail {α : Type} {x : Except Stop α} {f : α → Except Stop State}
    (hfail : P (s.withPhase .failed)) (hf : ∀ a, x = .ok a → Keeps P s (f a)) :
    Keeps P s (x >>= f) := by
  rcases x with (e | e | f) | a
  · trivial
  · exact hfail
  · trivial
  · exact hf a rfl

theorem Keeps.runAt {r : Except Stop State} (hk : Keeps P s r) (hs : P s) : (runAt s r).All P := by
  rcases r with (e | e | f) | t
  · exact hs
  · exact hk
  · trivial
  · exact hk

theorem runAt_eq_done {r : Except Stop State} {t : State} : runAt s r = .done t ↔ r = .ok t := by
  rcases r with (e | e | f) | u <;> simp

theorem Run.All.andThen {r : Run} {next : State → Run} (hr : r.All P)
    (hn : ∀ t, r = .done t → P t → (next t).All P) : (r.andThen next).All P := by
  cases r with
  | done t => exact hn t rfl hr
  | stopped e t => exact hr
  | fault f => trivial

theorem Run.All.complete {r : Run} (hfin : ∀ t e, P t → P (State.finish t e)) (hr : r.All P) :
    Leads P r.complete := by
  cases r with
  | done u => exact hfin u none hr
  | stopped e u => exact hfin u (some e) hr
  | fault f => trivial

theorem Leads.next {o : Host.Outcome State Fault Refusal} {t : State} (h : Leads P o)
    (ho : o = .next t) : P t := by
  subst ho
  exact h

end Runs

/-- A property of states that every part of INFO and DECODE keeps. -/
structure KeptByRules (P : State → Prop) : Prop where
  finish : ∀ (s : State) (e : Option EngineError), P s → P (s.finish e)
  resetOrchestrator : ∀ s : State, P s → P s.resetOrchestrator
  withHeader : ∀ (s : State) (h : Header),
    P s.resetOrchestrator → h.legal = true → P (s.resetOrchestrator.withHeader h)
  bandBegin : ∀ op b s, P s → Keeps P s (bandBeginRule op b s)
  bandMask : ∀ op s, P s → Keeps P s (bandMaskRule op s)
  bandData : ∀ op s, P s → Keeps P s (bandDataRule op s)
  bandDeq : ∀ op s, P s → Keeps P s (bandDeqRule op s)
  bandEnd : ∀ op s, P s → Keeps P s (bandEndRule op s)
  commit : ∀ op s, P s → Keeps P s (commitRule op s)
  publishInfo : ∀ s : State, P s → P s.publishInfo
  withInfoValid : ∀ s : State, P s → P (s.withInfoValid false)
  clearResultFlags : ∀ s : State, P s → P s.clearResultFlags

section Decode

variable {P : State → Prop} (hP : KeptByRules P) {s : State}
include hP

theorem KeptByRules.runHeader_all (op : BitVec 8) (hs : P s) : (runHeader op s).All P := by
  have hbegin : Keeps P s (do sourceFits op s; .ok s.resetOrchestrator) :=
    .bind (.ensure _ _) fun _ _ => .ok (hP.resetOrchestrator s hs)
  refine (hbegin.runAt hs).andThen fun t hdone ht => ?_
  obtain rfl : s.resetOrchestrator = t := by
    obtain ⟨_, -, h⟩ := except_bind_ok.1 (runAt_eq_done.1 hdone)
    exact Except.ok.inj h
  have hparse : Keeps P s.resetOrchestrator (do
      let h ← parseHeader s.resetOrchestrator.source
      .ok (s.resetOrchestrator.withHeader h)) :=
    .bind (noFail_parseHeader _) fun h hh => .ok (hP.withHeader s h ht (parseHeader_legal hh))
  exact hparse.runAt ht

theorem KeptByRules.runBand_all (b : Nat) (hs : P s) : (runBand b s).All P := by
  refine .andThen (.andThen (.andThen (.andThen ?_ ?_) ?_) ?_) ?_
  · exact (hP.bandBegin 0x02 b s hs).runAt hs
  · exact fun t _ ht => (hP.bandMask 0x02 t ht).runAt ht
  · exact fun t _ ht => (hP.bandData 0x02 t ht).runAt ht
  · exact fun t _ ht => (hP.bandDeq 0x02 t ht).runAt ht
  · exact fun t _ ht => (hP.bandEnd 0x02 t ht).runAt ht

theorem KeptByRules.runBands_all (n b : Nat) (hs : P s) : (runBands n b s).All P := by
  induction n generalizing b s with
  | zero => exact hs
  | succ n ih => exact (hP.runBand_all b hs).andThen fun t _ ht => ih (b + 1) ht

theorem KeptByRules.runDecode_all (hs : P s) : (runDecode s).All P :=
  ((hP.runHeader_all 0x02 hs).andThen fun t _ ht => hP.runBands_all t.bandCount 0 ht).andThen
    fun t _ ht => (hP.commit 0x02 t ht).runAt ht

theorem KeptByRules.execInfo_leads (hs : P s) : Leads P (execInfo s) := by
  refine Run.All.complete hP.finish ?_
  have hrun := hP.runHeader_all 0x01 hs
  split
  · next t hr => rw [hr] at hrun; exact hP.publishInfo t hrun
  · next e t hr => rw [hr] at hrun; exact hP.withInfoValid t hrun
  · trivial

theorem KeptByRules.execDecode_leads (hs : P s) : Leads P (execDecode s) := by
  refine Run.All.complete hP.finish ?_
  have hrun := hP.runDecode_all hs
  split
  · next t hr => rw [hr] at hrun; exact hP.publishInfo t hrun
  · next e t hr => rw [hr] at hrun; exact hP.clearResultFlags t hrun
  · trivial

/-- A command that checks before it writes. -/
theorem KeptByRules.command_leads {r : Except Stop State} (hs : P s) (hr : Keeps P s r) :
    Leads P (command s r) := (hr.runAt hs).complete hP.finish

end Decode

/-! ### The host's side of the state -/

/-- What the host writes and no command but SRST does, the parameters, and the model's own fields
(10_state.md R38, R39; 20_memory.md R71). -/
def State.hostSide (s : State) :
    (Memory × Params × List HostAccess × HostReply) × (Reg × Reg × Reg × Reg × Reg) :=
  ((s.inMem, s.params, s.port, s.reply), (s.srcLen, s.a0, s.a1, s.a2, s.a3))

/-- The host's side of a state is that of `s`. -/
def SameHost (s t : State) : Prop := t.hostSide = s.hostSide

/-- A rule leaves the host's side alone where every state it succeeds with does. -/
abbrev KeepsHost (s : State) (r : Except Stop State) : Prop := Keeps (SameHost s) s r

theorem KeepsHost.bind {α : Type} {s : State} {x : Except Stop α} {f : α → Except Stop State}
    (hf : ∀ a, KeepsHost s (f a)) : KeepsHost s (x >>= f) := Keeps.bindFail rfl fun a _ => hf a

theorem sameHost_setMask (s : State) (sl : Slot) (m : BitMask) : SameHost s (s.setMask sl m) := by
  cases sl <;> rfl

/-- Along a run, the host's side stays that of the state the run began in. -/
theorem KeepsHost.after {s t : State} {r : Except Stop State} (hr : KeepsHost t r)
    (ht : SameHost s t) : Keeps (SameHost s) t r := by
  rcases r with (e | e | f) | u
  · trivial
  · exact ht
  · trivial
  · exact Eq.trans hr ht

theorem bandBeginRule_sameHost (op : BitVec 8) (b : Nat) (s : State) :
    KeepsHost s (bandBeginRule op b s) :=
  .bind fun _ => .bind fun _ => .bind fun _ => .bind fun _ => .bind fun _ => .bind fun _ => .ok rfl

theorem bandMaskRule_sameHost (op : BitVec 8) (s : State) : KeepsHost s (bandMaskRule op s) :=
  .bind fun _ => .bind fun _ => .bind fun _ => .bind fun _ => .ok rfl

theorem bandDataRule_sameHost (op : BitVec 8) (s : State) : KeepsHost s (bandDataRule op s) := by
  refine .bind fun _ => .bind fun h => Keeps.bindFail rfl fun t ht => .ok ?_
  rw [orFail_eq_ok] at ht
  split at ht
  · obtain ⟨_, _, _, -, rfl⟩ := bandStuffedBody_eq_ok.1 ht
    rfl
  · obtain ⟨_, _, _, _, _, _, _, -, -, -, -, -, rfl⟩ := bandHuffmanBody_eq_ok.1 ht
    rfl

theorem bandDeqRule_sameHost (op : BitVec 8) (s : State) : KeepsHost s (bandDeqRule op s) :=
  .bind fun _ => .bind fun _ => .bind fun _ => .bind fun _ => .bind fun _ => .ok rfl

theorem bandEndRule_sameHost (op : BitVec 8) (s : State) : KeepsHost s (bandEndRule op s) :=
  .bind fun _ => .bind fun _ => .bind fun _ => .ok rfl

theorem commitRule_sameHost (op : BitVec 8) (s : State) : KeepsHost s (commitRule op s) :=
  .bind fun _ => .bind fun _ => .bind fun _ => .bind fun _ => .ok rfl

theorem publishInfo_sameHost (s : State) : SameHost s s.publishInfo := by
  unfold State.publishInfo
  split <;> rfl

theorem sameHost_keptByRules (s : State) : KeptByRules (SameHost s) where
  finish _ _ := id
  resetOrchestrator _ := id
  withHeader _ _ ht _ := ht
  bandBegin op b t := (bandBeginRule_sameHost op b t).after
  bandMask op t := (bandMaskRule_sameHost op t).after
  bandData op t := (bandDataRule_sameHost op t).after
  bandDeq op t := (bandDeqRule_sameHost op t).after
  bandEnd op t := (bandEndRule_sameHost op t).after
  commit op t := (commitRule_sameHost op t).after
  publishInfo t := (publishInfo_sameHost t).trans
  withInfoValid _ := id
  clearResultFlags _ := id

theorem command_sameHost {s : State} {r : Except Stop State} (h : KeepsHost s r) :
    Leads (SameHost s) (command s r) := (sameHost_keptByRules s).command_leads rfl h

/-- No command but SRST writes the host's side of the state (10_state.md R38, R39; 20_memory.md
R71). -/
theorem exec_sameHost (i : Instr) (s : State) (hi : i ≠ .srst) :
    Leads (SameHost s) (exec i s) := by
  cases i with
  | nop => exact command_sameHost (.ok rfl)
  | info => exact (sameHost_keptByRules s).execInfo_leads rfl
  | decode => exact (sameHost_keptByRules s).execDecode_leads rfl
  | srst => exact absurd rfl hi
  | brInit ord => exact command_sameHost (.bind fun _ => .bind fun _ => .bind fun _ => .ok rfl)
  | brRead n => exact command_sameHost (.bind fun _ => .bind fun _ => .ok rfl)
  | brPeek n => exact command_sameHost (.bind fun _ => .bind fun _ => .bind fun _ => .ok rfl)
  | brSkip => exact command_sameHost (.bind fun _ => .ok rfl)
  | brAlign => exact command_sameHost (.ok rfl)
  | brBytes k => exact command_sameHost (.bind fun _ => .bind fun _ => .ok rfl)
  | brPos => exact command_sameHost (.ok rfl)
  | bmNew sl v => exact command_sameHost (.bind fun _ => .ok (sameHost_setMask s sl _))
  | bmSet sl v =>
    exact command_sameHost (.bind fun _ => .bind fun _ => .ok (sameHost_setMask s sl _))
  | bmFill sl v =>
    exact command_sameHost (.bind fun _ => .bind fun _ => .ok (sameHost_setMask s sl _))
  | bmFreeze sl => exact command_sameHost (.ok (sameHost_setMask s sl _))
  | bmGet sl =>
    refine command_sameHost ?_
    split
    · exact .raise _
    · exact .ok rfl
  | bmPopcnt sl => exact command_sameHost (.ok rfl)
  | bmNext sl => exact command_sameHost (.ok rfl)
  | bmAnd => exact command_sameHost (.bind fun _ => .bind fun _ => .ok rfl)
  | bmLen sl => exact command_sameHost (.ok rfl)
  | maskAbsent sl => exact command_sameHost (.bind fun _ => .ok (sameHost_setMask s sl _))
  | maskRaw sl => exact command_sameHost (.bind fun _ => .ok (sameHost_setMask s sl _))
  | maskRle sl => exact command_sameHost (.bind fun _ => .ok (sameHost_setMask s sl _))
  | hufLoadlen => exact command_sameHost (.bind fun _ => .ok rfl)
  | hufBuild => exact command_sameHost (.bind fun _ => .ok rfl)
  | hufSeg => exact command_sameHost (.bind fun _ => .ok rfl)
  | hufDec => exact command_sameHost (.bind fun _ => .bind fun _ => .ok rfl)
  | hufDecf => exact command_sameHost (.bind fun _ => .bind fun _ => .ok rfl)
  | hufDecs => exact command_sameHost (.bind fun _ => .bind fun _ => .ok rfl)
  | hufRun => exact command_sameHost (.bind fun _ => .ok rfl)
  | bsHdr => exact command_sameHost (.bind fun _ => .ok rfl)
  | bsUnpack => exact command_sameHost (.bind fun _ => .ok rfl)
  | bsStream => exact command_sameHost (.bind fun _ => .ok rfl)
  | codesGet =>
    refine command_sameHost ?_
    split
    · exact .raise _
    · exact .ok rfl
  | bandBegin => exact command_sameHost (bandBeginRule_sameHost _ _ s)
  | bandMask => exact command_sameHost (bandMaskRule_sameHost _ s)
  | bandData => exact command_sameHost (bandDataRule_sameHost _ s)
  | bandDeq => exact command_sameHost (bandDeqRule_sameHost _ s)
  | bandEnd => exact command_sameHost (bandEndRule_sameHost _ s)
  | deqOne =>
    exact command_sameHost (.bind fun _ => .bind fun _ => .bind fun _ => .bind fun _ => .ok rfl)
  | commit => exact command_sameHost (commitRule_sameHost _ s)

/-- Settles O14: SRST keeps `IN` and the model's own fields, every other command the host's side. -/
theorem engineKeepsHostState : Obligations.EngineKeepsHostState := by
  intro i s t h
  by_cases hi : i = .srst
  · subst hi
    cases h
    exact ⟨rfl, fun _ => rfl, rfl, rfl, rfl, fun h => absurd rfl h⟩
  · have hside := (exec_sameHost i s hi).next h
    simp only [SameHost, State.hostSide, Prod.mk.injEq] at hside
    obtain ⟨⟨hmem, hparams, hport, hreply⟩, hregs⟩ := hside
    exact ⟨hmem, fun a => by rw [hmem], hparams, hport, hreply, fun _ => hregs⟩

/-! ### The BitReader's window -/

/-- Each move by at most the bits left keeps the bounds (10_state.md R46). -/
theorem BitReader.wf.advance {br : BitReader} (hw : br.wf) {n : Nat} (hn : n ≤ br.rem) :
    (br.advance n).wf := by
  obtain ⟨hlo, hpos⟩ := hw
  refine ⟨hlo, ?_⟩
  simp only [BitReader.rem] at hn
  simp only [advance_hi, advance_lo, advance_pos]
  omega

theorem BitReader.wf.alignUp {br : BitReader} (hw : br.wf) : br.alignUp.wf := by
  obtain ⟨hlo, hpos⟩ := hw
  refine ⟨hlo, ?_⟩
  simp only [BitReader.alignUp, ceil8]
  omega

theorem blockHeader_wf {op : BitVec 8} {src : Source} {br br' : BitReader} {b : Stuffer}
    (h : blockHeader op src br = .ok (b, br')) (hw : br.wf) :
    br'.wf ∧ b.width ≤ Config.maxBitWidth := by
  obtain ⟨-, h40, -, hwidth, -, -, hcase⟩ := blockHeader_eq_ok.1 h
  rcases hcase with ⟨-, h72, rfl, -⟩ | ⟨-, -, rfl⟩
  · exact ⟨hw.advance h72, hwidth⟩
  · exact ⟨hw.advance h40, hwidth⟩

theorem blockCodes_wf {p : Params} {src : Source} {ord : BitOrder} {bs : Stuffer} {cp : Nat}
    {br br' : BitReader} {codes : List Code} (h : blockCodes p src ord bs cp br = .ok (codes, br'))
    (hw : br.wf) : br'.wf := by
  obtain ⟨-, hbits, -, rfl, -⟩ := blockCodes_eq_ok h
  exact (hw.advance hbits).alignUp

/-- A stream of blocks leaves the cursor inside the window, and the last header has an admitted
width. -/
theorem streamBlocks_wf {op : BitVec 8} {p : Params} {src : Source} {ord : BitOrder}
    {total fuel cp : Nat} {last last' : Option Stuffer} {br br' : BitReader} {codes : List Code}
    (h : streamBlocks op p src ord total fuel cp last br = .ok (codes, last', br')) (hw : br.wf)
    (hl : ∀ b ∈ last, b.width ≤ Config.maxBitWidth) :
    br'.wf ∧ ∀ b ∈ last', b.width ≤ Config.maxBitWidth := by
  induction fuel generalizing cp last br codes with
  | zero =>
    simp only [streamBlocks, Except.ok.injEq, Prod.mk.injEq] at h
    obtain ⟨-, rfl, rfl⟩ := h
    exact ⟨hw, hl⟩
  | succ fuel ih =>
    rw [streamBlocks] at h
    split at h
    · simp only [Except.ok.injEq, Prod.mk.injEq] at h
      obtain ⟨-, rfl, rfl⟩ := h
      exact ⟨hw, hl⟩
    · simp only [except_bind_ok, Prod.exists, Except.ok.injEq, Prod.mk.injEq] at h
      obtain ⟨block, br1, hhdr, _, -, _, br2, hcodes, _, _, _, hrest, -, rfl, rfl⟩ := h
      obtain ⟨hw1, hwidth⟩ := blockHeader_wf hhdr hw
      exact ih hrest (blockCodes_wf hcodes hw1) (by simpa using hwidth)

/-- The cursor and `BS.width` after BS.STREAM's body (44_bitstuffer.md R284). -/
theorem stuffedStream_wf {op : BitVec 8} {p : Params} {src : Source} {br br' : BitReader}
    {total : Nat} {before : Stuffer} {last : Option Stuffer} {codes : List Code}
    (h : stuffedStream op p src br total = .ok (codes, last, br')) (hw : br.wf)
    (hb : before.width ≤ Config.maxBitWidth) :
    br'.wf ∧ (stufferAfter before last).width ≤ Config.maxBitWidth := by
  simp only [stuffedStream, except_bind_ok] at h
  obtain ⟨_, -, h⟩ := h
  obtain ⟨hw', hl⟩ := streamBlocks_wf h hw (by simp)
  cases last with
  | none => exact ⟨hw', hb⟩
  | some block => exact ⟨hw', hl block rfl⟩

theorem segmentWindow_wf {op : BitVec 8} {src : Source} {br br' : BitReader} {len : Nat}
    (h : segmentWindow op src br = .ok (len, br')) (hw : br.wf) : br'.wf := by
  obtain ⟨haligned, -, -, -, rfl⟩ := segmentWindow_eq_ok.1 h
  rw [aligned_iff] at haligned
  obtain ⟨hlo, hpos⟩ := hw
  constructor <;> simp only [BitReader.cur, advance_lo, advance_pos] <;> omega

theorem decodeSymbol_wf {src : Source} {br br' : BitReader} {t : HuffTables} {sym : Byte}
    (h : decodeSymbol src br t = .ok (sym, br')) (hw : br.wf) : br'.wf := by
  obtain ⟨e, -, -, -, hlen, -, -, rfl⟩ := decodeSymbol_eq_ok h
  exact hw.advance hlen

theorem decodeSymbols_wf {src : Source} {br br' : BitReader} {t : HuffTables} {count : Nat}
    {codes : List Code} (h : decodeSymbols src t count br = .ok (codes, br')) (hw : br.wf) :
    br'.wf := by
  obtain ⟨-, n, rfl, hn⟩ := decodeSymbols_eq_ok h
  exact hw.advance hn

/-- The lookup table holds only codes of at most `LUT_BITS` bits (43_huffman.md R244). -/
theorem lutHit_le_rem {src : Source} {br : BitReader} {lens : List Byte} {sym : Byte} {l : Nat}
    (h : lutHit src br (tablesOf lens) = some (sym, l)) : l ≤ br.rem := by
  unfold lutHit at h
  split at h
  · next hrem =>
    split at h
    · simp only [tablesOf, buildLut, List.getElem?_map, Option.join_eq_some_iff,
        Option.map_eq_some_iff, lutEntry, Prod.mk.injEq] at h
      obtain ⟨_, -, e, he, -, rfl⟩ := h
      have hshort := List.find?_some he
      simp only [Bool.and_eq_true, decide_eq_true_eq] at hshort
      exact hshort.1.trans hrem
    · cases h
  · cases h

theorem decodeSymbolFast_wf {src : Source} {br br' : BitReader} {lens : List Byte} {sym : Byte}
    (h : decodeSymbolFast src br (tablesOf lens) = .ok (sym, br')) (hw : br.wf) : br'.wf := by
  unfold decodeSymbolFast at h
  split at h
  · next hhit =>
    cases h
    exact hw.advance (lutHit_le_rem hhit)
  · exact decodeSymbol_wf h hw

/-! ### Masks and tables -/

/-- What MASK.RAW's body answers: a bit for each pixel, and a cursor inside the window. -/
theorem maskRawBody_fits {op : BitVec 8} {p : Params} {src : Source} {br br' : BitReader} {n : Nat}
    {m : BitMask} (h : maskRawBody op p src br n = .ok (m, br')) (hw : br.wf) :
    p.fitsOut m.bits.length = true ∧ br'.wf := by
  obtain ⟨hfits, -, hrem, hbits, -, rfl⟩ := maskRawBody_eq_ok.1 h
  exact ⟨(nextBits_eq_ok.1 hbits).2.1 ▸ hfits, hw.advance hrem⟩

theorem maskRleBody_fits {op : BitVec 8} {p : Params} {src : Source} {br br' : BitReader} {n : Nat}
    {m : BitMask} (h : maskRleBody op p src br n = .ok (m, br')) (hw : br.wf) :
    p.fitsOut m.bits.length = true ∧ br'.wf := by
  obtain ⟨hfits, -, hruns, -⟩ := maskRleBody_eq_ok.1 h
  obtain ⟨hlen, pairs, rfl, hrem, -⟩ := rleRuns_eq_ok le_rfl hruns
  exact ⟨hlen ▸ hfits, hw.advance hrem⟩

/-- Tables that HUF.BUILD has just built stand beside their lengths (10_state.md R48). -/
theorem Huffman.consistent_of_buildTables {lens : List Byte} {t : HuffTables}
    (h : buildTables lens = .ok t) (hl : lens.length = 256) :
    Huffman.Consistent { lens := lens, tables := some t } := by
  obtain ⟨hmax, hkraft, rfl⟩ := buildTables_eq_ok.1 h
  refine ⟨hl, fun t ht => ?_⟩
  cases ht
  exact ⟨⟨hl, hmax, hkraft⟩, rfl⟩

/-- Lengths without tables are always consistent. -/
theorem Huffman.consistent_of_none {lens : List Byte} (hl : lens.length = 256) :
    Huffman.Consistent { lens := lens, tables := none } := ⟨hl, nofun⟩

/-! ### Dequantized elements -/

/-- The finite results of rounding are the format's values (00_scope.md R16). -/
theorem roundFinite_eq_fin {f : FloatFormat} (hp : 2 ≤ f.prec) (hr : f.lsbMin ≤ f.lsbMax)
    {neg neg' : Bool} {m n : Nat} {e q : Int} (h : roundFinite f neg m e = .fin neg' n q) :
    n < 2 ^ f.prec ∧ f.lsbMin ≤ q ∧ q ≤ f.lsbMax := by
  have hround := roundFinite_rounds f neg m e hp hr
  rw [h] at hround
  obtain ⟨-, hn, hlo, hhi, -⟩ := hround
  exact ⟨hn, hlo, hhi⟩

theorem floatAdd_eq_fin {x y : FloatVal} {neg : Bool} {n : Nat} {q : Int}
    (h : floatAdd x y = .fin neg n q) : n < 2 ^ 53 ∧ q ≤ 971 := by
  unfold floatAdd at h
  split at h
  · cases h
  · cases h
  · split at h <;> cases h
  · cases h
  · cases h
  · simp only at h
    split at h
    · cases h
      decide
    · obtain ⟨hn, -, hhi⟩ := roundFinite_eq_fin (f := binary64) (by decide) (by decide) h
      exact ⟨hn, hhi⟩

/-- The exponent field of a format's value is not the one of infinities and NaNs. -/
theorem floatPattern_field_lt {f : FloatFormat} {neg : Bool} {n : Nat} {q : Int} (hp : 1 ≤ f.prec)
    (hn : n < 2 ^ f.prec) (hq : (q - f.lsbMin).toNat + 2 < 2 ^ f.expBits) :
    floatPattern f (.fin neg n q) / 2 ^ (f.prec - 1) % 2 ^ f.expBits < 2 ^ f.expBits - 1 := by
  obtain ⟨k, hk⟩ : ∃ k, f.prec = k + 1 := ⟨f.prec - 1, by omega⟩
  have hpos : 0 < 2 ^ k := by positivity
  have hsign : (if neg = true then 2 ^ (f.expBits + (k + 1) - 1) else 0) =
      2 ^ k * (2 ^ f.expBits * neg.toNat) := by
    cases neg <;> simp [pow_add, mul_comm]
  rw [hk, pow_succ] at hn
  simp only [floatPattern, hk, Nat.add_sub_cancel]
  rw [hsign, Nat.mul_add_div hpos, Nat.mul_add_mod]
  split
  · next hsub =>
    rw [Nat.div_eq_of_lt hsub, Nat.zero_mod]
    omega
  · rw [mul_comm _ (2 ^ k), Nat.mul_add_div hpos, Nat.div_eq_of_lt (by omega),
      Nat.mod_eq_of_lt (by omega)]
    omega

/-- A binary64 value's pattern is finite. -/
theorem floatPattern_binary64_isFinite {neg : Bool} {n : Nat} {q : Int} (hn : n < 2 ^ 53)
    (hhi : q ≤ 971) :
    (floatOfBits (BitVec.ofNat 64 (floatPattern binary64 (.fin neg n q)))).isFinite = true := by
  have hfield := floatPattern_field_lt (f := binary64) (neg := neg) (q := q) (by decide) hn
    (by simp only [binary64]; omega)
  have hne : floatPattern binary64 (.fin neg n q) % 2 ^ 64 / 2 ^ 52 % 2 ^ 11 ≠ 2047 := by
    simp only [binary64] at hfield ⊢
    omega
  simp only [floatOfBits, BitVec.extractLsb'_toNat, BitVec.toNat_ofNat, Nat.shiftRight_eq_div_pow]
  rw [if_neg hne]
  split <;> rfl

/-- A binary32 value's pattern is finite. -/
theorem floatPattern_binary32_exponent {neg : Bool} {n : Nat} {q : Int} (hn : n < 2 ^ 24)
    (hhi : q ≤ 104) :
    ((BitVec.ofNat 32 (floatPattern binary32 (.fin neg n q))).extractLsb' 23 8).toNat ≠ 255 := by
  have hfield := floatPattern_field_lt (f := binary32) (neg := neg) (q := q) (by decide) hn
    (by simp only [binary32]; omega)
  rw [BitVec.extractLsb'_toNat, BitVec.toNat_ofNat, Nat.shiftRight_eq_div_pow]
  simp only [binary32] at hfield ⊢
  omega

/-- A finite value becomes an element of the kind (46_band_decode.md R361 to R363). -/
theorem elementOf_ofKind {k : Kind} {neg : Bool} {n : Nat} {q : Int} {e : Element} (hn : n < 2 ^ 53)
    (hhi : q ≤ 971) (h : elementOf k neg n q = .ok e) : e.ofKind k = true := by
  unfold elementOf at h
  split at h
  · cases h
    simpa [Element.ofKind] using floatPattern_binary64_isFinite hn hhi
  · split at h
    · next hr =>
      cases h
      obtain ⟨hn', -, hhi'⟩ := roundFinite_eq_fin (f := binary32) (by decide) (by decide) hr
      simpa [Element.ofKind] using floatPattern_binary32_exponent hn' hhi'
    · cases h
    · cases h
  all_goals
    simp only [except_bind_ok, ensure_ok_iff, Except.ok.injEq] at h
    obtain ⟨_, ⟨hmin, hmax⟩, rfl⟩ := h
    simp [Element.ofKind, Kind.isInteger, hmin, hmax]

theorem dequantize_ofKind {h : Header} {zMin : BitVec 64} {code : Nat} {e : Element}
    (hd : dequantize h zMin code = .ok e) : e.ofKind h.kind = true := by
  unfold dequantize at hd
  split at hd
  · next hv =>
    obtain ⟨hn, hhi⟩ := floatAdd_eq_fin hv
    exact elementOf_ofKind hn hhi hd
  · cases hd
  · cases hd

theorem Kind.zero_ofKind (k : Kind) : k.zero.ofKind k = true := by
  cases k <;> rfl

/-- Every element that the dequantization loop answers is one of the header's kind. -/
theorem dequantizeBand_ofKind {op : BitVec 8} {h : Header} {zMin : BitVec 64} {bits : List Bool}
    {codes : List Code} {es : List Element} (hd : dequantizeBand op h zMin bits codes = .ok es) :
    ∀ e ∈ es, e.ofKind h.kind = true := by
  induction bits generalizing codes es with
  | nil =>
    cases codes with
    | nil => cases hd; simp
    | cons c codes => cases hd
  | cons b bits ih =>
    cases b with
    | false =>
      simp only [dequantizeBand, except_bind_ok, Except.ok.injEq] at hd
      obtain ⟨rest, hr, rfl⟩ := hd
      exact List.forall_mem_cons.2 ⟨h.kind.zero_ofKind, ih hr⟩
    | true =>
      cases codes with
      | nil => cases hd
      | cons c codes =>
        simp only [dequantizeBand, except_bind_ok, Except.ok.injEq] at hd
        obtain ⟨e, he, rest, hr, rfl⟩ := hd
        exact List.forall_mem_cons.2 ⟨dequantize_ofKind he, ih hr⟩

/-! ### The invariant: orchestrator and `STAGE` -/

/-- What `State.Inv` says of the orchestrator and `STAGE` while a header is parsed. -/
structure DecodeInv (p : Params) (o : Orchestrator) (stage : List (Option Element)) (h : Header) :
    Prop where
  parsed : o.hdr = some h
  legal : h.legal = true
  progress : o.Progress h
  capacity : o.phase.running = true → p.fitsOut (h.pixels * h.nBands.toNat) = true
  full : o.phase ≠ .failed → stage.length = o.staged * h.pixels ∧ none ∉ stage
  typed : ∀ e, some e ∈ stage → e.ofKind h.kind = true

theorem State.Inv.decodeInv {s : State} (hs : s.Inv) {h : Header} (hh : s.orc.hdr = some h) :
    DecodeInv s.params s.orc s.stage h :=
  ⟨hh, hs.headerLegal h hh, hs.progress h hh, hs.capacity h hh, hs.stageFull h hh,
    fun e => hs.stageTyped h e hh⟩

/-- The invariant is kept where the orchestrator and `STAGE` change to a state of the same kind. -/
theorem State.Inv.withDecode {s : State} (hs : s.Inv) {o : Orchestrator}
    {stage : List (Option Element)} {h : Header}
    (hd : DecodeInv s.params o stage h) : State.Inv { s with orc := o, stage := stage } := by
  have hsame {h' : Header} (hh' : o.hdr = some h') : h' = h :=
    Option.some.inj (hh'.symm.trans hd.parsed)
  exact { hs with
    noHeader := fun hn => by simp [hd.parsed] at hn
    headerLegal := fun h' hh' => hsame hh' ▸ hd.legal
    progress := fun h' hh' => hsame hh' ▸ hd.progress
    capacity := fun h' hh' => hsame hh' ▸ hd.capacity
    stageFull := fun h' hh' => hsame hh' ▸ hd.full
    stageTyped := fun h' e hh' => hsame hh' ▸ hd.typed e }

section Phases

variable {p : Params} {o : Orchestrator} {stage : List (Option Element)} {h : Header}

/-- A freshly parsed header: no band has begun. -/
theorem decodeInv_reset (hl : h.legal = true) :
    DecodeInv p { Orchestrator.reset with hdr := some h } [] h := by
  have hbands : 1 ≤ h.nBands.toNat := by
    simp only [Header.legal, Bool.and_eq_true, decide_eq_true_eq] at hl
    tauto
  have hstaged : ([] : List (Option Element)).length = 0 * h.pixels := (Nat.zero_mul _).symm
  exact ⟨rfl, hl, ⟨hbands, Nat.zero_le _, rfl, rfl⟩, nofun, fun _ => ⟨hstaged, List.not_mem_nil⟩,
    nofun⟩

/-- `Failed` can follow any phase (46_band_decode.md R369). -/
theorem DecodeInv.failed (hd : DecodeInv p o stage h) :
    DecodeInv p { o with phase := .failed } stage h := by
  obtain ⟨hband, hdone, hphase⟩ := hd.progress
  refine { hd with
    progress := ⟨hband, hdone, ?_⟩
    capacity := nofun
    full := fun hne => absurd rfl hne }
  show o.band ≤ o.bandsDone
  split at hphase <;> omega

/-- BAND.BEGIN starts the next band, the first one with an empty `STAGE`. -/
theorem DecodeInv.begin (hd : DecodeInv p o stage h) (hphase : o.phase = .start ∨ o.phase = .done)
    {b : Nat} (hb : b = o.bandsDone) (hlt : b < h.nBands.toNat)
    (hfits : p.fitsOut (h.pixels * h.nBands.toNat) = true) (mask : MaskMode)
    (entropy : EntropyMode) :
    DecodeInv p { o with band := b, maskMode := mask, entropyMode := entropy,
                         phase := .headerValidated } (if b = 0 then [] else stage) h := by
  subst hb
  obtain ⟨-, hdone, -⟩ := hd.progress
  have hfull := hd.full (by rcases hphase with h | h <;> simp [h])
  have hstaged : o.staged = o.bandsDone := by
    rcases hphase with h | h <;> simp [Orchestrator.staged, h]
  refine ⟨hd.parsed, hd.legal, ⟨hlt, hdone, rfl⟩, fun _ => hfits, fun _ => ?_, fun e he => ?_⟩
  · rw [hstaged] at hfull
    split
    · next h0 => simp [Orchestrator.staged, h0]
    · simpa [Orchestrator.staged] using hfull
  · split at he
    · cases he
    · exact hd.typed e he

/-- BAND.MASK and BAND.DATA move on inside the band. -/
theorem DecodeInv.advance (hd : DecodeInv p o stage h) {q : Phase}
    (hphase : o.phase = .headerValidated ∧ q = .maskDecoded ∨
      o.phase = .maskDecoded ∧ q = .dataDecoded) :
    DecodeInv p { o with phase := q } stage h := by
  obtain ⟨hband, hdone, hprog⟩ := hd.progress
  have hcap := hd.capacity
  have hfull := hd.full
  rcases hphase with ⟨hp, rfl⟩ | ⟨hp, rfl⟩
  all_goals
    simp only [hp] at hprog
    exact ⟨hd.parsed, hd.legal, ⟨hband, hdone, hprog⟩, fun _ => hcap (by rw [hp]; rfl),
      fun _ => by simpa [Orchestrator.staged, hp] using hfull, hd.typed⟩

/-- BAND.DEQ appends a band's elements (46_band_decode.md R364). -/
theorem DecodeInv.dequantized (hd : DecodeInv p o stage h) (hphase : o.phase = .dataDecoded)
    {es : List Element} (hlen : es.length = h.pixels) (hes : ∀ e ∈ es, e.ofKind h.kind = true) :
    DecodeInv p { o with phase := .dequantized } (writeStage stage (o.band * h.pixels) es) h := by
  obtain ⟨hband, hdone, hprog⟩ := hd.progress
  simp only [hphase] at hprog
  obtain ⟨hstage, hnone⟩ := hd.full (by simp [hphase])
  have hat : o.band * h.pixels = stage.length := by
    simp [hstage, Orchestrator.staged, hphase, hprog]
  rw [hat, writeStage_append]
  refine ⟨hd.parsed, hd.legal, ⟨hband, hdone, hprog⟩, fun _ => hd.capacity (by rw [hphase]; rfl),
    fun _ => ⟨?_, ?_⟩, fun e he => ?_⟩
  · rw [List.length_append, List.length_map, ← hat, hprog, hlen]
    simp only [Orchestrator.staged, if_true]
    ring
  · simp [hnone]
  · rcases List.mem_append.1 he with he | he
    · exact hd.typed e he
    · exact hes e (by simpa using he)

/-- BAND.END counts the dequantized band as done. -/
theorem DecodeInv.bandEnd (hd : DecodeInv p o stage h) (hphase : o.phase = .dequantized) :
    DecodeInv p { o with bandsDone := o.bandsDone + 1, phase := .done } stage h := by
  obtain ⟨hband, -, hprog⟩ := hd.progress
  simp only [hphase] at hprog
  refine { hd with
    progress := ⟨hband, ?_, ?_⟩
    capacity := fun _ => hd.capacity (by rw [hphase]; rfl)
    full := fun _ => ?_ }
  · show o.bandsDone + 1 ≤ h.nBands.toNat
    omega
  · show o.bandsDone + 1 = o.band + 1
    omega
  · simpa [Orchestrator.staged, hphase] using hd.full (by simp [hphase])

end Phases

/-! ### The invariant: single updates -/

section Updates

variable {s : State}

/-- Everything at reset but the memory, inside its bound, and the model's own fields. -/
theorem resetState_inv {p : Params} {m : Memory} (hwf : m.wf = true) (hin : ∀ c ∈ m, c.1 < p.inSize)
    (port : List HostAccess) (reply : HostReply) :
    State.Inv { State.reset with inMem := m, params := p, port := port, reply := reply } where
  memWf := hwf
  memInside := hin
  window := ⟨le_rfl, le_rfl⟩
  table := Huffman.consistent_of_none List.length_replicate
  width := Nat.zero_le _
  codesFit := fitsOut_zero p
  mask0Fits := fitsOut_zero p
  mask1Fits := fitsOut_zero p
  errAgrees := rfl
  errListed := .inl rfl
  noHeader := fun _ => ⟨rfl, rfl⟩
  headerLegal := nofun
  progress := nofun
  capacity := nofun
  stageFull := nofun
  stageTyped := nofun
  outHeld := nofun
  maskHeld := nofun
  outTyped := nofun

theorem errFieldsOf_listed (e : Option EngineError) :
    (errFieldsOf e).code = 0 ∨ (errFieldsOf e).code ∈ errorCodes := by
  cases e with
  | none => exact .inl rfl
  | some e => cases e <;> simp [errFieldsOf, EngineError.code, errorCodes]

theorem State.Inv.finish (hs : s.Inv) (e : Option EngineError) : (s.finish e).Inv :=
  { hs with errAgrees := rfl, errListed := errFieldsOf_listed e }

theorem State.Inv.withFailed (hs : s.Inv) {h : Header} (hh : s.orc.hdr = some h) :
    (s.withPhase .failed).Inv := hs.withDecode (hs.decodeInv hh).failed

theorem State.Inv.resetOrchestrator (hs : s.Inv) : s.resetOrchestrator.Inv :=
  { hs with
    noHeader := fun _ => ⟨rfl, rfl⟩
    headerLegal := nofun
    progress := nofun
    capacity := nofun
    stageFull := nofun
    stageTyped := nofun }

theorem State.Inv.withInfoValid (hs : s.Inv) (b : Bool) : (s.withInfoValid b).Inv := { hs with }

theorem State.Inv.publishInfo (hs : s.Inv) : s.publishInfo.Inv := by
  unfold State.publishInfo
  split
  · exact { hs with }
  · exact hs

theorem State.Inv.clearResultFlags (hs : s.Inv) : s.clearResultFlags.Inv :=
  { hs with outHeld := nofun, maskHeld := nofun }

theorem State.Inv.softReset (hs : s.Inv) : s.softReset.Inv :=
  resetState_inv hs.memWf hs.memInside s.port s.reply

theorem platformReset_inv (s : State) : s.platformReset.Inv :=
  resetState_inv Memory.wf_nil (by simp) s.port s.reply

theorem State.Inv.maskFits (hs : s.Inv) (sl : Slot) :
    s.params.fitsOut (s.mask sl).bits.length = true := by
  cases sl
  · exact hs.mask0Fits
  · exact hs.mask1Fits

theorem State.Inv.setMask (hs : s.Inv) (sl : Slot) {m : BitMask}
    (hm : s.params.fitsOut m.bits.length = true) : (s.setMask sl m).Inv := by
  cases sl
  · exact { hs with mask0Fits := hm }
  · exact { hs with mask1Fits := hm }

theorem State.Inv.withCursor (hs : s.Inv) {br : BitReader} (hw : br.wf) :
    State.Inv { s with br := br } := { hs with window := hw }

theorem State.Inv.withMemory (hs : s.Inv) {m : Memory} (hwf : m.wf = true)
    (hin : ∀ c ∈ m, c.1 < s.params.inSize) : State.Inv { s with inMem := m } :=
  { hs with memWf := hwf, memInside := hin }

/-! The invariant says nothing of the argument and result registers, the port and the reply. -/

theorem State.Inv.withArguments (hs : s.Inv) (len a0 a1 a2 a3 : Reg) :
    State.Inv { s with srcLen := len, a0 := a0, a1 := a1, a2 := a2, a3 := a3 } := { hs with }

theorem State.Inv.withResults (hs : s.Inv) (r0 r1 : Reg) :
    State.Inv { s with r0 := r0, r1 := r1 } := { hs with }

theorem State.Inv.withPort (hs : s.Inv) (rest : List HostAccess) :
    State.Inv { s with port := rest } := { hs with }

theorem State.Inv.withReply (hs : s.Inv) (r : HostReply) : State.Inv { s with reply := r } :=
  { hs with }

end Updates

/-! ### The invariant: commands -/

section Commands

variable {s : State}

theorem command_inv {r : Except Stop State} (hs : s.Inv) (h : Keeps State.Inv s r) :
    Leads State.Inv (command s r) := (h.runAt hs).complete fun _ e ht => ht.finish e

theorem execBrInit_inv (ord : BitOrder) (hs : s.Inv) : Leads State.Inv (execBrInit ord s) := by
  refine command_inv hs (.bind (.ensure _ _) fun _ _ => .bind (.ensure _ _) fun _ hle =>
    .bind (.ensure _ _) fun _ _ => .ok ?_)
  exact { hs with window := ⟨ensure_ok_iff.1 hle, Nat.zero_le _⟩ }

theorem execBrRead_inv (n : BitVec 6) (hs : s.Inv) : Leads State.Inv (execBrRead n s) := by
  refine command_inv hs (.bind (noFail_bitCountOperand _ _) fun k _ =>
    .bind (noFail_readBits _ _ _ _) fun ⟨v, br⟩ hread => .ok ?_)
  obtain ⟨hrem, -, rfl⟩ := readBits_eq_ok.1 hread
  exact { hs with window := hs.window.advance hrem }

theorem execBrPeek_inv (n : BitVec 6) (hs : s.Inv) : Leads State.Inv (execBrPeek n s) :=
  command_inv hs (.bind (noFail_bitCountOperand _ _) fun _ _ => .bind (.ensure _ _) fun _ _ =>
    .bind (noFail_peekBits _ _ _ _) fun _ _ => .ok (hs.withResults _ _))

theorem execBrSkip_inv (hs : s.Inv) : Leads State.Inv (execBrSkip s) :=
  command_inv hs (.bind (.ensure _ _) fun _ hrem =>
    .ok { hs with window := hs.window.advance (ensure_ok_iff.1 hrem) })

theorem execBrAlign_inv (hs : s.Inv) : Leads State.Inv (execBrAlign s) :=
  command_inv hs (.ok { hs with window := hs.window.alignUp })

theorem execBrBytes_inv (k : BitVec 4) (hs : s.Inv) : Leads State.Inv (execBrBytes k s) := by
  refine command_inv hs (.bind (noFail_byteCountOperand _ _) fun n _ =>
    .bind (noFail_readBytesLE _ _ _ _) fun ⟨v, br⟩ hread => .ok ?_)
  obtain ⟨-, hrem, -, rfl⟩ := readBytesLE_eq_ok.1 hread
  exact { hs with window := hs.window.advance hrem }

theorem execBmNew_inv (sl : Slot) (v : Bool) (hs : s.Inv) : Leads State.Inv (execBmNew sl v s) := by
  refine command_inv hs (.bind (.ensure _ _) fun _ hfits => .ok (hs.setMask sl ?_))
  rw [List.length_replicate]
  exact ensure_ok_iff.1 hfits

theorem execBmSet_inv (sl : Slot) (v : Bool) (hs : s.Inv) : Leads State.Inv (execBmSet sl v s) := by
  refine command_inv hs (.bind (.ensure _ _) fun _ _ => .bind (.ensure _ _) fun _ _ =>
    .ok (hs.setMask sl ?_))
  rw [List.length_set]
  exact hs.maskFits sl

theorem execBmFill_inv (sl : Slot) (v : Bool) (hs : s.Inv) :
    Leads State.Inv (execBmFill sl v s) := by
  refine command_inv hs (.bind (.ensure _ _) fun _ _ => .bind (.ensure _ _) fun _ hle =>
    .ok (hs.setMask sl ?_))
  rw [length_fillBits v (ensure_ok_iff.1 hle)]
  exact hs.maskFits sl

theorem execBmFreeze_inv (sl : Slot) (hs : s.Inv) : Leads State.Inv (execBmFreeze sl s) :=
  command_inv hs (.ok (hs.setMask sl (hs.maskFits sl)))

theorem execBmGet_inv (sl : Slot) (hs : s.Inv) : Leads State.Inv (execBmGet sl s) := by
  refine command_inv hs ?_
  split
  · exact .raise _
  · exact .ok (hs.withResults _ _)

/-- The AND of two masks is no longer than the first. -/
theorem fitsOut_andBits {p : Params} {x : List Bool} (y : List Bool)
    (h : p.fitsOut x.length = true) : p.fitsOut (andBits x y).length = true :=
  fitsOut_mono (length_andBits x y ▸ Nat.min_le_left _ _) h

theorem execBmAnd_inv (hs : s.Inv) : Leads State.Inv (execBmAnd s) :=
  command_inv hs (.bind (.ensure _ _) fun _ _ => .bind (.ensure _ _) fun _ _ =>
    .ok { hs with mask1Fits := fitsOut_andBits _ hs.mask1Fits })

theorem execMaskAbsent_inv (sl : Slot) (hs : s.Inv) : Leads State.Inv (execMaskAbsent sl s) := by
  refine command_inv hs (.bind (noFail_maskAbsentBody _ _) fun m hm => .ok (hs.setMask sl ?_))
  obtain ⟨hfits, rfl⟩ := maskAbsentBody_eq_ok.1 hm
  rwa [List.length_replicate]

theorem execMaskRaw_inv (sl : Slot) (hs : s.Inv) : Leads State.Inv (execMaskRaw sl s) := by
  refine command_inv hs (.bind (noFail_maskRawBody _ _ _ _ _) fun ⟨m, br⟩ hm => .ok ?_)
  obtain ⟨hfits, hw⟩ := maskRawBody_fits hm hs.window
  exact (hs.setMask sl hfits).withCursor hw

theorem execMaskRle_inv (sl : Slot) (hs : s.Inv) : Leads State.Inv (execMaskRle sl s) := by
  refine command_inv hs (.bind (noFail_maskRleBody _ _ _ _ _) fun ⟨m, br⟩ hm => .ok ?_)
  obtain ⟨hfits, hw⟩ := maskRleBody_fits hm hs.window
  exact (hs.setMask sl hfits).withCursor hw

theorem execHufLoadlen_inv (hs : s.Inv) : Leads State.Inv (execHufLoadlen s) := by
  refine command_inv hs (.bind (noFail_loadLengths _ _ _) fun ⟨lens, br⟩ hload => .ok ?_)
  obtain ⟨-, hrem, -, rfl⟩ := loadLengths_eq_ok.1 hload
  exact { hs with
    window := hs.window.advance hrem
    table := Huffman.consistent_of_none (loadLengths_length hload) }

theorem execHufBuild_inv (hs : s.Inv) : Leads State.Inv (execHufBuild s) :=
  command_inv hs (.bind (noFail_buildTables _) fun _ ht =>
    .ok { hs with table := Huffman.consistent_of_buildTables ht hs.table.1 })

theorem execHufSeg_inv (hs : s.Inv) : Leads State.Inv (execHufSeg s) :=
  command_inv hs (.bind (noFail_segmentWindow _ _ _) fun ⟨_, _⟩ hseg =>
    .ok { hs with window := segmentWindow_wf hseg hs.window })

theorem execHufDec_inv (hs : s.Inv) : Leads State.Inv (execHufDec s) :=
  command_inv hs (.bind (noFail_builtTables _ _) fun _ _ =>
    .bind (noFail_decodeSymbol _ _ _) fun ⟨_, _⟩ hdec =>
    .ok { hs with window := decodeSymbol_wf hdec hs.window })

theorem execHufDecf_inv (hs : s.Inv) : Leads State.Inv (execHufDecf s) := by
  refine command_inv hs (.bind (noFail_builtTables _ _) fun t ht =>
    .bind (noFail_decodeSymbolFast _ _ _) fun ⟨sym, br⟩ hdec => .ok ?_)
  obtain ⟨-, rfl⟩ := hs.table.2 t (builtTables_eq_ok.1 ht)
  exact { hs with window := decodeSymbolFast_wf hdec hs.window }

theorem execHufDecs_inv (hs : s.Inv) : Leads State.Inv (execHufDecs s) :=
  command_inv hs (.bind (noFail_builtTables _ _) fun _ _ =>
    .bind (noFail_decodeSymbol _ _ _) fun ⟨_, _⟩ hdec =>
    .ok { hs with window := decodeSymbol_wf hdec hs.window })

theorem execHufRun_inv (hs : s.Inv) : Leads State.Inv (execHufRun s) := by
  refine command_inv hs (.bind (noFail_huffmanRun _ _ _ _ _ _) fun ⟨codes, br⟩ hrun => .ok ?_)
  obtain ⟨hfits, t, -, hdec⟩ := huffmanRun_eq_ok.1 hrun
  exact { hs with
    window := decodeSymbols_wf hdec hs.window
    codesFit := (decodeSymbols_eq_ok hdec).1 ▸ hfits }

theorem execBsHdr_inv (hs : s.Inv) : Leads State.Inv (execBsHdr s) := by
  refine command_inv hs (.bind (noFail_blockHeader _ _ _) fun ⟨bs, br⟩ hhdr => .ok ?_)
  obtain ⟨hw, hwidth⟩ := blockHeader_wf hhdr hs.window
  exact { hs with window := hw, width := hwidth }

theorem execBsUnpack_inv (hs : s.Inv) : Leads State.Inv (execBsUnpack s) := by
  refine command_inv hs (.bind (noFail_blockCodes _ _ _ _ _ _) fun ⟨codes, br⟩ hcodes => .ok ?_)
  obtain ⟨hfits, -, hlen, -⟩ := blockCodes_eq_ok hcodes
  exact { hs with
    window := blockCodes_wf hcodes hs.window
    codesFit := by rwa [List.length_append, hlen] }

theorem execBsStream_inv (hs : s.Inv) : Leads State.Inv (execBsStream s) := by
  refine command_inv hs (.bind (noFail_stuffedStream _ _ _ _ _) fun ⟨codes, last, br⟩ hstream =>
    .ok ?_)
  obtain ⟨hfits, hlen⟩ := stuffedStream_length hstream
  obtain ⟨hw, hwidth⟩ := stuffedStream_wf hstream hs.window hs.width
  exact { hs with window := hw, width := hwidth, codesFit := hlen ▸ hfits }

theorem execCodesGet_inv (hs : s.Inv) : Leads State.Inv (execCodesGet s) := by
  refine command_inv hs ?_
  split
  · exact .raise _
  · exact .ok (hs.withResults _ _)

theorem execDeqOne_inv (hs : s.Inv) : Leads State.Inv (execDeqOne s) :=
  command_inv hs (.bind (noFail_headerOf _ _) fun _ _ => .bind (.ensure _ _) fun _ _ =>
    .bind (noFail_descriptorOf _ _) fun _ _ => .bind (noFail_dequantize _ _ _) fun _ _ =>
    .ok (hs.withResults _ _))

/-! ### The invariant: the orchestrator's rules -/

theorem bandBeginRule_inv (op : BitVec 8) (b : Nat) (hs : s.Inv) :
    Keeps State.Inv s (bandBeginRule op b s) := by
  refine .bind (noFail_headerOf _ _) fun h hhdr => ?_
  have hh := headerOf_eq_ok.1 hhdr
  refine .bindFail (hs.withFailed hh) fun _ hseq => .bindFail (hs.withFailed hh) fun _ _ =>
    .bindFail (hs.withFailed hh) fun _ hfits => .bindFail (hs.withFailed hh) fun d _ =>
    .bindFail (hs.withFailed hh) fun ⟨mask, entropy⟩ hsec => .ok ?_
  obtain ⟨hphase, hb, hlt⟩ := ensure_ok_iff.1 hseq
  obtain ⟨-, hlen, -⟩ := sectionChecks_eq_ok.1 hsec
  have hd := (hs.decodeInv hh).begin hphase hb hlt (ensure_ok_iff.1 hfits) mask entropy
  exact (hs.withDecode hd).withCursor ⟨Nat.add_le_add_left hlen _, Nat.zero_le _⟩

theorem bandMaskRule_inv (op : BitVec 8) (hs : s.Inv) : Keeps State.Inv s (bandMaskRule op s) := by
  refine .bind (.ensure _ _) fun _ hseq => .bind (noFail_headerOf _ _) fun h hhdr => ?_
  have hh := headerOf_eq_ok.1 hhdr
  refine .bindFail (hs.withFailed hh) fun ⟨m, br⟩ hbody =>
    .bindFail (hs.withFailed hh) fun _ _ => .ok ?_
  obtain ⟨hfits, hlen, -, k, rfl, hk⟩ := bandMaskBody_eq_ok (orFail_eq_ok.1 hbody)
  have hd := (hs.decodeInv hh).advance (.inl ⟨ensure_ok_iff.1 hseq, rfl⟩)
  exact { hs.withDecode hd with
    window := hs.window.advance hk
    mask0Fits := hlen ▸ hfits }

theorem bandStuffedBody_inv {op : BitVec 8} {count : Nat} {t : State} (hs : s.Inv)
    (h : bandStuffedBody op s count = .ok t) : t.Inv := by
  obtain ⟨codes, last, br, hstream, rfl⟩ := bandStuffedBody_eq_ok.1 h
  obtain ⟨hfits, hlen⟩ := stuffedStream_length hstream
  obtain ⟨hw, hwidth⟩ := stuffedStream_wf hstream hs.window hs.width
  exact { hs with window := hw, width := hwidth, codesFit := hlen ▸ hfits }

theorem bandHuffmanBody_inv {op : BitVec 8} {count : Nat} {t : State} (hs : s.Inv)
    (h : bandHuffmanBody op s count = .ok t) : t.Inv := by
  obtain ⟨lens, br1, tab, len, br2, codes, br3, hload, hbuild, hseg, hfits, hdec, rfl⟩ :=
    bandHuffmanBody_eq_ok.1 h
  obtain ⟨-, hrem, -, rfl⟩ := loadLengths_eq_ok.1 hload
  have hw2 := segmentWindow_wf hseg (hs.window.advance hrem)
  exact { hs with
    window := decodeSymbols_wf hdec hw2
    table := Huffman.consistent_of_buildTables hbuild (loadLengths_length hload)
    codesFit := (decodeSymbols_eq_ok hdec).1 ▸ hfits }

/-- The payload's codes leave the orchestrator alone. -/
theorem bandDataBody_orc {op : BitVec 8} {count : Nat} {t : State} :
    bandStuffedBody op s count = .ok t ∨ bandHuffmanBody op s count = .ok t → t.orc = s.orc := by
  rintro (h | h)
  · obtain ⟨_, _, _, -, rfl⟩ := bandStuffedBody_eq_ok.1 h
    rfl
  · obtain ⟨_, _, _, _, _, _, _, -, -, -, -, -, rfl⟩ := bandHuffmanBody_eq_ok.1 h
    rfl

theorem bandDataRule_inv (op : BitVec 8) (hs : s.Inv) : Keeps State.Inv s (bandDataRule op s) := by
  refine .bind (.ensure _ _) fun _ hseq => .bind (noFail_headerOf _ _) fun h hhdr => ?_
  have hh := headerOf_eq_ok.1 hhdr
  refine .bindFail (hs.withFailed hh) fun t ht => .ok ?_
  have hbody : t.Inv ∧ t.orc = s.orc := by
    rw [orFail_eq_ok] at ht
    split at ht
    · exact ⟨bandStuffedBody_inv hs ht, bandDataBody_orc (.inl ht)⟩
    · exact ⟨bandHuffmanBody_inv hs ht, bandDataBody_orc (.inr ht)⟩
  obtain ⟨hi, horc⟩ := hbody
  rw [← horc] at hh hseq
  exact hi.withDecode ((hi.decodeInv hh).advance (.inr ⟨ensure_ok_iff.1 hseq, rfl⟩))

theorem bandDeqRule_inv (op : BitVec 8) (hs : s.Inv) : Keeps State.Inv s (bandDeqRule op s) := by
  refine .bind (.ensure _ _) fun _ hseq => .bind (noFail_headerOf _ _) fun h hhdr => ?_
  have hh := headerOf_eq_ok.1 hhdr
  refine .bindFail (hs.withFailed hh) fun _ hmask => .bindFail (hs.withFailed hh) fun d _ =>
    .bindFail (hs.withFailed hh) fun es hes => .ok ?_
  obtain ⟨hpixels, -, -⟩ := ensure_ok_iff.1 hmask
  have hes := orFail_eq_ok.1 hes
  have hlen := (dequantizeBand_length hes).1.trans hpixels
  exact hs.withDecode ((hs.decodeInv hh).dequantized (ensure_ok_iff.1 hseq) hlen
    (dequantizeBand_ofKind hes))

theorem bandEndRule_inv (op : BitVec 8) (hs : s.Inv) : Keeps State.Inv s (bandEndRule op s) := by
  refine .bind (.ensure _ _) fun _ hseq => .bind (noFail_headerOf _ _) fun h hhdr =>
    .bind (.ensure _ _) fun _ _ => .ok ?_
  have hh := headerOf_eq_ok.1 hhdr
  have hd := (hs.decodeInv hh).bandEnd (ensure_ok_iff.1 hseq)
  refine { hs.withDecode hd with
    mask1Fits := ?_
    table := Huffman.consistent_of_none hs.table.1 }
  show s.params.fitsOut (if _ then _ else _ : BitMask).bits.length = true
  split
  · exact hs.mask0Fits
  · exact fitsOut_andBits _ hs.mask1Fits

theorem commitRule_inv (op : BitVec 8) (hs : s.Inv) : Keeps State.Inv s (commitRule op s) := by
  refine .bind (noFail_headerOf _ _) fun h hhdr => ?_
  have hh := headerOf_eq_ok.1 hhdr
  refine .bindFail (hs.withFailed hh) fun _ hseq => .bindFail (hs.withFailed hh) fun _ _ =>
    .bindFail (hs.withFailed hh) fun es hes => .ok ?_
  obtain ⟨hphase, -⟩ := ensure_ok_iff.1 hseq
  obtain ⟨hlen, hstaged⟩ := stagedElements_eq_ok.1 hes
  refine { hs with outHeld := fun _ => rfl, maskHeld := fun hm => ⟨rfl, ?_⟩, outTyped := ?_ }
  · simp [of_decide_eq_true hm]
  · rintro buf ⟨⟩
    refine ⟨?_, fun e he => ?_⟩
    · show s.params.fitsOut es.length = true
      rw [hlen, mul_comm]
      exact hs.capacity h hh (by rw [hphase]; rfl)
    · have hmem : some e ∈ s.stage.take (h.nBands.toNat * h.pixels) := by
        rw [hstaged]
        exact List.mem_map_of_mem he
      exact hs.stageTyped h e hh (List.mem_of_mem_take hmem)

/-! ### The invariant: INFO, DECODE and the dispatch -/

theorem inv_keptByRules : KeptByRules State.Inv where
  finish _ e hs := hs.finish e
  resetOrchestrator _ hs := hs.resetOrchestrator
  withHeader _ _ hs hl := hs.withDecode (decodeInv_reset hl)
  bandBegin op b _ hs := bandBeginRule_inv op b hs
  bandMask op _ hs := bandMaskRule_inv op hs
  bandData op _ hs := bandDataRule_inv op hs
  bandDeq op _ hs := bandDeqRule_inv op hs
  bandEnd op _ hs := bandEndRule_inv op hs
  commit op _ hs := commitRule_inv op hs
  publishInfo _ hs := hs.publishInfo
  withInfoValid _ hs := hs.withInfoValid false
  clearResultFlags _ hs := hs.clearResultFlags

/-- Every command keeps the invariant. -/
theorem exec_inv (i : Instr) (hs : s.Inv) : Leads State.Inv (exec i s) := by
  cases i with
  | nop => exact command_inv hs (.ok hs)
  | info => exact inv_keptByRules.execInfo_leads hs
  | decode => exact inv_keptByRules.execDecode_leads hs
  | srst => exact command_inv hs (.ok hs.softReset)
  | brInit ord => exact execBrInit_inv ord hs
  | brRead n => exact execBrRead_inv n hs
  | brPeek n => exact execBrPeek_inv n hs
  | brSkip => exact execBrSkip_inv hs
  | brAlign => exact execBrAlign_inv hs
  | brBytes k => exact execBrBytes_inv k hs
  | brPos => exact command_inv hs (.ok (hs.withResults _ _))
  | bmNew sl v => exact execBmNew_inv sl v hs
  | bmSet sl v => exact execBmSet_inv sl v hs
  | bmFill sl v => exact execBmFill_inv sl v hs
  | bmFreeze sl => exact execBmFreeze_inv sl hs
  | bmGet sl => exact execBmGet_inv sl hs
  | bmPopcnt sl => exact command_inv hs (.ok (hs.withResults _ _))
  | bmNext sl => exact command_inv hs (.ok (hs.withResults _ _))
  | bmAnd => exact execBmAnd_inv hs
  | bmLen sl => exact command_inv hs (.ok (hs.withResults _ _))
  | maskAbsent sl => exact execMaskAbsent_inv sl hs
  | maskRaw sl => exact execMaskRaw_inv sl hs
  | maskRle sl => exact execMaskRle_inv sl hs
  | hufLoadlen => exact execHufLoadlen_inv hs
  | hufBuild => exact execHufBuild_inv hs
  | hufSeg => exact execHufSeg_inv hs
  | hufDec => exact execHufDec_inv hs
  | hufDecf => exact execHufDecf_inv hs
  | hufDecs => exact execHufDecs_inv hs
  | hufRun => exact execHufRun_inv hs
  | bsHdr => exact execBsHdr_inv hs
  | bsUnpack => exact execBsUnpack_inv hs
  | bsStream => exact execBsStream_inv hs
  | codesGet => exact execCodesGet_inv hs
  | bandBegin => exact command_inv hs (bandBeginRule_inv _ _ hs)
  | bandMask => exact command_inv hs (bandMaskRule_inv _ hs)
  | bandData => exact command_inv hs (bandDataRule_inv _ hs)
  | bandDeq => exact command_inv hs (bandDeqRule_inv _ hs)
  | bandEnd => exact command_inv hs (bandEndRule_inv _ hs)
  | deqOne => exact execDeqOne_inv hs
  | commit => exact command_inv hs (commitRule_inv _ hs)

/-! ### The invariant: host accesses -/

theorem runCommand_inv (w : CmdWord) (hs : s.Inv) : Leads State.Inv (runCommand w s) := by
  unfold runCommand
  split
  · exact exec_inv _ hs
  · exact hs.finish _
  · exact hs.finish _

theorem writeReg_inv (offset : Nat) (v : Reg) (hs : s.Inv) :
    Leads State.Inv (writeReg offset v s) := by
  unfold writeReg
  split
  · exact runCommand_inv _ hs
  all_goals exact hs.withArguments _ _ _ _ _

theorem registerAccess_leads {P : State → Prop} {act : Host.Outcome State Fault Refusal}
    (offset width : Nat) (h : Leads P act) : Leads P (registerAccess offset width act) := by
  unfold registerAccess
  split
  · split
    · exact h
    · trivial
  · trivial

theorem hostWriteIn_inv (a : Nat) (b : Byte) (hs : s.Inv) :
    Leads State.Inv (hostWriteIn a b s) := by
  unfold hostWriteIn
  split
  · next ha =>
    refine hs.withMemory (Memory.wf_write _ a b hs.memWf) fun c hc => ?_
    rcases Memory.mem_write hc with h | h
    · exact h ▸ ha
    · exact hs.memInside c h
  · trivial

theorem hostReadIn_inv (a : Nat) (hs : s.Inv) : Leads State.Inv (hostReadIn a s) := by
  unfold hostReadIn
  split
  · split
    · exact hs.withReply _
    · trivial
  · trivial

theorem hostReadOut_inv (a : Nat) (hs : s.Inv) : Leads State.Inv (hostReadOut a s) := by
  unfold hostReadOut
  split
  · split
    · exact hs.withReply _
    · trivial
  · trivial
  · trivial

theorem hostReadOutMask_inv (i : Nat) (hs : s.Inv) : Leads State.Inv (hostReadOutMask i s) := by
  unfold hostReadOutMask
  split
  · split
    · exact hs.withReply _
    · trivial
  · trivial
  · trivial

theorem hostAccess_inv (a : HostAccess) (hs : s.Inv) : Leads State.Inv (hostAccess a s) := by
  cases a with
  | regWrite offset width v => exact registerAccess_leads _ _ (writeReg_inv offset v hs)
  | regRead offset width => exact registerAccess_leads _ _ (hs.withReply _)
  | inWrite a b => exact hostWriteIn_inv a b hs
  | inRead a => exact hostReadIn_inv a hs
  | outRead a => exact hostReadOut_inv a hs
  | outMaskRead i => exact hostReadOutMask_inv i hs
  | platformReset => exact platformReset_inv s

end Commands

/-- Settles O19: the invariant says nothing of the port, and every host access keeps it. -/
theorem stepKeepsInv : Obligations.StepKeepsInv := by
  intro s t hs h
  unfold step serve at h
  split at h
  · cases h
    exact hs
  · next a rest _ => exact (hostAccess_inv a (hs.withPort rest)).next h

/-- Settles O20. -/
theorem resetHasInv : Obligations.ResetHasInv :=
  resetState_inv Memory.wf_nil (by simp) [] .none

end Sys2Proof.Machine
end

/-!
SUPPORT. The memories as the host and the engine use them: how `OUT` and `OUTMASK` are read (20_memory.md
R73, R74; 70_reset_and_hazards.md R475), which commands write them (R83), and that INFO and DECODE
depend on the blob alone (R87).

That DECODE is a function of the blob is proved relationally, for two states with one blob. A read of
`IN` is checked against `SRC_LEN` before any byte is touched (`Source.SameBytes`), so a body that is
given the same blob and the same cursor answers the same. A unit that a band reads was written by that
band first, so the units of the two states agree from the step that writes them on; the relations
`BandsAgree`, `AfterBegin`, `AfterMask` and `AfterData` say which do at which step.
-/

namespace Sys2Proof.Machine

/-! ### Reads of `OUT` and `OUTMASK` -/

/-- A byte of the image of element `idx` (20_memory.md R73). -/
theorem hostReadOut_byte {s : State} {buf : OutBuffer} {idx j : Nat} {e : Element}
    (hvalid : s.status.outValid = true) (hout : s.out = some buf) (he : buf.elems[idx]? = some e)
    (hj : j < buf.kind.bytes) :
    hostReadOut (idx * buf.kind.bytes + j) s =
      .next { s with reply := .byte (e.byteAt buf.kind j) } := by
  have hidx : (idx * buf.kind.bytes + j) / buf.kind.bytes = idx := by
    rw [mul_comm, Nat.mul_add_div (by omega), Nat.div_eq_of_lt hj, add_zero]
  have hbyte : (idx * buf.kind.bytes + j) % buf.kind.bytes = j := by
    rw [mul_comm, Nat.mul_add_mod, Nat.mod_eq_of_lt hj]
  simp only [hostReadOut, hvalid, hout, hidx, hbyte, he]

/-- Byte `j` of the two's complement image (20_memory.md R73): the image differs from the value by a
multiple of `256 ^ bytes(kind)`, which does not reach byte `j`. -/
theorem byteAt_int (k : Kind) (v : Int) {j : Nat} (hj : j < k.bytes) :
    (((Element.int v).byteAt k j).toNat : Int) = v / 256 ^ j % 256 := by
  obtain ⟨m, hm⟩ : ∃ m, k.bytes = j + 1 + m := ⟨k.bytes - (j + 1), by omega⟩
  have hsize : ((2 ^ (8 * k.bytes) : Nat) : Int) = 256 ^ j * (256 * 256 ^ m) := by
    rw [pow_mul, hm, pow_add, pow_succ]
    push_cast
    ring
  have himage : (((Element.int v).image k : Nat) : Int) = v % (256 ^ j * (256 * 256 ^ m)) := by
    rw [Element.image, Int.toNat_of_nonneg (Int.emod_nonneg _ (by positivity)), hsize]
  have hv : v = 256 ^ j * (256 * (256 ^ m * (v / (256 ^ j * (256 * 256 ^ m))))) +
      v % (256 ^ j * (256 * 256 ^ m)) := by
    rw [← mul_assoc 256, ← mul_assoc, Int.mul_ediv_add_emod]
  rw [Element.byteAt, BitVec.toNat_ofNat, pow_mul]
  push_cast
  rw [himage]
  conv_rhs => rw [hv, Int.mul_add_ediv_left _ _ (by positivity), Int.mul_add_emod_self_left]

theorem extractLsb'_byte {w : Nat} (p : BitVec w) (j : Nat) :
    BitVec.ofNat 8 (p.toNat / 2 ^ (8 * j)) = p.extractLsb' (8 * j) 8 := by
  apply BitVec.eq_of_toNat_eq
  rw [BitVec.toNat_ofNat, BitVec.extractLsb'_toNat, Nat.shiftRight_eq_div_pow]

/-- Settles O10: the address arithmetic of `hostReadOut_byte`, then the image of each kind of element. -/
theorem outputReads : Obligations.OutputReads := by
  refine ⟨fun s buf idx j e hvalid hout he _ hj => ?_, fun s i bits b hvalid hmask hbits hb => ?_,
    fun s a hvalid => ?_, fun s i hnot => ?_⟩
  · refine ⟨_, hostReadOut_byte hvalid hout he hj, ?_⟩
    cases e with
    | int v => exact byteAt_int buf.kind v hj
    | f32 p => exact extractLsb'_byte p j
    | f64 p => exact extractLsb'_byte p j
  · simp only [hostAccess, hostReadOutMask, hvalid, hmask, Bool.and_self, hbits, hb]
  · simp only [hostAccess, hostReadOut, hvalid]
  · have hoff : (s.status.outValid && s.status.maskPresent) = false := by simpa using hnot
    simp only [hostAccess, hostReadOutMask, hoff]

/-! ### What the commands publish -/

/-- `OUT`, `OUTMASK` and their flags; the INFO registers and theirs (20_memory.md R83, 10_state.md
R41). -/
def State.published (s : State) :
    (Option OutBuffer × Option (List Bool) × Bool × Bool) × (InfoRegs × Bool) :=
  ((s.out, s.outMask, s.status.outValid, s.status.maskPresent), (s.info, s.status.infoValid))

/-- `t` publishes what `s` did. -/
def SamePublished (s t : State) : Prop := t.published = s.published

theorem samePublished_iff {s t : State} :
    SamePublished s t ↔ t.out = s.out ∧ t.outMask = s.outMask ∧
      t.status.outValid = s.status.outValid ∧ t.status.maskPresent = s.status.maskPresent ∧
      t.info = s.info ∧ t.status.infoValid = s.status.infoValid := by
  simp only [SamePublished, State.published, Prod.mk.injEq, and_assoc]

theorem samePublished_setMask (s : State) (sl : Slot) (m : BitMask) :
    SamePublished s (s.setMask sl m) := by
  cases sl <;> rfl

section Published

variable {s₀ s : State} (hs : SamePublished s₀ s)
include hs

theorem bandBeginRule_published (op : BitVec 8) (b : Nat) :
    Keeps (SamePublished s₀) s (bandBeginRule op b s) :=
  .bindFail hs fun _ _ => .bindFail hs fun _ _ => .bindFail hs fun _ _ => .bindFail hs fun _ _ =>
    .bindFail hs fun _ _ => .bindFail hs fun _ _ => .ok hs

theorem bandMaskRule_published (op : BitVec 8) :
    Keeps (SamePublished s₀) s (bandMaskRule op s) :=
  .bindFail hs fun _ _ => .bindFail hs fun _ _ => .bindFail hs fun _ _ => .bindFail hs fun _ _ =>
    .ok hs

theorem bandDataRule_published (op : BitVec 8) :
    Keeps (SamePublished s₀) s (bandDataRule op s) := by
  refine .bindFail hs fun _ _ => .bindFail hs fun h _ => .bindFail hs fun t ht => .ok ?_
  rw [orFail_eq_ok] at ht
  split at ht
  · obtain ⟨_, _, _, -, rfl⟩ := bandStuffedBody_eq_ok.1 ht
    exact hs
  · obtain ⟨_, _, _, _, _, _, _, -, -, -, -, -, rfl⟩ := bandHuffmanBody_eq_ok.1 ht
    exact hs

theorem bandDeqRule_published (op : BitVec 8) : Keeps (SamePublished s₀) s (bandDeqRule op s) :=
  .bindFail hs fun _ _ => .bindFail hs fun _ _ => .bindFail hs fun _ _ => .bindFail hs fun _ _ =>
    .bindFail hs fun _ _ => .ok hs

theorem bandEndRule_published (op : BitVec 8) : Keeps (SamePublished s₀) s (bandEndRule op s) :=
  .bindFail hs fun _ _ => .bindFail hs fun _ _ => .bindFail hs fun _ _ => .ok hs

theorem runHeader_published (op : BitVec 8) : (runHeader op s).All (SamePublished s₀) := by
  refine .andThen (Keeps.runAt (.bindFail hs fun _ _ => .ok hs) hs) fun t _ ht => ?_
  exact Keeps.runAt (.bindFail ht fun _ _ => .ok ht) ht

theorem runBand_published (b : Nat) : (runBand b s).All (SamePublished s₀) := by
  refine .andThen (.andThen (.andThen (.andThen ?_ ?_) ?_) ?_) ?_
  · exact (bandBeginRule_published hs 0x02 b).runAt hs
  · exact fun t _ ht => (bandMaskRule_published ht 0x02).runAt ht
  · exact fun t _ ht => (bandDataRule_published ht 0x02).runAt ht
  · exact fun t _ ht => (bandDeqRule_published ht 0x02).runAt ht
  · exact fun t _ ht => (bandEndRule_published ht 0x02).runAt ht

theorem runBands_published (n b : Nat) : (runBands n b s).All (SamePublished s₀) := by
  induction n generalizing b s with
  | zero => exact hs
  | succ n ih => exact (runBand_published hs b).andThen fun t _ ht => ih ht (b + 1)

end Published

/-- A rule publishes nothing where every state it succeeds with does not. -/
abbrev KeepsPublished (s : State) (r : Except Stop State) : Prop := Keeps (SamePublished s) s r

theorem KeepsPublished.bind {α : Type} {s : State} {x : Except Stop α} {f : α → Except Stop State}
    (hf : ∀ a, KeepsPublished s (f a)) : KeepsPublished s (x >>= f) :=
  Keeps.bindFail rfl fun a _ => hf a

theorem command_published {s : State} {r : Except Stop State} (h : KeepsPublished s r) :
    Leads (SamePublished s) (command s r) :=
  Run.All.complete (fun _ _ => id) (h.runAt rfl)

/-- No command but INFO, DECODE, COMMIT and SRST publishes anything. -/
theorem exec_published {i : Instr} (s : State) (hi : i ∉ [.info, .decode, .commit, .srst]) :
    Leads (SamePublished s) (exec i s) := by
  simp only [List.mem_cons, List.not_mem_nil, or_false, not_or] at hi
  obtain ⟨hinfo, hdecode, hcommit, hsrst⟩ := hi
  cases i with
  | info => exact absurd rfl hinfo
  | decode => exact absurd rfl hdecode
  | commit => exact absurd rfl hcommit
  | srst => exact absurd rfl hsrst
  | nop | brAlign | brPos | bmPopcnt _ | bmNext _ | bmLen _ => exact command_published (.ok rfl)
  | brSkip | hufLoadlen | hufBuild | hufSeg | hufRun | bsHdr | bsUnpack | bsStream =>
    exact command_published (.bind fun _ => .ok rfl)
  | brRead _ | brBytes _ | bmAnd | hufDec | hufDecf | hufDecs =>
    exact command_published (.bind fun _ => .bind fun _ => .ok rfl)
  | brInit _ | brPeek _ =>
    exact command_published (.bind fun _ => .bind fun _ => .bind fun _ => .ok rfl)
  | deqOne =>
    exact command_published (.bind fun _ => .bind fun _ => .bind fun _ => .bind fun _ => .ok rfl)
  | bmFreeze sl => exact command_published (.ok (samePublished_setMask s sl _))
  | bmNew sl _ | maskAbsent sl | maskRaw sl | maskRle sl =>
    exact command_published (.bind fun _ => .ok (samePublished_setMask s sl _))
  | bmSet sl _ | bmFill sl _ =>
    exact command_published (.bind fun _ => .bind fun _ => .ok (samePublished_setMask s sl _))
  | bmGet _ | codesGet =>
    refine command_published ?_
    split
    · exact .raise _
    · exact .ok rfl
  | bandBegin => exact command_published (bandBeginRule_published rfl _ _)
  | bandMask => exact command_published (bandMaskRule_published rfl _)
  | bandData => exact command_published (bandDataRule_published rfl _)
  | bandDeq => exact command_published (bandDeqRule_published rfl _)
  | bandEnd => exact command_published (bandEndRule_published rfl _)

theorem publishInfo_sameResult (s : State) : sameResult s.publishInfo s := by
  unfold State.publishInfo
  split <;> exact ⟨rfl, rfl, rfl, rfl⟩

/-- INFO leaves the result, and where it fails the INFO registers (45_blob_header.md R330). -/
theorem execInfo_published {s t : State} (h : execInfo s = .next t) :
    sameResult t s ∧ (t.err.code ≠ 0 → t.info = s.info) := by
  have hrun := runHeader_published (s₀ := s) rfl 0x01
  unfold execInfo at h
  generalize runHeader 0x01 s = r at h hrun
  cases r with
  | done u =>
    cases h
    obtain ⟨hout, hmask, hvalid, hpresent, -⟩ := samePublished_iff.1 hrun
    obtain ⟨hout', hmask', hvalid', hpresent'⟩ := publishInfo_sameResult u
    exact ⟨⟨hout'.trans hout, hmask'.trans hmask, hvalid'.trans hvalid, hpresent'.trans hpresent⟩,
      fun hcode => absurd rfl hcode⟩
  | stopped e u =>
    cases h
    obtain ⟨hout, hmask, hvalid, hpresent, hinfo, -⟩ := samePublished_iff.1 hrun
    exact ⟨⟨hout, hmask, hvalid, hpresent⟩, fun _ => hinfo⟩
  | fault f => cases h

theorem runAt_eq_stopped {s u : State} {r : Except Stop State} {e : EngineError}
    (h : runAt s r = .stopped e u) : u = s ∨ u = s.withPhase .failed := by
  rcases r with (e | e | f) | t
  · cases h; exact .inl rfl
  · cases h; exact .inr rfl
  · cases h
  · cases h

/-- COMMIT is the last of DECODE's steps, so a DECODE that stops has published nothing. -/
theorem runDecode_stopped_published {s u : State} {e : EngineError}
    (h : runDecode s = .stopped e u) : SamePublished s u := by
  have hbands : ((runHeader 0x02 s).andThen fun t => runBands t.bandCount 0 t).All
      (SamePublished s) :=
    (runHeader_published rfl 0x02).andThen fun t _ ht => runBands_published ht t.bandCount 0
  unfold runDecode at h
  generalize (runHeader 0x02 s).andThen _ = r at h hbands
  cases r with
  | done v => rcases runAt_eq_stopped h with rfl | rfl <;> exact hbands
  | stopped e v => cases h; exact hbands
  | fault f => cases h

/-- A DECODE that fails leaves `OUT`, `OUTMASK` and the INFO registers (47_host_commands.md R404). -/
theorem execDecode_published {s t : State} (h : execDecode s = .next t) (hcode : t.err.code ≠ 0) :
    t.out = s.out ∧ t.outMask = s.outMask ∧ t.info = s.info := by
  have hrun {e : EngineError} {u : State} := runDecode_stopped_published (s := s) (u := u) (e := e)
  unfold execDecode at h
  generalize runDecode s = r at h hrun
  cases r with
  | done u => cases h; exact absurd rfl hcode
  | stopped e u =>
    cases h
    obtain ⟨hout, hmask, -, -, hinfo, -⟩ := samePublished_iff.1 (hrun rfl)
    exact ⟨hout, hmask, hinfo⟩
  | fault f => cases h

/-- COMMIT leaves the INFO registers, and where it fails the result (46_band_decode.md R373). -/
theorem execCommit_published {s t : State} (h : execCommit s = .next t) :
    t.info = s.info ∧ t.status.infoValid = s.status.infoValid ∧
      (t.err.code ≠ 0 → t.out = s.out ∧ t.outMask = s.outMask) := by
  rcases command_eq_next.1 h with ⟨u, hu, rfl⟩ | ⟨e, -, rfl⟩ | ⟨e, -, rfl⟩
  · obtain ⟨_, _, -, -, -, -, -, -, -, -, rfl⟩ := commitRule_eq_ok.1 hu
    exact ⟨rfl, rfl, fun hcode => absurd rfl hcode⟩
  all_goals exact ⟨rfl, rfl, fun _ => ⟨rfl, rfl⟩⟩

/-- Settles O15: INFO, DECODE and COMMIT one by one, every other command by its frame. -/
theorem onlyCommitWritesOutput : Obligations.OnlyCommitWritesOutput := by
  intro i s t h hsrst
  by_cases hi : i ∈ [Instr.info, .decode, .commit]
  · simp only [List.mem_cons, List.not_mem_nil, or_false] at hi
    rcases hi with rfl | rfl | rfl
    · obtain ⟨⟨hout, hmask, hvalid, hpresent⟩, hinfo⟩ := execInfo_published h
      exact ⟨fun _ => ⟨hout, hmask⟩, fun _ _ => ⟨hvalid, hpresent⟩, by simpa using hinfo, nofun⟩
    · have hfail := execDecode_published h
      refine ⟨fun hor => ?_, nofun, fun hor => ?_, nofun⟩
      all_goals obtain ⟨hout, hmask, hinfo⟩ := hfail (by simpa using hor)
      · exact ⟨hout, hmask⟩
      · exact hinfo
    · obtain ⟨hinfo, hvalid, hfail⟩ := execCommit_published h
      exact ⟨by simpa using hfail, nofun, fun _ => hinfo, fun _ _ => hvalid⟩
  · have hsame := (exec_published s (by simpa [hsrst] using hi)).next h
    obtain ⟨hout, hmask, hvalid, hpresent, hinfo, hinfoValid⟩ := samePublished_iff.1 hsame
    exact ⟨fun _ => ⟨hout, hmask⟩, fun _ _ => ⟨hvalid, hpresent⟩, fun _ => hinfo,
      fun _ _ => hinfoValid⟩

/-! ### Reads of one blob -/

/-- Two sources of one blob: every byte before `SRC_LEN` is the same. -/
structure Source.SameBytes (src src' : Source) : Prop where
  len : src.len = src'.len
  read : ∀ a, a < src.len → src.mem.read a = src'.mem.read a

theorem sameBlob.params {s t : State} (h : sameBlob s t) : s.params = t.params := h.1

theorem sameBlob.source {s t : State} (h : sameBlob s t) : s.source.SameBytes t.source := by
  obtain ⟨-, hlen, hread⟩ := h
  exact ⟨congrArg BitVec.toNat hlen, hread⟩

namespace Source.SameBytes

variable {src src' : Source} (h : src.SameBytes src')
include h

theorem byte {a : Nat} (ha : a < src.len) : src.byte a = src'.byte a := by
  simp only [Source.byte, h.read a ha]

theorem collect {a n : Nat} (ha : n = 0 ∨ a + n ≤ src.len) : src.collect a n = src'.collect a n := by
  induction n generalizing a with
  | zero => rfl
  | succ n ih =>
    simp only [Source.collect, h.byte (show a < src.len by omega), ih (a := a + 1) (by omega)]

theorem memRead (a n : Nat) : src.memRead a n = src'.memRead a n := by
  simp only [Source.memRead, ensure_bind, ← h.len]
  split
  · next hin => exact h.collect hin
  · rfl

theorem uint (a n : Nat) : src.uint a n = src'.uint a n := by
  simp only [Source.uint, h.memRead]

theorem collectBits {lo k n : Nat} (ord : BitOrder) (hk : n = 0 ∨ lo + (k + n - 1) / 8 < src.len) :
    src.collectBits lo ord k n = src'.collectBits lo ord k n := by
  induction n generalizing k with
  | zero => rfl
  | succ n ih =>
    simp only [Source.collectBits, Source.bitAt, h.byte (show lo + k / 8 < src.len by omega),
      ih (k := k + 1) (by omega)]

theorem nextBits (br : BitReader) (n : Nat) (ord : BitOrder) :
    src.nextBits br n ord = src'.nextBits br n ord := by
  simp only [Source.nextBits, ensure_bind, ← h.len]
  split
  · next hin => exact h.collectBits ord hin
  · rfl

theorem peekBits (br : BitReader) (n : Nat) (ord : BitOrder) :
    src.peekBits br n ord = src'.peekBits br n ord := by
  simp only [Source.peekBits, h.nextBits]

theorem readBits (br : BitReader) (n : Nat) (ord : BitOrder) :
    src.readBits br n ord = src'.readBits br n ord := by
  simp only [Source.readBits, h.peekBits]

theorem readBytesLE (br : BitReader) (k : Nat) (op : BitVec 8) :
    src.readBytesLE br k op = src'.readBytesLE br k op := by
  simp only [Source.readBytesLE, h.uint]

/-! #### The header -/

theorem field32 (a : Nat) : src.field32 a = src'.field32 a := by
  simp only [Source.field32, h.uint]

theorem field64 (a : Nat) : src.field64 a = src'.field64 a := by
  simp only [Source.field64, h.uint]

theorem parseDescriptors (size n e : Nat) :
    parseDescriptors src size n e = parseDescriptors src' size n e := by
  induction n generalizing e with
  | zero => rfl
  | succ n ih =>
    simp only [Machine.parseDescriptors, parseDescriptor, h.field32, h.field64, ih]

theorem parseHeader : parseHeader src = parseHeader src' := by
  simp only [Machine.parseHeader, h.len, h.memRead, h.field32, h.field64, h.parseDescriptors]

/-! #### The band's section -/

theorem sectionChecks (kind : Kind) (off len : Nat) :
    sectionChecks src kind off len = sectionChecks src' kind off len := by
  simp only [Machine.sectionChecks, h.len, h.uint]

theorem maskRawBody (op : BitVec 8) (p : Params) (br : BitReader) (n : Nat) :
    maskRawBody op p src br n = maskRawBody op p src' br n := by
  simp only [Machine.maskRawBody, h.nextBits]

theorem rleRuns (op : BitVec 8) (fuel left : Nat) (br : BitReader) :
    rleRuns op src fuel left br = rleRuns op src' fuel left br := by
  induction fuel generalizing left br with
  | zero => rfl
  | succ fuel ih => simp only [Machine.rleRuns, h.len, h.readBytesLE, ih]

theorem maskRleBody (op : BitVec 8) (p : Params) (br : BitReader) (n : Nat) :
    maskRleBody op p src br n = maskRleBody op p src' br n := by
  simp only [Machine.maskRleBody, h.rleRuns]

theorem blockHeader (op : BitVec 8) (br : BitReader) :
    blockHeader op src br = blockHeader op src' br := by
  simp only [Machine.blockHeader, h.uint]

theorem unpackValues (ord : BitOrder) (width count : Nat) (br : BitReader) :
    unpackValues src ord width count br = unpackValues src' ord width count br := by
  induction count generalizing br with
  | zero => rfl
  | succ count ih => simp only [Machine.unpackValues, h.readBits, ih]

theorem blockCodes (p : Params) (ord : BitOrder) (bs : Stuffer) (cp : Nat) (br : BitReader) :
    blockCodes p src ord bs cp br = blockCodes p src' ord bs cp br := by
  simp only [Machine.blockCodes, h.unpackValues]

theorem streamBlocks (op : BitVec 8) (p : Params) (ord : BitOrder) (total fuel cp : Nat)
    (last : Option Stuffer) (br : BitReader) :
    streamBlocks op p src ord total fuel cp last br =
      streamBlocks op p src' ord total fuel cp last br := by
  induction fuel generalizing cp last br with
  | zero => rfl
  | succ fuel ih => simp only [Machine.streamBlocks, h.blockHeader, h.blockCodes, ih]

theorem stuffedStream (op : BitVec 8) (p : Params) (br : BitReader) (total : Nat) :
    stuffedStream op p src br total = stuffedStream op p src' br total := by
  simp only [Machine.stuffedStream, h.streamBlocks]

theorem loadLengths (op : BitVec 8) (br : BitReader) :
    loadLengths op src br = loadLengths op src' br := by
  simp only [Machine.loadLengths, h.memRead]

theorem segmentWindow (op : BitVec 8) (br : BitReader) :
    segmentWindow op src br = segmentWindow op src' br := by
  simp only [Machine.segmentWindow, h.uint]

theorem decodeFrom (entries : List HuffEntry) (fuel l : Nat) (br : BitReader) :
    decodeFrom src br entries fuel l = decodeFrom src' br entries fuel l := by
  induction fuel generalizing l with
  | zero => rfl
  | succ fuel ih => simp only [Machine.decodeFrom, h.peekBits, ih]

theorem decodeSymbols (t : HuffTables) (count : Nat) (br : BitReader) :
    decodeSymbols src t count br = decodeSymbols src' t count br := by
  induction count generalizing br with
  | zero => rfl
  | succ count ih => simp only [Machine.decodeSymbols, decodeSymbol, h.decodeFrom, ih]

theorem huffmanRun (op : BitVec 8) (p : Params) (ht : Huffman) (br : BitReader) (count : Nat) :
    huffmanRun op p src ht br count = huffmanRun op p src' ht br count := by
  simp only [Machine.huffmanRun, h.decodeSymbols]

end Source.SameBytes

/-! ### Rules that end alike -/

/-- Both rules end early in the same way, or both succeed with states that `R` relates. -/
inductive SameEnd (R : State → State → Prop) : Except Stop State → Except Stop State → Prop
  | ok {s t : State} (h : R s t) : SameEnd R (.ok s) (.ok t)
  | error (st : Stop) : SameEnd R (.error st) (.error st)

/-- Both runs end with the same error or fault, or both are done with states that `R` relates. -/
inductive Run.Agree (R : State → State → Prop) : Run → Run → Prop
  | done {s t : State} (h : R s t) : Run.Agree R (.done s) (.done t)
  | stopped (e : EngineError) (s t : State) : Run.Agree R (.stopped e s) (.stopped e t)
  | fault (f : Fault) : Run.Agree R (.fault f) (.fault f)

theorem ensure_congr {c d : Prop} [Decidable c] [Decidable d] {stop : Stop} (h : c ↔ d) :
    ensure c stop = ensure d stop := by
  simp only [ensure, h]

section Ends

variable {R Q : State → State → Prop}

/-- A part with the same answer on both sides comes first; the rest may use what it answered. -/
theorem SameEnd.bind {α : Type} {x y : Except Stop α} {f g : α → Except Stop State} (hxy : x = y)
    (h : ∀ a, y = .ok a → SameEnd R (f a) (g a)) : SameEnd R (x >>= f) (y >>= g) := by
  subst hxy
  cases x with
  | error st => exact .error st
  | ok a => exact h a rfl

theorem SameEnd.runAt {s t : State} {x y : Except Stop State} (h : SameEnd R x y) :
    (runAt s x).Agree R (runAt t y) := by
  cases h with
  | ok h => exact .done h
  | error st =>
    cases st with
    | raise e => exact .stopped e _ _
    | fail e => exact .stopped e _ _
    | fault f => exact .fault f

theorem SameEnd.orFail {x y : Except Stop State} (h : SameEnd R x y) :
    SameEnd R (orFail x) (orFail y) := by
  cases h with
  | ok h => exact .ok h
  | error st => cases st <;> exact .error _

/-- The answers of the first parts may differ within `R`. -/
theorem SameEnd.bindState {x y : Except Stop State} {f g : State → Except Stop State}
    (hxy : SameEnd R x y) (h : ∀ s t, R s t → SameEnd Q (f s) (g t)) :
    SameEnd Q (x >>= f) (y >>= g) := by
  cases hxy with
  | ok hst => exact h _ _ hst
  | error st => exact .error st

theorem Run.Agree.mono {r r' : Run} (hr : r.Agree R r') (hRQ : ∀ s t, R s t → Q s t) :
    r.Agree Q r' := by
  cases hr with
  | done h => exact .done (hRQ _ _ h)
  | stopped e s t => exact .stopped e s t
  | fault f => exact .fault f

/-- One step after another; the second may use that the first was done. -/
theorem Run.Agree.andThen {r r' : Run} {k k' : State → Run} (hr : r.Agree R r')
    (hk : ∀ s t, R s t → (k s).Agree Q (k' t)) : (r.andThen k).Agree Q (r'.andThen k') := by
  cases hr with
  | done h => exact hk _ _ h
  | stopped e s t => exact .stopped e s t
  | fault f => exact .fault f

end Ends

/-! ### The states of two decodes of one blob -/

/-- What two decodes of one blob share after every step: the blob, the orchestrator and `STAGE`. The
header has a band, so at least one band is decoded before COMMIT. -/
structure SameProgress (s t : State) : Prop where
  blob : sameBlob s t
  orc : s.orc = t.orc
  stage : s.stage = t.stage
  parsed : ∃ h, t.orc.hdr = some h ∧ 1 ≤ h.nBands.toNat

/-- Before band `b`: from band 1 on, `MS[1]` holds the mask of the bands before. -/
structure BandsAgree (b : Nat) (s t : State) : Prop extends SameProgress s t where
  ms1 : b ≠ 0 → s.ms1 = t.ms1

/-- After BAND.BEGIN has set the window. -/
structure AfterBegin (s t : State) : Prop extends SameProgress s t where
  br : s.br = t.br
  ms1 : t.orc.band ≠ 0 → s.ms1 = t.ms1

/-- After BAND.MASK has written `MS[0]`. -/
structure AfterMask (s t : State) : Prop extends AfterBegin s t where
  ms0 : s.ms0 = t.ms0

/-- After BAND.DATA has written the codes. -/
structure AfterData (s t : State) : Prop extends AfterMask s t where
  codes : s.codes = t.codes

section Steps

variable {s t : State} (op : BitVec 8)

theorem SameProgress.headerOf (h : SameProgress s t) : headerOf op s = headerOf op t := by
  simp only [Machine.headerOf, h.orc]

theorem SameProgress.bandCount (h : SameProgress s t) : s.bandCount = t.bandCount := by
  simp only [State.bandCount, h.orc]

theorem sameBlob.sourceFits (h : sameBlob s t) : sourceFits op s = sourceFits op t := by
  obtain ⟨hparams, hlen, -⟩ := h
  simp only [Machine.sourceFits, hparams, hlen]

theorem bandBeginRule_agree {b : Nat} (h : BandsAgree b s t) :
    SameEnd AfterBegin (bandBeginRule op b s) (bandBeginRule op b t) := by
  refine .bind (h.headerOf op) fun hd _ => .bind (ensure_congr (by rw [h.orc])) fun _ _ =>
    .bind (h.blob.sourceFits op) fun _ _ => .bind (ensure_congr (by rw [h.blob.params])) fun _ _ =>
    .bind rfl fun d _ => .bind (h.blob.source.sectionChecks _ _ _) fun ⟨mask, entropy⟩ _ => .ok ?_
  exact { blob := h.blob, parsed := h.parsed, br := rfl, ms1 := h.ms1
          orc := by simp only [h.orc]
          stage := by simp only [h.stage] }

theorem AfterBegin.bandMaskBody (h : AfterBegin s t) (n : Nat) :
    bandMaskBody op s n = bandMaskBody op t n := by
  simp only [Machine.bandMaskBody, h.orc, h.br, h.blob.params, h.blob.source.maskRawBody,
    h.blob.source.maskRleBody]

theorem bandMaskRule_agree (h : AfterBegin s t) :
    SameEnd AfterMask (bandMaskRule op s) (bandMaskRule op t) := by
  refine .bind (ensure_congr (by rw [h.orc])) fun _ _ => .bind (h.headerOf op) fun hd _ =>
    .bind (by rw [h.bandMaskBody]) fun ⟨m, br⟩ _ => .bind rfl fun _ _ => .ok ?_
  exact { h with br := rfl, ms0 := rfl, orc := by simp only [h.orc] }

theorem bandStuffedBody_agree (h : AfterMask s t) (count : Nat) :
    SameEnd AfterData (bandStuffedBody op s count) (bandStuffedBody op t count) := by
  refine .bind ?_ fun ⟨codes, last, br⟩ _ => .ok { h with br := rfl, codes := rfl }
  rw [h.blob.params, h.br, h.blob.source.stuffedStream]

theorem bandHuffmanBody_agree (h : AfterMask s t) (count : Nat) :
    SameEnd AfterData (bandHuffmanBody op s count) (bandHuffmanBody op t count) := by
  refine .bind (by rw [h.br, h.blob.source.loadLengths]) fun ⟨lens, br⟩ _ => .bind rfl fun tab _ =>
    .bind (h.blob.source.segmentWindow op br) fun ⟨_, br⟩ _ =>
    .bind (by rw [h.blob.params, h.blob.source.huffmanRun]) fun ⟨codes, br⟩ _ =>
    .ok { h with br := rfl, codes := rfl }

theorem bandDataRule_agree (h : AfterMask s t) :
    SameEnd AfterData (bandDataRule op s) (bandDataRule op t) := by
  refine .bind (ensure_congr (by rw [h.orc])) fun _ _ => .bind (h.headerOf op) fun hd _ =>
    .bindState (R := AfterData) (.orFail ?_) fun u v huv =>
      .ok { huv with orc := by simp [huv.orc] }
  rw [h.orc]
  cases t.orc.entropyMode with
  | bitStuffed => exact bandStuffedBody_agree op h hd.valid
  | huffman => exact bandHuffmanBody_agree op h hd.valid

theorem bandDeqRule_agree (h : AfterData s t) :
    SameEnd AfterMask (bandDeqRule op s) (bandDeqRule op t) := by
  refine .bind (ensure_congr (by rw [h.orc])) fun _ _ => .bind (h.headerOf op) fun hd _ =>
    .bind (ensure_congr (by rw [h.ms0, h.codes])) fun _ _ => .bind (by rw [h.orc]) fun d _ =>
    .bind (by rw [h.ms0, h.codes]) fun es _ => .ok ?_
  exact { h with
    orc := by simp only [h.orc]
    stage := by simp only [h.orc, h.stage] }

/-- Band 0 copies `MS[0]` to `MS[1]`; a later band reads `MS[1]`, which the bands before wrote. -/
theorem bandEndRule_agree (h : AfterMask s t) (b : Nat) :
    SameEnd (BandsAgree b) (bandEndRule op s) (bandEndRule op t) := by
  have hms1 : t.orc.band = 0 ∨ s.ms1 = t.ms1 := or_iff_not_imp_left.2 h.ms1
  refine .bind (ensure_congr (by rw [h.orc])) fun _ _ => .bind (h.headerOf op) fun hd _ =>
    .bind (ensure_congr ?_) fun _ _ => .ok ?_
  · rw [h.ms0, h.orc]
    rcases hms1 with h0 | h1
    · simp only [h0, true_or]
    · rw [h1]
  · refine { h with orc := by simp only [h.orc], ms1 := fun _ => ?_ }
    simp only [h.orc, h.ms0]
    rcases hms1 with h0 | h1
    · rw [if_pos h0, if_pos h0]
    · rw [h1]

/-- COMMIT publishes `STAGE` and `MS[1]` of a header whose bands are all merged. -/
theorem commitRule_agree {b : Nat} (hb : b ≠ 0) (h : BandsAgree b s t) :
    SameEnd (fun u v => SameProgress u v ∧ sameResult u v) (commitRule op s) (commitRule op t) := by
  have hms1 := h.ms1 hb
  refine .bind (h.headerOf op) fun hd _ => .bind (ensure_congr (by rw [h.orc, hms1])) fun _ _ =>
    .bind (ensure_congr (by rw [hms1])) fun _ _ => .bind (by rw [h.stage]) fun es _ => .ok ?_
  exact ⟨{ h.toSameProgress with }, rfl, by simp only [hms1], rfl, rfl⟩

/-! ### INFO and DECODE of one blob -/

theorem runHeader_agree (h : sameBlob s t) :
    (runHeader op s).Agree SameProgress (runHeader op t) := by
  refine Run.Agree.andThen (R := fun u v => sameBlob u v ∧ u.orc = v.orc ∧ u.stage = v.stage)
    (SameEnd.runAt (.bind (h.sourceFits op) fun _ _ => .ok ⟨h, rfl, rfl⟩)) ?_
  rintro u v ⟨hblob, horc, hstage⟩
  refine SameEnd.runAt (.bind hblob.source.parseHeader fun hd hparsed => .ok ?_)
  refine ⟨hblob, by simp [horc], hstage, hd, rfl, ?_⟩
  have hlegal := parseHeader_legal hparsed
  simp only [Header.legal, Bool.and_eq_true, decide_eq_true_eq] at hlegal
  tauto

theorem runBand_agree {b : Nat} (h : BandsAgree b s t) :
    (runBand b s).Agree (BandsAgree (b + 1)) (runBand b t) :=
  ((((bandBeginRule_agree 0x02 h).runAt.andThen
    fun _ _ h => (bandMaskRule_agree 0x02 h).runAt).andThen
    fun _ _ h => (bandDataRule_agree 0x02 h).runAt).andThen
    fun _ _ h => (bandDeqRule_agree 0x02 h).runAt).andThen
    fun _ _ h => (bandEndRule_agree 0x02 h (b + 1)).runAt

theorem runBands_agree {n b : Nat} (h : BandsAgree b s t) :
    (runBands n b s).Agree (BandsAgree (b + n)) (runBands n b t) := by
  induction n generalizing b s t with
  | zero => exact .done h
  | succ n ih =>
    refine (runBand_agree h).andThen fun u v huv => ?_
    rw [show b + (n + 1) = b + 1 + n by omega]
    exact ih huv

theorem runDecode_agree (h : sameBlob s t) :
    (runDecode s).Agree (fun u v => SameProgress u v ∧ sameResult u v) (runDecode t) := by
  refine Run.Agree.andThen (R := BandsAgree 1) ?_ fun u v huv =>
    (commitRule_agree 0x02 one_ne_zero huv).runAt
  refine (runHeader_agree 0x02 h).andThen fun u v huv => ?_
  have hbands : 0 + v.bandCount ≠ 0 := by
    obtain ⟨hd, hhd, hbands⟩ := huv.parsed
    simp only [State.bandCount, hhd]
    omega
  rw [huv.bandCount]
  exact (runBands_agree { huv with ms1 := nofun }).mono fun _ _ h =>
    { h with ms1 := fun _ => h.ms1 hbands }

theorem SameProgress.publishInfo (h : SameProgress s t) :
    s.publishInfo.info = t.publishInfo.info ∧ s.publishInfo.orc = t.publishInfo.orc ∧
      s.publishInfo.stage = t.publishInfo.stage ∧
      s.publishInfo.status.infoValid = t.publishInfo.status.infoValid := by
  obtain ⟨hd, hhd, -⟩ := h.parsed
  rw [State.publishInfo_some hhd, State.publishInfo_some (h.orc ▸ hhd)]
  exact ⟨rfl, h.orc, h.stage, rfl⟩

theorem sameResult.publishInfo (h : sameResult s t) :
    sameResult s.publishInfo t.publishInfo := by
  unfold State.publishInfo
  split <;> split <;> exact h

end Steps

theorem EngineError.code_ne_zero (e : EngineError) : e.code ≠ 0 := by
  cases e <;> simp [EngineError.code]

/-- Both commands fault alike, or both complete, in states that `P` relates. -/
inductive SameOutcome (P : State → State → Prop) :
    Host.Outcome State Fault Refusal → Host.Outcome State Fault Refusal → Prop
  | next {u v : State} (h : P u v) : SameOutcome P (.next u) (.next v)
  | fault (f : Fault) : SameOutcome P (.fault f) (.fault f)

theorem SameOutcome.fault_iff_and_next {P : State → State → Prop}
    {o o' : Host.Outcome State Fault Refusal} (h : SameOutcome P o o') :
    (∀ f, o = .fault f ↔ o' = .fault f) ∧ ∀ u, o = .next u → ∃ v, o' = .next v ∧ P u v := by
  cases h with
  | next h => simpa using h
  | fault f => simp

/-- Settles O59: the runs of the two states agree step by step, and their ends publish only what the
agreeing parts determine. -/
theorem decodeDeterministic : Obligations.DecodeDeterministic := by
  intro s t h i hi
  refine SameOutcome.fault_iff_and_next ?_
  simp only [List.mem_cons, List.not_mem_nil, or_false] at hi
  rcases hi with rfl | rfl
  · have hrun := runHeader_agree 0x01 h
    simp only [exec, execInfo]
    generalize runHeader 0x01 s = r, runHeader 0x01 t = r' at hrun ⊢
    cases hrun with
    | done h =>
      obtain ⟨hinfo, horc, hstage, hvalid⟩ := h.publishInfo
      exact .next ⟨rfl, hvalid, fun _ => ⟨hinfo, horc, hstage⟩, nofun, nofun⟩
    | stopped e u v => exact .next ⟨rfl, rfl, fun h => absurd h e.code_ne_zero, nofun, nofun⟩
    | fault f => exact .fault f
  · have hrun := runDecode_agree h
    simp only [exec, execDecode]
    generalize runDecode s = r, runDecode t = r' at hrun ⊢
    cases hrun with
    | done h =>
      obtain ⟨hprogress, hresult⟩ := h
      obtain ⟨hinfo, horc, hstage, hvalid⟩ := hprogress.publishInfo
      exact .next ⟨rfl, hvalid, fun _ => ⟨hinfo, horc, hstage⟩, fun _ _ => hresult.publishInfo,
        fun _ h => absurd rfl h⟩
    | stopped e u v =>
      exact .next ⟨rfl, rfl, fun h => absurd h e.code_ne_zero, fun _ h => absurd h e.code_ne_zero,
        fun _ _ => ⟨rfl, rfl, rfl⟩⟩
    | fault f => exact .fault f

end Sys2Proof.Machine

/-!
SUPPORT. The encoding of commands (30_encoding.md R100 to R109): the decoder, the encoder and the words
that name no command.

`decode_eq_ok` says once what the decoder accepts: a word decodes to a command exactly when its two parts
are the command's opcode and immediate, so decoding and encoding are inverse. `decode_eq_error` says why
any other word is rejected.
-/

namespace Sys2Proof.Machine

/-! ### The parts of a word -/

@[simp] theorem opcodeOf_append (op : BitVec 8) (imm : BitVec 24) :
    opcodeOf (op ++ imm : BitVec (8 + 24)) = op := BitVec.extractLsb'_append_eq_left

@[simp] theorem immOf_append (op : BitVec 8) (imm : BitVec 24) :
    immOf (op ++ imm : BitVec (8 + 24)) = imm := BitVec.extractLsb'_append_eq_right

/-- A word is its opcode and its immediate (30_encoding.md R100). -/
theorem opcodeOf_append_immOf (w : CmdWord) : (opcodeOf w ++ immOf w : BitVec (8 + 24)) = w :=
  BitVec.extractLsb'_append_extractLsb' (w := 8) (len := 24)

/-- The opcode of the word that a write of `v` to `CMD` carries (10_state.md R34). -/
theorem opcodeOf_cmdWord (v : Reg) : opcodeOf (v.extractLsb' 0 32) = v.extractLsb' 24 8 :=
  BitVec.extractLsb'_extractLsb'_of_le (by decide)

theorem immOf_cmdWord (v : Reg) : immOf (v.extractLsb' 0 32) = v.extractLsb' 0 24 :=
  BitVec.extractLsb'_extractLsb'_of_le (by decide)

/-! ### The immediate formats -/

/-- A field `y` in the low `n` bits under `m` bits that must be 0: it is accepted exactly when the whole
is `0 ++ y`. -/
theorem lowField_eq_some {m n : Nat} {α : Type} {f : BitVec n → α} {x : BitVec (m + n)} {a : α} :
    (if x.extractLsb' n m = 0#m then some (f (x.extractLsb' 0 n)) else none) = some a ↔
      ∃ y, f y = a ∧ x = 0#m ++ y := by
  constructor
  · intro h
    obtain ⟨hzero, ha⟩ := Option.ite_none_right_eq_some.1 h
    refine ⟨_, Option.some.inj ha, ?_⟩
    rw [← hzero, BitVec.extractLsb'_append_extractLsb']
  · rintro ⟨y, rfl, rfl⟩
    rw [if_pos BitVec.extractLsb'_append_eq_left, BitVec.extractLsb'_append_eq_right]

@[simp] theorem toBit_bitOrder_ofBit (b : Bool) : (BitOrder.ofBit b).toBit = b := by cases b <;> rfl

@[simp] theorem toBit_slot_ofBit (b : Bool) : (Slot.ofBit b).toBit = b := by cases b <;> rfl

theorem ofBool_getLsbD (y : BitVec 1) : BitVec.ofBool (y.getLsbD 0) = y := by decide +revert

theorem immSV_getLsbD (y : BitVec 2) :
    immSV (Slot.ofBit (y.getLsbD 0)) (y.getLsbD 1) = (0#22 ++ y : BitVec (22 + 2)) := by
  decide +revert

theorem formatF0_eq_some {i j : Instr} {imm : BitVec 24} :
    formatF0 i imm = some j ↔ i = j ∧ imm = 0#24 := by
  simp [formatF0, and_comm]

theorem formatFN6_eq_some {i : BitVec 6 → Instr} {j : Instr} {imm : BitVec 24} :
    formatFN6 i imm = some j ↔ ∃ n, i n = j ∧ imm = (0#18 ++ n : BitVec (18 + 6)) :=
  lowField_eq_some (m := 18)

theorem formatFK4_eq_some {i : BitVec 4 → Instr} {j : Instr} {imm : BitVec 24} :
    formatFK4 i imm = some j ↔ ∃ k, i k = j ∧ imm = (0#20 ++ k : BitVec (20 + 4)) :=
  lowField_eq_some (m := 20)

theorem formatFO1_eq_some {i : BitOrder → Instr} {j : Instr} {imm : BitVec 24} :
    formatFO1 i imm = some j ↔
      ∃ ord, i ord = j ∧ imm = (0#23 ++ BitVec.ofBool ord.toBit : BitVec (23 + 1)) := by
  have hlow := lowField_eq_some (m := 23) (n := 1) (x := imm) (a := j)
    (f := fun y => i (BitOrder.ofBit (y.getLsbD 0)))
  simp only [BitVec.getLsbD_extractLsb', Nat.zero_add, Nat.lt_one_iff, decide_true,
    Bool.true_and] at hlow
  refine hlow.trans ⟨?_, ?_⟩
  · rintro ⟨y, rfl, rfl⟩
    exact ⟨_, rfl, by rw [toBit_bitOrder_ofBit, ofBool_getLsbD]⟩
  · rintro ⟨ord, rfl, rfl⟩
    exact ⟨_, by cases ord <;> rfl, rfl⟩

theorem formatFS1_eq_some {i : Slot → Instr} {j : Instr} {imm : BitVec 24} :
    formatFS1 i imm = some j ↔ ∃ sl, i sl = j ∧ imm = immS sl := by
  have hlow := lowField_eq_some (m := 23) (n := 1) (x := imm) (a := j)
    (f := fun y => i (Slot.ofBit (y.getLsbD 0)))
  simp only [BitVec.getLsbD_extractLsb', Nat.zero_add, Nat.lt_one_iff, decide_true,
    Bool.true_and] at hlow
  refine hlow.trans ⟨?_, ?_⟩
  · rintro ⟨y, rfl, rfl⟩
    exact ⟨_, rfl, by rw [immS, toBit_slot_ofBit, ofBool_getLsbD]⟩
  · rintro ⟨sl, rfl, rfl⟩
    exact ⟨_, by cases sl <;> rfl, rfl⟩

theorem formatFSV2_eq_some {i : Slot → Bool → Instr} {j : Instr} {imm : BitVec 24} :
    formatFSV2 i imm = some j ↔ ∃ sl v, i sl v = j ∧ imm = immSV sl v := by
  have hlow := lowField_eq_some (m := 22) (n := 2) (x := imm) (a := j)
    (f := fun y => i (Slot.ofBit (y.getLsbD 0)) (y.getLsbD 1))
  simp only [BitVec.getLsbD_extractLsb', Nat.zero_add, Nat.zero_lt_two, Nat.one_lt_two, decide_true,
    Bool.true_and] at hlow
  refine hlow.trans ⟨?_, ?_⟩
  · rintro ⟨y, rfl, rfl⟩
    exact ⟨_, _, rfl, (immSV_getLsbD y).symm⟩
  · rintro ⟨sl, v, rfl, rfl⟩
    exact ⟨BitVec.ofBool v ++ BitVec.ofBool sl.toBit, by cases sl <;> cases v <;> rfl,
      by cases sl <;> cases v <;> rfl⟩

/-! ### The decoder -/

theorem opcodeRow_eq_ok {op : BitVec 8} {r : Option Instr} {i : Instr} :
    opcodeRow op r = .ok i ↔ r = some i := by
  cases r <;> simp [opcodeRow]

theorem opcodeRow_eq_error {op : BitVec 8} {r : Option Instr} {x : Rejection}
    (h : opcodeRow op r = .error x) : x = .illegalOperand op := by
  cases r <;> simp_all [opcodeRow]

/-- A word with a command's opcode and immediate decodes to the command, one case for each format. -/
theorem decode_of_parts {w : CmdWord} {i : Instr} (hop : opcodeOf w = i.opcode)
    (himm : immOf w = i.imm) : decode w = .ok i := by
  unfold decode
  rw [hop, himm]
  cases i with
  | brInit ord => exact opcodeRow_eq_ok.2 (formatFO1_eq_some.2 ⟨ord, rfl, rfl⟩)
  | brRead n | brPeek n => exact opcodeRow_eq_ok.2 (formatFN6_eq_some.2 ⟨n, rfl, rfl⟩)
  | brBytes k => exact opcodeRow_eq_ok.2 (formatFK4_eq_some.2 ⟨k, rfl, rfl⟩)
  | bmNew sl v | bmSet sl v | bmFill sl v =>
    exact opcodeRow_eq_ok.2 (formatFSV2_eq_some.2 ⟨sl, v, rfl, rfl⟩)
  | bmFreeze sl | bmGet sl | bmPopcnt sl | bmNext sl | bmLen sl | maskAbsent sl | maskRaw sl
  | maskRle sl => exact opcodeRow_eq_ok.2 (formatFS1_eq_some.2 ⟨sl, rfl, rfl⟩)
  | _ => exact opcodeRow_eq_ok.2 (formatF0_eq_some.2 ⟨rfl, rfl⟩)

/-- A word that decodes to a command has that command's opcode and immediate. The rows of the opcode
map are taken format by format. -/
theorem parts_of_decode {w : CmdWord} {i : Instr} (h : decode w = .ok i) :
    opcodeOf w = i.opcode ∧ immOf w = i.imm := by
  simp only [decode] at h
  split at h
  case h_42 => cases h
  case h_5 hop =>
    obtain ⟨_, rfl, himm⟩ := formatFO1_eq_some.1 (opcodeRow_eq_ok.1 h)
    exact ⟨BitVec.eq_of_toNat_eq hop, himm⟩
  case h_6 hop | h_7 hop =>
    obtain ⟨_, rfl, himm⟩ := formatFN6_eq_some.1 (opcodeRow_eq_ok.1 h)
    exact ⟨BitVec.eq_of_toNat_eq hop, himm⟩
  case h_10 hop =>
    obtain ⟨_, rfl, himm⟩ := formatFK4_eq_some.1 (opcodeRow_eq_ok.1 h)
    exact ⟨BitVec.eq_of_toNat_eq hop, himm⟩
  case h_12 hop | h_13 hop | h_14 hop =>
    obtain ⟨_, _, rfl, himm⟩ := formatFSV2_eq_some.1 (opcodeRow_eq_ok.1 h)
    exact ⟨BitVec.eq_of_toNat_eq hop, himm⟩
  case h_15 hop | h_16 hop | h_17 hop | h_18 hop | h_20 hop | h_21 hop | h_22 hop | h_23 hop =>
    obtain ⟨_, rfl, himm⟩ := formatFS1_eq_some.1 (opcodeRow_eq_ok.1 h)
    exact ⟨BitVec.eq_of_toNat_eq hop, himm⟩
  all_goals
    next hop =>
    obtain ⟨rfl, himm⟩ := formatF0_eq_some.1 (opcodeRow_eq_ok.1 h)
    exact ⟨BitVec.eq_of_toNat_eq hop, himm⟩

/-- The decoder inverts the opcode and the immediate of a command (30_encoding.md R100 to R103). -/
theorem decode_eq_ok {w : CmdWord} {i : Instr} :
    decode w = .ok i ↔ opcodeOf w = i.opcode ∧ immOf w = i.imm :=
  ⟨parts_of_decode, fun ⟨hop, himm⟩ => decode_of_parts hop himm⟩

/-- Settles O1. -/
theorem decodeEncodeAgree : Obligations.DecodeEncodeAgree := fun i _ =>
  decode_eq_ok.2 ⟨opcodeOf_append i.opcode i.imm, immOf_append i.opcode i.imm⟩

/-- Settles O2. -/
theorem encodeDecodeAgree : Obligations.EncodeDecodeAgree := by
  intro w i h
  obtain ⟨hop, himm⟩ := decode_eq_ok.1 h
  rw [encode, ← hop, ← himm, opcodeOf_append_immOf]

/-! ### Rejected words -/

/-- The opcodes of the map (30_encoding.md R103). -/
def mappedOpcodes : List Nat := opcodeMap.map Prod.fst

theorem mem_mappedOpcodes {op : Nat} {f : Format} (h : (op, f) ∈ opcodeMap) : op ∈ mappedOpcodes :=
  List.mem_map_of_mem h

theorem mappedOpcodes_eq : mappedOpcodes =
    [0x00, 0x01, 0x02, 0x0F, 0x10, 0x11, 0x12, 0x13, 0x14, 0x15, 0x16, 0x20, 0x21, 0x22, 0x23, 0x24,
     0x25, 0x26, 0x27, 0x28, 0x30, 0x31, 0x32, 0x40, 0x41, 0x42, 0x43, 0x44, 0x45, 0x46, 0x50, 0x51,
     0x52, 0x53, 0x61, 0x62, 0x63, 0x64, 0x65, 0x66, 0x67] := rfl

/-- Why a word is rejected: its immediate where the opcode is in the map, else its opcode
(30_encoding.md R104, R105). -/
theorem decode_eq_error {w : CmdWord} {x : Rejection} (h : decode w = .error x) :
    x = if (opcodeOf w).toNat ∈ mappedOpcodes then .illegalOperand (opcodeOf w)
        else .illegalCommand (opcodeOf w) := by
  simp only [decode] at h
  split at h
  case h_42 =>
    cases h
    rw [if_neg]
    simp only [mappedOpcodes_eq, List.mem_cons, List.not_mem_nil, or_false, not_or]
    tauto
  all_goals
    next hop =>
    rw [hop, if_pos (by decide)]
    exact opcodeRow_eq_error h

/-- Where every command stands in the opcode map (30_encoding.md R101, R103). -/
theorem encodesOpcode : ∀ i : Instr, Laws.EncodesOpcode.Statement i
  | .nop => Laws.EncodesOpcode.nop
  | .info => Laws.EncodesOpcode.info
  | .decode => Laws.EncodesOpcode.decode
  | .srst => Laws.EncodesOpcode.srst
  | .brInit ord => Laws.EncodesOpcode.brInit ord
  | .brRead n => Laws.EncodesOpcode.brRead n
  | .brPeek n => Laws.EncodesOpcode.brPeek n
  | .brSkip => Laws.EncodesOpcode.brSkip
  | .brAlign => Laws.EncodesOpcode.brAlign
  | .brBytes k => Laws.EncodesOpcode.brBytes k
  | .brPos => Laws.EncodesOpcode.brPos
  | .bmNew sl v => Laws.EncodesOpcode.bmNew sl v
  | .bmSet sl v => Laws.EncodesOpcode.bmSet sl v
  | .bmFill sl v => Laws.EncodesOpcode.bmFill sl v
  | .bmFreeze sl => Laws.EncodesOpcode.bmFreeze sl
  | .bmGet sl => Laws.EncodesOpcode.bmGet sl
  | .bmPopcnt sl => Laws.EncodesOpcode.bmPopcnt sl
  | .bmNext sl => Laws.EncodesOpcode.bmNext sl
  | .bmAnd => Laws.EncodesOpcode.bmAnd
  | .bmLen sl => Laws.EncodesOpcode.bmLen sl
  | .maskAbsent sl => Laws.EncodesOpcode.maskAbsent sl
  | .maskRaw sl => Laws.EncodesOpcode.maskRaw sl
  | .maskRle sl => Laws.EncodesOpcode.maskRle sl
  | .hufLoadlen => Laws.EncodesOpcode.hufLoadlen
  | .hufBuild => Laws.EncodesOpcode.hufBuild
  | .hufSeg => Laws.EncodesOpcode.hufSeg
  | .hufDec => Laws.EncodesOpcode.hufDec
  | .hufDecf => Laws.EncodesOpcode.hufDecf
  | .hufDecs => Laws.EncodesOpcode.hufDecs
  | .hufRun => Laws.EncodesOpcode.hufRun
  | .bsHdr => Laws.EncodesOpcode.bsHdr
  | .bsUnpack => Laws.EncodesOpcode.bsUnpack
  | .bsStream => Laws.EncodesOpcode.bsStream
  | .codesGet => Laws.EncodesOpcode.codesGet
  | .bandBegin => Laws.EncodesOpcode.bandBegin
  | .bandMask => Laws.EncodesOpcode.bandMask
  | .bandData => Laws.EncodesOpcode.bandData
  | .bandDeq => Laws.EncodesOpcode.bandDeq
  | .bandEnd => Laws.EncodesOpcode.bandEnd
  | .deqOne => Laws.EncodesOpcode.deqOne
  | .commit => Laws.EncodesOpcode.commit

/-- An opcode has one row in the map. -/
theorem opcodeMap_functional {op : Nat} {f g : Format} (hf : (op, f) ∈ opcodeMap)
    (hg : (op, g) ∈ opcodeMap) : f = g := by
  have hrows : ∀ r ∈ opcodeMap, ∀ q ∈ opcodeMap, r.1 = q.1 → r.2 = q.2 := by decide
  exact hrows _ hf _ hg rfl

theorem bitCountOperand_illegal (op : BitVec 8) {n : BitVec 6} (h : legalBitCount n = false) :
    bitCountOperand op n = .error (.raise (.illegalOperand op)) := by
  rw [bitCountOperand, ensure_false _ (by simp [h]), except_error_bind]

theorem byteCountOperand_illegal (op : BitVec 8) {k : BitVec 4} (h : legalByteCount k = false) :
    byteCountOperand op k = .error (.raise (.illegalOperand op)) := by
  rw [byteCountOperand, ensure_false _ (by simp [h]), except_error_bind]

/-- A command with an illegal field ends with `IllegalOperand` (30_encoding.md R105; log entry 8). -/
theorem exec_of_not_wellFormed {i : Instr} (h : i.wellFormed = false) (s : State) :
    exec i s = failsWith (.illegalOperand i.opcode) s := by
  cases i
  case brRead n =>
    show execBrRead n s = _
    rw [execBrRead, bitCountOperand_illegal _ h]
    rfl
  case brPeek n =>
    show execBrPeek n s = _
    rw [execBrPeek, bitCountOperand_illegal _ h]
    rfl
  case brBytes k =>
    show execBrBytes k s = _
    rw [execBrBytes, byteCountOperand_illegal _ h]
    rfl
  all_goals cases h

theorem hostAccess_cmd (v : Reg) (s : State) :
    hostAccess (.regWrite 0x08 8 v) s = runCommand (v.extractLsb' 0 32) s := rfl

theorem runCommand_ok {w : CmdWord} {i : Instr} (h : decode w = .ok i) (s : State) :
    runCommand w s = exec i s := by
  rw [runCommand, h]

theorem runCommand_reserved {w : CmdWord} (h : (opcodeOf w).toNat ∉ mappedOpcodes) (s : State) :
    runCommand w s = failsWith (.illegalCommand (opcodeOf w)) s := by
  cases hd : decode w with
  | ok i =>
    obtain ⟨-, -, f, hf, -⟩ := encodesOpcode i
    rw [(decode_eq_ok.1 hd).1] at h
    exact absurd (mem_mappedOpcodes hf) h
  | error x =>
    have hx := decode_eq_error hd
    rw [if_neg h] at hx
    rw [runCommand, hd, hx]
    rfl

theorem runCommand_illegalImmediate {w : CmdWord} {f : Format}
    (hrow : ((opcodeOf w).toNat, f) ∈ opcodeMap) (himm : f.legal (immOf w).toNat = false)
    (s : State) : runCommand w s = failsWith (.illegalOperand (opcodeOf w)) s := by
  cases hd : decode w with
  | ok i =>
    obtain ⟨hopc, himmc⟩ := decode_eq_ok.1 hd
    obtain ⟨-, -, g, hg, hlegal⟩ := encodesOpcode i
    rw [hopc] at hrow ⊢
    rw [himmc, opcodeMap_functional hrow hg, hlegal] at himm
    rw [runCommand_ok hd, exec_of_not_wellFormed himm]
  | error x =>
    have hx := decode_eq_error hd
    rw [if_pos (mem_mappedOpcodes hrow)] at hx
    rw [runCommand, hd, hx]
    rfl

/-- Settles O4. -/
theorem reservedOpcodeEndsCommand : Obligations.ReservedOpcodeEndsCommand := by
  rintro s v op rfl hop
  have hres : (opcodeOf (v.extractLsb' 0 32)).toNat ∉ mappedOpcodes := by
    rw [opcodeOf_cmdWord]
    simp only [mappedOpcodes_eq, List.mem_cons, List.not_mem_nil, or_false, not_or]
    omega
  rw [hostAccess_cmd, runCommand_reserved hres, opcodeOf_cmdWord, BitVec.ofNat_toNat]
  rfl

/-- Settles O5. -/
theorem illegalImmediateEndsCommand : Obligations.IllegalImmediateEndsCommand := by
  rintro s v op f hrow rfl himm
  rw [← opcodeOf_cmdWord] at hrow ⊢
  rw [← immOf_cmdWord] at himm
  rw [hostAccess_cmd, runCommand_illegalImmediate hrow himm, BitVec.ofNat_toNat]
  rfl

/-- Settles O3. -/
theorem exampleWordsDecode : Obligations.ExampleWordsDecode := by
  refine ⟨?_, ?_, ?_, ?_, ?_, ?_, ?_, ?_, ?_, ?_, ?_, fun s => ?_, fun s => ?_⟩
  case refine_12 => exact runCommand_illegalImmediate (f := .fn6) (by decide) (by decide) s
  case refine_13 => exact runCommand_reserved (by decide) s
  all_goals exact decode_eq_ok.2 ⟨rfl, rfl⟩

end Sys2Proof.Machine

/-!
SUPPORT. The blob header as bytes (30_encoding.md R110 to R112): the parser reads back the layout of every
legal header, field by field from what `IN` holds at the field's offset.
-/

namespace Sys2Proof.Machine

/-! ### Little-endian fields -/

@[simp] theorem length_leBytes (n v : Nat) : (leBytes n v).length = n := by
  induction n generalizing v with
  | zero => rfl
  | succ n ih => rw [leBytes, List.length_cons, ih]

/-- `LE` reads back a number that fits its bytes (20_memory.md R76). -/
theorem le_leBytes {n v : Nat} (h : v < 256 ^ n) : le (leBytes n v) = v := by
  induction n generalizing v with
  | zero => rw [pow_zero, Nat.lt_one_iff] at h; rw [h]; rfl
  | succ n ih =>
    have hrest : v / 256 < 256 ^ n := Nat.div_lt_of_lt_mul (by rwa [mul_comm, ← pow_succ])
    rw [leBytes, le, ih hrest, BitVec.toNat_ofNat]
    exact Nat.mod_add_div v 256

section Holds

variable {src : Source} {a : Nat}

theorem holds_append {x y : List Byte} :
    src.Holds a (x ++ y) ↔ src.Holds a x ∧ src.Holds (a + x.length) y := by
  constructor
  · intro h
    refine ⟨fun j hj => ?_, fun j hj => ?_⟩
    · rw [← List.getElem?_append_left hj]
      exact h j (by simp; omega)
    · have := h (x.length + j) (by simp; omega)
      rwa [List.getElem?_append_right (by omega), Nat.add_sub_cancel_left, ← Nat.add_assoc] at this
  · rintro ⟨hx, hy⟩ j hj
    rcases Nat.lt_or_ge j x.length with hlt | hge
    · rw [List.getElem?_append_left hlt]
      exact hx j hlt
    · rw [List.length_append] at hj
      have := hy (j - x.length) (by omega)
      rwa [List.getElem?_append_right hge, Nat.add_assoc, Nat.add_sub_cancel' hge] at *

theorem end_le_len_of_holds {bytes : List Byte} (h : src.Holds a bytes) (hne : bytes.length ≠ 0) :
    a + bytes.length ≤ src.len := by
  have := (h (bytes.length - 1) (by omega)).1
  omega

theorem memRead_of_holds {bytes : List Byte} (h : src.Holds a bytes) :
    src.memRead a bytes.length = .ok bytes := by
  refine memRead_eq_ok.2 ⟨?_, rfl, fun j b hj => ?_⟩
  · rw [or_iff_not_imp_left]
    exact end_le_len_of_holds h
  · obtain ⟨hlt, -⟩ := List.getElem?_eq_some_iff.1 hj
    rw [(h j hlt).2, hj]

theorem uint_of_holds {n v : Nat} (h : src.Holds a (leBytes n v)) (hv : v < 256 ^ n) :
    src.uint a n = .ok v := by
  have hread := memRead_of_holds h
  rw [length_leBytes] at hread
  exact uint_eq_ok.2 ⟨_, hread, le_leBytes hv⟩

theorem field32_of_holds {v : BitVec 32} (h : src.Holds a (leBytes 4 v.toNat)) :
    src.field32 a = .ok v :=
  field32_eq_ok.2 ⟨_, uint_of_holds h v.isLt, by simp⟩

theorem field64_of_holds {v : BitVec 64} (h : src.Holds a (leBytes 8 v.toNat)) :
    src.field64 a = .ok v :=
  field64_eq_ok.2 ⟨_, uint_of_holds h v.isLt, by simp⟩

/-! ### The header -/

theorem length_descriptor_layout (d : Descriptor) : d.layout.length = 24 := by
  simp [Descriptor.layout]

/-- The entries of the descriptor table stand 24 bytes apart (30_encoding.md R112). -/
theorem holds_descriptor {ds : List Descriptor} (h : src.Holds a (ds.flatMap Descriptor.layout))
    {b : Nat} {d : Descriptor} (hb : ds[b]? = some d) : src.Holds (a + 24 * b) d.layout := by
  induction ds generalizing a b with
  | nil => simp at hb
  | cons c rest ih =>
    rw [List.flatMap_cons, holds_append, length_descriptor_layout] at h
    obtain ⟨hc, hrest⟩ := h
    cases b with
    | zero =>
      cases hb
      exact hc
    | succ b =>
      rw [show a + 24 * (b + 1) = a + 24 + 24 * b by ring]
      exact ih hrest hb

/-- A legal descriptor is read from its layout (45_blob_header.md R320). -/
theorem parseDescriptor_of_holds {size : Nat} {d : Descriptor} (h : src.Holds a d.layout)
    (hl : d.legal size = true) : parseDescriptor src size a = .ok d := by
  simp only [Descriptor.layout, holds_append, List.length_append, length_leBytes] at h
  obtain ⟨⟨⟨hoff, hlen⟩, hmin⟩, hmax⟩ := h
  exact parseDescriptor_eq_ok.2 ⟨field32_of_holds hoff, field32_of_holds hlen,
    field64_of_holds hmin, field64_of_holds hmax, hl⟩

theorem parseDescriptors_of_holds {size : Nat} {ds : List Descriptor}
    (h : src.Holds a (ds.flatMap Descriptor.layout)) (hl : ds.all (Descriptor.legal size) = true) :
    parseDescriptors src size ds.length a = .ok ds := by
  refine parseDescriptors_eq_ok.2 ⟨rfl, fun b d hb => ?_⟩
  exact parseDescriptor_of_holds (holds_descriptor h hb)
    (List.all_eq_true.1 hl d (List.mem_of_getElem? hb))

@[simp] theorem length_magic : Config.magic.length = 6 := rfl

theorem length_header_layout (h : Header) : h.layout.length = 42 + 24 * h.desc.length := by
  simp only [Header.layout, List.length_append, length_magic, length_leBytes, List.length_flatMap,
    length_descriptor_layout, List.map_const', List.sum_replicate, smul_eq_mul]
  ring

/-- The parser reads a legal header back from its layout (30_encoding.md R110, 45_blob_header.md
R311). -/
theorem parseHeader_of_holds {h : Header} (hl : h.legal = true) (hh : src.Holds 0 h.layout) :
    parseHeader src = .ok h := by
  have hlegal := hl
  simp only [Header.legal, Bool.and_eq_true, beq_iff_eq] at hlegal
  obtain ⟨⟨⟨-, hsize⟩, hbands⟩, hdesc⟩ := hlegal
  have hlen : h.size ≤ src.len := by
    have hend := end_le_len_of_holds hh (by simp [Header.layout])
    rw [length_header_layout, hbands, ← hsize] at hend
    omega
  simp only [Header.layout, holds_append, List.length_append, length_leBytes, length_magic,
    Nat.zero_add, Nat.reduceAdd] at hh
  obtain ⟨⟨⟨⟨⟨⟨⟨⟨hmagic, hversion⟩, hrows⟩, hcols⟩, hnbands⟩, hkind⟩, hvalid⟩, hmaxz⟩, htable⟩ := hh
  have hcode : (BitVec.ofNat 32 h.kind.code).toNat = h.kind.code := by cases h.kind <;> rfl
  rw [← hcode] at hkind
  refine parseHeader_eq_ok.2 ⟨memRead_of_holds hmagic, field32_of_holds hversion,
    field32_of_holds hrows, field32_of_holds hcols, field32_of_holds hnbands, field32_of_holds hkind,
    field64_of_holds hvalid, field64_of_holds hmaxz, hlen, ?_, hl⟩
  rw [← hbands]
  exact parseDescriptors_of_holds htable hdesc

end Holds

/-- Settles O43: the kinds' table by evaluation, and INFO by `parseHeader_of_holds`. -/
theorem infoReadsHeaderLayout : Obligations.InfoReadsHeaderLayout := by
  refine ⟨rfl, rfl, fun s h hl hfit hh => ?_⟩
  have hrun : runHeader 0x01 s = .done (s.resetOrchestrator.withHeader h) :=
    runHeader_eq_done.2 ⟨(fitsIn_iff _ _).2 hfit, h, parseHeader_of_holds hl hh, rfl⟩
  show execInfo s = _
  rw [execInfo, hrun]
  rfl

end Sys2Proof.Machine

/-!
SUPPORT. Which opcodes write which unit (30_encoding.md R103). `UnitFrame c s t` says that `t` differs from
`s` only in units that the opcode `c` may write; a write is accounted for by the opcode's place in the
unit's list. DECODE runs the rules of other commands under its own opcode, so the rules of a band are
stated for the opcode of the command the host wrote.
-/

namespace Sys2Proof.Machine

/-! ### Which opcodes write which unit -/

/-- The commands with a result in `R0` (30_encoding.md R103). -/
def r0Writers : List (BitVec 8) :=
  [0x0F, 0x11, 0x12, 0x15, 0x16, 0x24, 0x25, 0x26, 0x28, 0x42, 0x43, 0x44, 0x45, 0x50, 0x52, 0x53,
   0x66]

/-- The commands with a result in `R1`. -/
def r1Writers : List (BitVec 8) := [0x0F, 0x16, 0x50, 0x52, 0x53]

/-- The commands that move the cursor or set the window. -/
def brWriters : List (BitVec 8) :=
  [0x02, 0x0F, 0x10, 0x11, 0x13, 0x14, 0x15, 0x31, 0x32, 0x40, 0x42, 0x43, 0x44, 0x45, 0x46, 0x50,
   0x51, 0x52, 0x61, 0x62, 0x63]

/-- The commands that set the window; any other only moves the cursor or ends the window sooner. -/
def windowWriters : List (BitVec 8) := [0x02, 0x0F, 0x10, 0x61]

/-- The commands that write `MS[0]`. -/
def ms0Writers : List (BitVec 8) := [0x02, 0x0F, 0x20, 0x21, 0x22, 0x23, 0x30, 0x31, 0x32, 0x62]

/-- The commands that write `MS[1]`. -/
def ms1Writers : List (BitVec 8) :=
  [0x02, 0x0F, 0x20, 0x21, 0x22, 0x23, 0x27, 0x30, 0x31, 0x32, 0x65]

/-- The commands that write `HT`. -/
def htWriters : List (BitVec 8) := [0x02, 0x0F, 0x40, 0x41, 0x63, 0x65]

/-- The commands that write `CODES`. -/
def codesWriters : List (BitVec 8) := [0x02, 0x0F, 0x46, 0x51, 0x52, 0x63]

/-- The commands that write `BS`. -/
def bsWriters : List (BitVec 8) := [0x02, 0x0F, 0x50, 0x51, 0x52, 0x63]

/-- The commands that write the orchestrator. -/
def orcWriters : List (BitVec 8) := [0x01, 0x02, 0x0F, 0x61, 0x62, 0x63, 0x64, 0x65, 0x67]

/-- The commands that write `STAGE`. -/
def stageWriters : List (BitVec 8) := [0x01, 0x02, 0x0F, 0x61, 0x64]

/-- `br'` reads the stream of `br` from some cursor on, to the same end or a sooner one. -/
structure BitReader.SameStream (br br' : BitReader) : Prop where
  order : br'.order = br.order
  lo : br'.lo = br.lo
  hi : br'.hi ≤ br.hi

/-- The command of opcode `c`, run at `s`, may have left `t`: every piece of unit state that is not the
opcode's to write is that of `s`. -/
structure UnitFrame (c : BitVec 8) (s t : State) : Prop where
  r0 : c ∉ r0Writers → t.r0 = s.r0
  r1 : c ∉ r1Writers → t.r1 = s.r1
  br : c ∉ brWriters → t.br = s.br
  window : c ∉ windowWriters → BitReader.SameStream s.br t.br
  ms0 : c ∉ ms0Writers → t.ms0 = s.ms0
  ms1 : c ∉ ms1Writers → t.ms1 = s.ms1
  ht : c ∉ htWriters → t.ht = s.ht
  codes : c ∉ codesWriters → t.codes = s.codes
  bs : c ∉ bsWriters → t.bs = s.bs
  orc : c ∉ orcWriters → t.orc = s.orc
  stage : c ∉ stageWriters → t.stage = s.stage

/-! ### The stream a body leaves -/

namespace BitReader.SameStream

variable {op : BitVec 8} {p : Params} {src : Source} {br br' br'' : BitReader}

theorem refl (br : BitReader) : br.SameStream br := ⟨rfl, rfl, le_rfl⟩

theorem trans (h : br.SameStream br') (h' : br'.SameStream br'') : br.SameStream br'' :=
  ⟨h'.order.trans h.order, h'.lo.trans h.lo, h'.hi.trans h.hi⟩

theorem advance (br : BitReader) (n : Nat) : br.SameStream (br.advance n) := ⟨rfl, rfl, le_rfl⟩

theorem alignUp (br : BitReader) : br.SameStream br.alignUp := ⟨rfl, rfl, le_rfl⟩

theorem of_readBits {n v : Nat} {ord : BitOrder} (h : src.readBits br n ord = .ok (v, br')) :
    br.SameStream br' := by
  obtain ⟨-, -, rfl⟩ := readBits_eq_ok.1 h
  exact advance br _

theorem of_readBytesLE {k v : Nat} (h : src.readBytesLE br k op = .ok (v, br')) :
    br.SameStream br' := by
  obtain ⟨-, -, -, rfl⟩ := readBytesLE_eq_ok.1 h
  exact advance br _

theorem of_maskRawBody {n : Nat} {m : BitMask} (h : maskRawBody op p src br n = .ok (m, br')) :
    br.SameStream br' := by
  obtain ⟨-, -, -, -, -, rfl⟩ := maskRawBody_eq_ok.1 h
  exact advance br _

theorem of_maskRleBody {n : Nat} {m : BitMask} (h : maskRleBody op p src br n = .ok (m, br')) :
    br.SameStream br' := by
  obtain ⟨-, -, hruns, -⟩ := maskRleBody_eq_ok.1 h
  obtain ⟨-, _, rfl, -, -⟩ := rleRuns_eq_ok le_rfl hruns
  exact advance br _

theorem of_loadLengths {lens : List Byte} (h : loadLengths op src br = .ok (lens, br')) :
    br.SameStream br' := by
  obtain ⟨-, -, -, rfl⟩ := loadLengths_eq_ok.1 h
  exact advance br _

/-- HUF.SEG ends the window at the segment's end, which lies inside it (43_huffman.md R247). -/
theorem of_segmentWindow {len : Nat} (h : segmentWindow op src br = .ok (len, br')) :
    br.SameStream br' := by
  obtain ⟨-, -, -, hend, rfl⟩ := segmentWindow_eq_ok.1 h
  exact ⟨rfl, rfl, hend⟩

theorem of_decodeSymbol {t : HuffTables} {sym : Byte}
    (h : decodeSymbol src br t = .ok (sym, br')) : br.SameStream br' := by
  obtain ⟨_, -, -, -, -, -, -, rfl⟩ := decodeSymbol_eq_ok h
  exact advance br _

theorem of_decodeSymbolFast {t : HuffTables} {sym : Byte}
    (h : decodeSymbolFast src br t = .ok (sym, br')) : br.SameStream br' := by
  unfold decodeSymbolFast at h
  split at h
  · cases h
    exact advance br _
  · exact of_decodeSymbol h

theorem of_decodeSymbols {t : HuffTables} {count : Nat} {codes : List Code}
    (h : decodeSymbols src t count br = .ok (codes, br')) : br.SameStream br' := by
  obtain ⟨-, _, rfl, -⟩ := decodeSymbols_eq_ok h
  exact advance br _

theorem of_huffmanRun {ht : Huffman} {count : Nat} {codes : List Code}
    (h : huffmanRun op p src ht br count = .ok (codes, br')) : br.SameStream br' := by
  obtain ⟨-, _, -, hsyms⟩ := huffmanRun_eq_ok.1 h
  exact of_decodeSymbols hsyms

theorem of_blockHeader {b : Stuffer} (h : blockHeader op src br = .ok (b, br')) :
    br.SameStream br' := by
  obtain ⟨-, -, -, -, -, -, ⟨-, -, rfl, -⟩ | ⟨-, -, rfl⟩⟩ := blockHeader_eq_ok.1 h
  · exact advance br _
  · exact advance br _

theorem of_blockCodes {ord : BitOrder} {bs : Stuffer} {cp : Nat} {codes : List Code}
    (h : blockCodes p src ord bs cp br = .ok (codes, br')) : br.SameStream br' := by
  obtain ⟨-, -, -, rfl, -⟩ := blockCodes_eq_ok h
  exact (advance br _).trans (alignUp _)

theorem of_streamBlocks {ord : BitOrder} {total fuel cp : Nat} {last last' : Option Stuffer}
    {codes : List Code}
    (h : streamBlocks op p src ord total fuel cp last br = .ok (codes, last', br')) :
    br.SameStream br' := by
  induction fuel generalizing cp last br codes with
  | zero =>
    cases h
    exact refl _
  | succ fuel ih =>
    rw [streamBlocks] at h
    split at h
    · cases h
      exact refl _
    · simp only [except_bind_ok, Prod.exists, Except.ok.injEq, Prod.mk.injEq] at h
      obtain ⟨_, _, hhdr, _, -, _, _, hcodes, _, _, _, hrest, -, rfl, rfl⟩ := h
      exact ((of_blockHeader hhdr).trans (of_blockCodes hcodes)).trans (ih hrest)

theorem of_stuffedStream {total : Nat} {last : Option Stuffer} {codes : List Code}
    (h : stuffedStream op p src br total = .ok (codes, last, br')) : br.SameStream br' := by
  simp only [stuffedStream, except_bind_ok] at h
  obtain ⟨_, -, h⟩ := h
  exact of_streamBlocks h

theorem of_bandMaskBody {s : State} {n : Nat} {m : BitMask}
    (h : bandMaskBody op s n = .ok (m, br')) : s.br.SameStream br' := by
  obtain ⟨-, -, -, _, rfl, -⟩ := bandMaskBody_eq_ok h
  exact advance s.br _

end BitReader.SameStream

/-! ### Updates inside a frame -/

namespace UnitFrame

variable {c : BitVec 8} {s t : State}

theorem refl (c : BitVec 8) (s : State) : UnitFrame c s s :=
  ⟨fun _ => rfl, fun _ => rfl, fun _ => rfl, fun _ => .refl s.br, fun _ => rfl, fun _ => rfl,
    fun _ => rfl, fun _ => rfl, fun _ => rfl, fun _ => rfl, fun _ => rfl⟩

/-- SRST may write every unit (47_host_commands.md R402). -/
theorem srst (s t : State) : UnitFrame 0x0F s t := by
  constructor <;> exact fun hc => absurd (by decide) hc

theorem setMask (h : UnitFrame c s t) (h0 : c ∈ ms0Writers) (h1 : c ∈ ms1Writers) (sl : Slot)
    (m : BitMask) : UnitFrame c s (t.setMask sl m) := by
  cases sl
  · exact { h with ms0 := absurd h0 }
  · exact { h with ms1 := absurd h1 }

theorem finish (h : UnitFrame c s t) (e : Option EngineError) : UnitFrame c s (t.finish e) :=
  { h with }

theorem publishInfo (h : UnitFrame c s t) : UnitFrame c s t.publishInfo := by
  unfold State.publishInfo
  split
  · exact { h with }
  · exact h

end UnitFrame

/-! ### The frame of the orchestrator's rules

The code `c` is that of the command the host wrote: the rule's own or DECODE. -/

section Rules

variable {c : BitVec 8} {s t : State} (op : BitVec 8) (h : UnitFrame c s t)
include h

theorem bandBeginRule_frame (b : Nat) (hc : c ∈ [0x02, 0x61]) :
    Keeps (UnitFrame c s) t (bandBeginRule op b t) := by
  have horc : c ∈ orcWriters := (by decide : [0x02, 0x61] ⊆ orcWriters) hc
  have hwindow : c ∈ windowWriters := (by decide : [0x02, 0x61] ⊆ windowWriters) hc
  have hbr : c ∈ brWriters := (by decide : [0x02, 0x61] ⊆ brWriters) hc
  have hstage : c ∈ stageWriters := (by decide : [0x02, 0x61] ⊆ stageWriters) hc
  have hfail : UnitFrame c s (t.withPhase .failed) := { h with orc := absurd horc }
  exact .bindFail hfail fun _ _ => .bindFail hfail fun _ _ => .bindFail hfail fun _ _ =>
    .bindFail hfail fun _ _ => .bindFail hfail fun _ _ => .bindFail hfail fun _ _ =>
    .ok { h with stage := absurd hstage, br := absurd hbr, window := absurd hwindow,
                 orc := absurd horc }

theorem bandMaskRule_frame (hc : c ∈ [0x02, 0x62]) :
    Keeps (UnitFrame c s) t (bandMaskRule op t) := by
  have horc : c ∈ orcWriters := (by decide : [0x02, 0x62] ⊆ orcWriters) hc
  have hbr : c ∈ brWriters := (by decide : [0x02, 0x62] ⊆ brWriters) hc
  have hms0 : c ∈ ms0Writers := (by decide : [0x02, 0x62] ⊆ ms0Writers) hc
  have hfail : UnitFrame c s (t.withPhase .failed) := { h with orc := absurd horc }
  exact .bindFail hfail fun _ _ => .bindFail hfail fun _ _ => .bindFail hfail fun ⟨_, _⟩ hbody =>
    .bindFail hfail fun _ _ => .ok { h with
      ms0 := absurd hms0
      br := absurd hbr
      window := fun hn => (h.window hn).trans (.of_bandMaskBody (orFail_eq_ok.1 hbody))
      orc := absurd horc }

theorem bandDataRule_frame (hc : c ∈ [0x02, 0x63]) :
    Keeps (UnitFrame c s) t (bandDataRule op t) := by
  have horc : c ∈ orcWriters := (by decide : [0x02, 0x63] ⊆ orcWriters) hc
  have hbr : c ∈ brWriters := (by decide : [0x02, 0x63] ⊆ brWriters) hc
  have hht : c ∈ htWriters := (by decide : [0x02, 0x63] ⊆ htWriters) hc
  have hcodes : c ∈ codesWriters := (by decide : [0x02, 0x63] ⊆ codesWriters) hc
  have hbs : c ∈ bsWriters := (by decide : [0x02, 0x63] ⊆ bsWriters) hc
  have hfail : UnitFrame c s (t.withPhase .failed) := { h with orc := absurd horc }
  refine .bindFail hfail fun _ _ => .bindFail hfail fun _ _ => .bindFail hfail fun u hu => .ok ?_
  rw [orFail_eq_ok] at hu
  split at hu
  · obtain ⟨_, _, _, hstream, rfl⟩ := bandStuffedBody_eq_ok.1 hu
    exact { h with
      codes := absurd hcodes
      bs := absurd hbs
      br := absurd hbr
      window := fun hn => (h.window hn).trans (.of_stuffedStream hstream)
      orc := absurd horc }
  · obtain ⟨_, _, _, _, _, _, _, hlens, -, hseg, -, hsyms, rfl⟩ := bandHuffmanBody_eq_ok.1 hu
    exact { h with
      codes := absurd hcodes
      ht := absurd hht
      br := absurd hbr
      window := fun hn => (((h.window hn).trans (.of_loadLengths hlens)).trans
        (.of_segmentWindow hseg)).trans (.of_decodeSymbols hsyms)
      orc := absurd horc }

theorem bandDeqRule_frame (hc : c ∈ [0x02, 0x64]) :
    Keeps (UnitFrame c s) t (bandDeqRule op t) := by
  have horc : c ∈ orcWriters := (by decide : [0x02, 0x64] ⊆ orcWriters) hc
  have hstage : c ∈ stageWriters := (by decide : [0x02, 0x64] ⊆ stageWriters) hc
  have hfail : UnitFrame c s (t.withPhase .failed) := { h with orc := absurd horc }
  exact .bindFail hfail fun _ _ => .bindFail hfail fun _ _ => .bindFail hfail fun _ _ =>
    .bindFail hfail fun _ _ => .bindFail hfail fun _ _ =>
    .ok { h with stage := absurd hstage, orc := absurd horc }

theorem bandEndRule_frame (hc : c ∈ [0x02, 0x65]) :
    Keeps (UnitFrame c s) t (bandEndRule op t) := by
  have horc : c ∈ orcWriters := (by decide : [0x02, 0x65] ⊆ orcWriters) hc
  have hms1 : c ∈ ms1Writers := (by decide : [0x02, 0x65] ⊆ ms1Writers) hc
  have hht : c ∈ htWriters := (by decide : [0x02, 0x65] ⊆ htWriters) hc
  have hfail : UnitFrame c s (t.withPhase .failed) := { h with orc := absurd horc }
  exact .bindFail hfail fun _ _ => .bindFail hfail fun _ _ => .bindFail hfail fun _ _ =>
    .ok { h with ms1 := absurd hms1, ht := absurd hht, orc := absurd horc }

theorem commitRule_frame (hc : c ∈ [0x02, 0x67]) :
    Keeps (UnitFrame c s) t (commitRule op t) := by
  have horc : c ∈ orcWriters := (by decide : [0x02, 0x67] ⊆ orcWriters) hc
  have hfail : UnitFrame c s (t.withPhase .failed) := { h with orc := absurd horc }
  exact .bindFail hfail fun _ _ => .bindFail hfail fun _ _ => .bindFail hfail fun _ _ =>
    .bindFail hfail fun _ _ => .ok { h with }

theorem resetOrchestrator_frame (hc : c ∈ [0x01, 0x02]) : UnitFrame c s t.resetOrchestrator :=
  { h with orc := absurd ((by decide : [0x01, 0x02] ⊆ orcWriters) hc)
           stage := absurd ((by decide : [0x01, 0x02] ⊆ stageWriters) hc) }

theorem withHeader_frame (hc : c ∈ [0x01, 0x02]) (hdr : Header) : UnitFrame c s (t.withHeader hdr) :=
  { h with orc := absurd ((by decide : [0x01, 0x02] ⊆ orcWriters) hc) }

end Rules

/-! ### The frame of every command -/

/-- INFO up to the parsed header writes only the orchestrator and `STAGE` (45_blob_header.md R330). -/
theorem runHeader_frame (s : State) : (runHeader 0x01 s).All (UnitFrame 0x01 s) := by
  have hs := UnitFrame.refl 0x01 s
  refine .andThen (Keeps.runAt (.bind (.ensure _ _) fun _ _ => .ok ?_) hs) fun t _ ht => ?_
  · exact resetOrchestrator_frame hs (by decide)
  · exact Keeps.runAt (.bind (noFail_parseHeader _) fun _ _ =>
      .ok (withHeader_frame ht (by decide) _)) ht

theorem execInfo_frame (s : State) : Leads (UnitFrame 0x01 s) (execInfo s) := by
  refine Run.All.complete (fun _ e ht => ht.finish e) ?_
  have hrun := runHeader_frame s
  split
  · next t hr => rw [hr] at hrun; exact UnitFrame.publishInfo hrun
  · next e t hr => rw [hr] at hrun; exact { hrun with }
  · trivial

/-- Every rule that DECODE runs stays inside DECODE's frame (47_host_commands.md R404). -/
theorem decode_frame_keptByRules (s : State) : KeptByRules (UnitFrame 0x02 s) where
  finish _ e h := h.finish e
  resetOrchestrator _ h := resetOrchestrator_frame h (by decide)
  withHeader _ hdr h _ := withHeader_frame h (by decide) hdr
  bandBegin op b _ h := bandBeginRule_frame op h b (by decide)
  bandMask op _ h := bandMaskRule_frame op h (by decide)
  bandData op _ h := bandDataRule_frame op h (by decide)
  bandDeq op _ h := bandDeqRule_frame op h (by decide)
  bandEnd op _ h := bandEndRule_frame op h (by decide)
  commit op _ h := commitRule_frame op h (by decide)
  publishInfo _ h := h.publishInfo
  withInfoValid _ h := { h with }
  clearResultFlags _ h := { h with }

theorem command_frame {c : BitVec 8} {s : State} {r : Except Stop State}
    (h : Keeps (UnitFrame c s) s r) : Leads (UnitFrame c s) (command s r) :=
  (h.runAt (.refl c s)).complete fun _ e ht => ht.finish e

theorem execBrInit_frame (ord : BitOrder) (s : State) :
    Leads (UnitFrame 0x10 s) (execBrInit ord s) :=
  command_frame (.bind (.ensure _ _) fun _ _ => .bind (.ensure _ _) fun _ _ =>
    .bind (.ensure _ _) fun _ _ => .ok { UnitFrame.refl _ s with
      br := absurd (by decide), window := absurd (by decide) })

theorem execBrRead_frame (n : BitVec 6) (s : State) : Leads (UnitFrame 0x11 s) (execBrRead n s) :=
  command_frame (.bind (noFail_bitCountOperand _ _) fun _ _ =>
    .bind (noFail_readBits _ _ _ _) fun ⟨_, _⟩ hread => .ok { UnitFrame.refl _ s with
      r0 := absurd (by decide), br := absurd (by decide), window := fun _ => .of_readBits hread })

theorem execBrPeek_frame (n : BitVec 6) (s : State) : Leads (UnitFrame 0x12 s) (execBrPeek n s) :=
  command_frame (.bind (noFail_bitCountOperand _ _) fun _ _ => .bind (.ensure _ _) fun _ _ =>
    .bind (noFail_peekBits _ _ _ _) fun _ _ => .ok { UnitFrame.refl _ s with
      r0 := absurd (by decide) })

theorem execBrSkip_frame (s : State) : Leads (UnitFrame 0x13 s) (execBrSkip s) :=
  command_frame (.bind (.ensure _ _) fun _ _ => .ok { UnitFrame.refl _ s with
    br := absurd (by decide), window := fun _ => .advance s.br _ })

theorem execBrAlign_frame (s : State) : Leads (UnitFrame 0x14 s) (execBrAlign s) :=
  command_frame (.ok { UnitFrame.refl _ s with
    br := absurd (by decide), window := fun _ => .alignUp s.br })

theorem execBrBytes_frame (k : BitVec 4) (s : State) : Leads (UnitFrame 0x15 s) (execBrBytes k s) :=
  command_frame (.bind (noFail_byteCountOperand _ _) fun _ _ =>
    .bind (noFail_readBytesLE _ _ _ _) fun ⟨_, _⟩ hread => .ok { UnitFrame.refl _ s with
      r0 := absurd (by decide), br := absurd (by decide)
      window := fun _ => .of_readBytesLE hread })

theorem execBrPos_frame (s : State) : Leads (UnitFrame 0x16 s) (execBrPos s) :=
  command_frame (.ok { UnitFrame.refl _ s with
    r0 := absurd (by decide), r1 := absurd (by decide) })

theorem execBmNew_frame (sl : Slot) (v : Bool) (s : State) :
    Leads (UnitFrame 0x20 s) (execBmNew sl v s) :=
  command_frame (.bind (.ensure _ _) fun _ _ =>
    .ok (.setMask (.refl _ s) (by decide) (by decide) sl _))

theorem execBmSet_frame (sl : Slot) (v : Bool) (s : State) :
    Leads (UnitFrame 0x21 s) (execBmSet sl v s) :=
  command_frame (.bind (.ensure _ _) fun _ _ => .bind (.ensure _ _) fun _ _ =>
    .ok (.setMask (.refl _ s) (by decide) (by decide) sl _))

theorem execBmFill_frame (sl : Slot) (v : Bool) (s : State) :
    Leads (UnitFrame 0x22 s) (execBmFill sl v s) :=
  command_frame (.bind (.ensure _ _) fun _ _ => .bind (.ensure _ _) fun _ _ =>
    .ok (.setMask (.refl _ s) (by decide) (by decide) sl _))

theorem execBmFreeze_frame (sl : Slot) (s : State) : Leads (UnitFrame 0x23 s) (execBmFreeze sl s) :=
  command_frame (.ok (.setMask (.refl _ s) (by decide) (by decide) sl _))

theorem execBmGet_frame (sl : Slot) (s : State) : Leads (UnitFrame 0x24 s) (execBmGet sl s) := by
  refine command_frame ?_
  split
  · exact .raise _
  · exact .ok { UnitFrame.refl _ s with r0 := absurd (by decide) }

theorem execBmPopcnt_frame (sl : Slot) (s : State) : Leads (UnitFrame 0x25 s) (execBmPopcnt sl s) :=
  command_frame (.ok { UnitFrame.refl _ s with r0 := absurd (by decide) })

theorem execBmNext_frame (sl : Slot) (s : State) : Leads (UnitFrame 0x26 s) (execBmNext sl s) :=
  command_frame (.ok { UnitFrame.refl _ s with r0 := absurd (by decide) })

theorem execBmAnd_frame (s : State) : Leads (UnitFrame 0x27 s) (execBmAnd s) :=
  command_frame (.bind (.ensure _ _) fun _ _ => .bind (.ensure _ _) fun _ _ =>
    .ok { UnitFrame.refl _ s with ms1 := absurd (by decide) })

theorem execBmLen_frame (sl : Slot) (s : State) : Leads (UnitFrame 0x28 s) (execBmLen sl s) :=
  command_frame (.ok { UnitFrame.refl _ s with r0 := absurd (by decide) })

theorem execMaskAbsent_frame (sl : Slot) (s : State) :
    Leads (UnitFrame 0x30 s) (execMaskAbsent sl s) :=
  command_frame (.bind (noFail_maskAbsentBody _ _) fun _ _ =>
    .ok (.setMask (.refl _ s) (by decide) (by decide) sl _))

theorem execMaskRaw_frame (sl : Slot) (s : State) : Leads (UnitFrame 0x31 s) (execMaskRaw sl s) :=
  command_frame (.bind (noFail_maskRawBody _ _ _ _ _) fun ⟨m, _⟩ hbody =>
    .ok { UnitFrame.setMask (.refl _ s) (by decide) (by decide) sl m with
      br := absurd (by decide), window := fun _ => .of_maskRawBody hbody })

theorem execMaskRle_frame (sl : Slot) (s : State) : Leads (UnitFrame 0x32 s) (execMaskRle sl s) :=
  command_frame (.bind (noFail_maskRleBody _ _ _ _ _) fun ⟨m, _⟩ hbody =>
    .ok { UnitFrame.setMask (.refl _ s) (by decide) (by decide) sl m with
      br := absurd (by decide), window := fun _ => .of_maskRleBody hbody })

theorem execHufLoadlen_frame (s : State) : Leads (UnitFrame 0x40 s) (execHufLoadlen s) :=
  command_frame (.bind (noFail_loadLengths _ _ _) fun ⟨_, _⟩ hbody =>
    .ok { UnitFrame.refl _ s with
      ht := absurd (by decide), br := absurd (by decide)
      window := fun _ => .of_loadLengths hbody })

theorem execHufBuild_frame (s : State) : Leads (UnitFrame 0x41 s) (execHufBuild s) :=
  command_frame (.bind (noFail_buildTables _) fun _ _ =>
    .ok { UnitFrame.refl _ s with ht := absurd (by decide) })

theorem execHufSeg_frame (s : State) : Leads (UnitFrame 0x42 s) (execHufSeg s) :=
  command_frame (.bind (noFail_segmentWindow _ _ _) fun ⟨_, _⟩ hbody =>
    .ok { UnitFrame.refl _ s with
      r0 := absurd (by decide), br := absurd (by decide)
      window := fun _ => .of_segmentWindow hbody })

theorem execHufDec_frame (s : State) : Leads (UnitFrame 0x43 s) (execHufDec s) :=
  command_frame (.bind (noFail_builtTables _ _) fun _ _ =>
    .bind (noFail_decodeSymbol _ _ _) fun ⟨_, _⟩ hsym => .ok { UnitFrame.refl _ s with
      r0 := absurd (by decide), br := absurd (by decide)
      window := fun _ => .of_decodeSymbol hsym })

theorem execHufDecf_frame (s : State) : Leads (UnitFrame 0x44 s) (execHufDecf s) :=
  command_frame (.bind (noFail_builtTables _ _) fun _ _ =>
    .bind (noFail_decodeSymbolFast _ _ _) fun ⟨_, _⟩ hsym => .ok { UnitFrame.refl _ s with
      r0 := absurd (by decide), br := absurd (by decide)
      window := fun _ => .of_decodeSymbolFast hsym })

theorem execHufDecs_frame (s : State) : Leads (UnitFrame 0x45 s) (execHufDecs s) :=
  command_frame (.bind (noFail_builtTables _ _) fun _ _ =>
    .bind (noFail_decodeSymbol _ _ _) fun ⟨_, _⟩ hsym => .ok { UnitFrame.refl _ s with
      r0 := absurd (by decide), br := absurd (by decide)
      window := fun _ => .of_decodeSymbol hsym })

theorem execHufRun_frame (s : State) : Leads (UnitFrame 0x46 s) (execHufRun s) :=
  command_frame (.bind (noFail_huffmanRun _ _ _ _ _ _) fun ⟨_, _⟩ hrun =>
    .ok { UnitFrame.refl _ s with
      codes := absurd (by decide), br := absurd (by decide)
      window := fun _ => .of_huffmanRun hrun })

theorem execBsHdr_frame (s : State) : Leads (UnitFrame 0x50 s) (execBsHdr s) :=
  command_frame (.bind (noFail_blockHeader _ _ _) fun ⟨_, _⟩ hhdr =>
    .ok { UnitFrame.refl _ s with
      r0 := absurd (by decide), r1 := absurd (by decide), bs := absurd (by decide)
      br := absurd (by decide), window := fun _ => .of_blockHeader hhdr })

theorem execBsUnpack_frame (s : State) : Leads (UnitFrame 0x51 s) (execBsUnpack s) :=
  command_frame (.bind (noFail_blockCodes _ _ _ _ _ _) fun ⟨_, _⟩ hcodes =>
    .ok { UnitFrame.refl _ s with
      codes := absurd (by decide), bs := absurd (by decide), br := absurd (by decide)
      window := fun _ => .of_blockCodes hcodes })

theorem execBsStream_frame (s : State) : Leads (UnitFrame 0x52 s) (execBsStream s) :=
  command_frame (.bind (noFail_stuffedStream _ _ _ _ _) fun ⟨_, _, _⟩ hstream =>
    .ok { UnitFrame.refl _ s with
      r0 := absurd (by decide), r1 := absurd (by decide), codes := absurd (by decide)
      bs := absurd (by decide), br := absurd (by decide)
      window := fun _ => .of_stuffedStream hstream })

theorem execCodesGet_frame (s : State) : Leads (UnitFrame 0x53 s) (execCodesGet s) := by
  refine command_frame ?_
  split
  · exact .raise _
  · exact .ok { UnitFrame.refl _ s with r0 := absurd (by decide), r1 := absurd (by decide) }

theorem execDeqOne_frame (s : State) : Leads (UnitFrame 0x66 s) (execDeqOne s) :=
  command_frame (.bind (noFail_headerOf _ _) fun _ _ => .bind (.ensure _ _) fun _ _ =>
    .bind (noFail_descriptorOf _ _) fun _ _ => .bind (noFail_dequantize _ _ _) fun _ _ =>
    .ok { UnitFrame.refl _ s with r0 := absurd (by decide) })

/-- A command writes only the units that its opcode may write (30_encoding.md R103). -/
theorem exec_frame (i : Instr) (s : State) : Leads (UnitFrame i.opcode s) (exec i s) := by
  cases i with
  | nop => exact command_frame (.ok (.refl _ s))
  | info => exact execInfo_frame s
  | decode => exact (decode_frame_keptByRules s).execDecode_leads (.refl _ s)
  | srst => exact command_frame (.ok (.srst s _))
  | brInit ord => exact execBrInit_frame ord s
  | brRead n => exact execBrRead_frame n s
  | brPeek n => exact execBrPeek_frame n s
  | brSkip => exact execBrSkip_frame s
  | brAlign => exact execBrAlign_frame s
  | brBytes k => exact execBrBytes_frame k s
  | brPos => exact execBrPos_frame s
  | bmNew sl v => exact execBmNew_frame sl v s
  | bmSet sl v => exact execBmSet_frame sl v s
  | bmFill sl v => exact execBmFill_frame sl v s
  | bmFreeze sl => exact execBmFreeze_frame sl s
  | bmGet sl => exact execBmGet_frame sl s
  | bmPopcnt sl => exact execBmPopcnt_frame sl s
  | bmNext sl => exact execBmNext_frame sl s
  | bmAnd => exact execBmAnd_frame s
  | bmLen sl => exact execBmLen_frame sl s
  | maskAbsent sl => exact execMaskAbsent_frame sl s
  | maskRaw sl => exact execMaskRaw_frame sl s
  | maskRle sl => exact execMaskRle_frame sl s
  | hufLoadlen => exact execHufLoadlen_frame s
  | hufBuild => exact execHufBuild_frame s
  | hufSeg => exact execHufSeg_frame s
  | hufDec => exact execHufDec_frame s
  | hufDecf => exact execHufDecf_frame s
  | hufDecs => exact execHufDecs_frame s
  | hufRun => exact execHufRun_frame s
  | bsHdr => exact execBsHdr_frame s
  | bsUnpack => exact execBsUnpack_frame s
  | bsStream => exact execBsStream_frame s
  | codesGet => exact execCodesGet_frame s
  | bandBegin => exact command_frame (bandBeginRule_frame _ (.refl _ s) _ (by decide))
  | bandMask => exact command_frame (bandMaskRule_frame _ (.refl _ s) (by decide))
  | bandData => exact command_frame (bandDataRule_frame _ (.refl _ s) (by decide))
  | bandDeq => exact command_frame (bandDeqRule_frame _ (.refl _ s) (by decide))
  | bandEnd => exact command_frame (bandEndRule_frame _ (.refl _ s) (by decide))
  | deqOne => exact execDeqOne_frame s
  | commit => exact command_frame (commitRule_frame _ (.refl _ s) (by decide))

/-- Settles O16: the frame of the command's opcode, list by list. -/
theorem unitStateFrame : Obligations.UnitStateFrame := by
  intro i s t h
  have hf := (exec_frame i s).next h
  exact ⟨hf.r0, hf.r1, hf.br, fun hn => ⟨(hf.window hn).order, (hf.window hn).lo, (hf.window hn).hi⟩,
    hf.ms0, hf.ms1, hf.ht, hf.codes, hf.bs, hf.orc, hf.stage⟩

end Sys2Proof.Machine

/-!
SUPPORT. The BitReader's commands, path by path (40_bitreader.md R150 to R162): the checks of a rule
in their order, and the value of the bits and bytes that a read takes, as sums of weights.
-/

namespace Sys2Proof.Machine

/-! ### Checks in order -/

section Checks

variable {s : State} {o : Host.Outcome State Fault Refusal}

/-- A command whose first check is `c`: where `c` does not hold (`d`), its error and no effect. -/
theorem command_ensure {c d : Prop} [Decidable c] [Decidable d] {e : EngineError}
    {f : Unit → Except Stop State} (hd : d ↔ ¬c) (hrest : c → command s (f ()) = o) :
    command s (ensure c (.raise e) >>= f) = if d then failsWith e s else o := by
  by_cases hc : c
  · rw [ensure_true _ hc, if_neg (by rwa [hd, not_not]), except_ok_bind, hrest hc]
  · rw [ensure_false _ hc, if_pos (hd.2 hc)]
    rfl

/-- The check of an FN6 operand (30_encoding.md R105). -/
theorem command_bitCountOperand {op : BitVec 8} {n : BitVec 6} {f : Nat → Except Stop State}
    (hrest : n.toNat ≤ 32 → command s (f n.toNat) = o) :
    command s (bitCountOperand op n >>= f) =
      if 32 < n.toNat then failsWith (.illegalOperand op) s else o := by
  have hlegal : legalBitCount n = true ↔ n.toNat ≤ 32 := decide_eq_true_iff
  rw [bitCountOperand, bind_assoc]
  exact command_ensure (by rw [hlegal, not_le]) fun h => hrest (hlegal.1 h)

/-- The check of an FK4 operand (30_encoding.md R105). -/
theorem command_byteCountOperand {op : BitVec 8} {k : BitVec 4} {f : Nat → Except Stop State}
    (hrest : k = 1 ∨ k = 2 ∨ k = 4 ∨ k = 8 → command s (f k.toNat) = o) :
    command s (byteCountOperand op k >>= f) =
      if ¬ (k = 1 ∨ k = 2 ∨ k = 4 ∨ k = 8) then failsWith (.illegalOperand op) s else o := by
  have hlegal : legalByteCount k = true ↔ k = 1 ∨ k = 2 ∨ k = 4 ∨ k = 8 := by
    simp [legalByteCount, or_assoc]
  rw [byteCountOperand, bind_assoc]
  exact command_ensure (by rw [hlegal]) fun h => hrest (hlegal.1 h)

end Checks

/-! ### Values as sums of weights -/

/-- The first bit weighs most (40_bitreader.md R152). -/
theorem msbValue_eq_sum (bits : List Bool) :
    msbValue bits = ∑ j ∈ Finset.range bits.length,
      (bits.getD j false).toNat * 2 ^ (bits.length - 1 - j) := by
  have hfold : ∀ (l : List Bool) (v : Nat),
      l.foldl (fun v b => 2 * v + b.toNat) v = v * 2 ^ l.length +
        ∑ j ∈ Finset.range l.length, (l.getD j false).toNat * 2 ^ (l.length - 1 - j) := by
    intro l
    induction l with
    | nil => simp
    | cons b rest ih =>
      intro v
      rw [List.foldl_cons, ih, List.length_cons, Finset.sum_range_succ']
      simp only [List.getD_cons_zero, List.getD_cons_succ, Nat.add_sub_cancel, Nat.sub_sub,
        Nat.add_comm 1, Nat.sub_zero]
      ring
  simpa [msbValue] using hfold bits 0

/-- The first bit weighs least (40_bitreader.md R153). -/
theorem lsbValue_eq_sum (bits : List Bool) :
    lsbValue bits = ∑ j ∈ Finset.range bits.length, (bits.getD j false).toNat * 2 ^ j := by
  induction bits with
  | nil => rfl
  | cons b rest ih =>
    rw [lsbValue, ih, List.length_cons, Finset.sum_range_succ', Finset.mul_sum]
    simp only [List.getD_cons_zero, List.getD_cons_succ, pow_zero, mul_one]
    rw [add_comm]
    congr 1
    exact Finset.sum_congr rfl fun j _ => by ring

/-- The first byte weighs least (00_scope.md R15). -/
theorem le_eq_sum (bytes : List Byte) :
    le bytes = ∑ j ∈ Finset.range bytes.length, (bytes.getD j 0).toNat * 256 ^ j := by
  induction bytes with
  | nil => rfl
  | cons b rest ih =>
    rw [le, ih, List.length_cons, Finset.sum_range_succ', Finset.mul_sum]
    simp only [List.getD_cons_zero, List.getD_cons_succ, pow_zero, mul_one]
    rw [add_comm]
    congr 1
    exact Finset.sum_congr rfl fun j _ => by ring

/-! ### Reads inside the blob -/

section Reads

variable {src : Source} {br : BitReader}

/-- The formulas of 40_bitreader.md R151 pick the bit that the engine picks. -/
theorem streamBit_of_read {lo k : Nat} {b : Byte} (ord : BitOrder)
    (h : src.mem.read (lo + k / 8) = some b) :
    src.streamBit lo k ord = (bitOfByte b k ord).toNat := by
  have hbit (i : Nat) : b.toNat / 2 ^ i % 2 = (b.getLsbD i).toNat := by
    rw [BitVec.getLsbD, Nat.toNat_testBit]
  cases ord <;> simp only [Source.streamBit, h, bitOfByte, hbit]

/-- The next `n` stream bits as the formulas of 40_bitreader.md R151 give them. -/
def Source.streamBits (src : Source) (br : BitReader) (n : Nat) (ord : BitOrder) : List Bool :=
  (List.range n).map fun j => decide (src.streamBit br.lo (br.pos + j) ord = 1)

@[simp] theorem length_streamBits (n : Nat) (ord : BitOrder) :
    (src.streamBits br n ord).length = n := by simp [Source.streamBits]

theorem streamBit_lt_two (lo k : Nat) (ord : BitOrder) : src.streamBit lo k ord < 2 := by
  unfold Source.streamBit
  split
  · cases ord <;> exact Nat.mod_lt _ two_pos
  · exact two_pos

theorem toNat_getD_streamBits {n j : Nat} (ord : BitOrder) (hj : j < n) :
    ((src.streamBits br n ord).getD j false).toNat = src.streamBit br.lo (br.pos + j) ord := by
  have hlt := streamBit_lt_two (src := src) br.lo (br.pos + j) ord
  have hget : (src.streamBits br n ord).getD j false =
      decide (src.streamBit br.lo (br.pos + j) ord = 1) := by simp [Source.streamBits, hj]
  rw [hget, Bool.toNat, Bool.cond_decide]
  split
  · next h1 => exact h1.symm
  · omega

/-- Readable bits are read, each as its stream bit. -/
theorem nextBits_of_readable {n : Nat} (ord : BitOrder) (h : src.BitsReadable br n) :
    src.nextBits br n ord = .ok (src.streamBits br n ord) := by
  refine nextBits_eq_ok.2 ⟨?_, length_streamBits n ord, fun j c hc => ?_⟩
  · rcases Nat.eq_zero_or_pos n with h0 | hpos
    · exact .inl h0
    · have := (h (n - 1) (by omega)).1
      exact .inr (by rwa [Nat.add_sub_assoc hpos])
  · have hj : j < n := by simpa using (List.getElem?_eq_some_iff.1 hc).1
    obtain ⟨b, hb⟩ := Option.isSome_iff_exists.1 (h j hj).2
    refine ⟨b, hb, ?_⟩
    simpa [Source.streamBits, hj, streamBit_of_read ord hb] using hc

/-- Readable bits have the value of 40_bitreader.md R152 and R153. -/
theorem peekBits_of_readable {n : Nat} (ord : BitOrder) (h : src.BitsReadable br n) :
    src.peekBits br n ord = .ok (src.streamValue br n ord) := by
  refine peekBits_eq_ok.2 ⟨_, nextBits_of_readable ord h, ?_⟩
  have hbit {j : Nat} (hj : j ∈ Finset.range n) := toNat_getD_streamBits (src := src) (br := br)
    ord (Finset.mem_range.1 hj)
  cases ord with
  | msb =>
    rw [bitsValue, msbValue_eq_sum, length_streamBits]
    exact Finset.sum_congr rfl fun j hj => by rw [hbit hj]
  | lsb =>
    rw [bitsValue, lsbValue_eq_sum, length_streamBits]
    exact Finset.sum_congr rfl fun j hj => by rw [hbit hj]

/-- At most 32 bits fit a result register. -/
theorem toReg_streamValue {n : Nat} (ord : BitOrder) (h : src.BitsReadable br n) (hn : n ≤ 32) :
    toReg (src.streamValue br n ord) = BitVec.ofNat 64 (src.streamValue br n ord) :=
  toReg_of_lt ((peekBits_lt (peekBits_of_readable ord h)).trans_le
    (Nat.pow_le_pow_right (by norm_num) (by omega)))

/-- The value of the bytes that the blob holds (00_scope.md R15). -/
theorem uint_eq_le_of_holds {a : Nat} {bytes : List Byte} (h : src.Holds a bytes) :
    src.uint a bytes.length = .ok (le bytes) := uint_eq_ok.2 ⟨bytes, memRead_of_holds h, rfl⟩

/-- At most eight bytes fit a result register. -/
theorem toReg_le {bytes : List Byte} (h : bytes.length ≤ 8) :
    toReg (le bytes) = BitVec.ofNat 64 (le bytes) :=
  toReg_of_lt ((le_lt bytes).trans_le (Nat.pow_le_pow_right (n := 256) (by norm_num) h))

end Reads

/-! ### The commands -/

/-- Settles O21: the three checks in order. -/
theorem brInitCases : Obligations.BrInitCases := by
  intro s ord
  exact command_ensure (by rw [fitsIn_iff, not_le]) fun _ => command_ensure not_le.symm fun _ =>
    command_ensure not_le.symm fun _ => rfl

/-- Settles O22: the checks in order, then the value by `peekBits_of_readable`. -/
theorem brReadPeekValue : Obligations.BrReadPeekValue := by
  intro s n hread
  refine ⟨command_bitCountOperand fun hn => ?_, command_bitCountOperand fun hn => ?_⟩
  · rw [Source.readBits, bind_assoc]
    refine command_ensure not_le.symm fun hrem => ?_
    have hbits := hread hn hrem
    rw [peekBits_of_readable _ hbits, ← toReg_streamValue _ hbits hn]
    rfl
  · refine command_ensure not_le.symm fun hrem => ?_
    have hbits := hread hn hrem
    rw [peekBits_of_readable _ hbits, ← toReg_streamValue _ hbits hn]
    rfl

/-- Settles O23: BR.ALIGN's cursor is `8 * ceil8 pos`. -/
theorem brCursorCommands : Obligations.BrCursorCommands := by
  intro s
  refine ⟨command_ensure not_le.symm fun _ => rfl, ?_, ?_⟩
  · refine ⟨8 * ceil8 s.br.pos, rfl, ?_⟩
    unfold ceil8
    omega
  · exact ⟨toReg s.br.pos, toReg s.br.rem, rfl, toReg_toNat, toReg_toNat⟩

/-- Settles O24: the checks in order, then the value by `uint_eq_le_of_holds`. -/
theorem brBytesValue : Obligations.BrBytesValue := by
  intro s k bytes hlen hholds
  refine command_byteCountOperand fun hk => ?_
  have hk8 : bytes.length ≤ 8 := by
    rw [hlen]
    rcases hk with rfl | rfl | rfl | rfl <;> decide
  rw [Source.readBytesLE, bind_assoc]
  refine command_ensure (by rw [aligned_iff]) fun ha => ?_
  rw [bind_assoc]
  refine command_ensure not_le.symm fun hrem => ?_
  have hbytes := uint_eq_le_of_holds (hholds hk ((aligned_iff _).1 ha) hrem)
  rw [hlen] at hbytes
  rw [← hlen, ← le_eq_sum, ← toReg_le hk8, hlen, BitReader.cur, hbytes]
  rfl

end Sys2Proof.Machine

/-!
SUPPORT. What a command that fails leaves (60_exceptions.md R430, 46_band_decode.md R369). Every
command but INFO and DECODE is one rule that checks before it writes, so a failure leaves the state
before it, with `ORC.phase` set to `Failed` where the rule says `fail`.

Which commands say `fail`, and for which errors, follows from the stops that a rule's parts allow:
`BodyStop op` lists those of the bodies that the orchestrator's rules share with the units, and
`BandStop op` those of the rules themselves.
-/

namespace Sys2Proof.Machine

/-! ### Early ends within a set -/

/-- The rule ends early only with stops of `P`. -/
def StopsIn {α : Type} (P : Stop → Prop) (x : Except Stop α) : Prop := ∀ st, x = .error st → P st

section StopsIn

variable {P : Stop → Prop} {α β : Type}

theorem StopsIn.ok (a : α) : StopsIn P (.ok a) := nofun

theorem StopsIn.error {st : Stop} (h : P st) : StopsIn P (.error st : Except Stop α) := by
  rintro _ ⟨⟩
  exact h

theorem StopsIn.ensure {c : Prop} [Decidable c] {st : Stop} (h : ¬c → P st) :
    StopsIn P (ensure c st) := by
  by_cases hc : c
  · rw [ensure_true _ hc]
    exact .ok ()
  · rw [ensure_false _ hc]
    exact .error (h hc)

theorem StopsIn.check {c : Prop} [Decidable c] {st : Stop} (h : P st) :
    StopsIn P (Machine.ensure c st) := .ensure fun _ => h

theorem StopsIn.bind {x : Except Stop α} {f : α → Except Stop β} (hx : StopsIn P x)
    (hf : ∀ a, x = .ok a → StopsIn P (f a)) : StopsIn P (x >>= f) := by
  intro st h
  rcases except_bind_error.1 h with h | ⟨a, ha, h⟩
  · exact hx st h
  · exact hf a ha st h

end StopsIn

/-! ### The stops of the bodies -/

/-- How a body under the opcode `op` can end early: never out of sequence and never with `fail`
(60_exceptions.md R431, R432). -/
inductive BodyStop (op : BitVec 8) : Stop → Prop
  | truncated : BodyStop op (.raise .truncated)
  | maskLengthMismatch : BodyStop op (.raise .maskLengthMismatch)
  | invalidBitWidth (w : BitVec 8) (h : Config.maxBitWidth < w.toNat) :
    BodyStop op (.raise (.invalidBitWidth w))
  | huffmanTableCorrupt : BodyStop op (.raise .huffmanTableCorrupt)
  | arithmeticOverflow : BodyStop op (.raise .arithmeticOverflow)
  | maskValue : BodyStop op (.raise (.invalidField 12))
  | blockCount : BodyStop op (.raise (.invalidField 13))
  | illegalOperand : BodyStop op (.raise (.illegalOperand op))
  | capacityExceeded : BodyStop op (.raise .capacityExceeded)
  | fault (f : Fault) : BodyStop op (.fault f)

/-- The body under the opcode `op` ends early only as bodies do. -/
abbrev BodyStops {α : Type} (op : BitVec 8) (x : Except Stop α) : Prop := StopsIn (BodyStop op) x

section Bodies

variable {op : BitVec 8} (p : Params) (src : Source) (br : BitReader)

theorem bodyStops_byte (a : Nat) : BodyStops op (src.byte a) := by
  intro st h
  obtain ⟨-, rfl⟩ := byte_eq_error.1 h
  exact .fault _

theorem bodyStops_collect (a n : Nat) : BodyStops op (src.collect a n) := by
  induction n generalizing a with
  | zero => exact .ok _
  | succ n ih =>
    exact .bind (bodyStops_byte src a) fun _ _ => .bind (ih (a + 1)) fun _ _ => .ok _

theorem bodyStops_memRead (a n : Nat) : BodyStops op (src.memRead a n) :=
  .bind (.check .truncated) fun _ _ => bodyStops_collect src a n

theorem bodyStops_uint (a n : Nat) : BodyStops op (src.uint a n) :=
  .bind (bodyStops_memRead src a n) fun _ _ => .ok _

theorem bodyStops_collectBits (lo : Nat) (ord : BitOrder) (k n : Nat) :
    BodyStops op (src.collectBits lo ord k n) := by
  induction n generalizing k with
  | zero => exact .ok _
  | succ n ih =>
    exact .bind (.bind (bodyStops_byte src _) fun _ _ => .ok _) fun _ _ =>
      .bind (ih (k + 1)) fun _ _ => .ok _

theorem bodyStops_nextBits (n : Nat) (ord : BitOrder) : BodyStops op (src.nextBits br n ord) :=
  .bind (.check .truncated) fun _ _ => bodyStops_collectBits src _ _ _ _

theorem bodyStops_peekBits (n : Nat) (ord : BitOrder) : BodyStops op (src.peekBits br n ord) :=
  .bind (bodyStops_nextBits src br n ord) fun _ _ => .ok _

theorem bodyStops_readBits (n : Nat) (ord : BitOrder) : BodyStops op (src.readBits br n ord) :=
  .bind (.check .truncated) fun _ _ => .bind (bodyStops_peekBits src br n ord) fun _ _ => .ok _

theorem bodyStops_readBytesLE (k : Nat) : BodyStops op (src.readBytesLE br k op) :=
  .bind (.check .illegalOperand) fun _ _ => .bind (.check .truncated) fun _ _ =>
    .bind (bodyStops_uint src _ _) fun _ _ => .ok _

theorem bodyStops_blockHeader : BodyStops op (blockHeader op src br) := by
  refine .bind (.check .illegalOperand) fun _ _ => .bind (.check .truncated) fun _ _ =>
    .bind (bodyStops_uint _ _ _) fun w hw => .bind (.ensure fun hwide => ?_) fun _ _ =>
    .bind (.check .truncated) fun _ _ => .bind (bodyStops_uint _ _ _) fun c _ =>
    .bind (.check .blockCount) fun _ _ => ?_
  · have hlt : w < 2 ^ 8 := uint_lt hw
    refine .invalidBitWidth _ ?_
    rw [BitVec.toNat_ofNat, Nat.mod_eq_of_lt hlt]
    exact not_le.1 hwide
  · split
    · exact .bind (.check .truncated) fun _ _ => .bind (bodyStops_uint _ _ _) fun _ _ => .ok _
    · exact .ok _

theorem bodyStops_unpackValues (ord : BitOrder) (width count : Nat) :
    BodyStops op (unpackValues src ord width count br) := by
  induction count generalizing br with
  | zero => exact .ok _
  | succ count ih =>
    exact .bind (bodyStops_readBits src br width ord) fun ⟨_, br'⟩ _ =>
      .bind (ih br') fun _ _ => .ok _

theorem bodyStops_blockCodes (ord : BitOrder) (bs : Stuffer) (cp : Nat) :
    BodyStops op (blockCodes p src ord bs cp br) := by
  refine .bind (.check .capacityExceeded) fun _ _ => .bind (.check .truncated) fun _ _ => ?_
  split
  · exact .ok _
  · exact .bind (bodyStops_unpackValues src br _ _ _) fun _ _ => .ok _

theorem bodyStops_streamBlocks (ord : BitOrder) (total fuel cp : Nat) (last : Option Stuffer) :
    BodyStops op (streamBlocks op p src ord total fuel cp last br) := by
  induction fuel generalizing cp last br with
  | zero => exact .ok _
  | succ fuel ih =>
    rw [streamBlocks]
    split
    · exact .ok _
    · exact .bind (bodyStops_blockHeader src br) fun ⟨_, _⟩ _ =>
        .bind (.check .blockCount) fun _ _ =>
        .bind (bodyStops_blockCodes p src _ _ _ _) fun ⟨_, _⟩ _ =>
        .bind (ih _ _ _) fun _ _ => .ok _

theorem bodyStops_stuffedStream (total : Nat) : BodyStops op (stuffedStream op p src br total) :=
  .bind (.check .capacityExceeded) fun _ _ => bodyStops_streamBlocks p src br _ _ _ _ _

theorem bodyStops_loadLengths : BodyStops op (loadLengths op src br) :=
  .bind (.check .illegalOperand) fun _ _ => .bind (.check .truncated) fun _ _ =>
    .bind (bodyStops_memRead src _ _) fun _ _ => .ok _

theorem bodyStops_buildTables (lens : List Byte) : BodyStops op (buildTables lens) := by
  intro st h
  rw [buildTables_eq_error h]
  exact .huffmanTableCorrupt

theorem bodyStops_decodeFrom (entries : List HuffEntry) (fuel l : Nat) :
    BodyStops op (decodeFrom src br entries fuel l) := by
  induction fuel generalizing l with
  | zero => exact .error .huffmanTableCorrupt
  | succ fuel ih =>
    refine .bind (.check .truncated) fun _ _ =>
      .bind (bodyStops_peekBits src br l .msb) fun w _ => ?_
    split
    · exact .ok _
    · exact ih (l + 1)

theorem bodyStops_decodeSymbols (t : HuffTables) (count : Nat) :
    BodyStops op (decodeSymbols src t count br) := by
  induction count generalizing br with
  | zero => exact .ok _
  | succ count ih =>
    exact .bind (bodyStops_decodeFrom src br _ _ _) fun ⟨_, br'⟩ _ =>
      .bind (ih br') fun _ _ => .ok _

/-- HUF.RUN's body is out of sequence only without a table (43_huffman.md R251). -/
theorem bodyStops_huffmanRun (lens : List Byte) (t : HuffTables) (count : Nat) :
    BodyStops op (huffmanRun op p src { lens := lens, tables := some t } br count) :=
  .bind (.ok t) fun _ _ => .bind (.check .capacityExceeded) fun _ _ =>
    bodyStops_decodeSymbols src br _ count

theorem bodyStops_segmentWindow : BodyStops op (segmentWindow op src br) :=
  .bind (.check .illegalOperand) fun _ _ => .bind (.check .truncated) fun _ _ =>
    .bind (bodyStops_uint src _ _) fun _ _ => .bind (.check .truncated) fun _ _ => .ok _

theorem bodyStops_maskAbsentBody (n : Nat) : BodyStops op (maskAbsentBody p n) :=
  .bind (.check .capacityExceeded) fun _ _ => .ok _

theorem bodyStops_maskRawBody (n : Nat) : BodyStops op (maskRawBody op p src br n) :=
  .bind (.check .capacityExceeded) fun _ _ => .bind (.check .illegalOperand) fun _ _ =>
    .bind (.check .truncated) fun _ _ => .bind (bodyStops_nextBits src br n .msb) fun _ _ => .ok _

theorem bodyStops_rleRuns (fuel left : Nat) : BodyStops op (rleRuns op src fuel left br) := by
  induction fuel generalizing left br with
  | zero => exact .ok _
  | succ fuel ih =>
    rw [rleRuns]
    split
    · exact .ok _
    · exact .bind (.check .maskLengthMismatch) fun _ _ =>
        .bind (bodyStops_readBytesLE src br 1) fun ⟨_, br'⟩ _ =>
        .bind (bodyStops_readBytesLE src br' 4) fun ⟨_, _⟩ _ =>
        .bind (.check .maskValue) fun _ _ => .bind (.check .maskLengthMismatch) fun _ _ =>
        .bind (.check .maskLengthMismatch) fun _ _ => .bind (ih _ _) fun _ _ => .ok _

theorem bodyStops_maskRleBody (n : Nat) : BodyStops op (maskRleBody op p src br n) :=
  .bind (.check .capacityExceeded) fun _ _ => .bind (.check .illegalOperand) fun _ _ =>
    .bind (bodyStops_rleRuns src br n n) fun _ _ => .ok _

end Bodies

section Band

variable {op : BitVec 8}

theorem bodyStops_bandMaskBody (s : State) (n : Nat) : BodyStops op (bandMaskBody op s n) := by
  unfold bandMaskBody
  split
  · exact .bind (bodyStops_maskAbsentBody _ _) fun _ _ => .ok _
  · exact bodyStops_maskRawBody _ _ _ _
  · exact bodyStops_maskRleBody _ _ _ _

theorem bodyStops_bandStuffedBody (s : State) (count : Nat) :
    BodyStops op (bandStuffedBody op s count) :=
  .bind (bodyStops_stuffedStream _ _ _ _) fun _ _ => .ok _

theorem bodyStops_bandHuffmanBody (s : State) (count : Nat) :
    BodyStops op (bandHuffmanBody op s count) :=
  .bind (bodyStops_loadLengths _ _) fun ⟨_, _⟩ _ => .bind (bodyStops_buildTables _) fun _ _ =>
    .bind (bodyStops_segmentWindow _ _) fun ⟨_, _⟩ _ =>
    .bind (bodyStops_huffmanRun _ _ _ _ _ _) fun _ _ => .ok _

theorem bodyStops_dequantize (h : Header) (zMin : BitVec 64) (code : Nat) :
    BodyStops op (dequantize h zMin code) := by
  have helement (neg : Bool) (m : Nat) (e : Int) : BodyStops op (elementOf h.kind neg m e) := by
    unfold elementOf
    split
    · exact .ok _
    · split
      · exact .ok _
      · exact .error .arithmeticOverflow
      · exact .error .arithmeticOverflow
    all_goals exact .bind (.check .arithmeticOverflow) fun _ _ => .ok _
  unfold dequantize
  split
  · exact helement _ _ _
  · exact .error .arithmeticOverflow
  · exact .error .arithmeticOverflow

/-- The loop of BAND.DEQ is out of sequence only where mask and codes differ in number
(46_band_decode.md R364). -/
theorem bodyStops_dequantizeBand (h : Header) (zMin : BitVec 64) {bits : List Bool}
    {codes : List Code} (hlen : codes.length = popcount bits) :
    BodyStops op (dequantizeBand op h zMin bits codes) := by
  induction bits generalizing codes with
  | nil =>
    obtain rfl : codes = [] := List.eq_nil_of_length_eq_zero hlen
    exact .ok _
  | cons b bits ih =>
    cases b with
    | false => exact .bind (ih (by simpa using hlen)) fun _ _ => .ok _
    | true =>
      cases codes with
      | nil => simp at hlen
      | cons c codes =>
        exact .bind (bodyStops_dequantize _ _ _) fun _ _ =>
          .bind (ih (by simpa using hlen)) fun _ _ => .ok _

/-! ### The stops of the orchestrator's rules -/

/-- How an orchestrator rule under the opcode `op` can end early: `raise` out of sequence or on its
own operands, and `fail` for any error but the first of these (46_band_decode.md R369; log entry 11). -/
inductive BandStop (op : BitVec 8) : Stop → Prop
  | illegalCommand : BandStop op (.raise (.illegalCommand op))
  | illegalOperand : BandStop op (.raise (.illegalOperand op))
  | fail {e : EngineError} (h : e.code ≠ 0x80) : BandStop op (.fail e)
  | fault (f : Fault) : BandStop op (.fault f)

/-- The orchestrator rule under the opcode `op` ends early only as those rules do. -/
abbrev BandStops {α : Type} (op : BitVec 8) (x : Except Stop α) : Prop := StopsIn (BandStop op) x

/-- A body's error is the step's `fail`. -/
theorem BodyStops.orFail {α : Type} {x : Except Stop α} (hx : BodyStops op x) :
    BandStops op (orFail x) := by
  rcases x with st | a
  · cases hx st rfl with
    | fault f => exact .error (.fault f)
    | _ => exact .error (.fail (by simp [EngineError.code]))
  · exact .ok a

theorem bandStops_headerOf (s : State) : BandStops op (headerOf op s) := by
  unfold headerOf
  split
  · exact .ok _
  · exact .error .illegalCommand

theorem bandStops_descriptorOf (h : Header) (b : Nat) : BandStops op (descriptorOf h b) := by
  unfold descriptorOf
  split
  · exact .ok _
  · exact .error (.fault _)

theorem bandStops_maskModeOf (n : Nat) : BandStops op (maskModeOf n) := by
  unfold maskModeOf
  split
  case h_4 => exact .error (.fail (by decide))
  all_goals exact .ok _

theorem bandStops_entropyModeOf (kind : Kind) (n : Nat) : BandStops op (entropyModeOf kind n) := by
  unfold entropyModeOf
  split
  · exact .ok _
  · split
    · exact .ok _
    · exact .error (.fail (by decide))
  · exact .error (.fail (by decide))
  · exact .error (.fail (by decide))

theorem bandStops_sectionChecks (src : Source) (kind : Kind) (off len : Nat) :
    BandStops op (sectionChecks src kind off len) :=
  .bind (.check (.fail (by decide))) fun _ _ => .bind (.check (.fail (by decide))) fun _ _ =>
    .bind (bodyStops_uint _ _ _).orFail fun _ _ => .bind (bandStops_maskModeOf _) fun _ _ =>
    .bind (bodyStops_uint _ _ _).orFail fun _ _ => .bind (bandStops_entropyModeOf _ _) fun _ _ =>
    .ok _

theorem bandStops_stagedElements (stage : List (Option Element)) (n : Nat) :
    BandStops op (stagedElements stage n) := by
  unfold stagedElements
  split
  · split
    · exact .ok _
    · exact .error (.fault _)
  · exact .error (.fault _)

theorem bandStops_bandBeginRule (b : Nat) (s : State) : BandStops op (bandBeginRule op b s) :=
  .bind (bandStops_headerOf s) fun _ _ => .bind (.check .illegalCommand) fun _ _ =>
    .bind (.check .illegalOperand) fun _ _ => .bind (.check (.fail (by decide))) fun _ _ =>
    .bind (bandStops_descriptorOf _ _) fun _ _ =>
    .bind (bandStops_sectionChecks _ _ _ _) fun _ _ => .ok _

theorem bandStops_bandMaskRule (s : State) : BandStops op (bandMaskRule op s) :=
  .bind (.check .illegalCommand) fun _ _ => .bind (bandStops_headerOf s) fun _ _ =>
    .bind (bodyStops_bandMaskBody s _).orFail fun _ _ =>
    .bind (.check (.fail (by decide))) fun _ _ => .ok _

theorem bandStops_bandDataRule (s : State) : BandStops op (bandDataRule op s) := by
  refine .bind (.check .illegalCommand) fun _ _ => .bind (bandStops_headerOf s) fun h _ =>
    .bind (BodyStops.orFail ?_) fun _ _ => .ok _
  split
  · exact bodyStops_bandStuffedBody s _
  · exact bodyStops_bandHuffmanBody s _

theorem bandStops_bandDeqRule (s : State) : BandStops op (bandDeqRule op s) := by
  refine .bind (.check .illegalCommand) fun _ _ => .bind (bandStops_headerOf s) fun _ _ =>
    .bind (.check .illegalCommand) fun _ hmatch => .bind (bandStops_descriptorOf _ _) fun _ _ => ?_
  obtain ⟨-, -, hlen⟩ := ensure_ok_iff.1 hmatch
  exact .bind (bodyStops_dequantizeBand _ _ hlen).orFail fun _ _ => .ok _

theorem bandStops_commitRule (s : State) : BandStops op (commitRule op s) :=
  .bind (bandStops_headerOf s) fun _ _ => .bind (.check .illegalCommand) fun _ _ =>
    .bind (.check (.fail (by decide))) fun _ _ => .bind (bandStops_stagedElements _ _) fun _ _ =>
    .ok _

end Band

/-! ### What a failed command leaves -/

/-- `t` is `s` after a failed command, with `ORC.phase` as `t` has it. -/
def FailedFrom (s t : State) : Prop :=
  t = { s with
    err := t.err
    status := { s.status with done := true, err := true }
    orc := { s.orc with phase := t.orc.phase } }

theorem State.finish_error (s : State) (e : EngineError) :
    s.finish (some e) = { s with
      err := errFieldsOf (some e), status := { s.status with done := true, err := true } } := by
  have hcode : decide ((errFieldsOf (some e)).code ≠ 0) = true := decide_eq_true e.code_ne_zero
  rw [State.finish, hcode]

theorem failedFrom_finish (s : State) (e : EngineError) : FailedFrom s (s.finish (some e)) := by
  rw [FailedFrom, State.finish_error]

theorem failedFrom_finish_failed (s : State) (e : EngineError) :
    FailedFrom s ((s.withPhase .failed).finish (some e)) := by
  rw [FailedFrom, State.finish_error]
  rfl

/-- A command that checks before it writes, where it fails: `s` with the error posted, and
`ORC.phase = Failed` where the rule said `fail`. -/
theorem command_failed {s t : State} {r : Except Stop State} (h : command s r = .next t)
    (hcode : t.err.code ≠ 0) : ∃ e,
      (r = .error (.raise e) ∧ t = s.finish (some e)) ∨
      (r = .error (.fail e) ∧ t = (s.withPhase .failed).finish (some e)) := by
  rcases command_eq_next.1 h with ⟨u, -, rfl⟩ | ⟨e, h⟩ | ⟨e, h⟩
  · exact absurd rfl hcode
  · exact ⟨e, .inl h⟩
  · exact ⟨e, .inr h⟩

/-- Every command but INFO and DECODE is a rule that checks before it writes. -/
theorem exec_eq_command {i : Instr} (s : State) (hinfo : i ≠ .info) (hdecode : i ≠ .decode) :
    ∃ r, exec i s = command s r := by
  cases i with
  | info => exact absurd rfl hinfo
  | decode => exact absurd rfl hdecode
  | nop | srst | brAlign | brPos | bmFreeze _ | bmPopcnt _ | bmNext _ | bmLen _ =>
    exact ⟨.ok _, rfl⟩
  | _ => exact ⟨_, rfl⟩

/-- The commands whose rules say `fail` (46_band_decode.md R369). -/
def failingOpcodes : List (BitVec 8) := [0x61, 0x62, 0x63, 0x64, 0x67]

theorem exec_eq_bandRule {i : Instr} (s : State) (hi : i.opcode ∈ failingOpcodes) :
    ∃ r, exec i s = command s r ∧ BandStops i.opcode r := by
  cases i with
  | bandBegin => exact ⟨_, rfl, bandStops_bandBeginRule _ s⟩
  | bandMask => exact ⟨_, rfl, bandStops_bandMaskRule s⟩
  | bandData => exact ⟨_, rfl, bandStops_bandDataRule s⟩
  | bandDeq => exact ⟨_, rfl, bandStops_bandDeqRule s⟩
  | commit => exact ⟨_, rfl, bandStops_commitRule s⟩
  | _ => simp [Instr.opcode, failingOpcodes] at hi

/-- BAND.END writes the orchestrator and never says `fail` (46_band_decode.md R366). -/
theorem noFail_bandEndRule (op : BitVec 8) (s : State) : NoFail (bandEndRule op s) :=
  .bind (.ensure _ _) fun _ => .bind (noFail_headerOf op s) fun _ =>
    .bind (.ensure _ _) fun _ => .ok _

/-- Every other command that fails leaves `ORC.phase`. -/
theorem exec_failed_phase {i : Instr} {s t : State} (h : exec i s = .next t)
    (hcode : t.err.code ≠ 0) (hinfo : i ≠ .info) (hdecode : i ≠ .decode)
    (hi : i.opcode ∉ failingOpcodes) : t.orc.phase = s.orc.phase := by
  by_cases hw : i.opcode ∈ orcWriters
  · cases i with
    | info => exact absurd rfl hinfo
    | decode => exact absurd rfl hdecode
    | srst =>
      cases h
      exact absurd rfl hcode
    | bandEnd =>
      obtain ⟨e, ⟨-, rfl⟩ | ⟨hr, -⟩⟩ := command_failed h hcode
      · rfl
      · exact absurd hr (noFail_bandEndRule _ s e)
    | bandBegin | bandMask | bandData | bandDeq | commit => exact absurd (by decide) hi
    | _ => simp [Instr.opcode, orcWriters] at hw
  · exact congrArg Orchestrator.phase (((exec_frame i s).next h).orc hw)

/-- A command whose rule says `fail`: it sets `Failed` but for the errors it raises. -/
theorem exec_failed_failing {i : Instr} {s t : State} (h : exec i s = .next t)
    (hcode : t.err.code ≠ 0) (hi : i.opcode ∈ failingOpcodes) :
    (t.err.code ≠ 0x80 → t.err.code ≠ 0x81 → t.orc.phase = .failed) ∧
      (t.err.code = 0x80 → t.orc.phase = s.orc.phase) := by
  obtain ⟨r, hexec, hstops⟩ := exec_eq_bandRule s hi
  obtain ⟨e, ⟨rfl, rfl⟩ | ⟨rfl, rfl⟩⟩ := command_failed (hexec ▸ h) hcode
  · refine ⟨fun hcommand hoperand => ?_, fun _ => rfl⟩
    cases hstops _ rfl with
    | illegalCommand => exact absurd rfl hcommand
    | illegalOperand => exact absurd rfl hoperand
  · refine ⟨fun _ _ => rfl, fun hcommand => ?_⟩
    cases hstops _ rfl with
    | fail hne => exact absurd hcommand hne

/-- Settles O17: the frame from `command_failed`, the phase from the stops of the command's rule. -/
theorem failureFrames : Obligations.FailureFrames := by
  intro i s t h hcode hinfo hdecode
  have hframe : FailedFrom s t ∧ (t.orc.phase = s.orc.phase ∨ t.orc.phase = .failed) := by
    obtain ⟨r, hr⟩ := exec_eq_command s hinfo hdecode
    obtain ⟨e, ⟨-, rfl⟩ | ⟨-, rfl⟩⟩ := command_failed (hr ▸ h) hcode
    · exact ⟨failedFrom_finish s e, .inl rfl⟩
    · exact ⟨failedFrom_finish_failed s e, .inr rfl⟩
  exact ⟨hframe.1, exec_failed_phase h hcode hinfo hdecode, hframe.2,
    exec_failed_failing h hcode⟩

end Sys2Proof.Machine

/-!
SUPPORT. The BitMask's commands, path by path (41_bitmask.md R180 to R189): what each list operation
of the unit has at every position, and the population as the number of set positions.
-/

namespace Sys2Proof.Machine

/-! ### A check that decides a command -/

section Checks

variable {s : State} {c : Prop} [Decidable c] {e : EngineError} {f : Unit → Except Stop State}

theorem command_ensure_of_not (hc : ¬c) :
    command s (ensure c (.raise e) >>= f) = failsWith e s := by
  rw [ensure_false _ hc]
  rfl

theorem command_ensure_of (hc : c) (st : Stop) :
    command s (ensure c st >>= f) = command s (f ()) := by
  rw [ensure_true _ hc, except_ok_bind]

end Checks

/-! ### The list operations, position by position -/

theorem getElem?_fillBits {bits : List Bool} {start len : Nat} (v : Bool)
    (h : start + len ≤ bits.length) (j : Nat) :
    (fillBits bits start len v)[j]? =
      if start ≤ j ∧ j < start + len then some v else bits[j]? := by
  have hstart : (bits.take start).length = start := List.length_take_of_le (by omega)
  rw [fillBits, List.append_assoc]
  rcases lt_or_ge j start with hj | hj
  · rw [List.getElem?_append_left (by omega), List.getElem?_take_of_lt hj, if_neg (by omega)]
  rw [List.getElem?_append_right (by omega), hstart]
  rcases lt_or_ge j (start + len) with hj' | hj'
  · rw [List.getElem?_append_left (by rw [List.length_replicate]; omega),
      List.getElem?_replicate_of_lt (by omega), if_pos ⟨hj, hj'⟩]
  · rw [List.getElem?_append_right (by rw [List.length_replicate]; omega),
      List.length_replicate, List.getElem?_drop, if_neg (by omega)]
    congr 1
    omega

/-- The population is the number of set positions (00_scope.md R17). -/
theorem popcount_eq_card (bits : List Bool) :
    popcount bits =
      ((Finset.range bits.length).filter fun j => bits[j]? = some true).card := by
  rw [Finset.card_filter]
  induction bits with
  | nil => rfl
  | cons b rest ih =>
    rw [popcount_cons, List.length_cons, Finset.sum_range_succ', ih]
    cases b <;> rfl

/-- Where BM.NEXT finds no set bit, no position from the start on is set (41_bitmask.md R187). -/
theorem getElem?_ne_true_of_nextSet_eq_length {bits : List Bool} {start i : Nat}
    (h : nextSet bits 0 start = bits.length) (hi : start ≤ i) : bits[i]? ≠ some true := by
  intro htrue
  have hlt : i < bits.length := (List.getElem?_eq_some_iff.1 htrue).1
  rcases nextSet_skips bits 0 start i (by omega) with hfalse | hbefore
  · rw [hfalse] at htrue
    cases htrue
  · omega

/-! ### The commands -/

/-- Settles O28: the checks in order, and the AND by `getElem?_andBits`. -/
theorem bmFreezeAnd : Obligations.BmFreezeAnd := by
  intro s
  refine ⟨fun _ => rfl, fun hbuilding => ?_, fun h0 h1 hlen => ?_, fun h0 h1 hlen => ?_⟩
  · refine command_ensure_of_not fun ⟨h0, h1⟩ => ?_
    rcases hbuilding with h | h
    · exact Bool.false_ne_true (h0.symm.trans h)
    · exact Bool.false_ne_true (h1.symm.trans h)
  · exact (command_ensure_of ⟨h0, h1⟩ _).trans (command_ensure_of_not hlen)
  · refine ⟨andBits s.ms1.bits s.ms0.bits, ?_, ?_, fun j a b ha hb => ?_⟩
    · rw [← h1]
      exact (command_ensure_of ⟨h0, h1⟩ _).trans (command_ensure_of hlen _)
    · rw [length_andBits, hlen, min_self]
    · rw [getElem?_andBits hlen.symm, ha, hb]
      rfl

/-- Settles O25: the checks in order, and the written slot position by position. -/
theorem bmWrites : Obligations.BmWrites := by
  intro s sl v
  refine ⟨fun hfits => ?_, fun c hc hlt => ?_, fun hfrozen => ?_, fun hbuilding => ⟨fun hi => ?_,
    fun hi => ?_, fun hn => ?_, fun hn => ?_⟩⟩
  · exact ⟨List.replicate s.a0.toNat v, command_ensure_of ((fitsOut_iff _ _).2 hfits) _,
      List.length_replicate, fun _ => List.eq_of_mem_replicate⟩
  · exact command_ensure_of_not fun hfits => hlt.not_ge ((fitsOut_iff _ _).1 hfits c hc)
  · have hnot : ¬(s.mask sl).building = true := by rw [hfrozen]; exact Bool.false_ne_true
    exact ⟨command_ensure_of_not hnot, command_ensure_of_not hnot⟩
  · exact (command_ensure_of hbuilding _).trans (command_ensure_of_not hi.not_gt)
  · refine ⟨(s.mask sl).bits.set s.a0.toNat v, ?_, fun j => ?_⟩
    · rw [← hbuilding]
      exact (command_ensure_of hbuilding _).trans (command_ensure_of hi _)
    · simp only [List.getElem?_set, if_pos hi, @eq_comm Nat j]
  · exact (command_ensure_of hbuilding _).trans (command_ensure_of_not hn.not_ge)
  · refine ⟨fillBits (s.mask sl).bits s.a0.toNat s.a1.toNat v, ?_, getElem?_fillBits v hn⟩
    rw [← hbuilding]
    exact (command_ensure_of hbuilding _).trans (command_ensure_of hn _)

theorem exec_bmGet_of_length_le {s : State} {sl : Slot}
    (h : (s.mask sl).bits.length ≤ s.a0.toNat) :
    exec (.bmGet sl) s = failsWith (.illegalOperand 0x24) s := by
  change execBmGet sl s = _
  rw [execBmGet, List.getElem?_eq_none h]
  rfl

theorem exec_bmGet_of_getElem? {s : State} {sl : Slot} {b : Bool}
    (h : (s.mask sl).bits[s.a0.toNat]? = some b) :
    exec (.bmGet sl) s = completesWith { s with r0 := if b = true then 1 else 0 } := by
  change execBmGet sl s = _
  rw [execBmGet, h]
  rfl

/-- Settles O26: the population by `popcount_eq_card`, which the length bounds. -/
theorem bmReads : Obligations.BmReads := by
  intro s sl
  refine ⟨exec_bmGet_of_length_le, fun _ => exec_bmGet_of_getElem?,
    ⟨toReg (popcount (s.mask sl).bits), rfl, fun hlen => ?_⟩,
    ⟨toReg (s.mask sl).bits.length, rfl, toReg_toNat⟩⟩
  rw [toReg_toNat ((popcount_le _).trans_lt hlen), popcount_eq_card]

/-- Settles O27: the position that `nextSet` answers, found or at the end. A result of `2 ^ 64` or
more has no stated image in `R0` (log entry 4). -/
theorem bmNextLeast : Obligations.BmNextLeast := by
  intro s sl
  have hskips := nextSet_skips (s.mask sl).bits 0 s.a0.toNat
  have hend := (nextSet_bounds (s.mask sl).bits 0 s.a0.toNat).2
  refine ⟨nextSet (s.mask sl).bits 0 s.a0.toNat, _, rfl, toReg_toNat, ?_⟩
  rw [Nat.zero_add] at hend
  rcases hend.lt_or_eq with hlt | heq
  · obtain ⟨hstart, hset⟩ := nextSet_found (s.mask sl).bits 0 s.a0.toNat (by omega)
    exact .inl ⟨hset, hstart, fun i hi hij => (hskips i (by omega)).resolve_right (by omega)⟩
  · exact .inr ⟨heq, fun i => getElem?_ne_true_of_nextSet_eq_length heq⟩

end Sys2Proof.Machine

/-!
SUPPORT. The mask decoders, path by path (42_mask_decoders.md R211 to R215): each command as its checks
in their order, and the loop of MASK.RLE pair by pair, over legal pairs first and then the pair that
fails.
-/

namespace Sys2Proof.Machine

/-! ### The commands as checks in order -/

section Checks

variable (s : State) (sl : Slot)

theorem exec_maskAbsent : exec (.maskAbsent sl) s = command s (do
    ensure (s.params.fitsOut s.a0.toNat = true) (.raise .capacityExceeded)
    .ok (s.setMask sl { bits := List.replicate s.a0.toNat true, building := false })) := by
  change execMaskAbsent sl s = _
  rw [execMaskAbsent, maskAbsentBody, bind_assoc]
  rfl

theorem exec_maskRaw : exec (.maskRaw sl) s = command s (do
    ensure (s.params.fitsOut s.a0.toNat = true) (.raise .capacityExceeded)
    ensure (s.br.aligned = true) (.raise (.illegalOperand 0x31))
    ensure (8 * ceil8 s.a0.toNat ≤ s.br.rem) (.raise .truncated)
    let bits ← s.source.nextBits s.br s.a0.toNat .msb
    .ok { s.setMask sl { bits := bits, building := false } with
      br := s.br.advance (8 * ceil8 s.a0.toNat) }) := by
  change execMaskRaw sl s = _
  simp only [execMaskRaw, maskRawBody, bind_assoc, except_ok_bind]

theorem exec_maskRle : exec (.maskRle sl) s = command s (do
    ensure (s.params.fitsOut s.a0.toNat = true) (.raise .capacityExceeded)
    ensure (s.br.aligned = true) (.raise (.illegalOperand 0x32))
    let run ← rleRuns 0x32 s.source s.a0.toNat s.a0.toNat s.br
    .ok { s.setMask sl { bits := run.1, building := false } with br := run.2 }) := by
  change execMaskRle sl s = _
  simp only [execMaskRle, maskRleBody, bind_assoc, except_ok_bind]

variable {s}

/-- MASK.RLE past its two checks is its loop (42_mask_decoders.md R213). -/
theorem exec_maskRle_of_checks (hfits : s.params.fitsOut s.a0.toNat = true)
    (ha : s.br.aligned = true) : exec (.maskRle sl) s = command s (do
    let run ← rleRuns 0x32 s.source s.a0.toNat s.a0.toNat s.br
    .ok { s.setMask sl { bits := run.1, building := false } with br := run.2 }) := by
  rw [exec_maskRle]
  exact (command_ensure_of hfits _).trans (command_ensure_of ha _)

end Checks

/-! ### The loop of MASK.RLE, pair by pair -/

/-- The bytes of one pair of MASK.RLE (30_encoding.md R117); its value byte need not be legal. -/
def pairBytes (value run : Nat) : List Byte := leBytes 1 value ++ leBytes 4 run

@[simp] theorem length_pairBytes (value run : Nat) : (pairBytes value run).length = 5 := by
  simp [pairBytes]

/-- Whole bytes move the byte offset, whether or not the cursor is aligned. -/
theorem cur_advance (br : BitReader) (k : Nat) : (br.advance (8 * k)).cur = br.cur + k := by
  simp only [BitReader.cur, advance_lo, advance_pos]
  omega

section Loop

variable {op : BitVec 8} {src : Source} {fuel left : Nat} {br : BitReader}

theorem readBytesLE_of_holds {k v : Nat} (ha : br.aligned = true) (hrem : 8 * k ≤ br.rem)
    (hv : v < 256 ^ k) (h : src.Holds br.cur (leBytes k v)) :
    src.readBytesLE br k op = .ok (v, br.advance (8 * k)) :=
  readBytesLE_eq_ok.2 ⟨ha, hrem, uint_of_holds h hv, rfl⟩

/-- One round over a pair that is there: the checks of its value and run, then the rest of the loop. -/
theorem rleRuns_pair {value run : Nat} (hleft : left ≠ 0) (ha : br.aligned = true)
    (hrem : 40 ≤ br.rem) (hvalue : value < 256) (hrun : run < 2 ^ 32)
    (h : src.Holds br.cur (pairBytes value run)) :
    rleRuns op src (fuel + 1) left br = (do
      ensure (value ≤ 1) (.raise (.invalidField 12))
      ensure (1 ≤ run) (.raise .maskLengthMismatch)
      ensure (run ≤ left) (.raise .maskLengthMismatch)
      let rest ← rleRuns op src fuel (left - run) (br.advance 40)
      .ok (List.replicate run (value == 1) ++ rest.1, rest.2)) := by
  have hend := end_le_len_of_holds h (by simp)
  rw [length_pairBytes] at hend
  obtain ⟨hbyte, hword⟩ := holds_append.1 h
  rw [length_leBytes, ← cur_advance] at hword
  have hread : src.readBytesLE br 1 op = .ok (value, br.advance (8 * 1)) :=
    readBytesLE_of_holds ha (by omega) hvalue hbyte
  have hread' : src.readBytesLE (br.advance (8 * 1)) 4 op = .ok (run, br.advance 40) :=
    readBytesLE_of_holds (aligned_advance 1 ha) (by rw [rem_advance]; omega) hrun hword
  rw [rleRuns, if_neg hleft, ensure_true _ ⟨hrem, hend⟩, except_ok_bind, hread, except_ok_bind]
  simp only [hread', except_ok_bind]

/-- Legal pairs, then the rest of the loop: each pair takes one round and five bytes, and its pixels
stand before the rest's. -/
theorem rleRuns_append {runs : List (Bool × Nat)} (hlegal : ∀ r ∈ runs, 1 ≤ r.2 ∧ r.2 < 2 ^ 32)
    (ha : br.aligned = true) (hrem : 40 * runs.length ≤ br.rem)
    (h : src.Holds br.cur (rleLayout runs)) :
    rleRuns op src (fuel + runs.length) ((runs.map Prod.snd).sum + left) br = (do
      let rest ← rleRuns op src fuel left (br.advance (40 * runs.length))
      .ok (rleMask runs ++ rest.1, rest.2)) := by
  induction runs generalizing br with
  | nil =>
    simp only [List.map_nil, List.sum_nil, List.length_nil, Nat.mul_zero, Nat.zero_add, Nat.add_zero,
      advance_zero, rleMask, List.flatMap_nil, List.nil_append]
    cases rleRuns op src fuel left br <;> rfl
  | cons r runs ih =>
    obtain ⟨⟨hpos, hlt⟩, hlegal⟩ := List.forall_mem_cons.1 hlegal
    have hvalue := Bool.toNat_lt r.1
    obtain ⟨hpair, hrest⟩ := holds_append.1 (show src.Holds br.cur
      (pairBytes r.1.toNat r.2 ++ rleLayout runs) from h)
    rw [length_pairBytes, ← cur_advance] at hrest
    rw [List.length_cons] at hrem
    have ih := ih hlegal (aligned_advance 5 ha) (by rw [rem_advance]; omega) hrest
    rw [List.length_cons, ← Nat.add_assoc, List.map_cons, List.sum_cons,
      rleRuns_pair (by omega) ha (by omega) (by omega) hlt hpair, ensure_true _ (by omega),
      ensure_true _ hpos, ensure_true _ (by omega), Nat.add_assoc, Nat.add_sub_cancel_left, ih]
    simp only [except_ok_bind, bind_assoc, advance_advance]
    have hmask (rest : List Bool) : List.replicate r.2 (r.1.toNat == 1) ++ (rleMask runs ++ rest) =
        rleMask (r :: runs) ++ rest := by
      cases hbit : r.1 <;> simp [rleMask, hbit]
    simp only [hmask, show 8 * 5 + 40 * runs.length = 40 * (runs.length + 1) by omega]

theorem rleRuns_no_pixels_left : rleRuns op src fuel 0 br = .ok ([], br) := by
  cases fuel <;> rfl

/-- A missing pair, in the window or below `SRC_LEN` (42_mask_decoders.md R215; log entry 6). -/
theorem rleRuns_missing_pair (hleft : left ≠ 0) (h : br.rem < 40 ∨ src.len < br.cur + 5) :
    rleRuns op src (fuel + 1) left br = .error (.raise .maskLengthMismatch) := by
  rw [rleRuns, if_neg hleft, ensure_false _ (by omega)]
  rfl

end Loop

/-! ### MASK.RLE after legal pairs -/

/-- MASK.RLE passes its checks and finds these legal pairs at the cursor (30_encoding.md R117). -/
structure State.HoldsRuns (s : State) (runs : List (Bool × Nat)) : Prop where
  fits : s.params.fitsOut s.a0.toNat = true
  aligned : s.br.aligned = true
  legal : ∀ r ∈ runs, 1 ≤ r.2 ∧ r.2 < 2 ^ 32
  inWindow : 40 * runs.length ≤ s.br.rem
  holds : s.source.Holds s.br.cur (rleLayout runs)

section AfterRuns

variable {s : State} {runs : List (Bool × Nat)} {left : Nat}

/-- Legal pairs take one round each, so they leave a round for each pixel to go (42_mask_decoders.md
R214). -/
theorem State.HoldsRuns.exec_maskRle (hs : s.HoldsRuns runs)
    (hn : (runs.map Prod.snd).sum + left = s.a0.toNat) (sl : Slot) :
    ∃ fuel, left ≤ fuel ∧ exec (.maskRle sl) s = command s (do
      let rest ← rleRuns 0x32 s.source fuel left (s.br.advance (40 * runs.length))
      .ok { s.setMask sl { bits := rleMask runs ++ rest.1, building := false } with
        br := rest.2 }) := by
  have hlen : runs.length ≤ (runs.map Prod.snd).sum := by
    rw [← List.length_map Prod.snd]
    exact List.length_le_sum_of_one_le _ (List.forall_mem_map.2 fun r hr => (hs.legal r hr).1)
  obtain ⟨fuel, hfuel⟩ := Nat.exists_eq_add_of_le' (hlen.trans (hn ▸ Nat.le_add_right _ left))
  refine ⟨fuel, by omega, ?_⟩
  have hloop := rleRuns_append (op := 0x32) (fuel := fuel) (left := left) hs.legal hs.aligned
    hs.inWindow hs.holds
  rw [← hfuel, hn] at hloop
  rw [exec_maskRle_of_checks sl hs.fits hs.aligned, hloop, bind_assoc]
  rfl

/-- With pixels to go, MASK.RLE ends as its loop ends after the pairs. -/
theorem State.HoldsRuns.exec_maskRle_fails (hs : s.HoldsRuns runs)
    (hlt : (runs.map Prod.snd).sum < s.a0.toNat) (sl : Slot) {e : EngineError}
    (hstop : ∀ fuel, rleRuns 0x32 s.source (fuel + 1) (s.a0.toNat - (runs.map Prod.snd).sum)
      (s.br.advance (40 * runs.length)) = .error (.raise e)) :
    exec (.maskRle sl) s = failsWith e s := by
  obtain ⟨fuel, hfuel, hexec⟩ := hs.exec_maskRle (Nat.add_sub_cancel' hlt.le) sl
  obtain ⟨fuel, rfl⟩ := Nat.exists_eq_add_of_le' (show 1 ≤ fuel by omega)
  rw [hexec, hstop]
  rfl

end AfterRuns

/-! ### The stops of MASK.RLE -/

/-- How MASK.RLE can end early: never with `Truncated` (42_mask_decoders.md R215, 60_exceptions.md
R433). -/
inductive RleStop : Stop → Prop
  | capacityExceeded : RleStop (.raise .capacityExceeded)
  | illegalOperand (op : BitVec 8) : RleStop (.raise (.illegalOperand op))
  | maskLengthMismatch : RleStop (.raise .maskLengthMismatch)
  | maskValue : RleStop (.raise (.invalidField 12))
  | fault (f : Fault) : RleStop (.fault f)

section RleStops

variable {op : BitVec 8} {src : Source} {br : BitReader}

theorem rleStops_collect (a n : Nat) : StopsIn RleStop (src.collect a n) := by
  induction n generalizing a with
  | zero => exact .ok _
  | succ n ih =>
    refine .bind (fun st h => ?_) fun _ _ => .bind (ih (a + 1)) fun _ _ => .ok _
    obtain ⟨-, rfl⟩ := byte_eq_error.1 h
    exact .fault _

/-- Bytes inside the window and the blob are not `Truncated`. -/
theorem rleStops_readBytesLE {k : Nat} (hrem : 8 * k ≤ br.rem) (hlen : br.cur + k ≤ src.len) :
    StopsIn RleStop (src.readBytesLE br k op) :=
  .bind (.check (.illegalOperand op)) fun _ _ =>
    .bind (.ensure fun h => absurd hrem h) fun _ _ =>
    .bind (.bind (.bind (.ensure fun h => absurd (.inr hlen) h) fun _ _ => rleStops_collect _ _)
      fun _ _ => .ok _) fun _ _ => .ok _

/-- The loop checks a whole pair before it reads one, so neither read is `Truncated`. -/
theorem rleStops_rleRuns (fuel left : Nat) : StopsIn RleStop (rleRuns op src fuel left br) := by
  induction fuel generalizing left br with
  | zero => exact .ok _
  | succ fuel ih =>
    rw [rleRuns]
    split
    · exact .ok _
    · refine .bind (.check .maskLengthMismatch) fun _ hpair => ?_
      obtain ⟨hrem, hlen⟩ := ensure_ok_iff.1 hpair
      refine .bind (rleStops_readBytesLE (by omega) (by omega)) fun ⟨_, br'⟩ hread => ?_
      obtain ⟨-, -, -, rfl⟩ := readBytesLE_eq_ok.1 hread
      refine .bind (rleStops_readBytesLE (by rw [rem_advance]; omega)
        (by rw [cur_advance]; omega)) fun ⟨_, _⟩ _ => ?_
      exact .bind (.check .maskValue) fun _ _ => .bind (.check .maskLengthMismatch) fun _ _ =>
        .bind (.check .maskLengthMismatch) fun _ _ => .bind (ih _) fun _ _ => .ok _

theorem RleStop.code_ne_truncated {e : EngineError} (h : RleStop (.raise e)) : e.code ≠ 0x03 := by
  cases h <;> simp [EngineError.code]

theorem command_code_of_rleStops {s t : State} {r : Except Stop State} (hr : StopsIn RleStop r)
    (h : command s r = .next t) : t.err.code ≠ 0x03 := by
  intro hcode
  obtain ⟨e, ⟨hraise, rfl⟩ | ⟨hfail, -⟩⟩ := command_failed h (by rw [hcode]; decide)
  · exact (hr _ hraise).code_ne_truncated hcode
  · cases hr _ hfail

theorem exec_maskRle_not_truncated {s t : State} {sl : Slot}
    (h : exec (.maskRle sl) s = .next t) : t.err.code ≠ 0x03 := by
  rw [exec_maskRle] at h
  refine command_code_of_rleStops ?_ h
  exact .bind (.check .capacityExceeded) fun _ _ => .bind (.check (.illegalOperand 0x32))
    fun _ _ => .bind (rleStops_rleRuns _ _) fun _ _ => .ok _

end RleStops

/-! ### The obligations -/

/-- Settles O29: the checks in order, then the bits by `nextBits_of_readable`. -/
theorem maskAbsentRaw : Obligations.MaskAbsentRaw := by
  intro s sl
  rw [exec_maskAbsent, exec_maskRaw]
  refine ⟨fun hfits => ?_, fun hfits => ⟨command_ensure_of hfits _, fun hpos => ?_,
    fun hpos hrem => ?_, fun hpos hrem hbits => ?_⟩⟩
  · have hnot : ¬s.params.fitsOut s.a0.toNat = true := by rw [hfits]; exact Bool.false_ne_true
    exact ⟨command_ensure_of_not hnot, command_ensure_of_not hnot⟩
  · exact (command_ensure_of hfits _).trans (command_ensure_of_not (by rwa [aligned_iff]))
  · exact (command_ensure_of hfits _).trans <|
      (command_ensure_of ((aligned_iff _).2 hpos) _).trans (command_ensure_of_not hrem.not_ge)
  · refine ⟨s.source.streamBits s.br s.a0.toNat .msb, ?_, length_streamBits _ _, fun i b hb => ?_⟩
    · refine (command_ensure_of hfits _).trans <|
        (command_ensure_of ((aligned_iff _).2 hpos) _).trans <| (command_ensure_of hrem _).trans ?_
      rw [nextBits_of_readable _ hbits]
      rfl
    · have hi : i < s.a0.toNat := by simpa using (List.getElem?_eq_some_iff.1 hb).1
      rw [← toNat_getD_streamBits (src := s.source) (br := s.br) .msb hi, List.getD_eq_getElem?_getD,
        hb, Option.getD_some, Bool.toNat_eq_one]

/-- Settles O30: the loop over all the pairs leaves no pixel to go. -/
theorem maskRleRuns : Obligations.MaskRleRuns := by
  intro s sl runs hfits hpos hlegal hsum hrem hholds
  have hs : s.HoldsRuns runs := ⟨hfits, (aligned_iff _).2 hpos, hlegal, hrem, hholds⟩
  obtain ⟨fuel, -, hexec⟩ := hs.exec_maskRle (left := 0) hsum sl
  rw [hexec, rleRuns_no_pixels_left, except_ok_bind, List.append_nil]
  rfl

/-- Settles O31: the stops of the loop, the two checks, and the loop after the legal pairs, with pixels
still to go. -/
theorem maskRleErrors : Obligations.MaskRleErrors := by
  intro s sl
  refine ⟨fun t => exec_maskRle_not_truncated, fun hfits => ?_, fun hfits hpos => ?_,
    fun runs hfits hpos hlegal hlt hrem hholds => ?_⟩
  · rw [exec_maskRle]
    exact command_ensure_of_not (by rw [hfits]; exact Bool.false_ne_true)
  · rw [exec_maskRle]
    exact (command_ensure_of hfits _).trans (command_ensure_of_not (by rwa [aligned_iff]))
  have hs : s.HoldsRuns runs := ⟨hfits, (aligned_iff _).2 hpos, hlegal, hrem, hholds⟩
  have hleft : s.a0.toNat - (runs.map Prod.snd).sum ≠ 0 := by omega
  have hbytes : 40 * runs.length = 8 * (5 * runs.length) := by omega
  have ha : (s.br.advance (40 * runs.length)).aligned = true := by
    rw [hbytes]
    exact aligned_advance _ hs.aligned
  have hcur : (s.br.advance (40 * runs.length)).cur = s.br.cur + 5 * runs.length := by
    rw [hbytes, cur_advance]
  refine ⟨fun hmissing => hs.exec_maskRle_fails hlt sl fun fuel =>
    rleRuns_missing_pair hleft ?_, fun value run hvalue hrun hroom hpair => ?_⟩
  · rw [rem_advance, hcur]
    exact hmissing.imp (by omega) id
  have hround (fuel : Nat) := rleRuns_pair (op := 0x32) (fuel := fuel) hleft ha
    (by rw [rem_advance]; omega) hvalue hrun (hcur ▸ hpair)
  refine ⟨fun hbad => ?_, fun hok hempty => ?_, fun hok hover => ?_⟩ <;>
    refine hs.exec_maskRle_fails hlt sl fun fuel => ?_
  · rw [hround, ensure_false _ hbad.not_ge, except_error_bind]
  · rw [hround, ensure_true _ hok, except_ok_bind, ensure_false _ (by omega), except_error_bind]
  · rw [hround, ensure_true _ hok, except_ok_bind, ensure_true _ (by omega), except_ok_bind,
      ensure_false _ (by omega), except_error_bind]

end Sys2Proof.Machine

/-!
SUPPORT. The canonical Huffman code of a table of lengths (43_huffman.md R242 to R244).

The symbols stand in the order (length, symbol), and each code is the next one after the code before it.
Widened to `MAX_CODE_LEN` bits, the patterns that begin with a code `c` of `l` bits are the numbers from
`c * 2^(32 - l)` up to `(c + 1) * 2^(32 - l)`; the codes of a table tile an initial segment of the numbers
with these intervals, in their order. The Kraft sum is the segment's end, so a sum of at most `2^32` gives
every code its length, and since the intervals are disjoint, no code begins another one.
-/

namespace Sys2Proof.Machine

/-! ### The symbols present, in canonical order -/

/-- The order of 43_huffman.md R243: by code length, then by symbol. -/
def CodeOrder (p q : Byte × Nat) : Prop := p.2 < q.2 ∨ (p.2 = q.2 ∧ p.1.toNat < q.1.toNat)

theorem CodeOrder.ne {p q : Byte × Nat} (h : CodeOrder p q) : p ≠ q := by
  rintro rfl
  rcases h with h | ⟨-, h⟩ <;> exact lt_irrefl _ h

theorem CodeOrder.len_le {p q : Byte × Nat} (h : CodeOrder p q) : p.2 ≤ q.2 :=
  h.elim le_of_lt fun h => h.1.le

/-- A symbol with its length, where the length is not 0. -/
def presentSymbol : Byte × Nat → Option (Byte × Nat)
  | (l, s) => if l = 0 then none else some (BitVec.ofNat 8 s, l.toNat)

theorem presentSymbols_eq_filterMap (lens : List Byte) :
    presentSymbols lens = lens.zipIdx.filterMap presentSymbol := rfl

theorem length_toNat_pos_iff {l : Byte} : 0 < l.toNat ↔ l ≠ 0 :=
  Nat.pos_iff_ne_zero.trans (not_congr (BitVec.toNat_inj (y := 0)))

theorem presentSymbol_eq_some {l : Byte} {s : Nat} {p : Byte × Nat} :
    presentSymbol (l, s) = some p ↔ 0 < l.toNat ∧ (BitVec.ofNat 8 s, l.toNat) = p := by
  rw [length_toNat_pos_iff, presentSymbol, Option.ite_none_left_eq_some, Option.some.injEq]

section Lengths

variable {lens : List Byte}

/-- A symbol is present where its length is not 0. -/
theorem mem_presentSymbols (hlen : lens.length = 256) {sym : Byte} {l : Nat} :
    (sym, l) ∈ presentSymbols lens ↔ 0 < l ∧ l = (lens.getD sym.toNat 0).toNat := by
  have hsym : sym.toNat < lens.length := hlen ▸ sym.isLt
  rw [List.getD_eq_getElem _ _ hsym, presentSymbols_eq_filterMap, List.mem_filterMap]
  constructor
  · rintro ⟨⟨a, i⟩, hmem, hp⟩
    obtain ⟨hi, ha⟩ := List.getElem?_eq_some_iff.1 (List.mem_zipIdx_iff_getElem?.1 hmem)
    obtain ⟨hpos, hp⟩ := presentSymbol_eq_some.1 hp
    obtain ⟨rfl, rfl⟩ := Prod.mk.inj hp
    have htoNat : (BitVec.ofNat 8 i).toNat = i := Nat.mod_eq_of_lt (hi.trans_eq hlen)
    simp only [htoNat]
    exact ⟨hpos, congrArg BitVec.toNat ha.symm⟩
  · rintro ⟨hpos, rfl⟩
    refine ⟨(lens[sym.toNat], sym.toNat),
      List.mem_zipIdx_iff_getElem?.2 (List.getElem?_eq_getElem hsym),
      presentSymbol_eq_some.2 ⟨hpos, ?_⟩⟩
    rw [BitVec.ofNat_toNat, BitVec.setWidth_eq]

theorem presentSymbols_pairwise (hlen : lens.length = 256) :
    (presentSymbols lens).Pairwise fun p q => p.1.toNat < q.1.toNat := by
  rw [presentSymbols_eq_filterMap, List.pairwise_filterMap, List.pairwise_iff_getElem]
  intro i j hi hj hij p hp q hq
  rw [List.length_zipIdx, hlen] at hi hj
  rw [List.getElem_zipIdx, presentSymbol_eq_some] at hp hq
  rw [← hp.2, ← hq.2]
  simp only [BitVec.toNat_ofNat]
  omega

theorem mem_canonicalOrder {p : Byte × Nat} :
    p ∈ canonicalOrder lens ↔ p ∈ presentSymbols lens ∧ 1 ≤ p.2 ∧ p.2 ≤ 32 := by
  simp only [canonicalOrder, Config.maxCodeLen, List.mem_flatMap, List.mem_range'_1, List.mem_filter,
    beq_iff_eq]
  constructor
  · rintro ⟨l, ⟨h1, h32⟩, hp, rfl⟩
    exact ⟨hp, h1, by omega⟩
  · rintro ⟨hp, h1, h32⟩
    exact ⟨p.2, ⟨h1, by omega⟩, hp, rfl⟩

/-- The canonical order is sorted by length, then by symbol (43_huffman.md R243). -/
theorem canonicalOrder_pairwise (hlen : lens.length = 256) :
    (canonicalOrder lens).Pairwise CodeOrder := by
  rw [canonicalOrder, List.pairwise_flatMap]
  refine ⟨fun l _ => ?_, (List.pairwise_lt_range' 1).imp fun hlt p hp q hq => .inl ?_⟩
  · refine ((presentSymbols_pairwise hlen).filter _).imp_of_mem fun hp hq hsym => .inr ⟨?_, hsym⟩
    rw [beq_iff_eq.1 (List.mem_filter.1 hp).2, beq_iff_eq.1 (List.mem_filter.1 hq).2]
  · rwa [beq_iff_eq.1 (List.mem_filter.1 hp).2, beq_iff_eq.1 (List.mem_filter.1 hq).2]

/-- Where no length is above `MAX_CODE_LEN`, every symbol present has a place in the order. -/
theorem mem_canonicalOrder_of_le (hlen : lens.length = 256) (hmax : ∀ l ∈ lens, l.toNat ≤ 32)
    {sym : Byte} {l : Nat} :
    (sym, l) ∈ canonicalOrder lens ↔ 0 < l ∧ l = (lens.getD sym.toNat 0).toNat := by
  rw [mem_canonicalOrder, mem_presentSymbols hlen]
  refine ⟨And.left, fun h => ⟨h, h.1, ?_⟩⟩
  have hsym : sym.toNat < lens.length := hlen ▸ sym.isLt
  rw [h.2, List.getD_eq_getElem _ _ hsym]
  exact hmax _ (List.getElem_mem hsym)

theorem canonicalOrder_perm (hlen : lens.length = 256) (hmax : ∀ l ∈ lens, l.toNat ≤ 32) :
    (canonicalOrder lens).Perm (presentSymbols lens) := by
  refine (List.perm_ext_iff_of_nodup ((canonicalOrder_pairwise hlen).imp CodeOrder.ne)
    ((presentSymbols_pairwise hlen).imp fun hlt heq => ?_)).2 fun p => ?_
  · exact hlt.ne (congrArg (fun p => p.1.toNat) heq)
  · rw [mem_canonicalOrder_of_le hlen hmax, mem_presentSymbols hlen]

/-- The terms of the Kraft sum, symbol by symbol; an absent symbol has none. -/
theorem sum_presentSymbol (ls : List Byte) (k : Nat) :
    (((ls.zipIdx k).filterMap presentSymbol).map fun p => 2 ^ (32 - p.2)).sum =
      ∑ s ∈ Finset.range ls.length,
        if 0 < (ls.getD s 0).toNat then 2 ^ (32 - (ls.getD s 0).toNat) else 0 := by
  induction ls generalizing k with
  | nil => rfl
  | cons l ls ih =>
    rw [List.zipIdx_cons, List.length_cons, Finset.sum_range_succ']
    simp only [List.getD_cons_zero, List.getD_cons_succ, ← ih (k + 1)]
    by_cases hpos : 0 < l.toNat
    · rw [List.filterMap_cons_some (presentSymbol_eq_some.2 ⟨hpos, rfl⟩), List.map_cons,
        List.sum_cons, if_pos hpos, add_comm]
    · rw [List.filterMap_cons_none, if_neg hpos, add_zero]
      exact Option.eq_none_iff_forall_ne_some.2 fun _ hp => hpos (presentSymbol_eq_some.1 hp).1

/-- The model's Kraft sum is the sum over all the symbols (43_huffman.md R242). -/
theorem kraftSum_eq_kraftOf (hlen : lens.length = 256) : kraftSum lens = kraftOf lens := by
  rw [kraftOf, ← hlen]
  exact sum_presentSymbol lens 0

end Lengths

/-! ### The codes, one after another -/

/-- A symbol with its code length. -/
def HuffEntry.key (e : HuffEntry) : Byte × Nat := (e.sym, e.len)

/-- `f` has the code after that of `e` (43_huffman.md R243). -/
def NextCode (e f : HuffEntry) : Prop := f.code = (e.code + 1) * 2 ^ (f.len - e.len)

theorem map_key_codesAfter (code len : Nat) (ps : List (Byte × Nat)) :
    (codesAfter code len ps).map HuffEntry.key = ps := by
  induction ps generalizing code len with
  | nil => rfl
  | cons p ps ih => exact congrArg (p :: ·) (ih _ _)

theorem map_key_canonicalCodes (ps : List (Byte × Nat)) :
    (canonicalCodes ps).map HuffEntry.key = ps := by
  cases ps with
  | nil => rfl
  | cons p ps => exact congrArg (p :: ·) (map_key_codesAfter _ _ ps)

theorem codesAfter_isChain (e : HuffEntry) (ps : List (Byte × Nat)) :
    (e :: codesAfter e.code e.len ps).IsChain NextCode := by
  induction ps generalizing e with
  | nil => exact .singleton e
  | cons p ps ih => exact .cons_cons rfl (ih ⟨p.1, p.2, (e.code + 1) * 2 ^ (p.2 - e.len)⟩)

theorem canonicalCodes_isChain (ps : List (Byte × Nat)) :
    (canonicalCodes ps).IsChain NextCode := by
  cases ps with
  | nil => exact .nil
  | cons p ps => exact codesAfter_isChain ⟨p.1, p.2, 0⟩ ps

theorem canonicalCodes_head (ps : List (Byte × Nat)) :
    ∀ e ∈ (canonicalCodes ps).head?, e.code = 0 := by
  cases ps with
  | nil => exact nofun
  | cons p ps =>
    rintro e he
    rw [← Option.some.inj he]

/-! ### The intervals of the codes -/

/-- The first `MAX_CODE_LEN`-bit pattern that begins with the code. -/
def HuffEntry.lower (e : HuffEntry) : Nat := e.code * 2 ^ (32 - e.len)

/-- The end of the `MAX_CODE_LEN`-bit patterns that begin with the code. -/
def HuffEntry.upper (e : HuffEntry) : Nat := (e.code + 1) * 2 ^ (32 - e.len)

/-- A symbol's term in the Kraft sum (43_huffman.md R242). -/
def HuffEntry.width (e : HuffEntry) : Nat := 2 ^ (32 - e.len)

theorem HuffEntry.upper_eq (e : HuffEntry) : e.upper = e.lower + e.width := Nat.succ_mul _ _

theorem HuffEntry.width_pos (e : HuffEntry) : 0 < e.width := Nat.two_pow_pos _

/-- The widths of a longer code's patterns are measured by those of a shorter one's. -/
theorem two_pow_sub_mul {m n : Nat} (hmn : m ≤ n) (hn : n ≤ 32) :
    2 ^ (n - m) * 2 ^ (32 - n) = 2 ^ (32 - m) := by
  rw [← pow_add]
  congr 1
  omega

/-- The next code's interval begins where the code's ends. -/
theorem NextCode.lower_eq {e f : HuffEntry} (h : NextCode e f) (hle : e.len ≤ f.len)
    (hmax : f.len ≤ 32) : f.lower = e.upper := by
  rw [HuffEntry.lower, h, mul_assoc, two_pow_sub_mul hle hmax, HuffEntry.upper]

/-- A code that begins with another one has its interval inside the other's. -/
theorem interval_of_begins {e f : HuffEntry} (hle : e.len ≤ f.len) (hmax : f.len ≤ 32)
    (h : f.code / 2 ^ (f.len - e.len) = e.code) : e.lower ≤ f.lower ∧ f.upper ≤ e.upper := by
  obtain ⟨hlo, hhi⟩ := (Nat.div_eq_iff (Nat.two_pow_pos _)).1 h
  simp only [HuffEntry.lower, HuffEntry.upper, ← two_pow_sub_mul hle hmax, ← mul_assoc]
  have hpos := Nat.two_pow_pos (f.len - e.len)
  refine ⟨Nat.mul_le_mul_right _ hlo, Nat.mul_le_mul_right _ ?_⟩
  rw [Nat.succ_mul]
  omega

/-- Intervals one after another, the first one at `a`: they are disjoint, and end at the sum of their
widths. -/
theorem intervals_tile {es : List HuffEntry} {a : Nat}
    (hchain : es.IsChain fun e f => f.lower = e.upper) (hhead : ∀ e ∈ es.head?, e.lower = a) :
    es.Pairwise (fun e f => e.upper ≤ f.lower) ∧
      ∀ e ∈ es, a ≤ e.lower ∧ e.upper ≤ a + (es.map HuffEntry.width).sum := by
  induction es generalizing a with
  | nil => exact ⟨.nil, nofun⟩
  | cons e es ih =>
    obtain rfl := hhead e rfl
    obtain ⟨hnext, hrest⟩ := List.isChain_cons.1 hchain
    obtain ⟨hpair, hbounds⟩ := ih hrest hnext
    have hupper := e.upper_eq
    rw [List.map_cons, List.sum_cons]
    refine ⟨.cons (fun f hf => (hbounds f hf).1) hpair, List.forall_mem_cons.2 ⟨?_, fun f hf => ?_⟩⟩
    · omega
    · have := hbounds f hf
      omega

/-! ### The table of accepted lengths -/

section Accepted

variable {lens : List Byte}

theorem map_key_entries (lens : List Byte) :
    (tablesOf lens).entries.map HuffEntry.key = canonicalOrder lens :=
  map_key_canonicalCodes _

/-- The entries are the symbols present (43_huffman.md R243). -/
theorem key_mem_iff (h : acceptedLengths lens) {sym : Byte} {l : Nat} :
    (∃ e ∈ (tablesOf lens).entries, e.sym = sym ∧ e.len = l) ↔
      0 < l ∧ l = (lens.getD sym.toNat 0).toNat := by
  obtain ⟨hlen, hmax, -⟩ := h
  rw [← mem_canonicalOrder_of_le hlen hmax, ← map_key_entries, List.mem_map]
  simp only [HuffEntry.key, Prod.mk.injEq]

theorem len_bounds {e : HuffEntry} (he : e ∈ (tablesOf lens).entries) : 1 ≤ e.len ∧ e.len ≤ 32 :=
  (mem_canonicalOrder.1 (map_key_entries lens ▸ List.mem_map_of_mem he)).2

theorem entries_pairwise (h : acceptedLengths lens) :
    (tablesOf lens).entries.Pairwise fun e f => CodeOrder e.key f.key := by
  rw [← List.pairwise_map, map_key_entries]
  exact canonicalOrder_pairwise h.1

/-- Two entries in a row: their order, and the second code (43_huffman.md R243). -/
theorem entries_isChain (h : acceptedLengths lens) :
    (tablesOf lens).entries.IsChain fun e f => CodeOrder e.key f.key ∧ NextCode e f :=
  List.isChain_iff_getElem.2 fun i hi =>
    ⟨List.isChain_iff_getElem.1 (entries_pairwise h).isChain i hi,
      List.isChain_iff_getElem.1 (canonicalCodes_isChain _) i hi⟩

theorem sum_width_entries (h : acceptedLengths lens) :
    ((tablesOf lens).entries.map HuffEntry.width).sum = kraftSum lens := by
  obtain ⟨hlen, hmax, -⟩ := h
  rw [kraftSum, ← ((canonicalOrder_perm hlen hmax).map _).sum_eq, ← map_key_entries, List.map_map]
  rfl

/-- The codes of accepted lengths tile an initial segment of the `2^32` patterns. -/
theorem entries_tile (h : acceptedLengths lens) :
    (tablesOf lens).entries.Pairwise (fun e f => e.upper ≤ f.lower) ∧
      ∀ e ∈ (tablesOf lens).entries, e.upper ≤ 2 ^ 32 := by
  have hchain : (tablesOf lens).entries.IsChain fun e f => f.lower = e.upper :=
    (entries_isChain h).imp_of_mem_imp fun _ _ _ hf ⟨horder, hnext⟩ =>
      hnext.lower_eq horder.len_le (len_bounds hf).2
  have hhead : ∀ e ∈ (tablesOf lens).entries.head?, e.lower = 0 := fun e he => by
    rw [HuffEntry.lower, canonicalCodes_head _ e he, Nat.zero_mul]
  obtain ⟨hpair, hbounds⟩ := intervals_tile hchain hhead
  rw [sum_width_entries h, Nat.zero_add] at hbounds
  exact ⟨hpair, fun e he => (hbounds e he).2.trans h.2.2⟩

/-- Two entries are one, or their intervals are disjoint. -/
theorem disjoint_of_ne (h : acceptedLengths lens) {e f : HuffEntry}
    (he : e ∈ (tablesOf lens).entries) (hf : f ∈ (tablesOf lens).entries) (hne : e ≠ f) :
    e.upper ≤ f.lower ∨ f.upper ≤ e.lower := by
  have hsymm : Std.Symm fun e f : HuffEntry => e.upper ≤ f.lower ∨ f.upper ≤ e.lower :=
    ⟨fun _ _ => Or.symm⟩
  have hpair : (tablesOf lens).entries.Pairwise fun e f => e.upper ≤ f.lower ∨ f.upper ≤ e.lower :=
    (entries_tile h).1.imp .inl
  exact hpair.forall he hf hne

end Accepted

/-- Settles O34: a code's interval ends inside the `2^32` patterns, and a code that begins with another
one would have its interval inside the other's. -/
theorem canonicalCodesPrefixFree : Obligations.CanonicalCodesPrefixFree := by
  intro lens h
  refine ⟨fun e he => ?_, fun e he f hf hle hbegins => by_contra fun hne => ?_⟩
  · have hupper := (entries_tile h).2 e he
    rw [HuffEntry.upper, ← two_pow_sub_mul (Nat.zero_le e.len) (len_bounds he).2,
      Nat.sub_zero] at hupper
    exact Nat.le_of_mul_le_mul_right hupper (Nat.two_pow_pos _)
  · obtain ⟨hlower, hupper⟩ := interval_of_begins hle (len_bounds hf).2 hbegins
    have hwidth := f.width_pos
    have := f.upper_eq
    have := disjoint_of_ne h he hf hne
    omega

end Sys2Proof.Machine

/-!
SUPPORT. The Huffman unit's table commands, path by path (43_huffman.md R241 to R244, R247): the checks in
order, and the table that HUF.BUILD stores for accepted lengths.
-/

namespace Sys2Proof.Machine

/-! ### Lengths and segments -/

/-- Settles O32: the checks in order, then the bytes that `IN` holds. -/
theorem hufLoadlenSeg : Obligations.HufLoadlenSeg := by
  refine ⟨fun s lens hlen hholds => ?_, fun s len hlen hholds => ?_⟩
  · change execHufLoadlen s = _
    rw [execHufLoadlen, loadLengths, bind_assoc]
    refine command_ensure (by rw [aligned_iff]) fun ha => ?_
    rw [bind_assoc]
    refine command_ensure not_le.symm fun hrem => ?_
    have hread := memRead_of_holds (hholds ((aligned_iff _).1 ha) hrem)
    rw [hlen] at hread
    rw [BitReader.cur, hread]
    rfl
  · change execHufSeg s = _
    rw [execHufSeg, segmentWindow, bind_assoc]
    refine command_ensure (by rw [aligned_iff]) fun ha => ?_
    rw [bind_assoc]
    refine command_ensure not_le.symm fun hrem => ?_
    have hread := uint_of_holds (hholds ((aligned_iff _).1 ha) hrem) hlen
    rw [BitReader.cur, hread, except_ok_bind, bind_assoc]
    refine command_ensure not_le.symm fun hend => ?_
    have hhi : s.br.lo + s.br.pos / 8 + 4 + len = s.br.lo + (s.br.pos + 32) / 8 + len := by omega
    rw [hhi, ← toReg_of_lt (hlen.trans (by norm_num))]
    rfl

/-! ### The lookup table -/

/-- A search for what is there once finds it. -/
theorem find?_eq_some_iff_of_unique {α : Type} {p : α → Bool} {l : List α} {a : α}
    (hunique : ∀ b ∈ l, p b = true → ∀ c ∈ l, p c = true → b = c) :
    l.find? p = some a ↔ a ∈ l ∧ p a = true := by
  refine ⟨fun h => ⟨List.mem_of_find?_eq_some h, List.find?_some h⟩, fun ⟨ha, hpa⟩ => ?_⟩
  obtain ⟨b, hb⟩ := Option.isSome_iff_exists.1 (List.find?_isSome.2 ⟨a, ha, hpa⟩)
  rw [hb, hunique b (List.mem_of_find?_eq_some hb) (List.find?_some hb) a ha hpa]

section Accepted

variable {lens : List Byte}

/-- The code of `e` begins the `LUT_BITS` bits `p`, and is short enough for the lookup table. -/
def HuffEntry.StartsIndex (e : HuffEntry) (p : Nat) : Prop :=
  e.len ≤ 12 ∧ p / 2 ^ (12 - e.len) = e.code

/-- At most one code begins the bits (43_huffman.md R244). -/
theorem HuffEntry.StartsIndex.unique (h : acceptedLengths lens) {p : Nat} {e f : HuffEntry}
    (he : e ∈ (tablesOf lens).entries) (hf : f ∈ (tablesOf lens).entries) (hep : e.StartsIndex p)
    (hfp : f.StartsIndex p) : e = f := by
  wlog hle : e.len ≤ f.len generalizing e f
  · exact (this hf he hfp hep (le_of_not_ge hle)).symm
  refine (canonicalCodesPrefixFree lens h).2 e he f hf hle ?_
  obtain ⟨-, hecode⟩ := hep
  obtain ⟨hfshort, hfcode⟩ := hfp
  rw [← hfcode, ← hecode, Nat.div_div_eq_div_mul, ← pow_add]
  congr 2
  omega

/-- The lookup table's entry is the short code that begins the index (43_huffman.md R244). -/
theorem lutEntry_eq_some (h : acceptedLengths lens) {p : Nat} {sym : Byte} {l : Nat} :
    lutEntry (tablesOf lens).entries p = some (sym, l) ↔
      ∃ e ∈ (tablesOf lens).entries, e.sym = sym ∧ e.len = l ∧ e.StartsIndex p := by
  have htest (e : HuffEntry) : (decide (e.len ≤ Config.lutBits) &&
      p / 2 ^ (Config.lutBits - e.len) == e.code) = true ↔ e.StartsIndex p := by
    rw [Bool.and_eq_true, decide_eq_true_eq, beq_iff_eq]
    rfl
  have hunique : ∀ e ∈ (tablesOf lens).entries, _ → ∀ f ∈ (tablesOf lens).entries, _ → e = f :=
    fun e he hep f hf hfp => HuffEntry.StartsIndex.unique h he hf ((htest e).1 hep) ((htest f).1 hfp)
  rw [lutEntry, Option.map_eq_some_iff]
  simp only [find?_eq_some_iff_of_unique hunique, htest, Prod.mk.injEq]
  exact exists_congr fun e => by tauto

theorem getElem?_lut {p : Nat} (hp : p < 4096) :
    (tablesOf lens).lut[p]? = some (lutEntry (tablesOf lens).entries p) := by
  have hp' : p < 2 ^ Config.lutBits := hp
  simp only [tablesOf, buildLut, List.getElem?_map, List.getElem?_range hp', Option.map_some]

/-! ### HUF.BUILD -/

theorem longestCode_eq (entries : List HuffEntry) :
    longestCode entries = (entries.getLast?.map HuffEntry.len).getD 0 := by
  unfold longestCode
  cases entries.getLast? <;> rfl

/-- Accepted lengths give the table that 43_huffman.md R243 and R244 describe. -/
theorem tablesOf_canonical (h : acceptedLengths lens) : (tablesOf lens).Canonical lens where
  present _ _ := key_mem_iff h
  first e he := canonicalCodes_head _ e (by rwa [List.head?_eq_getElem?])
  next i e f he hf := by
    obtain ⟨_, rfl⟩ := List.getElem?_eq_some_iff.1 he
    obtain ⟨hi, rfl⟩ := List.getElem?_eq_some_iff.1 hf
    exact List.isChain_iff_getElem.1 (entries_isChain h) i hi
  longest := longestCode_eq _
  lutSize := by
    rw [tablesOf, buildLut, List.length_map, List.length_range]
    rfl
  lutHit p hp sym l := by
    rw [getElem?_lut hp, Option.some.injEq, lutEntry_eq_some h]
    simp only [HuffEntry.StartsIndex]
    exact exists_congr fun e => and_congr_right fun _ => and_congr_right fun _ =>
      and_congr_right fun hl => by rw [hl]

end Accepted

/-- Settles O33: HUF.BUILD's body answers the table of accepted lengths, and its only error else. -/
theorem hufBuildCases : Obligations.HufBuildCases := by
  intro s hlen
  change (_ → execHufBuild s = _) ∧ (_ → _ → ∃ t, execHufBuild s = _ ∧ _)
  simp only [execHufBuild, ← kraftSum_eq_kraftOf hlen]
  refine ⟨fun hbad => ?_, fun hmax hkraft => ⟨tablesOf s.ht.lens, ?_,
    tablesOf_canonical ⟨hlen, hmax, hkraft⟩⟩⟩
  · cases hbuild : buildTables s.ht.lens with
    | error st => rw [buildTables_eq_error hbuild]; rfl
    | ok t =>
      obtain ⟨hmax, hkraft, -⟩ := buildTables_eq_ok.1 hbuild
      rcases hbad with ⟨l, hl, hlong⟩ | hover
      · exact absurd (hmax l hl) hlong.not_ge
      · exact absurd hkraft hover.not_ge
  · rw [buildTables_eq_ok.2 ⟨hmax, hkraft, rfl⟩]
    rfl

end Sys2Proof.Machine

/-!
SUPPORT. Decoding symbols (43_huffman.md R245 to R251). The next `n` stream bits have the value
`streamValue`, and a longer read begins with a shorter one. Since no code begins another one, at most one
symbol's code begins the next bits, so the loop of `hdec` stops at that symbol's length, and the lookup
table answers the same symbol.
-/

namespace Sys2Proof.Machine

/-! ### The value of the next bits -/

section Bits

variable {src : Source} {br : BitReader}

theorem streamValue_succ (n : Nat) : src.streamValue br (n + 1) .msb =
    2 * src.streamValue br n .msb + src.streamBit br.lo (br.pos + n) .msb := by
  simp only [Source.streamValue, Finset.sum_range_succ, Finset.mul_sum, Nat.add_sub_cancel,
    Nat.sub_self, pow_zero, mul_one]
  congr 1
  refine Finset.sum_congr rfl fun j hj => ?_
  have hj := Finset.mem_range.1 hj
  rw [show n - j = n - 1 - j + 1 by omega, pow_succ]
  ring

/-- A longer read begins with a shorter one (40_bitreader.md R152). -/
theorem streamValue_div {m n : Nat} (h : m ≤ n) :
    src.streamValue br n .msb / 2 ^ (n - m) = src.streamValue br m .msb := by
  induction n, h using Nat.le_induction with
  | base => simp
  | succ n hmn ih =>
    have hbit := streamBit_lt_two (src := src) br.lo (br.pos + n) .msb
    rw [show n + 1 - m = 1 + (n - m) by omega, pow_add, ← Nat.div_div_eq_div_mul, streamValue_succ,
      pow_one, show (2 * src.streamValue br n .msb + src.streamBit br.lo (br.pos + n) .msb) / 2 =
        src.streamValue br n .msb by omega, ih]

theorem streamValue_lt (n : Nat) : src.streamValue br n .msb < 2 ^ n := by
  have hzero := streamValue_div (src := src) (br := br) (Nat.zero_le n)
  exact (Nat.div_eq_zero_iff_lt (Nat.two_pow_pos n)).1 hzero

/-- The value's bits are the stream's, the most significant first (40_bitreader.md R152). -/
theorem streamBit_eq_testBit {n j : Nat} (hj : j < n) : src.streamBit br.lo (br.pos + j) .msb =
    ((src.streamValue br n .msb).testBit (n - 1 - j)).toNat := by
  have hbit := streamBit_lt_two (src := src) br.lo (br.pos + j) .msb
  rw [Nat.toNat_testBit, show n - 1 - j = n - (j + 1) by omega, streamValue_div hj, streamValue_succ]
  omega

theorem length_msbBits (n v : Nat) : (msbBits n v).length = n := by simp [msbBits]

theorem getD_msbBits {n v j : Nat} (hj : j < n) :
    (msbBits n v).getD j false = v.testBit (n - 1 - j) := by simp [msbBits, hj]

/-- The next bits are those of `v` exactly when they have the value `v`. -/
theorem bitsAre_msbBits_iff {n v : Nat} (hv : v < 2 ^ n) :
    src.BitsAre br (msbBits n v) ↔
      n ≤ br.rem ∧ src.BitsReadable br n ∧ src.streamValue br n .msb = v := by
  rw [Source.BitsAre, length_msbBits]
  refine and_congr_right fun _ => and_congr_right fun _ => ⟨fun h => ?_, ?_⟩
  · refine Nat.eq_of_testBit_eq fun i => ?_
    rcases lt_or_ge i n with hi | hi
    · have hbit := h (n - 1 - i) (by omega)
      rw [streamBit_eq_testBit (n := n) (by omega), getD_msbBits (by omega),
        show n - 1 - (n - 1 - i) = i by omega] at hbit
      rw [Bool.eq_iff_iff, ← Bool.toNat_eq_one, hbit, Bool.toNat_eq_one]
    · have hpow : 2 ^ n ≤ 2 ^ i := Nat.pow_le_pow_right two_pos hi
      rw [Nat.testBit_lt_two_pow ((streamValue_lt n).trans_le hpow),
        Nat.testBit_lt_two_pow (hv.trans_le hpow)]
  · rintro rfl j hj
    rw [streamBit_eq_testBit hj, getD_msbBits hj]

/-- A read that succeeds finds every byte it touches. -/
theorem bitsReadable_of_peekBits {n v : Nat} {ord : BitOrder} (h : src.peekBits br n ord = .ok v) :
    src.BitsReadable br n := by
  intro j hj
  obtain ⟨bits, hbits, -⟩ := peekBits_eq_ok.1 h
  obtain ⟨hend, rfl, hread⟩ := nextBits_eq_ok.1 hbits
  obtain ⟨b, hb, -⟩ := hread j _ (List.getElem?_eq_getElem hj)
  exact ⟨by omega, Option.isSome_iff_exists.2 ⟨b, hb⟩⟩

/-- Bits one after another: the first ones at the cursor, the others past them. -/
theorem bitsAre_append {x y : List Bool} (h : src.BitsAre br (x ++ y)) :
    src.BitsAre br x ∧ src.BitsAre (br.advance x.length) y := by
  obtain ⟨hrem, hread, hbits⟩ := h
  rw [List.length_append] at hrem hread hbits
  refine ⟨⟨by omega, fun j hj => hread j (by omega), fun j hj => ?_⟩,
    ⟨by rw [rem_advance]; omega, fun j hj => ?_, fun j hj => ?_⟩⟩
  · rw [hbits j (by omega), List.getD_append _ _ _ _ hj]
  · simpa only [advance_lo, advance_pos, Nat.add_assoc] using hread (x.length + j) (by omega)
  · have hbit := hbits (x.length + j) (by omega)
    rw [List.getD_append_right _ _ _ _ (by omega), Nat.add_sub_cancel_left] at hbit
    simpa only [advance_lo, advance_pos, Nat.add_assoc] using hbit

end Bits

/-! ### The loop of `hdec` -/

section Loop

variable {src : Source} {br : BitReader} {entries : List HuffEntry} {fuel l : Nat}

/-- The next bits begin with the symbol's code, inside the window (43_huffman.md R245). -/
structure Source.AtCode (src : Source) (br : BitReader) (e : HuffEntry) : Prop where
  inWindow : e.len ≤ br.rem
  readable : src.BitsReadable br e.len
  value : src.streamValue br e.len .msb = e.code

/-- A round that finds its bits' code. -/
theorem decodeFrom_found {e : HuffEntry} (hrem : l ≤ br.rem) (hread : src.BitsReadable br l)
    (h : matchCode entries l (src.streamValue br l .msb) = some e) :
    decodeFrom src br entries (fuel + 1) l = .ok (e.sym, br.advance l) := by
  rw [decodeFrom, ensure_true _ hrem, except_ok_bind, peekBits_of_readable _ hread, except_ok_bind]
  simp only [h]

/-- A round whose bits are no code. -/
theorem decodeFrom_missed (hrem : l ≤ br.rem) (hread : src.BitsReadable br l)
    (h : matchCode entries l (src.streamValue br l .msb) = none) :
    decodeFrom src br entries (fuel + 1) l = decodeFrom src br entries fuel (l + 1) := by
  rw [decodeFrom, ensure_true _ hrem, except_ok_bind, peekBits_of_readable _ hread, except_ok_bind]
  simp only [h]

/-- A symbol found in a round stands at the cursor. -/
theorem atCode_of_matchCode {e : HuffEntry} (hrem : l ≤ br.rem) (hread : src.BitsReadable br l)
    (h : matchCode entries l (src.streamValue br l .msb) = some e) :
    e ∈ entries ∧ e.len = l ∧ src.AtCode br e := by
  obtain ⟨he, rfl, hcode⟩ := matchCode_eq_some h
  exact ⟨he, rfl, hrem, hread, hcode.symm⟩

theorem matchCode_eq_none {w : Nat} (h : matchCode entries l w = none) :
    ∀ e ∈ entries, e.len = l → e.code ≠ w := by
  intro e he hl hw
  have hfalse := List.find?_eq_none.1 h e he
  simp [hl, hw] at hfalse

/-- Where one symbol alone stands at the cursor, the loop answers it (43_huffman.md R245, R246). -/
theorem decodeFrom_of_atCode {e : HuffEntry} (he : e ∈ entries) (hat : src.AtCode br e)
    (hunique : ∀ f ∈ entries, src.AtCode br f → f = e) (hl : l ≤ e.len) (hfuel : e.len < l + fuel) :
    decodeFrom src br entries fuel l = .ok (e.sym, br.advance e.len) := by
  induction fuel generalizing l with
  | zero => omega
  | succ fuel ih =>
    have hrem := hl.trans hat.inWindow
    have hread : src.BitsReadable br l := fun j hj => hat.readable j (by omega)
    cases hmatch : matchCode entries l (src.streamValue br l .msb) with
    | some f =>
      obtain ⟨hf, rfl, hatf⟩ := atCode_of_matchCode hrem hread hmatch
      rw [decodeFrom_found hrem hread hmatch, hunique f hf hatf]
    | none =>
      have hne : e.len ≠ l := by
        rintro rfl
        exact matchCode_eq_none hmatch e he rfl hat.value.symm
      rw [decodeFrom_missed hrem hread hmatch]
      exact ih (by omega) (by omega)

/-- Where no symbol stands at the cursor, the loop ends at the window's end or at the longest length
(43_huffman.md R245). -/
theorem decodeFrom_of_not_atCode (hl : l ≤ br.rem + 1)
    (hread : src.BitsReadable br (min (l + fuel - 1) br.rem))
    (hmiss : ∀ e ∈ entries, ¬src.AtCode br e) :
    decodeFrom src br entries fuel l =
      .error (.raise (if br.rem + 1 < l + fuel then .truncated else .huffmanTableCorrupt)) := by
  induction fuel generalizing l with
  | zero =>
    rw [if_neg (by omega)]
    rfl
  | succ fuel ih =>
    rcases Nat.lt_or_ge br.rem l with hend | hrem
    · rw [decodeFrom, ensure_false _ hend.not_ge, if_pos (by omega)]
      rfl
    · have hreadl : src.BitsReadable br l := fun j hj => hread j (by omega)
      cases hmatch : matchCode entries l (src.streamValue br l .msb) with
      | some e =>
        obtain ⟨he, -, hat⟩ := atCode_of_matchCode hrem hreadl hmatch
        exact absurd hat (hmiss e he)
      | none =>
        have hsum : l + (fuel + 1) = l + 1 + fuel := by omega
        rw [hsum] at hread ⊢
        rw [decodeFrom_missed hrem hreadl hmatch]
        exact ih (by omega) hread

end Loop

/-! ### Symbols of a built table -/

section Accepted

variable {src : Source} {br : BitReader} {lens : List Byte}

/-- `AtCode` in the words of 30_encoding.md R118. -/
theorem atCode_iff (h : acceptedLengths lens) {e : HuffEntry} (he : e ∈ (tablesOf lens).entries) :
    src.AtCode br e ↔ src.BitsAre br (msbBits e.len e.code) := by
  rw [bitsAre_msbBits_iff ((canonicalCodesPrefixFree lens h).1 e he)]
  exact ⟨fun ⟨hrem, hread, hvalue⟩ => ⟨hrem, hread, hvalue⟩,
    fun ⟨hrem, hread, hvalue⟩ => ⟨hrem, hread, hvalue⟩⟩

/-- At most one symbol stands at the cursor (43_huffman.md R245). -/
theorem Source.AtCode.unique (h : acceptedLengths lens) {e f : HuffEntry}
    (he : e ∈ (tablesOf lens).entries) (hf : f ∈ (tablesOf lens).entries) (hate : src.AtCode br e)
    (hatf : src.AtCode br f) : e = f := by
  wlog hle : e.len ≤ f.len generalizing e f
  · exact (this hf he hatf hate (le_of_not_ge hle)).symm
  refine (canonicalCodesPrefixFree lens h).2 e he f hf hle ?_
  rw [← hate.value, ← hatf.value, streamValue_div hle]

/-- No code is longer than `HT.maxlen` (43_huffman.md R243). -/
theorem len_le_maxLen (h : acceptedLengths lens) {e : HuffEntry}
    (he : e ∈ (tablesOf lens).entries) : e.len ≤ (tablesOf lens).maxLen := by
  have hsorted : ((tablesOf lens).entries.map HuffEntry.len).Pairwise (· ≤ ·) :=
    List.pairwise_map.2 ((entries_pairwise h).imp CodeOrder.len_le)
  have hlast := hsorted.rel_getLast (List.mem_map_of_mem he)
  rw [List.getLast_map] at hlast
  rw [(tablesOf_canonical h).longest, List.getLast?_eq_getLast_of_ne_nil (List.ne_nil_of_mem he)]
  exact hlast

/-- `hdec` answers the symbol at the cursor and moves by its code (43_huffman.md R245, R246). -/
theorem decodeSymbol_of_atCode (h : acceptedLengths lens) {e : HuffEntry}
    (he : e ∈ (tablesOf lens).entries) (hat : src.AtCode br e) :
    decodeSymbol src br (tablesOf lens) = .ok (e.sym, br.advance e.len) :=
  decodeFrom_of_atCode he hat (fun _ hf hatf => hatf.unique h hf he hat) (len_bounds he).1
    (by have := len_le_maxLen h he; omega)

/-- A hit in the lookup table stands at the cursor (43_huffman.md R249). -/
theorem atCode_of_lutHit (h : acceptedLengths lens) {sym : Byte} {l : Nat}
    (hhit : lutHit src br (tablesOf lens) = some (sym, l)) :
    ∃ e ∈ (tablesOf lens).entries, e.sym = sym ∧ e.len = l ∧ src.AtCode br e := by
  unfold lutHit at hhit
  split at hhit
  · next hrem =>
    split at hhit
    · next p hpeek =>
      have hread := bitsReadable_of_peekBits hpeek
      have hp : src.streamValue br 12 .msb = p :=
        Except.ok.inj ((peekBits_of_readable .msb hread).symm.trans hpeek)
      rw [getElem?_lut (peekBits_lt hpeek), Option.join_some, lutEntry_eq_some h] at hhit
      obtain ⟨e, he, hsym, hlen, hshort, hcode⟩ := hhit
      refine ⟨e, he, hsym, hlen, hshort.trans hrem,
        fun j hj => hread j (hj.trans_le hshort), ?_⟩
      rw [← streamValue_div hshort, hp, hcode]
    · cases hhit
  · cases hhit

/-- The fast path is the slow path (43_huffman.md R249). -/
theorem decodeSymbolFast_eq (h : acceptedLengths lens) :
    decodeSymbolFast src br (tablesOf lens) = decodeSymbol src br (tablesOf lens) := by
  unfold decodeSymbolFast
  split
  · next hhit =>
    obtain ⟨e, he, rfl, rfl, hat⟩ := atCode_of_lutHit h hhit
    rw [decodeSymbol_of_atCode h he hat]
  · rfl

/-- The symbols of a code stream, one after another (43_huffman.md R251). -/
theorem decodeSymbols_of_codeStream (h : acceptedLengths lens) {es : List HuffEntry}
    (hes : ∀ e ∈ es, e ∈ (tablesOf lens).entries) (hbits : src.BitsAre br (codeStream es)) :
    decodeSymbols src (tablesOf lens) es.length br =
      .ok (es.map fun e => e.sym.setWidth 32, br.advance (es.map HuffEntry.len).sum) := by
  induction es generalizing br with
  | nil => rfl
  | cons e es ih =>
    obtain ⟨he, hes⟩ := List.forall_mem_cons.1 hes
    obtain ⟨hcode, hrest⟩ := bitsAre_append (x := msbBits e.len e.code) (y := codeStream es) hbits
    rw [length_msbBits] at hrest
    rw [List.length_cons, decodeSymbols, decodeSymbol_of_atCode h he ((atCode_iff h he).2 hcode),
      except_ok_bind]
    simp only [ih hes hrest, except_ok_bind, advance_advance, List.map_cons, List.sum_cons]

end Accepted

/-! ### The commands -/

section Commands

variable {s : State} {t : HuffTables}

/-- The command's result: the symbol in `R0` and the moved cursor. -/
def State.withSymbol (s : State) (r : Byte × BitReader) : State :=
  { s with r0 := r.1.setWidth 64, br := r.2 }

/-- The check of HT.built where it holds. -/
theorem command_built {op : BitVec 8} (ht : s.ht.tables = some t)
    (f : HuffTables → Except Stop State) :
    command s (builtTables op s.ht >>= f) = command s (f t) := by
  rw [builtTables_eq_ok.2 ht, except_ok_bind]

/-- The check of HT.built where it does not hold (43_huffman.md R245). -/
theorem command_not_built {op : BitVec 8} (ht : s.ht.tables = none)
    (f : HuffTables → Except Stop State) :
    command s (builtTables op s.ht >>= f) = failsWith (.illegalCommand op) s := by
  rw [builtTables, ht]
  rfl

/-- With a built table HUF.DEC, HUF.DECF and HUF.DECS are one command (43_huffman.md R249, R250). -/
theorem exec_decode_of_built (hs : s.ht.Consistent) (ht : s.ht.tables = some t) {i : Instr}
    (hi : i ∈ [Instr.hufDec, .hufDecf, .hufDecs]) :
    exec i s = command s (do let r ← decodeSymbol s.source s.br t; .ok (s.withSymbol r)) := by
  obtain ⟨hacc, rfl⟩ := hs.2 t ht
  simp only [List.mem_cons, List.not_mem_nil, or_false] at hi
  rcases hi with rfl | rfl | rfl
  · exact command_built ht _
  · rw [← decodeSymbolFast_eq hacc]
    exact command_built ht _
  · exact command_built ht _

theorem exec_hufRun : exec .hufRun s = command s (do
    let t ← builtTables 0x46 s.ht
    ensure (s.params.fitsOut s.a0.toNat = true) (.raise .capacityExceeded)
    let r ← decodeSymbols s.source t s.a0.toNat s.br
    .ok { s with codes := r.1, br := r.2 }) := by
  change execHufRun s = _
  simp only [execHufRun, huffmanRun, bind_assoc]

end Commands

/-- Settles O35: with a table the three are one command; without one each is refused. -/
theorem hufFastSlowEqual : Obligations.HufFastSlowEqual := by
  intro s hs
  refine ⟨fun hbuilt => ?_, fun hnone => ⟨command_not_built hnone _, command_not_built hnone _,
    command_not_built hnone _, exec_hufRun.trans (command_not_built hnone _)⟩⟩
  obtain ⟨t, ht⟩ := Option.isSome_iff_exists.1 hbuilt
  have hdecs := exec_decode_of_built hs ht (i := .hufDecs) (by simp)
  exact ⟨(exec_decode_of_built hs ht (by simp)).trans hdecs.symm,
    (exec_decode_of_built hs ht (by simp)).trans hdecs.symm⟩

/-- Settles O36: `hdec` where a symbol stands at the cursor, and where none does. -/
theorem hufDecodeCases : Obligations.HufDecodeCases := by
  intro s t hs ht i hi
  rw [exec_decode_of_built hs ht hi]
  obtain ⟨hacc, rfl⟩ := hs.2 t ht
  refine ⟨fun e he hbits => ?_, fun hread hmiss => ?_⟩
  · rw [decodeSymbol_of_atCode hacc he ((atCode_iff hacc he).2 hbits)]
    rfl
  · have hstop := decodeFrom_of_not_atCode (fuel := (tablesOf s.ht.lens).maxLen) (l := 1)
      (by omega) (by rwa [Nat.add_sub_cancel_left])
      fun e he hat => hmiss e he ((atCode_iff hacc he).1 hat)
    rw [decodeSymbol, hstop]
    simp only [Nat.add_comm s.br.rem, Nat.add_lt_add_iff_left]
    rfl

/-- Settles O37: the check of the capacity, then `decodeSymbols_of_codeStream`. -/
theorem hufRunDecodesCodeStream : Obligations.HufRunDecodesCodeStream := by
  intro s t es hs ht hes hcount hbits
  obtain ⟨hacc, rfl⟩ := hs.2 t ht
  rw [exec_hufRun, command_built ht]
  by_cases hfits : s.params.fitsOut s.a0.toNat = true
  · rw [if_pos hfits, command_ensure_of hfits, ← hcount, decodeSymbols_of_codeStream hacc hes hbits]
    rfl
  · rw [if_neg hfits]
    exact command_ensure_of_not hfits

end Sys2Proof.Machine

/-!
SUPPORT. The BitStuffer's commands, path by path (44_bitstuffer.md R281 to R286): a block header from its
bytes, a block's codes from its bits, and the loop of BS.STREAM block by block, over legal blocks first and
then the header that passes the total.
-/

namespace Sys2Proof.Machine

/-! ### Bytes as stream bits -/

section Bits

variable {src : Source} {br : BitReader}

/-- The eight bits of a byte at an aligned cursor are that byte (40_bitreader.md R151). -/
theorem read_cur_of_bitsAre {b : Byte} (ha : br.aligned = true)
    (h : src.BitsAre br (msbBits 8 b.toNat)) : br.cur < src.len ∧ src.mem.read br.cur = some b := by
  rw [aligned_iff] at ha
  obtain ⟨-, hread, hbits⟩ := h
  rw [length_msbBits] at hread hbits
  obtain ⟨hlt, hsome⟩ := hread 0 (by omega)
  rw [Nat.add_zero] at hlt hsome
  obtain ⟨b', hb'⟩ := Option.isSome_iff_exists.1 hsome
  refine ⟨hlt, hb'.trans (congrArg some (BitVec.eq_of_getLsbD_eq fun i hi => ?_))⟩
  have hbit := hbits (7 - i) (by omega)
  rw [getD_msbBits (by omega), streamBit_of_read (b := b') .msb
    (by rwa [show (br.pos + (7 - i)) / 8 = br.pos / 8 by omega]), bitOfByte,
    show 7 - (br.pos + (7 - i)) % 8 = i by omega, show 8 - 1 - (7 - i) = i by omega] at hbit
  rw [Bool.eq_iff_iff, ← Bool.toNat_eq_one, hbit, Bool.toNat_eq_one]
  rfl

/-- The bits of bytes at an aligned cursor are those bytes. -/
theorem holds_of_bitsAre {bytes : List Byte} (ha : br.aligned = true)
    (h : src.BitsAre br (bytes.flatMap fun y => msbBits 8 y.toNat)) : src.Holds br.cur bytes := by
  induction bytes generalizing br with
  | nil => exact fun j hj => absurd hj (Nat.not_lt_zero j)
  | cons b bytes ih =>
    obtain ⟨hbyte, hrest⟩ := bitsAre_append h
    rw [length_msbBits] at hrest
    have hrest := ih (aligned_advance 1 ha) hrest
    rw [show (8 : Nat) = 8 * 1 from rfl, cur_advance] at hrest
    refine (holds_append (x := [b])).2 ⟨fun j hj => ?_, hrest⟩
    obtain rfl : j = 0 := Nat.lt_one_iff.1 hj
    exact read_cur_of_bitsAre ha hbyte

/-- The next bits read as the number they spell (40_bitreader.md R154). -/
theorem readBits_of_bitsAre {n v : Nat} (hv : v < 2 ^ n) (h : src.BitsAre br (msbBits n v)) :
    src.readBits br n .msb = .ok (v, br.advance n) := by
  obtain ⟨hrem, hread, hvalue⟩ := (bitsAre_msbBits_iff hv).1 h
  exact readBits_eq_ok.2 ⟨hrem, hvalue ▸ peekBits_of_readable .msb hread, rfl⟩

theorem length_flatMap_msbBits {m : Nat} (n : Nat) (xs : List (BitVec m)) :
    (xs.flatMap fun x => msbBits n x.toNat).length = xs.length * n := by
  simp [List.length_flatMap, length_msbBits]

theorem alignUp_advance {n : Nat} (ha : br.aligned = true) :
    (br.advance n).alignUp = br.advance (8 * ceil8 n) := by
  rw [aligned_iff] at ha
  have hpos : 8 * ceil8 (br.pos + n) = br.pos + 8 * ceil8 n := by unfold ceil8; omega
  simp only [BitReader.alignUp, BitReader.advance, hpos]

end Bits

/-! ### Block headers -/

/-- A number of 32 bits fits a result register (30_encoding.md R102). -/
theorem ofNat_eq_toReg {v : Nat} (h : v < 2 ^ 32) : BitVec.ofNat 64 v = toReg v :=
  (toReg_of_lt (h.trans (by norm_num))).symm

/-- The bytes of a block header (30_encoding.md R119). -/
def blockHeaderBytes (w c k : Nat) : List Byte :=
  leBytes 1 w ++ leBytes 4 c ++ if w = 0 then leBytes 4 k else []

theorem blockHeader_of_holds {op : BitVec 8} {src : Source} {br : BitReader} {w c k : Nat}
    (ha : br.aligned = true) (hw : w ≤ 32) (hc : 1 ≤ c) (hc' : c < 2 ^ 32) (hk : k < 2 ^ 32)
    (hrem : 8 * (blockHeaderBytes w c k).length ≤ br.rem)
    (h : src.Holds br.cur (blockHeaderBytes w c k)) :
    blockHeader op src br =
      .ok ({ width := w, count := c, const := if w = 0 then BitVec.ofNat 32 k else 0 },
        br.advance (8 * (blockHeaderBytes w c k).length)) := by
  obtain ⟨hfields, hconst⟩ := holds_append.1 h
  obtain ⟨hwidth, hcount⟩ := holds_append.1 hfields
  simp only [blockHeaderBytes, List.length_append, length_leBytes] at hrem hcount hconst ⊢
  refine blockHeader_eq_ok.2 ⟨ha, by omega, uint_of_holds hwidth (hw.trans_lt (by norm_num)), hw,
    uint_of_holds hcount hc', hc, ?_⟩
  by_cases hzero : w = 0
  · simp only [if_pos hzero, length_leBytes] at hrem hconst ⊢
    exact .inl ⟨hzero, hrem, trivial, k, uint_of_holds hconst hk, rfl⟩
  · simp only [if_neg hzero]
    exact .inr ⟨hzero, trivial, rfl⟩

/-! ### Codes of a block -/

/-- The bits from the cursor on are the codes of a block with this header, which has been read
(44_bitstuffer.md R282, R285). -/
structure Source.AtCodes (src : Source) (br : BitReader) (bs : Stuffer) (codes : List Code) :
    Prop where
  count : codes.length = bs.count
  const : bs.width = 0 → ∀ c ∈ codes, c = bs.const
  fits : bs.width ≠ 0 → ∀ c ∈ codes, c.toNat < 2 ^ bs.width
  bits : src.BitsAre br (codes.flatMap fun c => msbBits bs.width c.toNat)

section Codes

variable {src : Source} {br : BitReader} {bs : Stuffer} {codes : List Code}

/-- Packed values with nothing between them (44_bitstuffer.md R282). -/
theorem unpackValues_of_bitsAre {w : Nat} (hfits : ∀ c ∈ codes, c.toNat < 2 ^ w)
    (h : src.BitsAre br (codes.flatMap fun c => msbBits w c.toNat)) :
    unpackValues src .msb w codes.length br = .ok (codes, br.advance (codes.length * w)) := by
  induction codes generalizing br with
  | nil => rw [List.length_nil, Nat.zero_mul]; rfl
  | cons c codes ih =>
    obtain ⟨hc, hfits⟩ := List.forall_mem_cons.1 hfits
    obtain ⟨hcode, hrest⟩ := bitsAre_append h
    rw [length_msbBits] at hrest
    rw [List.length_cons, unpackValues, readBits_of_bitsAre hc hcode, except_ok_bind]
    simp only [ih hfits hrest, except_ok_bind, advance_advance, BitVec.ofNat_toNat,
      BitVec.setWidth_eq, Nat.add_mul, Nat.one_mul, Nat.add_comm w]

/-- BS.UNPACK's body where the block's codes stand at the cursor (44_bitstuffer.md R282, R283, R285). -/
theorem blockCodes_of_atCodes {p : Params} {cp : Nat} (h : src.AtCodes br bs codes)
    (hfits : p.fitsOut (cp + bs.count) = true) :
    blockCodes p src stuffOrder bs cp br =
      .ok (codes, (br.advance (bs.count * bs.width)).alignUp) := by
  have hrem := h.bits.1
  rw [length_flatMap_msbBits, h.count] at hrem
  rw [blockCodes, ensure_true _ hfits, except_ok_bind, ensure_true _ hrem, except_ok_bind]
  by_cases hzero : bs.width = 0
  · rw [if_pos hzero, hzero, Nat.mul_zero, advance_zero,
      List.eq_replicate_iff.2 ⟨h.count, h.const hzero⟩]
  · rw [if_neg hzero, stuffOrder, ← h.count, unpackValues_of_bitsAre (h.fits hzero) h.bits]
    rfl

end Codes

/-! ### Legal blocks -/

section Blocks

variable {b : PackedBlock} {src : Source} {br : BitReader}

theorem PackedBlock.legal_iff : b.legal = true ↔
    b.width ≤ 32 ∧ 1 ≤ b.codes.length ∧ b.codes.length < 2 ^ 32 ∧
      ∀ c ∈ b.codes, if b.width = 0 then c = b.const else c.toNat < 2 ^ b.width ∧ b.const = 0 := by
  simp only [PackedBlock.legal, Bool.and_eq_true, decide_eq_true_eq, List.all_eq_true, and_assoc]
  split <;> simp

/-- The header's bytes of a block (30_encoding.md R119). -/
def PackedBlock.headerBytes (b : PackedBlock) : List Byte :=
  blockHeaderBytes b.width b.codes.length b.const.toNat

theorem PackedBlock.length_bits :
    b.bits.length = 8 * b.headerBytes.length + b.codes.length * b.width := by
  rw [PackedBlock.bits, List.length_append, length_flatMap_msbBits, length_flatMap_msbBits,
    Nat.mul_comm 8]
  rfl

/-- BS.HDR's body at a legal block (44_bitstuffer.md R281). -/
theorem blockHeader_of_block {op : BitVec 8} (ha : br.aligned = true) (hlegal : b.legal = true)
    (h : src.BitsAre br b.bits) :
    blockHeader op src br = .ok (b.header, br.advance (8 * b.headerBytes.length)) := by
  obtain ⟨hwidth, hpos, hlt, hcodes⟩ := PackedBlock.legal_iff.1 hlegal
  have hrem := h.1
  rw [PackedBlock.length_bits] at hrem
  have hconst : (if b.width = 0 then BitVec.ofNat 32 b.const.toNat else 0) = b.const := by
    by_cases hzero : b.width = 0
    · rw [if_pos hzero, BitVec.ofNat_toNat, BitVec.setWidth_eq]
    · obtain ⟨c, hc⟩ := List.exists_mem_of_length_pos hpos
      have hcode := hcodes c hc
      rw [if_neg hzero] at hcode ⊢
      exact hcode.2.symm
  have hheader := blockHeader_of_holds (op := op) (k := b.const.toNat) ha hwidth hpos hlt
    b.const.isLt (show 8 * b.headerBytes.length ≤ br.rem by omega)
    (holds_of_bitsAre ha (bitsAre_append h).1)
  rw [hheader, hconst]
  rfl

/-- The codes of a legal block stand past its header. -/
theorem atCodes_of_block (hlegal : b.legal = true) (h : src.BitsAre br b.bits) :
    src.AtCodes (br.advance (8 * b.headerBytes.length)) b.header b.codes := by
  obtain ⟨-, -, -, hcodes⟩ := PackedBlock.legal_iff.1 hlegal
  have hbits := (bitsAre_append h).2
  rw [length_flatMap_msbBits, Nat.mul_comm] at hbits
  refine ⟨rfl, fun hzero c hc => ?_, fun hzero c hc => ?_, ?_⟩
  · exact (if_pos (show b.width = 0 from hzero)).mp (hcodes c hc)
  · exact ((if_neg (show ¬b.width = 0 from hzero)).mp (hcodes c hc)).1
  · exact hbits

end Blocks

/-! ### The loop of BS.STREAM, block by block -/

/-- The last header read, after `last`, once these blocks are through. -/
def lastHeader (last : Option Stuffer) (blocks : List PackedBlock) : Option Stuffer :=
  (blocks.getLast?.map PackedBlock.header).or last

theorem lastHeader_cons (last : Option Stuffer) (b : PackedBlock) (blocks : List PackedBlock) :
    lastHeader last (b :: blocks) = lastHeader (some b.header) blocks := by
  rw [lastHeader, lastHeader, List.getLast?_cons]
  cases blocks.getLast? <;> rfl

section Loop

variable {op : BitVec 8} {p : Params} {src : Source} {total fuel cp : Nat} {last : Option Stuffer}
  {br : BitReader} {blocks : List PackedBlock}

/-- One round over a header that is there, with codes to go (44_bitstuffer.md R284). -/
theorem streamBlocks_of_header {block : Stuffer} {br' : BitReader} (hlt : cp < total)
    (h : blockHeader op src br = .ok (block, br')) :
    streamBlocks op p src stuffOrder total (fuel + 1) cp last br = (do
      ensure (cp + block.count ≤ total) (.raise (.invalidField 13))
      let r ← blockCodes p src stuffOrder block cp br'
      let rest ← streamBlocks op p src stuffOrder total fuel (cp + block.count) (some block) r.2
      .ok (r.1 ++ rest.1, rest.2)) := by
  rw [streamBlocks, if_neg hlt.not_ge, h, except_ok_bind]

/-- One round over a legal block: its codes stand before the rest's, and the cursor moves by its
bytes, padding among them (44_bitstuffer.md R283, R284). -/
theorem streamBlocks_block {b : PackedBlock} (ha : br.aligned = true) (hlegal : b.legal = true)
    (h : src.BitsAre br b.bits) (hle : cp + b.codes.length ≤ total)
    (hfits : p.fitsOut total = true) :
    streamBlocks op p src stuffOrder total (fuel + 1) cp last br = (do
      let rest ← streamBlocks op p src stuffOrder total fuel (cp + b.codes.length) (some b.header)
        (br.advance (8 * b.byteCount))
      .ok (b.codes ++ rest.1, rest.2)) := by
  obtain ⟨-, hpos, -, -⟩ := PackedBlock.legal_iff.1 hlegal
  have hcodes := blockCodes_of_atCodes (p := p) (cp := cp) (atCodes_of_block hlegal h)
    (fitsOut_mono hle hfits)
  have hend : (8 * b.headerBytes.length) + b.header.count * b.header.width = b.bits.length :=
    PackedBlock.length_bits.symm
  rw [advance_advance, hend, alignUp_advance ha] at hcodes
  have hcheck : cp + b.header.count ≤ total := hle
  rw [streamBlocks_of_header (by omega) (blockHeader_of_block ha hlegal h), ensure_true _ hcheck,
    except_ok_bind, hcodes, except_ok_bind]
  rfl

/-- Legal blocks, then the rest of the loop: each block takes one round and its bytes. -/
theorem streamBlocks_append (ha : br.aligned = true) (h : src.HoldsBlocks br blocks)
    (hle : cp + (blocks.flatMap PackedBlock.codes).length ≤ total)
    (hfits : p.fitsOut total = true) :
    streamBlocks op p src stuffOrder total (fuel + blocks.length) cp last br = (do
      let rest ← streamBlocks op p src stuffOrder total fuel
        (cp + (blocks.flatMap PackedBlock.codes).length) (lastHeader last blocks)
        (br.advance (8 * blockBytes blocks))
      .ok (blocks.flatMap PackedBlock.codes ++ rest.1, rest.2)) := by
  induction blocks generalizing cp last br with
  | nil =>
    change streamBlocks op p src stuffOrder total fuel cp last br =
      streamBlocks op p src stuffOrder total fuel cp last br >>= .ok
    cases streamBlocks op p src stuffOrder total fuel cp last br <;> rfl
  | cons b blocks ih =>
    obtain ⟨hlegal, hbits, hrest⟩ := h
    rw [List.flatMap_cons, List.length_append, ← Nat.add_assoc] at hle
    rw [List.length_cons, ← Nat.add_assoc, streamBlocks_block ha hlegal hbits (by omega) hfits,
      ih (aligned_advance _ ha) hrest hle, lastHeader_cons, List.flatMap_cons, List.length_append]
    simp only [bind_assoc, except_ok_bind, advance_advance, Nat.add_assoc, List.append_assoc,
      blockBytes, List.map_cons, List.sum_cons, Nat.mul_add]

theorem streamBlocks_no_codes_left :
    streamBlocks op p src stuffOrder total fuel total last br = .ok ([], last, br) := by
  cases fuel with
  | zero => rfl
  | succ fuel => rw [streamBlocks, if_pos le_rfl]

theorem legal_of_holdsBlocks (h : src.HoldsBlocks br blocks) : ∀ b ∈ blocks, b.legal = true := by
  induction blocks generalizing br with
  | nil => exact fun b hb => absurd hb List.not_mem_nil
  | cons b blocks ih =>
    obtain ⟨hlegal, -, hrest⟩ := h
    exact List.forall_mem_cons.2 ⟨hlegal, ih hrest⟩

/-- Each block has at least one code, so there are no more rounds than codes (44_bitstuffer.md R284). -/
theorem length_le_of_holdsBlocks (h : src.HoldsBlocks br blocks) :
    blocks.length ≤ (blocks.flatMap PackedBlock.codes).length := by
  have hpos (b : PackedBlock) (hb : b ∈ blocks) : 1 ≤ b.codes.length := by
    obtain ⟨-, hpos, -, -⟩ := PackedBlock.legal_iff.1 (legal_of_holdsBlocks h b hb)
    exact hpos
  rw [List.length_flatMap, ← List.length_map fun b : PackedBlock => b.codes.length]
  exact List.length_le_sum_of_one_le _ (List.forall_mem_map.2 hpos)

end Loop

/-! ### BS.STREAM after legal blocks -/

section Stream

variable {s : State} {blocks : List PackedBlock}

/-- What a successful BS.STREAM writes, from its loop's answer (44_bitstuffer.md R284). -/
def State.withStream (s : State) (r : List Code × Option Stuffer × BitReader) : State :=
  { s with
    codes := r.1
    bs := stufferAfter s.bs r.2.1
    br := r.2.2
    r0 := (r.2.1.map fun block => toReg block.width).getD s.r0
    r1 := (r.2.1.map fun block => toReg block.count).getD s.r1 }

theorem exec_bsStream : exec .bsStream s = command s (do
    ensure (s.params.fitsOut s.a0.toNat = true) (.raise .capacityExceeded)
    let r ← streamBlocks 0x52 s.params s.source stuffOrder s.a0.toNat s.a0.toNat 0 none s.br
    .ok (s.withStream r)) := by
  change execBsStream s = _
  rw [execBsStream, stuffedStream, bind_assoc]
  rfl

/-- Legal blocks that do not pass the total leave a round for each code to go (44_bitstuffer.md
R284). -/
theorem exec_bsStream_of_blocks (hfits : s.params.fitsOut s.a0.toNat = true)
    (ha : s.br.aligned = true) (h : s.source.HoldsBlocks s.br blocks) {left : Nat}
    (hn : (blocks.flatMap PackedBlock.codes).length + left = s.a0.toNat) :
    ∃ fuel, left ≤ fuel ∧ exec .bsStream s = command s (do
      let rest ← streamBlocks 0x52 s.params s.source stuffOrder s.a0.toNat fuel
        (blocks.flatMap PackedBlock.codes).length (lastHeader none blocks)
        (s.br.advance (8 * blockBytes blocks))
      .ok (s.withStream (blocks.flatMap PackedBlock.codes ++ rest.1, rest.2))) := by
  have hlen := length_le_of_holdsBlocks h
  obtain ⟨fuel, hfuel⟩ := Nat.exists_eq_add_of_le' (show blocks.length ≤ s.a0.toNat by omega)
  have hloop := streamBlocks_append (op := 0x52) (fuel := fuel) (cp := 0) (last := none)
    (total := s.a0.toNat) ha h (by omega) hfits
  rw [← hfuel, Nat.zero_add] at hloop
  refine ⟨fuel, by omega, ?_⟩
  rw [exec_bsStream, command_ensure_of hfits, hloop, bind_assoc]
  rfl

end Stream

/-! ### The obligations -/

/-- Settles O42: the code at the index, found or not. -/
theorem codesGetCases : Obligations.CodesGetCases := by
  intro s
  change (_ → execCodesGet s = _) ∧ (∀ c, _ → ∃ r1, execCodesGet s = _ ∧ _)
  simp only [execCodesGet]
  refine ⟨fun hlen => ?_, fun c hc => ⟨toReg s.codes.length, ?_, toReg_toNat⟩⟩
  · rw [List.getElem?_eq_none hlen]
    rfl
  · rw [hc]
    rfl

/-- Settles O38: the checks in order, each field read from the bytes that `IN` holds. -/
theorem bsHdrCases : Obligations.BsHdrCases := by
  intro s w c k hw hc hk hwidth hcount hconst
  change execBsHdr s = _
  rw [execBsHdr, blockHeader, bind_assoc]
  refine command_ensure (by rw [aligned_iff]) fun ha => ?_
  rw [aligned_iff] at ha
  rw [bind_assoc]
  refine command_ensure not_le.symm fun h8 => ?_
  rw [uint_of_holds (hwidth ha h8) hw, except_ok_bind, bind_assoc]
  refine command_ensure not_le.symm fun hle => ?_
  rw [bind_assoc]
  refine command_ensure not_le.symm fun h40 => ?_
  rw [uint_of_holds (hcount ha h40 hle) hc, except_ok_bind, bind_assoc]
  refine command_ensure (by omega) fun hpos => ?_
  rw [ofNat_eq_toReg hc, ofNat_eq_toReg (hw.trans (by norm_num))]
  by_cases hzero : w = 0
  · subst hzero
    rw [if_pos rfl, if_pos rfl, bind_assoc]
    refine command_ensure not_le.symm fun h72 => ?_
    rw [uint_of_holds (hconst ha h72 rfl hpos) hk]
    rfl
  · rw [if_neg hzero, if_neg hzero]
    rfl

/-- Settles O39: the two checks, then `blockCodes_of_atCodes`. -/
theorem bsUnpackValue : Obligations.BsUnpackValue := by
  intro s codes _ hcount hconst hfit hbits
  change execBsUnpack s = _
  rw [execBsUnpack]
  by_cases hfits : s.params.fitsOut (s.codes.length + s.bs.count) = true
  · rw [if_neg (by simp [hfits])]
    by_cases hrem : s.bs.count * s.bs.width ≤ s.br.rem
    · have hat : s.source.AtCodes s.br s.bs codes :=
        ⟨hcount, hconst, fun hne c hc => hfit c hc hne, hbits hrem⟩
      rw [if_neg hrem.not_gt, blockCodes_of_atCodes hat hfits]
      rfl
    · rw [if_pos (not_le.1 hrem), blockCodes, bind_assoc, command_ensure_of hfits, bind_assoc]
      exact command_ensure_of_not hrem
  · rw [if_pos (Bool.eq_false_iff.2 hfits), blockCodes, bind_assoc]
    exact command_ensure_of_not hfits

/-- Settles O40: the loop over all the blocks leaves no code to go. -/
theorem bsStreamDecodesBlocks : Obligations.BsStreamDecodesBlocks := by
  intro s blocks hpos hblocks hcount
  by_cases hfits : s.params.fitsOut s.a0.toNat = true
  · obtain ⟨fuel, -, hexec⟩ := exec_bsStream_of_blocks hfits ((aligned_iff _).2 hpos) hblocks
      (left := 0) hcount
    rw [hcount, streamBlocks_no_codes_left] at hexec
    rw [hexec, if_neg (by simp [hfits]), except_ok_bind, List.append_nil,
      lastHeader]
    cases hlast : blocks.getLast? with
    | none => rfl
    | some b =>
      obtain ⟨hwidth, -, hlt, -⟩ := PackedBlock.legal_iff.1
        (legal_of_holdsBlocks hblocks b (List.mem_of_getLast? hlast))
      simp only [ofNat_eq_toReg (hwidth.trans_lt (by norm_num)), ofNat_eq_toReg hlt]
      rfl
  · rw [if_pos (Bool.eq_false_iff.2 hfits), exec_bsStream]
    exact command_ensure_of_not hfits

/-- Settles O41: the loop after the blocks, with codes still to go, at the header that passes the
total. -/
theorem bsStreamOverrun : Obligations.BsStreamOverrun := by
  intro s blocks w c k hpos hfits hblocks hw hc hc' hk header hrem hheader hlt hover
  have ha := (aligned_iff _).2 hpos
  obtain ⟨fuel, hfuel, hexec⟩ := exec_bsStream_of_blocks hfits ha hblocks
    (Nat.add_sub_cancel' hlt.le)
  obtain ⟨fuel, rfl⟩ := Nat.exists_eq_add_of_le' (show 1 ≤ fuel by omega)
  have hhdr := blockHeader_of_holds (op := 0x52) (aligned_advance (blockBytes blocks) ha) hw hc hc' hk
    (by rw [rem_advance]; exact Nat.le_sub_of_add_le' hrem) (by rw [cur_advance]; exact hheader)
  rw [hexec, streamBlocks_of_header hlt hhdr, ensure_false _ hover.not_ge]
  rfl

end Sys2Proof.Machine

/-!
SUPPORT. INFO of any blob (45_blob_header.md R311 to R322, R330): which error the parser ends with where
header fields, legal or not, stand in a blob that may end before they do; and that the parser reads
nothing past the header it has read the size of.

The checks of `parseHeader` and those of `RawHeader.error` stand in one order, so the first of them that
fails is found check by check; a read between two checks is inside the blob by the checks before it.
-/

namespace Sys2Proof.Machine

/-! ### The ends of INFO -/

section Ends

variable {s : State}

/-- INFO checks the blob's length before it resets the orchestrator (20_memory.md R72). -/
theorem exec_info_of_not_fits (hfits : s.params.fitsIn s.srcLen.toNat = false) :
    exec .info s = failsWith (.illegalOperand 0x01) (s.withInfoValid false) := by
  change execInfo s = _
  rw [execInfo, runHeader, sourceFits, ensure_false _ (by simp [hfits])]
  rfl

/-- How INFO of a blob of legal length ends, by what the parser answers (45_blob_header.md R330). -/
def State.infoEnd (s : State) : Except Stop Header → Host.Outcome State Fault Refusal
  | .ok h => completesWith (s.resetOrchestrator.withHeader h).publishInfo
  | .error (.raise e) => failsWith e (s.resetOrchestrator.withInfoValid false)
  | .error (.fail e) => failsWith e ((s.resetOrchestrator.withPhase .failed).withInfoValid false)
  | .error (.fault f) => .fault f

theorem exec_info_of_fits (hfits : s.params.fitsIn s.srcLen.toNat = true) :
    exec .info s = s.infoEnd (parseHeader s.source) := by
  change execInfo s = _
  have hsource : s.resetOrchestrator.source = s.source := rfl
  rw [execInfo, runHeader, sourceFits, ensure_true _ hfits, except_ok_bind, runAt_ok, andThen_done,
    hsource]
  rcases parseHeader s.source with (e | e | f) | h <;> rfl

end Ends

/-! ### The first check that fails -/

/-- The rule ends with the error named, where one is. -/
def Raises {α : Type} (x : Except Stop α) (o : Option EngineError) : Prop :=
  ∀ e, o = some e → x = .error (.raise e)

section Raises

variable {α β : Type} {o : Option EngineError}

theorem Raises.none (x : Except Stop α) : Raises x .none := nofun

/-- The first check is the first to fail, or the rest decides. -/
theorem Raises.ensure {c d : Prop} [Decidable c] [Decidable d] {e : EngineError}
    {f : Unit → Except Stop α} (hd : d ↔ ¬c) (hrest : c → Raises (f ()) o) :
    Raises (ensure c (.raise e) >>= f) (if d then some e else o) := by
  by_cases hc : c
  · rw [ensure_true _ hc, if_neg (by rwa [hd, not_not])]
    exact hrest hc
  · rw [ensure_false _ hc, if_pos (hd.2 hc)]
    rintro _ ⟨⟩
    rfl

/-- A part that succeeds leaves the error to the rest. -/
theorem Raises.bind {x : Except Stop α} {a : α} {f : α → Except Stop β} (hx : x = .ok a)
    (hrest : Raises (f a) o) : Raises (x >>= f) o := by
  rwa [hx, except_ok_bind]

/-- An error of the first part is the whole rule's. -/
theorem Raises.first {x : Except Stop α} {f : α → Except Stop β} (hx : Raises x o) :
    Raises (x >>= f) o := fun e he => by rw [hx e he, except_error_bind]

end Raises

/-! ### Fields of a blob that may end early -/

/-- As far as the blob reaches, it holds these bytes from `a` on. -/
def Source.HoldsWithin (src : Source) (a : Nat) (bytes : List Byte) : Prop :=
  src.Holds a (bytes.take (src.len - a))

section HoldsWithin

variable {src : Source} {a : Nat}

theorem holdsWithin_append {x y : List Byte} :
    src.HoldsWithin a (x ++ y) ↔ src.HoldsWithin a x ∧ src.HoldsWithin (a + x.length) y := by
  simp only [Source.HoldsWithin, List.take_append, holds_append, List.length_take, Nat.sub_sub]
  rcases le_total x.length (src.len - a) with hle | hle
  · rw [min_eq_right hle]
  · simp [Source.Holds, show src.len - (a + x.length) = 0 by omega]

/-- Bytes that end inside the blob are there. -/
theorem Source.HoldsWithin.holds {bytes : List Byte} (h : src.HoldsWithin a bytes)
    (hend : a + bytes.length ≤ src.len) : src.Holds a bytes :=
  List.take_of_length_le (l := bytes) (show _ ≤ src.len - a by omega) ▸ h

theorem Source.HoldsWithin.field32 {v : BitVec 32} (h : src.HoldsWithin a (leBytes 4 v.toNat))
    (hend : a + 4 ≤ src.len) : src.field32 a = .ok v :=
  field32_of_holds (h.holds (by rwa [length_leBytes]))

theorem Source.HoldsWithin.field64 {v : BitVec 64} (h : src.HoldsWithin a (leBytes 8 v.toNat))
    (hend : a + 8 ≤ src.len) : src.field64 a = .ok v :=
  field64_of_holds (h.holds (by rwa [length_leBytes]))

/-! ### The errors of the parser -/

theorem versionSupported_iff (v : BitVec 32) :
    versionSupported v = true ↔ 2 ≤ v.toInt ∧ v.toInt ≤ 6 := by
  rw [versionSupported, Bool.and_eq_true]
  exact and_congr decide_eq_true_iff decide_eq_true_iff

/-- The codes 0 to 7 name the kinds, and no other code does (10_state.md R45). -/
theorem kindOfCode_eq_none {n : Nat} : Kind.ofCode n = none ↔ 7 < n := by
  unfold Kind.ofCode
  split
  case h_9 =>
    simp only [imp_false, true_iff] at *
    omega
  all_goals simp

/-- The check of the kind code (45_blob_header.md R316). -/
theorem raises_kindField {α : Type} {code : BitVec 32} {f : Kind → Except Stop α}
    {o : Option EngineError} (hrest : ∀ k, Raises (f k) o) :
    Raises (kindField code >>= f) (if 7 < code.toNat then some (.invalidField 4) else o) := by
  unfold kindField
  cases hkind : Kind.ofCode code.toNat with
  | none =>
    rw [if_pos (kindOfCode_eq_none.1 hkind)]
    rintro _ ⟨⟩
    rfl
  | some k =>
    rw [if_neg fun h => by simp [kindOfCode_eq_none.2 h] at hkind]
    exact hrest k

/-- The first failing check of step 8 (45_blob_header.md R311, R320), entry by entry. -/
theorem raises_parseDescriptors {size : Nat} {ds : List Descriptor}
    (h : src.Holds a (ds.flatMap Descriptor.layout)) :
    Raises (parseDescriptors src size ds.length a) (descriptorsError size ds) := by
  induction ds generalizing a with
  | nil => exact .none _
  | cons d rest ih =>
    rw [List.flatMap_cons, holds_append, length_descriptor_layout] at h
    obtain ⟨hd, hrest⟩ := h
    simp only [Descriptor.layout, holds_append, List.length_append, length_leBytes,
      Nat.reduceAdd] at hd
    obtain ⟨⟨⟨hoff, hlen⟩, hmin⟩, hmax⟩ := hd
    simp only [List.length_cons, parseDescriptors, parseDescriptor, bind_assoc, descriptorsError,
      except_ok_bind]
    exact .bind (field32_of_holds hoff) <| .bind (field32_of_holds hlen) <|
      .bind (field64_of_holds hmin) <| .bind (field64_of_holds hmax) <|
      .ensure not_le.symm fun _ => .ensure (by simp) fun _ => .ensure (by simp) fun _ =>
      .first (ih hrest)

/-- The first failing check of `parseHeader` (45_blob_header.md R311). -/
theorem raises_parseHeader {r : RawHeader} (hmagic : r.magic.length = 6)
    (h : src.HoldsWithin 0 r.layout)
    (hdesc : 42 + 24 * r.nBands.toNat ≤ src.len → r.desc.length = r.nBands.toNat) :
    Raises (parseHeader src) (r.error src.len) := by
  simp only [RawHeader.layout, holdsWithin_append, List.length_append, length_leBytes, hmagic,
    Nat.zero_add, Nat.reduceAdd] at h
  obtain ⟨⟨⟨⟨⟨⟨⟨⟨hm, hversion⟩, hrows⟩, hcols⟩, hbands⟩, hkind⟩, hvalid⟩, hmaxz⟩, htable⟩ := h
  have hread (h6 : 6 ≤ src.len) : src.memRead 0 6 = .ok r.magic := by
    have := memRead_of_holds (hm.holds (by omega))
    rwa [hmagic] at this
  refine .ensure not_le.symm fun h6 => .bind (hread h6) <| .ensure Iff.rfl fun _ =>
    .ensure not_le.symm fun h10 => .bind (hversion.field32 h10) <|
    .ensure (by rw [versionSupported_iff]; omega) fun _ => .ensure not_le.symm fun h42 => ?_
  refine .bind (hrows.field32 (by omega)) <| .bind (hcols.field32 (by omega)) <|
    .bind (hbands.field32 (by omega)) <| .bind (hkind.field32 (by omega)) <|
    .bind (hvalid.field64 (by omega)) <| .bind (hmaxz.field64 h42) ?_
  refine .ensure not_le.symm fun _ => .ensure not_le.symm fun _ => .ensure not_le.symm fun _ =>
    raises_kindField fun _ => .ensure not_le.symm fun _ => .ensure (by simp) fun _ =>
    .ensure not_le.symm fun hsize => .first ?_
  rw [← hdesc hsize]
  refine raises_parseDescriptors (htable.holds ?_)
  simp only [List.length_flatMap, length_descriptor_layout, List.map_const', List.sum_replicate,
    smul_eq_mul, hdesc hsize]
  omega

end HoldsWithin

/-- Settles O44: the length check alone, then `raises_parseHeader`. -/
theorem infoHeaderChecks : Obligations.InfoHeaderChecks := by
  refine fun s => ⟨fun hlong => ?_, fun r e hfit hmagic hbytes hdesc herr => ?_⟩
  · refine exec_info_of_not_fits (Bool.eq_false_iff.2 ?_)
    rwa [Ne, fitsIn_iff, not_le]
  · have hwithin : s.source.HoldsWithin 0 r.layout := fun j hj => by
      obtain ⟨hin, hlt⟩ := lt_min_iff.1 (List.length_take ▸ hj)
      rw [Nat.zero_add, List.getElem?_take_of_lt hin]
      exact ⟨hin, hbytes j hin hlt⟩
    rw [exec_info_of_fits ((fitsIn_iff _ _).2 hfit), raises_parseHeader hmagic hwithin hdesc e herr]
    rfl

/-! ### Reads below an offset -/

/-- Two sources of one length whose bytes below `n` are the same. -/
structure Source.SameBelow (n : Nat) (src src' : Source) : Prop where
  len : src.len = src'.len
  read : ∀ a, a < n → src.mem.read a = src'.mem.read a

namespace Source.SameBelow

variable {src src' : Source} {n : Nat} (h : src.SameBelow n src')
include h

theorem collect {a k : Nat} (hk : a + k ≤ n) : src.collect a k = src'.collect a k := by
  induction k generalizing a with
  | zero => rfl
  | succ k ih =>
    simp only [Source.collect, Source.byte, h.read a (by omega), ih (a := a + 1) (by omega)]

theorem memRead {a k : Nat} (hk : a + k ≤ n) : src.memRead a k = src'.memRead a k := by
  simp only [Source.memRead, h.len, h.collect hk]

theorem uint {a k : Nat} (hk : a + k ≤ n) : src.uint a k = src'.uint a k := by
  simp only [Source.uint, h.memRead hk]

theorem field32 {a : Nat} (ha : a + 4 ≤ n) : src.field32 a = src'.field32 a := by
  simp only [Source.field32, h.uint ha]

theorem field64 {a : Nat} (ha : a + 8 ≤ n) : src.field64 a = src'.field64 a := by
  simp only [Source.field64, h.uint ha]

theorem parseDescriptors {k e : Nat} (size : Nat) (hk : e + 24 * k ≤ n) :
    parseDescriptors src size k e = parseDescriptors src' size k e := by
  induction k generalizing e with
  | zero => rfl
  | succ k ih =>
    simp only [Machine.parseDescriptors, parseDescriptor, h.field32 (a := e) (by omega),
      h.field32 (a := e + 4) (by omega), h.field64 (a := e + 8) (by omega),
      h.field64 (a := e + 16) (by omega), ih (e := e + 24) (by omega)]

/-- The parser reads the fixed fields, and then the entries of as many bands as they declare. -/
theorem parseHeader (hfixed : 42 ≤ n)
    (hbands : ∀ b, src.field32 18 = .ok b → 42 + 24 * b.toNat ≤ n) :
    parseHeader src = parseHeader src' := by
  simp only [Machine.parseHeader, ← h.len, ← h.memRead (show 0 + 6 ≤ n by omega),
    ← h.field32 (show 6 + 4 ≤ n by omega), ← h.field32 (show 10 + 4 ≤ n by omega),
    ← h.field32 (show 14 + 4 ≤ n by omega), ← h.field32 (show 18 + 4 ≤ n by omega),
    ← h.field32 (show 22 + 4 ≤ n by omega), ← h.field64 (show 26 + 8 ≤ n by omega),
    ← h.field64 (show 34 + 8 ≤ n by omega)]
  cases hfield : src.field32 18 with
  | error st => simp only [except_error_bind]
  | ok b => simp only [except_ok_bind, h.parseDescriptors _ (hbands b hfield)]

end Source.SameBelow

/-- INFO depends on `IN` through the parser's answer alone. -/
theorem exec_info_of_parseHeader_eq {s t : State} {m : Memory}
    (hparse : parseHeader s.source = parseHeader ({ s with inMem := m } : State).source)
    (hrun : exec .info s = .next t) :
    exec .info { s with inMem := m } = .next { t with inMem := m } := by
  by_cases hfits : s.params.fitsIn s.srcLen.toNat = true
  · rw [exec_info_of_fits hfits] at hrun
    rw [exec_info_of_fits (s := { s with inMem := m }) hfits, ← hparse]
    generalize parseHeader s.source = answer at hrun
    rcases answer with (e | e | f) | h <;> cases hrun <;> rfl
  · rw [exec_info_of_not_fits (Bool.eq_false_iff.2 hfits)] at hrun
    rw [exec_info_of_not_fits (s := { s with inMem := m }) (Bool.eq_false_iff.2 hfits)]
    cases hrun
    rfl

/-- Settles O45: the parser's answer is the same, since the band count that the blob declares bounds
what it reads. -/
theorem infoIgnoresPayload : Obligations.InfoIgnoresPayload := by
  intro s t m bands hsame hbands hrun
  refine exec_info_of_parseHeader_eq ?_ hrun
  have hbelow : s.source.SameBelow (42 + 24 * bands) ({ s with inMem := m } : State).source :=
    ⟨rfl, fun a ha => (hsame a ha).symm⟩
  refine hbelow.parseHeader (by omega) fun b hb => ?_
  obtain ⟨v, hv, rfl⟩ := field32_eq_ok.1 hb
  obtain ⟨bytes, hbytes, rfl⟩ := uint_eq_ok.1 hv
  rw [hbands bytes hbytes, BitVec.toNat_ofNat]
  have := Nat.mod_le bands (2 ^ 32)
  omega

end Sys2Proof.Machine

/-!
SUPPORT. Dequantization over the rationals (46_band_decode.md R360 to R363, R367): each float
operation of a dequantized value rounds the exact result once, a canonical significand and exponent is
stored as the IEEE pattern of its value, and so the element is the one that `DequantizesTo` describes.
In lossless mode nothing rounds.
-/

namespace Sys2Proof.Machine

/-! ### Patterns and values -/

theorem FloatVal.real_eq_some {v : FloatVal} {x : ℚ} :
    v.real = some x ↔ ∃ neg m e, v = .fin neg m e ∧ realOf neg m e = x := by
  cases v <;> simp [FloatVal.real]

/-- The fields of a pattern are its sign, its exponent and its fraction (00_scope.md R15). -/
theorem real_floatOfBits (b : BitVec 64) : (floatOfBits b).real = ieeeValue 11 52 b.toNat := by
  have hfield : (b.extractLsb' 52 11).toNat = b.toNat / 2 ^ 52 % 2 ^ 11 := by
    rw [BitVec.extractLsb'_toNat, Nat.shiftRight_eq_div_pow]
  have hfrac : (b.extractLsb' 0 52).toNat = b.toNat % 2 ^ 52 := by
    rw [BitVec.extractLsb'_toNat, Nat.shiftRight_zero]
  have hall : (2 : Nat) ^ 11 - 1 = 2047 := rfl
  have hbias : (2 : Int) ^ (11 - 1) - 1 = 1023 := rfl
  simp only [floatOfBits, ieeeValue, hfield, hfrac, BitVec.getLsbD, hall, hbias]
  generalize b.toNat / 2 ^ 52 % 2 ^ 11 = field
  generalize b.toNat % 2 ^ 52 = frac
  generalize b.toNat.testBit 63 = neg
  have hunit (k : Int) : (2 : ℚ) ^ k = 2 ^ 52 * (2 : ℚ) ^ (k - 52) := by
    rw [← zpow_natCast, ← zpow_add₀ two_ne_zero]
    exact congrArg _ (add_sub_cancel _ k).symm
  by_cases hinf : field = 2047
  · rw [if_pos hinf, if_pos hinf]
    split <;> rfl
  rw [if_neg hinf, if_neg hinf]
  by_cases hzero : field = 0
  · rw [if_pos hzero, if_pos hzero, FloatVal.real, realOf, hunit (1 - 1023)]
    field_simp
    rfl
  · rw [if_neg hzero, if_neg hzero, FloatVal.real, realOf, hunit (field - 1023), sub_sub]
    refine congrArg some ?_
    push_cast
    field_simp
    ring

theorem floatOfBits_exponent {b : BitVec 64} {neg : Bool} {m : Nat} {e : Int}
    (h : floatOfBits b = .fin neg m e) : binary64.lsbMin ≤ e := by
  simp only [floatOfBits] at h
  split at h
  · split at h <;> cases h
  · split at h
    · cases h
      exact le_rfl
    · cases h
      simp only [binary64]
      omega

/-- The one significand and exponent under which a value of the format is stored: the exponent is
the smallest one unless the significand has full precision. -/
structure FloatFormat.Canonical (f : FloatFormat) (n : Nat) (q : Int) : Prop where
  lt : n < 2 ^ f.prec
  lo : f.lsbMin ≤ q
  hi : q ≤ f.lsbMax
  normal : n < 2 ^ (f.prec - 1) → q = f.lsbMin

/-- An IEEE 754 format with `fracBits` bits of fraction and the exponent bias
`2^(expBits - 1) - 1`. -/
structure FloatFormat.Ieee (f : FloatFormat) (fracBits : Nat) : Prop where
  prec : f.prec = fracBits + 1
  lsbMin : f.lsbMin = 2 - 2 ^ (f.expBits - 1) - fracBits
  lsbMax : f.lsbMax = f.lsbMin + 2 ^ f.expBits - 3

theorem binary64_ieee : binary64.Ieee 52 := ⟨rfl, by norm_num [binary64], by norm_num [binary64]⟩

theorem binary32_ieee : binary32.Ieee 23 := ⟨rfl, by norm_num [binary32], by norm_num [binary32]⟩

/-- The exponent field of a canonical value. -/
def FloatFormat.field (f : FloatFormat) (n : Nat) (q : Int) : Nat :=
  if n < 2 ^ (f.prec - 1) then 0 else (q - f.lsbMin).toNat + 1

section Pattern

variable {f : FloatFormat} {F : Nat} {neg : Bool} {n : Nat} {q : Int}

/-- A pattern's three fields, one after another. -/
theorem floatPattern_eq_fields (hf : f.Ieee F) (hn : n < 2 ^ f.prec) :
    floatPattern f (.fin neg n q) =
      2 ^ (f.expBits + F) * neg.toNat + (2 ^ F * f.field n q + n % 2 ^ F) := by
  have hsign : (if neg = true then 2 ^ (f.expBits + F) else 0) =
      2 ^ (f.expBits + F) * neg.toNat := by
    cases neg <;> simp
  rw [hf.prec, pow_succ] at hn
  simp only [floatPattern, FloatFormat.field, hf.prec, Nat.add_sub_cancel, ← Nat.add_assoc, hsign]
  rw [Nat.add_assoc]
  congr 1
  split
  · next hsub => rw [Nat.mod_eq_of_lt hsub, Nat.mul_zero, Nat.zero_add]
  · next hfull =>
    rw [Nat.mul_comm, Nat.mod_eq_sub_mod (not_lt.1 hfull), Nat.mod_eq_of_lt (by omega)]

theorem field_lt (hf : f.Ieee F) (h : f.Canonical n q) : f.field n q + 1 < 2 ^ f.expBits := by
  have hlo := h.lo
  have hhi := h.hi
  rw [hf.lsbMax] at hhi
  have hpow : ((2 ^ f.expBits : Nat) : Int) = 2 ^ f.expBits := by push_cast; rfl
  unfold FloatFormat.field
  split <;> omega

theorem fields_lt (hf : f.Ieee F) (h : f.Canonical n q) :
    2 ^ F * f.field n q + n % 2 ^ F < 2 ^ (f.expBits + F) := by
  have hmod : n % 2 ^ F < 2 ^ F := Nat.mod_lt _ (by positivity)
  have hfield := field_lt hf h
  calc 2 ^ F * f.field n q + n % 2 ^ F < 2 ^ F * f.field n q + 2 ^ F * 1 := by omega
    _ = 2 ^ F * (f.field n q + 1) := (Nat.mul_add _ _ _).symm
    _ ≤ 2 ^ F * 2 ^ f.expBits := Nat.mul_le_mul_left _ hfield.le
    _ = 2 ^ (f.expBits + F) := by rw [← pow_add, Nat.add_comm]

theorem testBit_floatPattern (hf : f.Ieee F) (h : f.Canonical n q) :
    (floatPattern f (.fin neg n q)).testBit (f.expBits + F) = neg := by
  rw [floatPattern_eq_fields hf h.lt, Nat.testBit_two_pow_mul_add _ (fields_lt hf h),
    if_neg (lt_irrefl _), Nat.sub_self]
  cases neg <;> rfl

theorem floatPattern_lt (hf : f.Ieee F) (h : f.Canonical n q) :
    floatPattern f (.fin neg n q) < 2 ^ (f.expBits + F + 1) := by
  have hfields := fields_lt hf h
  rw [floatPattern_eq_fields hf h.lt, pow_succ]
  cases neg
  · rw [Bool.toNat_false]
    omega
  · rw [Bool.toNat_true]
    omega

/-- A canonical value's pattern stands for it (00_scope.md R15, R16). -/
theorem ieeeValue_floatPattern (hf : f.Ieee F) (h : f.Canonical n q) :
    ieeeValue f.expBits F (floatPattern f (.fin neg n q)) = some (realOf neg n q) := by
  have hbit := testBit_floatPattern (neg := neg) hf h
  have hfield := field_lt hf h
  have hmod : n % 2 ^ F < 2 ^ F := Nat.mod_lt _ (by positivity)
  have hP : floatPattern f (.fin neg n q) =
      2 ^ F * (2 ^ f.expBits * neg.toNat + f.field n q) + n % 2 ^ F := by
    rw [floatPattern_eq_fields hf h.lt, pow_add]
    ring
  have hdiv : floatPattern f (.fin neg n q) / 2 ^ F % 2 ^ f.expBits = f.field n q := by
    rw [hP, Nat.mul_add_div (by positivity), Nat.div_eq_of_lt hmod, Nat.add_zero,
      Nat.mul_add_mod, Nat.mod_eq_of_lt (by omega)]
  have hrem : floatPattern f (.fin neg n q) % 2 ^ F = n % 2 ^ F := by
    rw [hP, Nat.mul_add_mod, Nat.mod_mod]
  have hunit (k : Int) (hk : f.lsbMin = k - F) :
      (2 : ℚ) ^ k = 2 ^ F * (2 : ℚ) ^ f.lsbMin := by
    rw [hk, ← zpow_natCast, ← zpow_add₀ two_ne_zero]
    congr 1
    ring
  simp only [ieeeValue, hbit, hdiv, hrem]
  rw [if_neg (by omega)]
  by_cases hsub : n < 2 ^ F
  · have hq := h.normal (by rwa [hf.prec])
    have hzero : f.field n q = 0 := by rw [FloatFormat.field, hf.prec]; exact if_pos hsub
    rw [if_pos hzero, Nat.mod_eq_of_lt hsub, realOf, hq,
      hunit (1 - (2 ^ (f.expBits - 1) - 1)) (by rw [hf.lsbMin]; ring)]
    field_simp
  · have hone : f.field n q = (q - f.lsbMin).toNat + 1 := by
      rw [FloatFormat.field, hf.prec]; exact if_neg hsub
    have hfrac : n % 2 ^ F = n - 2 ^ F := by
      have hn := h.lt
      rw [hf.prec, pow_succ] at hn
      rw [Nat.mod_eq_sub_mod (not_lt.1 hsub), Nat.mod_eq_of_lt (by omega)]
    have hlo := h.lo
    have hexp : (2 : ℚ) ^ ((f.field n q : Int) - (2 ^ (f.expBits - 1) - 1)) =
        2 ^ F * (2 : ℚ) ^ q := by
      rw [← zpow_natCast, ← zpow_add₀ two_ne_zero]
      congr 1
      rw [hone]
      push_cast
      rw [Int.toNat_of_nonneg (by omega), hf.lsbMin]
      ring
    rw [if_neg (by omega), hfrac, hexp, realOf, Nat.cast_sub (not_lt.1 hsub)]
    refine congrArg some ?_
    push_cast
    field_simp
    ring

end Pattern

/-! ### Rounding to a canonical value -/

/-- An integer at most `t` is at most a nearest integer. -/
theorem IsNearestEven.ge_of_le {t : ℚ} {n p : Nat} (h : IsNearestEven t n) (ht : (p : ℚ) ≤ t) :
    p ≤ n := by
  obtain ⟨hlo, -⟩ := abs_le.1 h.1
  have : (p : ℚ) < (n + 1 : Nat) := by push_cast; linarith
  exact Nat.lt_succ_iff.1 (by exact_mod_cast this)

section Round

variable {f : FloatFormat} {neg neg' : Bool} {m n : Nat} {e q : Int}

/-- Above the subnormals the rounded significand has full precision. -/
theorem le_roundToUnit (hm : m ≠ 0) (hp : 1 ≤ f.prec) (hq : f.lsbMin < f.lsb m e) :
    2 ^ (f.prec - 1) ≤ roundToUnit m e (f.lsb m e) :=
  (roundToUnit_nearest m e _).ge_of_le (le_units f e hm hp hq)

/-- Where the result is finite, it has full precision or the smallest exponent. -/
theorem roundFinite_canonical (hp : 2 ≤ f.prec) (hr : f.lsbMin ≤ f.lsbMax)
    (h : roundFinite f neg m e = .fin neg' n q) : f.Canonical n q := by
  obtain ⟨hlt, hlo, hhi⟩ := roundFinite_eq_fin hp hr h
  refine ⟨hlt, hlo, hhi, fun hsub => ?_⟩
  by_cases hm : m = 0
  · rw [hm, roundFinite_zero] at h
    cases h
    rfl
  rw [roundFinite_pos f neg e hm] at h
  split_ifs at h
  · cases h
    exact absurd hsub (lt_irrefl _)
  · cases h
    by_contra hne
    exact (le_roundToUnit hm (by omega) (lt_of_le_of_ne hlo (Ne.symm hne))).not_gt hsub

/-- No multiple of the smallest unit is rounded to zero. -/
theorem roundFinite_ne_zero (hp : 1 ≤ f.prec) (hm : m ≠ 0) (he : f.lsbMin ≤ e)
    (h : roundFinite f neg m e = .fin neg' n q) : n ≠ 0 := by
  have hpow (k : Nat) : 0 < 2 ^ k := by positivity
  rw [roundFinite_pos f neg e hm] at h
  split_ifs at h
  · cases h
    exact (hpow _).ne'
  · cases h
    by_cases hq : f.lsb m e ≤ e
    · rw [roundToUnit, if_pos hq]
      exact Nat.mul_ne_zero hm (hpow _).ne'
    · exact ((hpow _).trans_le (le_roundToUnit hm hp (he.trans_lt (not_le.1 hq)))).ne'

theorem roundFinite_fin_sign (h : roundFinite f neg m e = .fin neg' n q) : neg' = neg := by
  rcases roundFinite_sign f neg m e with hv | ⟨n', q', hv⟩
  · rw [hv] at h
    cases h
  · rw [hv] at h
    cases h
    rfl

end Round

/-- A value of the format rounds to itself. -/
theorem FloatFormat.Rounds.real_eq {f : FloatFormat} {x : ℚ} {v : FloatVal} (h : f.Rounds x v)
    {t : Bool} {k : Nat} {g : Int} (hx : realOf t k g = x) (hk : k < 2 ^ f.prec)
    (hlo : f.lsbMin ≤ g) (hhi : g ≤ f.lsbMax) : v.real = some x := by
  have hlimit : |x| < f.limit := by
    have hk' : (k : ℚ) ≤ 2 ^ f.prec - 1 := by
      have : k + 1 ≤ 2 ^ f.prec := hk
      rw [le_sub_iff_add_le]
      exact_mod_cast this
    have hpow : (2 : ℚ) ^ g ≤ (2 : ℚ) ^ f.lsbMax := zpow_le_zpow_right₀ one_le_two hhi
    calc |x| = k * (2 : ℚ) ^ g := by rw [← hx, abs_realOf, realOf_false]
      _ ≤ (2 ^ f.prec - 1) * (2 : ℚ) ^ f.lsbMax := by gcongr; exact hk'.trans' k.cast_nonneg
      _ < f.limit := by rw [FloatFormat.limit]; gcongr; norm_num
  cases v with
  | nan => exact h.elim
  | inf neg => exact absurd hlimit h.1.not_gt
  | fin neg n q =>
    obtain ⟨-, -, -, -, hnear⟩ := h
    have hdist := (hnear t k g hk hlo hhi).1
    rw [hx, sub_self, abs_zero, abs_nonpos_iff, sub_eq_zero] at hdist
    exact congrArg some hdist

/-! ### The operations round once -/

theorem realOf_mul (s t : Bool) (m n : Nat) (e g : Int) :
    realOf (s != t) (m * n) (e + g) = realOf s m e * realOf t n g := by
  have hsign : (if (s != t) = true then (-1 : ℚ) else 1) =
      (if s = true then -1 else 1) * (if t = true then -1 else 1) := by
    cases s <;> cases t <;> simp
  rw [realOf, realOf, realOf, hsign, zpow_add₀ two_ne_zero]
  push_cast
  ring

theorem floatMul_rounds (s t : Bool) (m n : Nat) (e g : Int) :
    binary64.Rounds (realOf s m e * realOf t n g) (floatMul (.fin s m e) (.fin t n g)) := by
  rw [← realOf_mul]
  exact roundFinite_rounds _ _ _ _ (by decide) (by decide)

/-- An integer in units of `2^b` as a sign and a magnitude. -/
theorem realOf_natAbs (i b : Int) : realOf (decide (i < 0)) i.natAbs b = i * (2 : ℚ) ^ b := by
  have habs : ((i.natAbs : Nat) : ℚ) = |(i : ℚ)| := by rw [Nat.cast_natAbs, Int.cast_abs]
  rw [realOf, habs]
  by_cases hneg : i < 0
  · have : (i : ℚ) < 0 := by exact_mod_cast hneg
    simp [hneg, abs_of_neg this]
  · have : (0 : ℚ) ≤ i := by exact_mod_cast not_lt.1 hneg
    simp [hneg, abs_of_nonneg this]

/-- The sum of two values in units of the smaller last place. -/
def unitSum (s t : Bool) (m n : Nat) (e g : Int) : Int :=
  scaledInt s m e (min e g) + scaledInt t n g (min e g)

theorem unitSum_mul (s t : Bool) (m n : Nat) (e g : Int) :
    (unitSum s t m n e g : ℚ) * (2 : ℚ) ^ min e g = realOf s m e + realOf t n g := by
  rw [unitSum, Int.cast_add, add_mul, scaledInt_mul_two_zpow s m (min_le_left e g),
    scaledInt_mul_two_zpow t n (min_le_right e g)]

theorem floatAdd_fin (s t : Bool) (m n : Nat) (e g : Int) :
    floatAdd (.fin s m e) (.fin t n g) =
      if unitSum s t m n e g = 0 then .fin (s && t) 0 binary64.lsbMin
      else roundFinite binary64 (decide (unitSum s t m n e g < 0)) (unitSum s t m n e g).natAbs
        (min e g) := rfl

theorem floatAdd_rounds (s t : Bool) (m n : Nat) (e g : Int) :
    binary64.Rounds (realOf s m e + realOf t n g) (floatAdd (.fin s m e) (.fin t n g)) := by
  rw [floatAdd_fin, ← unitSum_mul]
  split
  · next hzero =>
    have hrounds := rounds_zero binary64 (s && t) 0 (by decide)
    rwa [realOf_zero, ← zero_mul ((2 : ℚ) ^ min e g), ← Int.cast_zero, ← hzero] at hrounds
  · rw [← realOf_natAbs]
    exact roundFinite_rounds _ _ _ _ (by decide) (by decide)

/-- A finite sum is canonical, and a zero one is `+0` where the second operand is not negative
(90_conflicts.md C17). -/
theorem floatAdd_canonical {s neg : Bool} {m n k : Nat} {e g q : Int} (he : binary64.lsbMin ≤ e)
    (hg : binary64.lsbMin ≤ g) (h : floatAdd (.fin s m e) (.fin false n g) = .fin neg k q) :
    binary64.Canonical k q ∧ (k = 0 → neg = false) := by
  rw [floatAdd_fin] at h
  split at h
  · rw [Bool.and_false] at h
    cases h
    exact ⟨⟨by decide, by decide, by decide, fun _ => rfl⟩, fun _ => rfl⟩
  · next hsum =>
    refine ⟨roundFinite_canonical (by decide) (by decide) h, fun hk => absurd hk ?_⟩
    exact roundFinite_ne_zero (by decide) (Int.natAbs_ne_zero.2 hsum) (le_min he hg) h

/-- What is not finite stays so in a product and in a sum. -/
theorem floatMul_real_eq_none {s : Bool} {m : Nat} {e : Int} {y : FloatVal} (h : y.real = none) :
    (floatMul (.fin s m e) y).real = none := by
  cases y with
  | nan => rfl
  | inf t =>
    rw [floatMul]
    split <;> rfl
  | fin t n g => cases h

theorem floatAdd_real_eq_none {s : Bool} {m : Nat} {e : Int} {y : FloatVal} (h : y.real = none) :
    (floatAdd (.fin s m e) y).real = none := by
  cases y with
  | nan => rfl
  | inf t => rfl
  | fin t n g => cases h

/-- Codes are exact in binary64 (00_scope.md R16). -/
theorem toF64_exact {c : Nat} (hc : c < 2 ^ 32) :
    ∃ k g, toF64 c = .fin false k g ∧ realOf false k g = c := by
  have hrounds : binary64.Rounds (realOf false c 0) (toF64 c) :=
    roundFinite_rounds _ _ _ _ (by decide) (by decide)
  have hreal := hrounds.real_eq rfl (hc.trans (by decide)) (by decide) (by decide)
  obtain ⟨neg, k, g, hv, hkg⟩ := FloatVal.real_eq_some.1 hreal
  obtain rfl : neg = false := roundFinite_fin_sign hv
  exact ⟨k, g, hv, by rw [hkg, realOf_false, zpow_zero, mul_one]⟩

/-! ### Elements -/

/-- A value whose zero is `+0` has its sign (46_band_decode.md R361). -/
theorem sign_eq_decide_realOf_neg {neg : Bool} {n : Nat} {q : Int} (hzero : n = 0 → neg = false) :
    neg = decide (realOf neg n q < 0) := by
  cases neg with
  | false => simp [(realOf_false_nonneg n q).not_gt]
  | true =>
    have hn : n ≠ 0 := fun h => Bool.noConfusion (hzero h)
    have hpos : 0 < realOf false n q := by rw [realOf_false]; positivity
    simp [realOf_true, hpos]

/-- The stored bits of a canonical value: its pattern and its sign (46_band_decode.md R361,
R362). -/
theorem ofNat_floatPattern {f : FloatFormat} {F w : Nat} {neg : Bool} {n : Nat} {q : Int}
    (hf : f.Ieee F) (hw : w = f.expBits + F + 1) (h : f.Canonical n q) :
    ieeeValue f.expBits F (BitVec.ofNat w (floatPattern f (.fin neg n q))).toNat =
        some (realOf neg n q) ∧
      (BitVec.ofNat w (floatPattern f (.fin neg n q))).msb = neg := by
  subst hw
  constructor
  · rw [BitVec.toNat_ofNat, Nat.mod_eq_of_lt (floatPattern_lt hf h), ieeeValue_floatPattern hf h]
  · rw [BitVec.msb_eq_getLsbD_last, BitVec.getLsbD_ofNat, Nat.add_sub_cancel,
      testBit_floatPattern hf h]
    simp

section Integer

variable {kind : Kind} (hkind : kind.isInteger = true)
include hkind

/-- In the integer kinds an element is the nearest integer (46_band_decode.md R363). -/
theorem isElementOf_integer {x : ℚ} {r : Option Element} : IsElementOf kind x r ↔
    ∃ n : Int, |(n : ℚ) - x| ≤ 1 / 2 ∧ (|(n : ℚ) - x| = 1 / 2 → |x| < |(n : ℚ)|) ∧
      r = if kind.minInt ≤ n ∧ n ≤ kind.maxInt then some (.int n) else none := by
  cases kind with
  | f32 | f64 => cases hkind
  | i8 | u8 | i16 | u16 | i32 | u32 => exact Iff.rfl

theorem elementOf_integer (neg : Bool) (n : Nat) (q : Int) :
    elementOf kind neg n q = (do
      ensure (kind.minInt ≤ roundHalfAway neg n q ∧ roundHalfAway neg n q ≤ kind.maxInt)
        (.raise .arithmeticOverflow)
      .ok (.int (roundHalfAway neg n q))) := by
  cases kind with
  | f32 | f64 => cases hkind
  | i8 | u8 | i16 | u16 | i32 | u32 => rfl

theorem isElementOf_elementOf_integer (neg : Bool) (n : Nat) (q : Int) :
    IsElementOf kind (realOf neg n q) (elementOf kind neg n q).toOption := by
  obtain ⟨hnear, htie⟩ := roundHalfAway_nearest neg n q
  refine (isElementOf_integer hkind).2 ⟨_, hnear, htie, ?_⟩
  rw [elementOf_integer hkind, ensure_bind]
  split <;> rfl

/-- The integer that an integer becomes is itself (46_band_decode.md R363). -/
theorem isElementOf_int {i : Int} {r : Option Element} (h : IsElementOf kind i r) :
    r = if kind.minInt ≤ i ∧ i ≤ kind.maxInt then some (.int i) else none := by
  obtain ⟨n, hnear, -, hr⟩ := (isElementOf_integer hkind).1 h
  have hlt : |n - i| < 1 := by
    have : |(n : ℚ) - i| < 1 := by linarith
    exact_mod_cast this
  rwa [sub_eq_zero.1 (Int.abs_lt_one_iff.1 hlt)] at hr

end Integer

/-- `elementOf` takes the kind's form of the value (46_band_decode.md R361 to R363). -/
theorem isElementOf_elementOf (kind : Kind) {neg : Bool} {n : Nat} {q : Int}
    (h : binary64.Canonical n q) (hzero : n = 0 → neg = false) :
    IsElementOf kind (realOf neg n q) (elementOf kind neg n q).toOption := by
  have hsign := sign_eq_decide_realOf_neg (q := q) hzero
  cases kind with
  | f64 =>
    obtain ⟨hvalue, hmsb⟩ := ofNat_floatPattern (w := 64) (neg := neg) binary64_ieee rfl h
    exact ⟨_, rfl, hvalue, hmsb.trans hsign⟩
  | f32 =>
    refine ⟨_, roundFinite_rounds binary32 neg n q (by decide) (by decide), ?_⟩
    rw [elementOf, rne32]
    rcases roundFinite_sign binary32 neg n q with hv | ⟨n', q', hv⟩
    · rw [hv]
      rfl
    · have hcanonical := roundFinite_canonical (by decide) (by decide) hv
      obtain ⟨hvalue, hmsb⟩ :=
        ofNat_floatPattern (w := 32) (neg := neg) binary32_ieee rfl hcanonical
      rw [hv]
      exact ⟨_, rfl, hvalue, hmsb.trans hsign⟩
  | i8 | u8 | i16 | u16 | i32 | u32 => exact isElementOf_elementOf_integer rfl neg n q

/-! ### Dequantization -/

section Dequantize

variable {h : Header} {zMin : BitVec 64} {c : Nat}

theorem dequantize_of_fin {neg : Bool} {n : Nat} {q : Int}
    (hv : dequantValue h.maxZErr zMin c = .fin neg n q) :
    dequantize h zMin c = elementOf h.kind neg n q := by
  rw [dequantize, hv]

theorem dequantize_of_not_finite (hv : (dequantValue h.maxZErr zMin c).real = none) :
    dequantize h zMin c = .error (.raise .arithmeticOverflow) := by
  rw [dequantize]
  generalize dequantValue h.maxZErr zMin c = v at hv
  cases v with
  | fin => cases hv
  | nan | inf => rfl

theorem elementOf_stops (kind : Kind) (neg : Bool) (n : Nat) (q : Int) :
    StopsIn (· = .raise .arithmeticOverflow) (elementOf kind neg n q) := by
  cases kind with
  | f64 => exact .ok _
  | f32 =>
    rw [elementOf]
    split
    · exact .ok _
    · exact .error rfl
    · exact .error rfl
  | i8 | u8 | i16 | u16 | i32 | u32 => exact .bind (.check rfl) fun _ _ => .ok _

/-- The only error of a code is that it has no value in the kind (46_band_decode.md R361, R363). -/
theorem dequantize_stops : StopsIn (· = .raise .arithmeticOverflow) (dequantize h zMin c) := by
  cases hv : dequantValue h.maxZErr zMin c with
  | fin neg n q =>
    rw [dequantize_of_fin hv]
    exact elementOf_stops _ _ _ _
  | nan | inf =>
    rw [dequantize_of_not_finite (by rw [hv]; rfl)]
    exact .error rfl

theorem dequantize_eq_error (hd : ∀ e, dequantize h zMin c ≠ .ok e) :
    dequantize h zMin c = .error (.raise .arithmeticOverflow) := by
  cases hr : dequantize h zMin c with
  | ok e => exact absurd hr (hd e)
  | error st => rw [dequantize_stops st hr]

/-- The quantization step is R360's, and positive (46_band_decode.md R360). -/
theorem quantStep_isStep {mze : BitVec 64} {tol : ℚ} (htol : (floatOfBits mze).real = some tol)
    (hnonneg : 0 ≤ tol) : IsStep tol (quantStep mze) ∧
      ∀ neg n q, quantStep mze = .fin neg n q → neg = false := by
  obtain ⟨s, m, e, hv, rfl⟩ := FloatVal.real_eq_some.1 htol
  rw [quantStep, hv]
  by_cases hzero : m = 0
  · subst hzero
    rw [if_pos (show (FloatVal.fin s 0 e).isZero = true from rfl), IsStep, realOf_zero,
      if_pos rfl]
    refine ⟨by rw [FloatVal.real, realOf_false]; norm_num, fun neg n q hstep => ?_⟩
    cases hstep
    rfl
  · have hs : s = false :=
      (sign_eq_decide_realOf_neg fun h => absurd h hzero).trans (decide_eq_false hnonneg.not_gt)
    have hne : realOf s m e ≠ 0 := by
      rw [hs, realOf_false]
      positivity
    have hrounds := floatMul_rounds false s 2 m 0 e
    rw [realOf_false, zpow_zero, mul_one] at hrounds
    rw [if_neg (by simpa [FloatVal.isZero] using hzero), IsStep, if_neg hne]
    exact ⟨hrounds, fun neg n q hstep => by rw [roundFinite_fin_sign hstep, hs]; rfl⟩

/-- A code's value over the rationals is what the engine computes: the step, the product and the sum
each round once, and what is not finite stays so (46_band_decode.md R360 to R363). -/
theorem dequantizesTo_dequantize {z tol : ℚ} (hz : (floatOfBits zMin).real = some z)
    (htol : (floatOfBits h.maxZErr).real = some tol) (hnonneg : 0 ≤ tol) (hc : c < 2 ^ 32) :
    DequantizesTo h.kind z tol c (dequantize h zMin c).toOption := by
  obtain ⟨s, m, e, hzv, rfl⟩ := FloatVal.real_eq_some.1 hz
  obtain ⟨k, g, hcv, hkg⟩ := toF64_exact hc
  obtain ⟨hstep, hpositive⟩ := quantStep_isStep htol hnonneg
  have hvalue : dequantValue h.maxZErr zMin c =
      floatAdd (.fin s m e) (floatMul (.fin false k g) (quantStep h.maxZErr)) := by
    rw [dequantValue, hzv, hcv]
  refine ⟨quantStep h.maxZErr, hstep, ?_⟩
  cases hd : quantStep h.maxZErr with
  | nan | inf =>
    rw [dequantize_of_not_finite]
    · rfl
    · rw [hvalue, hd]
      exact floatAdd_real_eq_none (floatMul_real_eq_none rfl)
  | fin t n q =>
    obtain rfl := hpositive t n q hd
    rw [hd] at hvalue
    refine ⟨floatMul (.fin false k g) (.fin false n q), hkg ▸ floatMul_rounds _ _ _ _ _ _, ?_⟩
    cases hprod : floatMul (.fin false k g) (.fin false n q) with
    | nan | inf =>
      rw [dequantize_of_not_finite]
      · rfl
      · rw [hvalue, hprod]
        exact floatAdd_real_eq_none rfl
    | fin t' n' q' =>
      obtain rfl : t' = false := roundFinite_fin_sign hprod
      have hlo := (roundFinite_canonical (by decide) (by decide) hprod).lo
      rw [hprod] at hvalue
      refine ⟨_, floatAdd_rounds _ _ _ _ _ _, ?_⟩
      cases hsum : floatAdd (.fin s m e) (.fin false n' q') with
      | nan | inf =>
        rw [dequantize_of_not_finite (by rw [hvalue, hsum]; rfl)]
        rfl
      | fin neg j r =>
        obtain ⟨hcanonical, hzero⟩ := floatAdd_canonical (floatOfBits_exponent hzv) hlo hsum
        rw [dequantize_of_fin (hvalue.trans hsum)]
        exact isElementOf_elementOf h.kind hcanonical hzero

end Dequantize

/-! ### DEQ.ONE -/

/-- An integer's image is its residue (20_memory.md R73). -/
theorem toNat_ofNat_image_int (k : Kind) (v : Int) :
    ((BitVec.ofNat 64 ((Element.int v).image k)).toNat : Int) = v % (256 ^ k.bytes : Int) := by
  have hbase : ((2 ^ (8 * k.bytes) : Nat) : Int) = 256 ^ k.bytes := by
    rw [pow_mul]
    norm_num
  have hbytes : 256 ^ k.bytes ≤ (256 : Int) ^ 8 :=
    pow_le_pow_right₀ (by norm_num) (by cases k <;> decide)
  have hpos : (0 : Int) < 256 ^ k.bytes := by positivity
  have hnonneg := Int.emod_nonneg v hpos.ne'
  have hlt := Int.emod_lt_of_pos v hpos
  rw [Element.image, hbase, BitVec.toNat_ofNat, Nat.mod_eq_of_lt (by omega),
    Int.toNat_of_nonneg hnonneg]

/-- Settles O52: the value by `dequantizesTo_dequantize`; then the command's checks in order. -/
theorem deqOneCases : Obligations.DeqOneCases := by
  refine ⟨fun h zMin c z tol hc hz htol hnonneg => ?_, fun s h d hhdr hdesc => ?_⟩
  · rw [← real_floatOfBits] at hz htol
    refine ⟨_, dequantizesTo_dequantize hz htol hnonneg hc, ?_⟩
    cases hr : dequantize h zMin c with
    | ok e => rfl
    | error st => rw [dequantize_stops st hr]; rfl
  · change (_ → execDeqOne s = _) ∧
      (_ → (_ → execDeqOne s = _) ∧ ∀ e, _ → ∃ r0, execDeqOne s = _ ∧ _)
    rw [execDeqOne, headerOf_eq_ok.2 hhdr, except_ok_bind]
    refine ⟨fun hwide => command_ensure_of_not hwide.not_gt, fun hc => ?_⟩
    rw [command_ensure_of hc, descriptorOf_eq_ok.2 hdesc, except_ok_bind]
    refine ⟨fun hnone => ?_, fun e he => ⟨BitVec.ofNat 64 (e.image h.kind), ?_, ?_⟩⟩
    · rw [dequantize_eq_error hnone]
      rfl
    · rw [he]
      rfl
    · cases e with
      | int v => exact toNat_ofNat_image_int h.kind v
      | f32 b => exact BitVec.ofNat_toNat 64 b
      | f64 b => exact (BitVec.ofNat_toNat 64 b).trans (BitVec.setWidth_eq b)

/-! ### Lossless mode -/

/-- Integers below `2^53` are exact in binary64 (00_scope.md R16). -/
theorem rounds_int_real {i : Int} {v : FloatVal} (hlo : -(2 ^ 53) < i) (hhi : i < 2 ^ 53)
    (h : binary64.Rounds i v) : v.real = some (i : ℚ) := by
  have hk : i.natAbs < 2 ^ binary64.prec := by
    simp only [binary64]
    omega
  exact h.real_eq (by rw [realOf_natAbs i 0, zpow_zero, mul_one]) hk (by decide) (by decide)

/-- Settles O53: every step rounds an integer below `2^53`, so the code's value is `z + c`. -/
theorem losslessIntegersExact : Obligations.LosslessIntegersExact := by
  intro h zMin neg m e z c hkind hmze hzMin hz hc hlo hhi
  have hzreal : (floatOfBits zMin).real = some (z : ℚ) :=
    FloatVal.real_eq_some.2 ⟨_, _, _, hzMin, hz⟩
  have htol : (floatOfBits h.maxZErr).real = some 0 := by
    refine FloatVal.real_eq_some.2 ?_
    rcases hmze with hmze | hmze
    · exact ⟨false, 0, -1074, by rw [hmze]; rfl, realOf_zero _ _⟩
    · exact ⟨true, 0, -1074, by rw [hmze]; rfl, realOf_zero _ _⟩
  obtain ⟨step, hstep, hvalue⟩ := dequantizesTo_dequantize hzreal htol le_rfl hc
  rw [IsStep, if_pos rfl] at hstep
  rw [hstep] at hvalue
  obtain ⟨prod, hprod, hvalue⟩ := hvalue
  rw [mul_one, ← Int.cast_natCast] at hprod
  rw [rounds_int_real (by omega) (by omega) hprod] at hvalue
  obtain ⟨v, hv, hvalue⟩ := hvalue
  rw [← Int.cast_add] at hv
  rw [rounds_int_real hlo hhi hv] at hvalue
  have helement := isElementOf_int hkind hvalue
  cases hr : dequantize h zMin c with
  | ok x =>
    rw [hr] at helement
    split_ifs at helement ⊢ <;> cases helement
    rfl
  | error st =>
    obtain rfl := dequantize_stops st hr
    rw [hr] at helement
    split_ifs at helement ⊢ <;> cases helement
    rfl

end Sys2Proof.Machine

/-!
SUPPORT. The orchestrator's commands, path by path (46_band_decode.md R350 to R372): which phases
refuse a command, what BAND.MASK and BAND.DATA make of the payloads that the window holds, the
pixels that BAND.DEQ, BAND.END and COMMIT write, and what a result keeps of its header.
-/

namespace Sys2Proof.Machine

/-! ### Checks in order -/

section Checks

variable {s : State} {c : Prop} [Decidable c] {e : EngineError} {f : Unit → Except Stop State}

/-- `assert c else fail e` where `c` does not hold: the error, and `ORC.phase = Failed`
(46_band_decode.md R369). -/
theorem command_ensureFail_of_not (hc : ¬c) :
    command s (ensure c (.fail e) >>= f) = failsWith e (s.withPhase .failed) := by
  rw [ensure_false _ hc]
  rfl

/-- A command whose first check is `assert c else fail e`: `d` says that `c` does not hold. -/
theorem command_ensureFail {d : Prop} [Decidable d] {o : Host.Outcome State Fault Refusal}
    (hd : d ↔ ¬c) (hrest : c → command s (f ()) = o) :
    command s (ensure c (.fail e) >>= f) =
      if d then failsWith e (s.withPhase .failed) else o := by
  by_cases hc : c
  · rw [command_ensure_of hc, hrest hc, if_neg (by rwa [hd, not_not])]
  · rw [command_ensureFail_of_not hc, if_pos (hd.2 hc)]

end Checks

/-! ### Sequencing -/

section Sequencing

variable {s : State} {op : BitVec 8}

/-- The check of the header (46_band_decode.md R351). -/
theorem command_headerOf_none (hhdr : s.orc.hdr = none) (f : Header → Except Stop State) :
    command s (headerOf op s >>= f) = failsWith (.illegalCommand op) s := by
  rw [headerOf, hhdr]
  rfl

theorem command_headerOf_some {h : Header} (hhdr : s.orc.hdr = some h)
    (f : Header → Except Stop State) : command s (headerOf op s >>= f) = command s (f h) := by
  rw [headerOf_eq_ok.2 hhdr, except_ok_bind]

theorem exec_bandBegin_out_of_phase (hstart : s.orc.phase ≠ .start) (hdone : s.orc.phase ≠ .done) :
    exec .bandBegin s = failsWith (.illegalCommand 0x61) s := by
  cases hhdr : s.orc.hdr with
  | none => exact command_headerOf_none hhdr _
  | some h =>
    exact (command_headerOf_some hhdr _).trans (command_ensure_of_not (by simp [hstart, hdone]))

theorem exec_commit_out_of_phase (hdone : s.orc.phase ≠ .done) :
    exec .commit s = failsWith (.illegalCommand 0x67) s := by
  cases hhdr : s.orc.hdr with
  | none => exact command_headerOf_none hhdr _
  | some h => exact (command_headerOf_some hhdr _).trans (command_ensure_of_not (by simp [hdone]))

/-- The orchestrator's commands, each of which runs in its own phases alone (46_band_decode.md
R350). -/
def orcCommands : List Instr := [.bandBegin, .bandMask, .bandData, .bandDeq, .bandEnd, .commit]

/-- `Failed` is no command's own phase (46_band_decode.md R350). -/
theorem exec_orcCommand_failed {i : Instr} (hi : i ∈ orcCommands)
    (hfailed : s.orc.phase = .failed) :
    exec i s = failsWith (.illegalCommand i.opcode) s := by
  have hne {p : Phase} (hp : p ≠ .failed) : s.orc.phase ≠ p := by rw [hfailed]; exact hp.symm
  simp only [orcCommands, List.mem_cons, List.not_mem_nil, or_false] at hi
  rcases hi with rfl | rfl | rfl | rfl | rfl | rfl
  · exact exec_bandBegin_out_of_phase (hne (by decide)) (hne (by decide))
  · exact command_ensure_of_not (hne (by decide))
  · exact command_ensure_of_not (hne (by decide))
  · exact command_ensure_of_not (hne (by decide))
  · exact command_ensure_of_not (hne (by decide))
  · exact exec_commit_out_of_phase (hne (by decide))

theorem mem_orcCommands_of_writes_orc {i : Instr} (hw : i.opcode ∈ orcWriters) (hinfo : i ≠ .info)
    (hdecode : i ≠ .decode) (hsrst : i ≠ .srst) : i ∈ orcCommands := by
  cases i with
  | info => exact absurd rfl hinfo
  | decode => exact absurd rfl hdecode
  | srst => exact absurd rfl hsrst
  | bandBegin | bandMask | bandData | bandDeq | bandEnd | commit => decide
  | _ => simp [Instr.opcode, orcWriters] at hw

end Sequencing

/-- Settles O18: the check of the phase, or of the header, is the first that fails; every command
that may write the orchestrator checks its phase. -/
theorem outOfSequenceRefused : Obligations.OutOfSequenceRefused := by
  refine ⟨fun s => ⟨exec_bandBegin_out_of_phase, fun hp => command_ensure_of_not hp,
    fun hp => command_ensure_of_not hp, fun hp => command_ensure_of_not hp,
    fun hp => command_ensure_of_not hp, exec_commit_out_of_phase, fun hhdr =>
    ⟨command_headerOf_none hhdr _, command_headerOf_none hhdr _, command_headerOf_none hhdr _⟩⟩,
    fun i s t hfailed hrun hinfo hdecode hsrst => ?_⟩
  by_cases hw : i.opcode ∈ orcWriters
  · have hi := mem_orcCommands_of_writes_orc hw hinfo hdecode hsrst
    rw [exec_orcCommand_failed hi hfailed] at hrun
    cases hrun
    exact ⟨rfl, rfl⟩
  · have hframe := (exec_frame i s).next hrun
    exact ⟨hframe.orc hw, hframe.stage fun h => hw ((by decide : stageWriters ⊆ orcWriters) h)⟩

/-! ### BAND.BEGIN -/

section Selectors

variable {s : State} {o : Host.Outcome State Fault Refusal} {n : Nat}

/-- The check of a mask selector (46_band_decode.md R352). -/
theorem command_maskModeOf {f : MaskMode → Except Stop State}
    (hrest : command s (f (if n = 0 then .absent else if n = 1 then .raw else .rle)) = o) :
    command s (maskModeOf n >>= f) =
      if 2 < n then failsWith (.invalidField 10) (s.withPhase .failed) else o := by
  match n with
  | 0 | 1 | 2 => exact hrest
  | n + 3 =>
    rw [if_pos (by omega)]
    rfl

/-- The checks of an entropy selector, in the order of 46_band_decode.md R353. -/
theorem command_entropyModeOf {kind : Kind} {f : EntropyMode → Except Stop State}
    (hrest : command s (f (if n = 0 then .bitStuffed else .huffman)) = o) :
    command s (entropyModeOf kind n >>= f) =
      if n = 2 then failsWith (.unsupportedFeature 1) (s.withPhase .failed)
      else if 2 < n then failsWith (.invalidField 11) (s.withPhase .failed)
      else if n = 1 ∧ kind ≠ .i8 ∧ kind ≠ .u8 then
        failsWith (.invalidField 11) (s.withPhase .failed)
      else o := by
  match n with
  | 0 => exact hrest
  | 1 =>
    cases kind with
    | i8 | u8 => exact hrest
    | i16 | u16 | i32 | u32 | f32 | f64 => rfl
  | 2 => rfl
  | n + 3 =>
    rw [if_neg (by omega), if_pos (by omega)]
    rfl

end Selectors

theorem uint_byte_of_holds {src : Source} {a : Nat} {b : Byte} (h : src.Holds a [b]) :
    src.uint a 1 = .ok b.toNat := uint_eq_le_of_holds h

/-- Settles O46: the checks in their order. -/
theorem bandBeginCases : Obligations.BandBeginCases := by
  intro s h d mm em hhdr hdesc hholds
  refine (command_headerOf_some hhdr _).trans ?_
  refine command_ensure Iff.rfl fun ⟨_, _, hband⟩ => ?_
  refine command_ensure (by rw [fitsIn_iff, not_le]) fun _ => ?_
  refine command_ensureFail (Bool.not_eq_true _).symm.to_iff fun _ => ?_
  rw [descriptorOf_eq_ok.2 (hdesc hband), except_ok_bind, sectionChecks, bind_assoc]
  refine command_ensureFail not_le.symm fun hend => ?_
  rw [bind_assoc]
  refine command_ensureFail not_le.symm fun hlen => ?_
  obtain ⟨hmm, hem⟩ : s.source.Holds d.offset.toNat [mm] ∧
      s.source.Holds (d.offset.toNat + 1) [em] :=
    (holds_append (x := [mm]) (y := [em])).1 (hholds hend hlen)
  rw [uint_byte_of_holds hmm, orFail_ok, except_ok_bind, bind_assoc]
  refine command_maskModeOf ?_
  rw [uint_byte_of_holds hem, orFail_ok, except_ok_bind, bind_assoc]
  exact command_entropyModeOf rfl

/-! ### BAND.MASK -/

section Masks

variable {src : Source} {br : BitReader} {mask : List Bool}

/-- The stream bits at the cursor are read as they stand there (40_bitreader.md R151). -/
theorem nextBits_of_bitsAre (h : src.BitsAre br mask) :
    src.nextBits br mask.length .msb = .ok mask := by
  obtain ⟨-, hread, hbits⟩ := h
  rw [nextBits_of_readable _ hread]
  refine congrArg Except.ok (List.ext_getElem (length_streamBits _ _) fun j hj hj' => ?_)
  have hbit := toNat_getD_streamBits (src := src) (br := br) .msb hj'
  rw [hbits j hj', List.getD_eq_getElem _ _ hj, List.getD_eq_getElem _ _ hj'] at hbit
  rw [Bool.eq_iff_iff, ← Bool.toNat_eq_one, hbit, Bool.toNat_eq_one]

theorem length_rleMask (runs : List (Bool × Nat)) :
    (rleMask runs).length = (runs.map Prod.snd).sum := by
  simp [rleMask, List.length_flatMap]

/-- MASK.RLE's loop over all the pairs of a payload (42_mask_decoders.md R213, R214). -/
theorem rleRuns_of_rleLayout {op : BitVec 8} {runs : List (Bool × Nat)}
    (hlegal : ∀ r ∈ runs, 1 ≤ r.2 ∧ r.2 < 2 ^ 32) (ha : br.aligned = true)
    (hrem : 40 * runs.length ≤ br.rem) (h : src.Holds br.cur (rleLayout runs)) :
    rleRuns op src (rleMask runs).length (rleMask runs).length br =
      .ok (rleMask runs, br.advance (40 * runs.length)) := by
  have hlen : runs.length ≤ (rleMask runs).length := by
    rw [length_rleMask, ← List.length_map Prod.snd]
    exact List.length_le_sum_of_one_le _ (List.forall_mem_map.2 fun r hr => (hlegal r hr).1)
  obtain ⟨fuel, hfuel⟩ := Nat.exists_eq_add_of_le' hlen
  have hloop := rleRuns_append (op := op) (fuel := fuel) (left := 0) hlegal ha hrem h
  rw [← hfuel, Nat.add_zero, ← length_rleMask] at hloop
  rw [hloop, rleRuns_no_pixels_left, except_ok_bind, List.append_nil]

/-- The body that BAND.MASK selects answers the mask that its payload stands for (46_band_decode.md
R355). -/
theorem bandMaskBody_of_holdsMask {op : BitVec 8} {s : State} {m : MaskPayload}
    (hmode : s.orc.maskMode = m.mode) (hfits : s.params.fitsOut mask.length = true)
    (h : s.source.HoldsMask s.br mask m) :
    bandMaskBody op s mask.length =
      .ok ({ bits := mask, building := false }, s.br.advance (m.size mask.length)) := by
  rw [bandMaskBody, hmode]
  cases m with
  | absent =>
    have hmask : mask = List.replicate mask.length true := h
    rw [MaskPayload.mode, maskAbsentBody_eq_ok.2 ⟨hfits, rfl⟩, ← hmask]
    rfl
  | raw =>
    obtain ⟨ha, hrem, hbits⟩ := h
    exact maskRawBody_eq_ok.2 ⟨hfits, ha, hrem, nextBits_of_bitsAre hbits, rfl, rfl⟩
  | rle runs =>
    obtain ⟨ha, rfl, hlegal, hrem, hholds⟩ := h
    exact maskRleBody_eq_ok.2 ⟨hfits, ha, rleRuns_of_rleLayout hlegal ha hrem hholds, rfl⟩

end Masks

/-- Settles O47: the body answers the mask, and the check of its population decides. -/
theorem bandMaskCompletes : Obligations.BandMaskCompletes := by
  intro s h mask m hphase hhdr hmode hlen hfits hholds
  change command s (bandMaskRule 0x62 s) = _
  have hbody := bandMaskBody_of_holdsMask (op := 0x62) hmode hfits hholds
  rw [hlen] at hbody
  rw [bandMaskRule, command_ensure_of hphase, headerOf_eq_ok.2 hhdr, except_ok_bind, Header.pixels,
    hbody, orFail_ok, except_ok_bind, ← hlen]
  by_cases hpop : popcount mask = h.nValid.toNat
  · rw [if_pos hpop]
    exact command_ensure_of hpop _
  · rw [if_neg hpop]
    exact command_ensureFail_of_not hpop

/-! ### BAND.DATA -/

section Data

variable {op : BitVec 8} {s : State}

/-- BS.STREAM's body over blocks that add up to the total (44_bitstuffer.md R284). -/
theorem stuffedStream_of_blocks {p : Params} {src : Source} {br : BitReader}
    {blocks : List PackedBlock} {total : Nat} (hfits : p.fitsOut total = true)
    (ha : br.aligned = true) (h : src.HoldsBlocks br blocks)
    (hcount : (blocks.flatMap PackedBlock.codes).length = total) :
    stuffedStream op p src br total = .ok (blocks.flatMap PackedBlock.codes,
      lastHeader none blocks, br.advance (8 * blockBytes blocks)) := by
  subst hcount
  obtain ⟨fuel, hfuel⟩ := Nat.exists_eq_add_of_le' (length_le_of_holdsBlocks h)
  have hloop := streamBlocks_append (op := op) (fuel := fuel) (cp := 0) (last := none) ha h
    (Nat.zero_add _).le hfits
  rw [← hfuel, Nat.zero_add, streamBlocks_no_codes_left, except_ok_bind, List.append_nil] at hloop
  rw [stuffedStream, ensure_true _ hfits, except_ok_bind, hloop]

/-- The window that a segment of `segLen` bytes leaves (43_huffman.md R247). -/
def BitReader.segment (br : BitReader) (segLen : Nat) : BitReader :=
  { br.advance 2080 with hi := br.lo + br.pos / 8 + 260 + segLen }

/-- HUF.LOADLEN's and HUF.SEG's bodies over a code-length table and a segment length
(43_huffman.md R241, R247). -/
theorem loadLengths_segmentWindow_of_holds {src : Source} {br : BitReader} {lens : List Byte}
    {segLen : Nat} (ha : br.aligned = true) (hlens : lens.length = 256) (hseg : segLen < 2 ^ 32)
    (hrem : 2080 + 8 * segLen ≤ br.rem) (h : src.Holds br.cur (lens ++ leBytes 4 segLen)) :
    loadLengths op src br = .ok (lens, br.advance 2048) ∧
      segmentWindow op src (br.advance 2048) = .ok (segLen, br.segment segLen) := by
  obtain ⟨htable, hlength⟩ := holds_append.1 h
  have hread := memRead_of_holds htable
  have hcur : (br.advance (8 * 256)).cur = br.cur + 256 := cur_advance br 256
  rw [hlens] at hread
  rw [hlens, ← hcur] at hlength
  have hend : br.cur + 256 + 4 + segLen ≤ br.hi := by
    simp only [BitReader.rem, BitReader.cur] at hrem ⊢
    omega
  refine ⟨loadLengths_eq_ok.2 ⟨ha, by omega, hread, rfl⟩, segmentWindow_eq_ok.2
    ⟨aligned_advance 256 ha, by rw [rem_advance]; omega, uint_of_holds hlength hseg, ?_, ?_⟩⟩
  · rwa [hcur]
  · have hhi : br.cur + 256 + 4 + segLen = br.lo + br.pos / 8 + 260 + segLen := by
      rw [BitReader.cur]
    rw [hcur, hhi, advance_advance]
    rfl

/-- The bits of a segment stand in the narrowed window too. -/
theorem bitsAre_segment {src : Source} {br : BitReader} {segLen : Nat} {bits : List Bool}
    (ha : br.aligned = true) (hlen : bits.length ≤ 8 * segLen)
    (h : src.BitsAre (br.advance 2080) bits) : src.BitsAre (br.segment segLen) bits := by
  rw [aligned_iff] at ha
  obtain ⟨-, hread, hbits⟩ := h
  refine ⟨?_, hread, hbits⟩
  simp only [BitReader.rem, BitReader.segment, advance_lo, advance_pos]
  omega

theorem bandStuffedBody_of_holdsData {blocks : List PackedBlock} {count : Nat}
    (hcount : (DataPayload.stuffed blocks).codes.length = count)
    (hfits : s.params.fitsOut count = true) (h : s.source.HoldsData s.br (.stuffed blocks)) :
    bandStuffedBody op s count = .ok { s with
      codes := blocks.flatMap PackedBlock.codes
      bs := stufferAfter s.bs (lastHeader none blocks)
      br := s.br.advance (8 * blockBytes blocks) } :=
  bandStuffedBody_eq_ok.2 ⟨_, _, _, stuffedStream_of_blocks hfits h.1 h.2 hcount, rfl⟩

theorem bandHuffmanBody_of_holdsData {lens : List Byte} {segLen : Nat} {es : List HuffEntry}
    {count : Nat} (hcount : (DataPayload.huffman lens segLen es).codes.length = count)
    (hfits : s.params.fitsOut count = true)
    (h : s.source.HoldsData s.br (.huffman lens segLen es)) :
    bandHuffmanBody op s count = .ok { s with
      codes := es.map fun e => e.sym.setWidth 32
      ht := { lens := lens, tables := some (tablesOf lens) }
      br := (s.br.segment segLen).advance (es.map HuffEntry.len).sum } := by
  obtain ⟨ha, hacc, hseg, hrem, hholds, hes, hlen, hbits⟩ := h
  obtain ⟨hlens, hmax, hkraft⟩ := id hacc
  obtain ⟨hload, hwindow⟩ := loadLengths_segmentWindow_of_holds (op := op) ha hlens hseg hrem hholds
  have hsymbols := decodeSymbols_of_codeStream hacc hes (bitsAre_segment ha hlen hbits)
  rw [show es.length = count by rw [← hcount, DataPayload.codes, List.length_map]] at hsymbols
  exact bandHuffmanBody_eq_ok.2 ⟨_, _, _, _, _, _, _, hload,
    buildTables_eq_ok.2 ⟨hmax, hkraft, rfl⟩, hwindow, hfits, hsymbols, rfl⟩

end Data

/-- Settles O48: the rule succeeds with what the payload's body leaves. -/
theorem bandDataCompletes : Obligations.BandDataCompletes := by
  intro s h p hphase hhdr hmode hcount hfits hholds
  have hrule {u : State} (hbody : (match s.orc.entropyMode with
      | .bitStuffed => bandStuffedBody 0x63 s h.valid
      | .huffman => bandHuffmanBody 0x63 s h.valid) = .ok u) :
      exec .bandData s = completesWith (u.withPhase .dataDecoded) := by
    change command s (bandDataRule 0x63 s) = _
    rw [bandDataRule_eq_ok.2 ⟨h, u, hphase, hhdr, hbody, rfl⟩]
    rfl
  cases p with
  | stuffed blocks =>
    rw [hrule (by rw [hmode]; exact bandStuffedBody_of_holdsData hcount hfits hholds), lastHeader]
    dsimp only
    cases blocks.getLast? <;> rfl
  | huffman lens segLen es =>
    exact hrule (by rw [hmode]; exact bandHuffmanBody_of_holdsData hcount hfits hholds)

/-! ### BAND.DEQ -/

section Deq

variable {op : BitVec 8} {h : Header} {zMin : BitVec 64} {bits : List Bool} {codes : List Code}
  {es : List Element} {e : Element}

/-- A code without a value ends the loop, whichever code comes first (46_band_decode.md R361). -/
theorem dequantizeBand_of_no_value (hlen : codes.length = popcount bits)
    (hbad : ∃ c ∈ codes, ∀ e, dequantize h zMin c.toNat ≠ .ok e) :
    dequantizeBand op h zMin bits codes = .error (.raise .arithmeticOverflow) := by
  induction bits generalizing codes with
  | nil =>
    obtain ⟨c, hc, -⟩ := hbad
    exact absurd (List.length_pos_of_mem hc) (by simp [hlen])
  | cons b bits ih =>
    rw [popcount_cons] at hlen
    cases b with
    | false => rw [dequantizeBand, ih hlen hbad, except_error_bind]
    | true =>
      cases codes with
      | nil => simp at hlen
      | cons c codes =>
        rw [dequantizeBand]
        cases hr : dequantize h zMin c.toNat with
        | error st =>
          rw [dequantize_stops st hr]
          rfl
        | ok e =>
          obtain ⟨c', hc', hnone⟩ := hbad
          have hmem : c' ∈ codes := by
            rcases List.mem_cons.1 hc' with rfl | hmem
            · exact absurd hr (hnone e)
            · exact hmem
          rw [except_ok_bind, ih (by simpa using hlen) ⟨c', hmem, hnone⟩, except_error_bind]

/-- An invalid pixel holds the zero value and takes no code (46_band_decode.md R365). -/
theorem bandElements_cons_false (hb : bandElements h zMin (false :: bits) codes (e :: es)) :
    e = h.kind.zero ∧ bandElements h zMin bits codes es := by
  obtain ⟨hlen, hpixel⟩ := hb
  refine ⟨by simpa using hpixel 0 false e rfl rfl, by simpa using hlen, fun i b x hi hx => ?_⟩
  simpa using hpixel (i + 1) b x hi hx

/-- A valid pixel takes the next code (46_band_decode.md R364). -/
theorem bandElements_cons_true (hb : bandElements h zMin (true :: bits) codes (e :: es)) :
    ∃ c rest, codes = c :: rest ∧ dequantize h zMin c.toNat = .ok e ∧
      bandElements h zMin bits rest es := by
  obtain ⟨hlen, hpixel⟩ := hb
  obtain ⟨c, hc, hvalue⟩ : ∃ c, codes[0]? = some c ∧ dequantize h zMin c.toNat = .ok e := by
    simpa using hpixel 0 true e rfl rfl
  cases codes with
  | nil => cases hc
  | cons _ rest =>
    cases hc
    refine ⟨_, rest, rfl, hvalue, by simpa using hlen, fun i b x hi hx => ?_⟩
    simpa using hpixel (i + 1) b x hi hx

/-- The loop answers the band's elements, pixel by pixel (46_band_decode.md R364, R365). -/
theorem dequantizeBand_of_bandElements (hlen : codes.length = popcount bits)
    (hb : bandElements h zMin bits codes es) : dequantizeBand op h zMin bits codes = .ok es := by
  induction bits generalizing codes es with
  | nil =>
    obtain rfl : codes = [] := List.eq_nil_of_length_eq_zero hlen
    obtain rfl : es = [] := List.eq_nil_of_length_eq_zero hb.1
    rfl
  | cons b bits ih =>
    rw [popcount_cons] at hlen
    obtain ⟨e, es, rfl⟩ := List.exists_cons_of_length_eq_add_one hb.1
    cases b with
    | false =>
      obtain ⟨rfl, hrest⟩ := bandElements_cons_false hb
      rw [dequantizeBand, ih hlen hrest, except_ok_bind]
    | true =>
      obtain ⟨c, codes, rfl, hvalue, hrest⟩ := bandElements_cons_true hb
      rw [dequantizeBand, hvalue, except_ok_bind, ih (by simpa using hlen) hrest, except_ok_bind]

/-- `STAGE` after a band is written into it, position by position (46_band_decode.md R364). -/
theorem getElem?_writeStage {stage : List (Option Element)} {at_ : Nat} (hle : at_ ≤ stage.length)
    (t : List Element) (j : Nat) : (writeStage stage at_ t)[j]? =
      if at_ ≤ j ∧ j < at_ + t.length then some t[j - at_]? else stage[j]? := by
  have htake : (stage.take at_).length = at_ := by simp [hle]
  rw [writeStage, Nat.sub_eq_zero_of_le hle, List.replicate_zero, List.append_nil,
    List.append_assoc]
  rcases Nat.lt_or_ge j at_ with hbefore | hge
  · rw [List.getElem?_append_left (by omega), List.getElem?_take_of_lt hbefore, if_neg (by omega)]
  rw [List.getElem?_append_right (by omega), htake]
  rcases Nat.lt_or_ge j (at_ + t.length) with hin | hafter
  · rw [List.getElem?_append_left (by simp; omega), List.getElem?_map,
      List.getElem?_eq_getElem (by omega), if_pos ⟨hge, hin⟩]
    rfl
  · rw [List.getElem?_append_right (by simp; omega), List.getElem?_drop, List.length_map,
      if_neg (by omega)]
    congr 1
    omega

end Deq

/-- Settles O49: the loop's answer, and the positions that the write of `STAGE` touches. -/
theorem bandDeqElements : Obligations.BandDeqElements := by
  intro s h d hphase hhdr hdesc
  refine ⟨fun hnot => (command_ensure_of hphase _).trans <|
    (command_headerOf_some hhdr _).trans (command_ensure_of_not hnot),
    fun hbits hfrozen hcodes => ⟨fun hbad => ?_, fun es hes hstage =>
    ⟨writeStage s.stage (s.orc.band * h.pixels) es, ?_, fun j => ?_⟩⟩⟩
  · refine (command_ensure_of hphase _).trans <| (command_headerOf_some hhdr _).trans <|
      (command_ensure_of ⟨hbits, hfrozen, hcodes⟩ _).trans ?_
    rw [descriptorOf_eq_ok.2 hdesc, except_ok_bind, dequantizeBand_of_no_value hcodes hbad]
    rfl
  · change command s (bandDeqRule 0x64 s) = _
    rw [bandDeqRule_eq_ok.2 ⟨h, d, es, hphase, hhdr, hbits, hfrozen, hcodes, hdesc,
      dequantizeBand_of_bandElements hcodes hes, rfl⟩]
    rfl
  · rw [← hbits, ← hes.1] at hstage ⊢
    exact getElem?_writeStage hstage es j

/-! ### BAND.END and COMMIT -/

/-- Settles O50: the mask that slot 1 takes is slot 0's in the first band, and the AND after it. -/
theorem bandEndMergesMask : Obligations.BandEndMergesMask := by
  intro s h hphase hhdr legal
  refine ⟨fun hnot => (command_ensure_of hphase _).trans <|
    (command_headerOf_some hhdr _).trans (command_ensure_of_not hnot), fun hlegal => ?_⟩
  obtain ⟨hlen0, hfrozen0, hslot1⟩ := hlegal
  change ∃ bits, command s (bandEndRule 0x65 s) = _ ∧ _
  rw [bandEndRule_eq_ok.2 ⟨h, hphase, hhdr, hlen0, hfrozen0, hslot1, rfl⟩]
  by_cases hfirst : s.orc.band = 0
  · refine ⟨s.ms0.bits, ?_, hlen0, fun j _ => by simp [hfirst]⟩
    rw [if_pos hfirst]
    rfl
  · obtain ⟨hlen1, hfrozen1⟩ := hslot1.resolve_left hfirst
    have hlen : s.ms1.bits.length = s.ms0.bits.length := hlen1.trans hlen0.symm
    refine ⟨andBits s.ms1.bits s.ms0.bits, ?_, ?_, fun j hj => ?_⟩
    · have hms1 : ({ s.ms1 with bits := andBits s.ms1.bits s.ms0.bits } : BitMask) =
          { bits := andBits s.ms1.bits s.ms0.bits, building := false } := by rw [← hfrozen1]
      rw [if_neg hfirst, hms1]
      rfl
    · rw [length_andBits, hlen, min_self, hlen0]
    · rw [getElem?_andBits hlen, List.getElem?_eq_getElem (by omega),
        List.getElem?_eq_getElem (by omega)]
      simp [hfirst, and_comm]

/-- Settles O51: the checks in order, then the staged elements. -/
theorem commitPublishes : Obligations.CommitPublishes := by
  intro s h hhdr hphase legal
  refine ⟨fun hnot => ?_, fun hlegal hpop => ?_, fun es hlegal hpop hlen hstage => ?_⟩
  · refine (command_headerOf_some hhdr _).trans (command_ensure_of_not fun hall => hnot hall.2)
  · refine (command_headerOf_some hhdr _).trans <| (command_ensure_of ⟨hphase, hlegal⟩ _).trans ?_
    exact command_ensureFail_of_not hpop
  · obtain ⟨hbands, hbits, hfrozen⟩ := hlegal
    change command s (commitRule 0x67 s) = _
    rw [commitRule_eq_ok.2 ⟨h, es, hhdr, hphase, hbands, hbits, hfrozen, hpop, hlen,
      hlen ▸ hstage, rfl⟩]
    rfl

/-! ### What a result keeps of its header -/

/-- `t` holds a result for its header: an element for every pixel, and a mask of the header's
population unless every pixel is valid (46_band_decode.md R372). -/
def State.HoldsResult (t : State) : Prop :=
  ∃ h buf, t.orc.hdr = some h ∧ t.out = some buf ∧ buf.kind = h.kind ∧
    buf.elems.length = h.nBands.toNat * h.pixels ∧
    (t.status.maskPresent = true ↔ h.valid ≠ h.pixels) ∧
    (h.valid = h.pixels → t.outMask = none) ∧
    (h.valid ≠ h.pixels → ∃ bits, t.outMask = some bits ∧ bits.length = h.pixels ∧
      popcount bits = h.valid)

theorem commitRule_holdsResult {op : BitVec 8} {s t : State} (h : commitRule op s = .ok t) :
    t.HoldsResult := by
  obtain ⟨hd, es, hhdr, -, -, hbits, -, hpop, hlen, -, rfl⟩ := commitRule_eq_ok.1 h
  exact ⟨hd, _, hhdr, rfl, rfl, hlen, decide_eq_true_iff, fun hall => if_pos hall,
    fun hsome => ⟨_, if_neg hsome, hbits, hpop⟩⟩

theorem State.HoldsResult.publishInfo {t : State} (h : t.HoldsResult) :
    t.publishInfo.HoldsResult := by
  unfold State.publishInfo
  split <;> exact h

/-- Settles O60: COMMIT's rule, also as the last step of DECODE. -/
theorem resultKeepsHeaderCounts : Obligations.ResultKeepsHeaderCounts := by
  intro s t i hi hrun hcode
  suffices h : t.HoldsResult from h
  simp only [List.mem_cons, List.not_mem_nil, or_false] at hi
  rcases hi with rfl | rfl
  · rcases command_eq_next.1 hrun with ⟨u, hu, rfl⟩ | ⟨e, -, rfl⟩ | ⟨e, -, rfl⟩
    · have hresult := commitRule_holdsResult hu
      exact hresult
    · exact absurd hcode e.code_ne_zero
    · exact absurd hcode e.code_ne_zero
  · change execDecode s = _ at hrun
    cases hdecode : runDecode s with
    | done u =>
      rw [execDecode, hdecode] at hrun
      cases hrun
      obtain ⟨v, -, hcommit⟩ := andThen_eq_done.1 hdecode
      exact (commitRule_holdsResult (runAt_eq_done.1 hcommit)).publishInfo
    | stopped e u =>
      rw [execDecode, hdecode] at hrun
      cases hrun
      exact absurd hcode e.code_ne_zero
    | fault f =>
      rw [execDecode, hdecode] at hrun
      cases hrun

end Sys2Proof.Machine

/-!
SUPPORT. The host's commands (47_host_commands.md R400 to R402): a step of the port, NOP and the two
resets, and the outcome that every command posts.
-/

namespace Sys2Proof.Machine

/-! ### Steps, NOP and the resets -/

theorem step_cons {s : State} {a : HostAccess} {rest : List HostAccess} (h : s.port = a :: rest) :
    step s = hostAccess a { s with port := rest } := by
  rw [step, serve, h]

theorem decode_of_decodeTableWord {nbits w : Nat} {i : Instr}
    (h : decodeTableWord nbits w = some i) : decode (BitVec.ofNat 32 (w % 2 ^ nbits)) = .ok i := by
  unfold decodeTableWord at h
  split at h
  · next j hj =>
    cases h
    exact hj
  · cases h

theorem hostAccess_commandAccess (nbits w : Nat) (s : State) :
    hostAccess (commandAccess nbits w) s = runCommand (BitVec.ofNat 32 (w % 2 ^ nbits)) s := by
  rw [commandAccess, hostAccess_cmd]
  congr 1
  ext j hj
  simp [hj]
  omega

/-- Settles O6: a write to `CMD` at the head of the port runs the decoded command. -/
theorem stepRunsDecoded : Obligations.StepRunsDecoded := by
  refine ⟨fun s a rest => step_cons, fun s rest v i hport hdec => ?_, fun s nbits w i _ hdec => ?_,
    fun s hport => ?_⟩
  · rw [step_cons hport, hostAccess_cmd, runCommand_ok hdec]
  · rw [step_cons (s := s.withFetchWord nbits w) rfl, hostAccess_commandAccess,
      runCommand_ok (decode_of_decodeTableWord hdec)]
    rfl
  · rw [step, serve, hport]

/-- Settles O12: the three next states, read off the rules. -/
theorem nopAndResets : Obligations.NopAndResets := by
  have hstatus : (State.reset.finish none).statusWord = 1 := by decide
  have herr : (State.reset.finish none).errWord = 0 := by decide
  exact fun s => ⟨rfl, ⟨s.softReset.finish none, rfl, hstatus, herr, rfl⟩, rfl⟩

/-! ### The argument that each error comes with -/

/-- The error is one that the command of opcode `op` may post, with its argument of R432's form
(60_exceptions.md R431, R432). -/
def EngineError.Admitted (op : BitVec 8) : EngineError → Prop
  | .unsupportedVersion pattern => pattern.toInt < 2 ∨ 6 < pattern.toInt
  | .invalidBitWidth width => 32 < width.toNat
  | .unsupportedFeature feature => feature = 1
  | .invalidField field => 1 ≤ field.toNat ∧ field.toNat ≤ 13
  | .illegalCommand op' => op' = op
  | .illegalOperand op' => op' = op
  | .badMagic | .truncated | .maskLengthMismatch | .maskCountMismatch | .huffmanTableCorrupt
  | .arithmeticOverflow | .capacityExceeded => True

theorem EngineError.Admitted.arg {op : BitVec 8} {e : EngineError} (h : e.Admitted op) :
    argAdmitted op e.code e.arg := by
  cases e with
  | unsupportedVersion pattern => exact h
  | invalidBitWidth width =>
    have hlt : width.toNat < 256 := width.isLt
    have hwide : 32 < width.toNat := h
    simp [argAdmitted, EngineError.code, EngineError.arg]
    omega
  | unsupportedFeature feature =>
    obtain rfl : feature = 1 := h
    rfl
  | invalidField field =>
    have hlt : field.toNat < 256 := field.isLt
    obtain ⟨hlo, hhi⟩ : 1 ≤ field.toNat ∧ field.toNat ≤ 13 := h
    simp [argAdmitted, EngineError.code, EngineError.arg]
    omega
  | illegalCommand op' =>
    obtain rfl : op' = op := h
    rfl
  | illegalOperand op' =>
    obtain rfl : op' = op := h
    rfl
  | _ => rfl

/-! ### The stops of every rule -/

/-- The stop's error is one that the command of opcode `op` may post. -/
def Stop.Admitted (op : BitVec 8) : Stop → Prop
  | .raise e => e.Admitted op
  | .fail e => e.Admitted op
  | .fault _ => True

/-- The rule under the opcode `op` ends early only with errors that its command may post. -/
abbrev AdmittedStops {α : Type} (op : BitVec 8) (x : Except Stop α) : Prop :=
  StopsIn (Stop.Admitted op) x

theorem StopsIn.mono {P Q : Stop → Prop} {α : Type} {x : Except Stop α} (h : StopsIn P x)
    (hPQ : ∀ st, P st → Q st) : StopsIn Q x := fun st hst => hPQ st (h st hst)

section Stops

variable {op : BitVec 8}

theorem Stop.admitted_field {field : BitVec 8} (h : 1 ≤ field.toNat ∧ field.toNat ≤ 13) :
    (Stop.raise (.invalidField field)).Admitted op := h

theorem Stop.admitted_failField {field : BitVec 8} (h : 1 ≤ field.toNat ∧ field.toNat ≤ 13) :
    (Stop.fail (.invalidField field)).Admitted op := h

theorem BodyStop.admitted {st : Stop} (h : BodyStop op st) : st.Admitted op := by
  cases h with
  | invalidBitWidth w h => exact h
  | maskValue | blockCount => exact Stop.admitted_field (by decide)
  | illegalOperand => exact rfl
  | _ => trivial

theorem BodyStops.admitted {α : Type} {x : Except Stop α} (h : BodyStops op x) :
    AdmittedStops op x := h.mono fun _ => BodyStop.admitted

theorem AdmittedStops.orFail {α : Type} {x : Except Stop α} (hx : AdmittedStops op x) :
    AdmittedStops op (orFail x) := by
  rcases x with (e | e | f) | a
  · exact .error (show (Stop.fail e).Admitted op from hx (.raise e) rfl)
  · exact .error (hx _ rfl)
  · exact .error trivial
  · exact .ok a

/-! #### The header -/

theorem bodyStops_field32 (src : Source) (a : Nat) : BodyStops op (src.field32 a) :=
  .bind (bodyStops_uint src a 4) fun _ _ => .ok _

theorem bodyStops_field64 (src : Source) (a : Nat) : BodyStops op (src.field64 a) :=
  .bind (bodyStops_uint src a 8) fun _ _ => .ok _

theorem admitted_kindField (code : BitVec 32) : AdmittedStops op (kindField code) := by
  unfold kindField
  split
  · exact .ok _
  · exact .error (Stop.admitted_field (by decide))

theorem admitted_parseDescriptors (src : Source) (size n e : Nat) :
    AdmittedStops op (parseDescriptors src size n e) := by
  induction n generalizing e with
  | zero => exact .ok _
  | succ n ih =>
    refine .bind ?_ fun _ _ => .bind (ih _) fun _ _ => .ok _
    exact .bind (bodyStops_field32 src _).admitted fun _ _ =>
      .bind (bodyStops_field32 src _).admitted fun _ _ =>
      .bind (bodyStops_field64 src _).admitted fun _ _ =>
      .bind (bodyStops_field64 src _).admitted fun _ _ =>
      .bind (.check (Stop.admitted_field (by decide))) fun _ _ =>
      .bind (.check (Stop.admitted_field (by decide))) fun _ _ =>
      .bind (.check (Stop.admitted_field (by decide))) fun _ _ => .ok _

/-- The version is posted only where it is not supported (45_blob_header.md R313). -/
theorem admitted_version {v : BitVec 32} (h : ¬versionSupported v = true) :
    (Stop.raise (.unsupportedVersion v)).Admitted op := by
  rw [versionSupported_iff] at h
  change v.toInt < 2 ∨ 6 < v.toInt
  omega

theorem admitted_parseHeader (src : Source) : AdmittedStops op (parseHeader src) :=
  .bind (.check trivial) fun _ _ => .bind (bodyStops_memRead src _ _).admitted fun _ _ =>
    .bind (.check trivial) fun _ _ => .bind (.check trivial) fun _ _ =>
    .bind (bodyStops_field32 src _).admitted fun _ _ => .bind (.ensure admitted_version) fun _ _ =>
    .bind (.check trivial) fun _ _ =>
    .bind (bodyStops_field32 src _).admitted fun _ _ =>
    .bind (bodyStops_field32 src _).admitted fun _ _ =>
    .bind (bodyStops_field32 src _).admitted fun _ _ =>
    .bind (bodyStops_field32 src _).admitted fun _ _ =>
    .bind (bodyStops_field64 src _).admitted fun _ _ =>
    .bind (bodyStops_field64 src _).admitted fun _ _ =>
    .bind (.check (Stop.admitted_field (by decide))) fun _ _ =>
    .bind (.check (Stop.admitted_field (by decide))) fun _ _ =>
    .bind (.check (Stop.admitted_field (by decide))) fun _ _ =>
    .bind (admitted_kindField _) fun _ _ =>
    .bind (.check (Stop.admitted_field (by decide))) fun _ _ =>
    .bind (.check (Stop.admitted_field (by decide))) fun _ _ =>
    .bind (.check trivial) fun _ _ => .bind (admitted_parseDescriptors src _ _ _) fun _ _ => .ok _

/-! #### The orchestrator's rules -/

theorem admitted_headerOf (s : State) : AdmittedStops op (headerOf op s) := by
  unfold headerOf
  split
  · exact .ok _
  · exact .error rfl

theorem admitted_descriptorOf (h : Header) (b : Nat) : AdmittedStops op (descriptorOf h b) := by
  unfold descriptorOf
  split
  · exact .ok _
  · exact .error trivial

theorem admitted_maskModeOf (n : Nat) : AdmittedStops op (maskModeOf n) := by
  unfold maskModeOf
  split
  case h_4 => exact .error (Stop.admitted_failField (by decide))
  all_goals exact .ok _

theorem admitted_entropyModeOf (kind : Kind) (n : Nat) :
    AdmittedStops op (entropyModeOf kind n) := by
  unfold entropyModeOf
  split
  · exact .ok _
  · split
    · exact .ok _
    · exact .error (Stop.admitted_failField (by decide))
  · exact .error rfl
  · exact .error (Stop.admitted_failField (by decide))

theorem admitted_sectionChecks (src : Source) (kind : Kind) (off len : Nat) :
    AdmittedStops op (sectionChecks src kind off len) :=
  .bind (.check trivial) fun _ _ => .bind (.check trivial) fun _ _ =>
    .bind (bodyStops_uint _ _ _).admitted.orFail fun _ _ => .bind (admitted_maskModeOf _) fun _ _ =>
    .bind (bodyStops_uint _ _ _).admitted.orFail fun _ _ =>
    .bind (admitted_entropyModeOf _ _) fun _ _ => .ok _

theorem admitted_bandBeginRule (b : Nat) (s : State) : AdmittedStops op (bandBeginRule op b s) :=
  .bind (admitted_headerOf s) fun _ _ => .bind (.check rfl) fun _ _ => .bind (.check rfl) fun _ _ =>
    .bind (.check trivial) fun _ _ => .bind (admitted_descriptorOf _ _) fun _ _ =>
    .bind (admitted_sectionChecks _ _ _ _) fun _ _ => .ok _

theorem admitted_bandMaskRule (s : State) : AdmittedStops op (bandMaskRule op s) :=
  .bind (.check rfl) fun _ _ => .bind (admitted_headerOf s) fun _ _ =>
    .bind (bodyStops_bandMaskBody s _).admitted.orFail fun _ _ =>
    .bind (.check trivial) fun _ _ => .ok _

theorem admitted_bandDataRule (s : State) : AdmittedStops op (bandDataRule op s) := by
  refine .bind (.check rfl) fun _ _ => .bind (admitted_headerOf s) fun h _ =>
    .bind (AdmittedStops.orFail ?_) fun _ _ => .ok _
  split
  · exact (bodyStops_bandStuffedBody s _).admitted
  · exact (bodyStops_bandHuffmanBody s _).admitted

theorem admitted_bandDeqRule (s : State) : AdmittedStops op (bandDeqRule op s) := by
  refine .bind (.check rfl) fun _ _ => .bind (admitted_headerOf s) fun _ _ =>
    .bind (.check rfl) fun _ hmatch => .bind (admitted_descriptorOf _ _) fun _ _ => ?_
  obtain ⟨-, -, hlen⟩ := ensure_ok_iff.1 hmatch
  exact .bind (bodyStops_dequantizeBand _ _ hlen).admitted.orFail fun _ _ => .ok _

theorem admitted_bandEndRule (s : State) : AdmittedStops op (bandEndRule op s) :=
  .bind (.check rfl) fun _ _ => .bind (admitted_headerOf s) fun _ _ =>
    .bind (.check rfl) fun _ _ => .ok _

theorem admitted_commitRule (s : State) : AdmittedStops op (commitRule op s) := by
  refine .bind (admitted_headerOf s) fun _ _ => .bind (.check rfl) fun _ _ =>
    .bind (.check trivial) fun _ _ => .bind ?_ fun _ _ => .ok _
  unfold stagedElements
  split
  · split
    · exact .ok _
    · exact .error trivial
  · exact .error trivial

/-! #### Operands and tables -/

theorem admitted_bitCountOperand (n : BitVec 6) : AdmittedStops op (bitCountOperand op n) :=
  .bind (.check rfl) fun _ _ => .ok _

theorem admitted_byteCountOperand (k : BitVec 4) : AdmittedStops op (byteCountOperand op k) :=
  .bind (.check rfl) fun _ _ => .ok _

theorem admitted_builtTables (ht : Huffman) : AdmittedStops op (builtTables op ht) := by
  unfold builtTables
  split
  · exact .ok _
  · exact .error rfl

theorem admitted_decodeSymbol (src : Source) (br : BitReader) (t : HuffTables) :
    AdmittedStops op (decodeSymbol src br t) := (bodyStops_decodeFrom src br _ _ _).admitted

theorem admitted_decodeSymbolFast (src : Source) (br : BitReader) (t : HuffTables) :
    AdmittedStops op (decodeSymbolFast src br t) := by
  unfold decodeSymbolFast
  split
  · exact .ok _
  · exact admitted_decodeSymbol src br t

end Stops

/-! ### The end of every command -/

/-- The run stops only with errors that the command of opcode `op` may post. -/
def Run.Admitted (op : BitVec 8) : Run → Prop
  | .done _ => True
  | .stopped e _ => e.Admitted op
  | .fault _ => True

section Runs

variable {op : BitVec 8} {s : State}

theorem AdmittedStops.runAt {r : Except Stop State} (h : AdmittedStops op r) :
    (runAt s r).Admitted op := by
  rcases r with (e | e | f) | t
  · exact h _ rfl
  · exact h _ rfl
  · trivial
  · trivial

theorem Run.Admitted.andThen {r : Run} {k : State → Run} (hr : r.Admitted op)
    (hk : ∀ t, (k t).Admitted op) : (r.andThen k).Admitted op := by
  cases r with
  | done t => exact hk t
  | stopped e t => exact hr
  | fault f => trivial

theorem admitted_sourceFits : AdmittedStops op (sourceFits op s) := .check rfl

theorem admitted_runHeader : (runHeader op s).Admitted op :=
  (AdmittedStops.runAt (.bind admitted_sourceFits fun _ _ => .ok _)).andThen fun _ =>
    AdmittedStops.runAt (.bind (admitted_parseHeader _) fun _ _ => .ok _)

theorem admitted_runBand (b : Nat) : (runBand b s).Admitted 0x02 :=
  ((((admitted_bandBeginRule b s).runAt.andThen
    fun t => (admitted_bandMaskRule t).runAt).andThen
    fun t => (admitted_bandDataRule t).runAt).andThen
    fun t => (admitted_bandDeqRule t).runAt).andThen
    fun t => (admitted_bandEndRule t).runAt

theorem admitted_runBands (n b : Nat) : (runBands n b s).Admitted 0x02 := by
  induction n generalizing b s with
  | zero => trivial
  | succ n ih => exact (admitted_runBand b).andThen fun t => ih (b + 1)

theorem admitted_runDecode : (runDecode s).Admitted 0x02 :=
  (admitted_runHeader.andThen fun _ => admitted_runBands _ _).andThen
    fun t => (admitted_commitRule t).runAt

/-- The outcome is the end of a run that stops only with errors its command may post: so it is never
refused, and `ERR` and `STATUS` are what `finish` posts (47_host_commands.md R400). -/
def Posts (op : BitVec 8) (o : Host.Outcome State Fault Refusal) : Prop :=
  ∃ r : Run, r.Admitted op ∧ o = r.complete

theorem posts_command {r : Except Stop State} (h : AdmittedStops op r) : Posts op (command s r) :=
  ⟨_, h.runAt, rfl⟩

theorem posts_execInfo (s : State) : Posts 0x01 (execInfo s) := by
  have hrun := admitted_runHeader (op := 0x01) (s := s)
  refine ⟨_, ?_, rfl⟩
  split
  · trivial
  · next e t hr => rw [hr] at hrun; exact hrun
  · trivial

theorem posts_execDecode (s : State) : Posts 0x02 (execDecode s) := by
  have hrun := admitted_runDecode (s := s)
  refine ⟨_, ?_, rfl⟩
  split
  · trivial
  · next e t hr => rw [hr] at hrun; exact hrun
  · trivial

end Runs

theorem exec_posts (i : Instr) (s : State) : Posts i.opcode (exec i s) := by
  cases i with
  | info => exact posts_execInfo s
  | decode => exact posts_execDecode s
  | nop | srst | brAlign | brPos | bmFreeze _ | bmPopcnt _ | bmNext _ | bmLen _ =>
    exact posts_command (s := s) (.ok _)
  | brInit _ =>
    exact posts_command (.bind (.check rfl) fun _ _ => .bind (.check rfl) fun _ _ =>
      .bind (.check trivial) fun _ _ => .ok _)
  | brRead n =>
    exact posts_command (.bind (admitted_bitCountOperand n) fun _ _ =>
      .bind (bodyStops_readBits _ _ _ _).admitted fun _ _ => .ok _)
  | brPeek n =>
    exact posts_command (.bind (admitted_bitCountOperand n) fun _ _ =>
      .bind (.check trivial) fun _ _ =>
      .bind (bodyStops_peekBits _ _ _ _).admitted fun _ _ => .ok _)
  | brSkip => exact posts_command (.bind (.check trivial) fun _ _ => .ok _)
  | brBytes k =>
    exact posts_command (.bind (admitted_byteCountOperand k) fun _ _ =>
      .bind (bodyStops_readBytesLE _ _ _).admitted fun _ _ => .ok _)
  | bmNew _ _ => exact posts_command (.bind (.check trivial) fun _ _ => .ok _)
  | bmSet _ _ | bmFill _ _ | bmAnd =>
    exact posts_command (.bind (.check rfl) fun _ _ => .bind (.check rfl) fun _ _ => .ok _)
  | bmGet _ | codesGet =>
    refine posts_command ?_
    split
    · exact .error rfl
    · exact .ok _
  | maskAbsent _ =>
    exact posts_command (.bind (bodyStops_maskAbsentBody _ _).admitted fun _ _ => .ok _)
  | maskRaw _ =>
    exact posts_command (.bind (bodyStops_maskRawBody _ _ _ _).admitted fun _ _ => .ok _)
  | maskRle _ =>
    exact posts_command (.bind (bodyStops_maskRleBody _ _ _ _).admitted fun _ _ => .ok _)
  | hufLoadlen => exact posts_command (.bind (bodyStops_loadLengths _ _).admitted fun _ _ => .ok _)
  | hufBuild => exact posts_command (.bind (bodyStops_buildTables _).admitted fun _ _ => .ok _)
  | hufSeg => exact posts_command (.bind (bodyStops_segmentWindow _ _).admitted fun _ _ => .ok _)
  | hufDec | hufDecs =>
    exact posts_command (.bind (admitted_builtTables _) fun _ _ =>
      .bind (admitted_decodeSymbol _ _ _) fun _ _ => .ok _)
  | hufDecf =>
    exact posts_command (.bind (admitted_builtTables _) fun _ _ =>
      .bind (admitted_decodeSymbolFast _ _ _) fun _ _ => .ok _)
  | hufRun =>
    exact posts_command (.bind (.bind (admitted_builtTables _) fun _ _ =>
      .bind (.check trivial) fun _ _ =>
      (bodyStops_decodeSymbols _ _ _ _).admitted) fun _ _ => .ok _)
  | bsHdr => exact posts_command (.bind (bodyStops_blockHeader _ _).admitted fun _ _ => .ok _)
  | bsUnpack =>
    exact posts_command (.bind (bodyStops_blockCodes _ _ _ _ _ _).admitted fun _ _ => .ok _)
  | bsStream =>
    exact posts_command (.bind (bodyStops_stuffedStream _ _ _ _).admitted fun _ _ => .ok _)
  | bandBegin => exact posts_command (admitted_bandBeginRule _ s)
  | bandMask => exact posts_command (admitted_bandMaskRule s)
  | bandData => exact posts_command (admitted_bandDataRule s)
  | bandDeq => exact posts_command (admitted_bandDeqRule s)
  | bandEnd => exact posts_command (admitted_bandEndRule s)
  | deqOne =>
    exact posts_command (.bind (admitted_headerOf s) fun _ _ => .bind (.check rfl) fun _ _ =>
      .bind (admitted_descriptorOf _ _) fun _ _ =>
      .bind (bodyStops_dequantize _ _ _).admitted fun _ _ => .ok _)
  | commit => exact posts_command (admitted_commitRule s)

theorem State.finish_err_iff (s : State) (e : Option EngineError) :
    (s.finish e).status.err = true ↔ (s.finish e).err.code ≠ 0 := by
  simp

/-- Settles O13: every command is the end of a run, which `finish` posts. -/
theorem commandPostsOutcome : Obligations.CommandPostsOutcome := by
  intro i s
  obtain ⟨r, hr, hexec⟩ := exec_posts i s
  rw [hexec]
  cases r with
  | done u =>
    refine ⟨nofun, fun t ht => ?_⟩
    cases ht
    exact ⟨rfl, u.finish_err_iff _, errFieldsOf_listed none, rfl⟩
  | stopped e u =>
    refine ⟨nofun, fun t ht => ?_⟩
    cases ht
    exact ⟨rfl, u.finish_err_iff _, errFieldsOf_listed (some e), EngineError.Admitted.arg hr⟩
  | fault f => exact ⟨nofun, fun _ ht => nomatch ht⟩

end Sys2Proof.Machine

/-!
SUPPORT. DECODE's rules in sequence (47_host_commands.md R404). A rule takes its command's opcode
only for the argument of `IllegalCommand` and `IllegalOperand`; between a parsed header and COMMIT
neither error is reached, so there a rule does the same under every opcode.
-/

namespace Sys2Proof.Machine

/-! ### The opcode of a body -/

theorem except_bind_congr {ε α β : Type} {x : Except ε α} {f g : α → Except ε β}
    (h : ∀ a, x = .ok a → f a = g a) : x >>= f = x >>= g := by
  cases x with
  | error e => rfl
  | ok a => exact h a rfl

section Bodies

variable {src : Source} {br : BitReader} (op op' : BitVec 8)

theorem readBytesLE_opcode (ha : br.aligned = true) (k : Nat) :
    src.readBytesLE br k op = src.readBytesLE br k op' := by
  simp only [Source.readBytesLE, ensure_true _ ha]

theorem rleRuns_opcode (ha : br.aligned = true) (fuel left : Nat) :
    rleRuns op src fuel left br = rleRuns op' src fuel left br := by
  induction fuel generalizing left br with
  | zero => rfl
  | succ fuel ih =>
    rw [rleRuns, rleRuns]
    split
    · rfl
    refine except_bind_congr fun _ _ => ?_
    rw [readBytesLE_opcode op op' ha]
    refine except_bind_congr fun ⟨v, br₁⟩ hv => ?_
    obtain ⟨-, -, -, rfl⟩ := readBytesLE_eq_ok.1 hv
    have ha₁ := aligned_advance 1 ha
    dsimp only
    rw [readBytesLE_opcode op op' ha₁]
    refine except_bind_congr fun ⟨r, br₂⟩ hr => ?_
    obtain ⟨-, -, -, rfl⟩ := readBytesLE_eq_ok.1 hr
    dsimp only
    rw [ih (aligned_advance 4 ha₁)]

theorem maskRleBody_opcode (ha : br.aligned = true) (p : Params) (n : Nat) :
    maskRleBody op p src br n = maskRleBody op' p src br n := by
  simp only [maskRleBody, ensure_true _ ha, rleRuns_opcode op op' ha]

theorem maskRawBody_opcode (ha : br.aligned = true) (p : Params) (n : Nat) :
    maskRawBody op p src br n = maskRawBody op' p src br n := by
  simp only [maskRawBody, ensure_true _ ha]

theorem blockHeader_opcode (ha : br.aligned = true) :
    blockHeader op src br = blockHeader op' src br := by
  simp only [blockHeader, ensure_true _ ha]

theorem streamBlocks_opcode (ha : br.aligned = true) (p : Params) (ord : BitOrder)
    (total fuel cp : Nat) (last : Option Stuffer) :
    streamBlocks op p src ord total fuel cp last br =
      streamBlocks op' p src ord total fuel cp last br := by
  induction fuel generalizing cp last br with
  | zero => rfl
  | succ fuel ih =>
    rw [streamBlocks, streamBlocks, blockHeader_opcode op op' ha]
    split
    · rfl
    refine except_bind_congr fun ⟨block, br₁⟩ _ => except_bind_congr fun _ _ =>
      except_bind_congr fun ⟨codes, br₂⟩ hcodes => ?_
    obtain ⟨-, -, -, rfl, -⟩ := blockCodes_eq_ok hcodes
    dsimp only
    rw [ih (alignUp_aligned _)]

theorem stuffedStream_opcode (ha : br.aligned = true) (p : Params) (total : Nat) :
    stuffedStream op p src br total = stuffedStream op' p src br total := by
  simp only [stuffedStream, streamBlocks_opcode op op' ha]

theorem loadLengths_opcode (ha : br.aligned = true) :
    loadLengths op src br = loadLengths op' src br := by
  simp only [loadLengths, ensure_true _ ha]

theorem segmentWindow_opcode (ha : br.aligned = true) :
    segmentWindow op src br = segmentWindow op' src br := by
  simp only [segmentWindow, ensure_true _ ha]

theorem dequantizeBand_opcode (h : Header) (zMin : BitVec 64) {bits : List Bool}
    {codes : List Code} (hlen : codes.length = popcount bits) :
    dequantizeBand op h zMin bits codes = dequantizeBand op' h zMin bits codes := by
  induction bits generalizing codes with
  | nil =>
    obtain rfl : codes = [] := List.eq_nil_of_length_eq_zero hlen
    rfl
  | cons b bits ih =>
    rw [popcount_cons] at hlen
    cases b with
    | false => rw [dequantizeBand, dequantizeBand, ih (by simpa using hlen)]
    | true =>
      cases codes with
      | nil => simp at hlen
      | cons c codes => rw [dequantizeBand, dequantizeBand, ih (by simpa using hlen)]

end Bodies

section Band

variable {s : State} (op op' : BitVec 8) (ha : s.br.aligned = true)
include ha

theorem bandMaskBody_opcode (n : Nat) : bandMaskBody op s n = bandMaskBody op' s n := by
  unfold bandMaskBody
  rw [maskRawBody_opcode op op' ha, maskRleBody_opcode op op' ha]

theorem bandStuffedBody_opcode (count : Nat) :
    bandStuffedBody op s count = bandStuffedBody op' s count := by
  simp only [bandStuffedBody, stuffedStream_opcode op op' ha]

theorem bandHuffmanBody_opcode (count : Nat) :
    bandHuffmanBody op s count = bandHuffmanBody op' s count := by
  rw [bandHuffmanBody, bandHuffmanBody, loadLengths_opcode op op' ha]
  refine except_bind_congr fun ⟨lens, br₁⟩ hlens => except_bind_congr fun tab _ => ?_
  obtain ⟨-, -, -, rfl⟩ := loadLengths_eq_ok.1 hlens
  dsimp only
  rw [segmentWindow_opcode op op' (aligned_advance 256 ha)]
  rfl

end Band

/-! ### A decode in sequence -/

/-- DECODE stands before band `b` of the header `h`: the bands before it are merged into slot 1
(46_band_decode.md R350, R366). -/
structure State.BeforeBand (s : State) (h : Header) (b : Nat) : Prop where
  hdr : s.orc.hdr = some h
  fits : s.params.fitsIn s.srcLen.toNat = true
  phase : s.orc.phase = if b = 0 then .start else .done
  bandsDone : s.orc.bandsDone = b
  slot1 : b ≠ 0 → s.ms1.bits.length = h.pixels ∧ s.ms1.building = false

/-- DECODE stands inside band `b` of the header `h`, in the phase `p`: the cursor is on a byte
boundary before each payload, slot 0 holds the band's mask once it is decoded, and a code for each
valid pixel is there to dequantize (46_band_decode.md R350, R354 to R359). -/
structure State.InBand (s : State) (h : Header) (b : Nat) (p : Phase) : Prop where
  hdr : s.orc.hdr = some h
  fits : s.params.fitsIn s.srcLen.toNat = true
  phase : s.orc.phase = p
  band : s.orc.band = b
  bandsDone : s.orc.bandsDone = b
  slot1 : b ≠ 0 → s.ms1.bits.length = h.pixels ∧ s.ms1.building = false
  aligned : p ∈ [.headerValidated, .maskDecoded] → s.br.aligned = true
  slot0 : p ≠ .headerValidated → s.ms0.bits.length = h.pixels ∧ s.ms0.building = false ∧
    popcount s.ms0.bits = h.valid
  codes : p = .dataDecoded → s.codes.length = h.valid

section Sequence

variable {s t : State} {h : Header} {b : Nat} (op op' : BitVec 8)

theorem State.BeforeBand.begins (hs : s.BeforeBand h b) :
    s.orc.phase = .start ∨ s.orc.phase = .done := by
  rw [hs.phase]
  split <;> simp

theorem bandBeginRule_opcode (hs : s.BeforeBand h b) (hb : b < h.nBands.toNat) :
    bandBeginRule op b s = bandBeginRule op' b s := by
  have hlegal : (s.orc.phase = .start ∨ s.orc.phase = .done) ∧ b = s.orc.bandsDone ∧
      b < h.nBands.toNat := ⟨hs.begins, hs.bandsDone.symm, hb⟩
  simp only [bandBeginRule, headerOf_eq_ok.2 hs.hdr, except_ok_bind, ensure_true _ hlegal,
    sourceFits, ensure_true _ hs.fits]

theorem bandBeginRule_inBand (hs : s.BeforeBand h b) (hrun : bandBeginRule op b s = .ok t) :
    t.InBand h b .headerValidated := by
  obtain ⟨_, d, _, _, -, -, -, -, -, -, -, -, rfl⟩ := bandBeginRule_eq_ok.1 hrun
  exact { hdr := hs.hdr, fits := hs.fits, phase := rfl, band := rfl, bandsDone := hs.bandsDone
          slot1 := hs.slot1, aligned := fun _ => rfl, slot0 := fun hp => absurd rfl hp
          codes := nofun }

theorem bandMaskRule_opcode (hs : s.InBand h b .headerValidated) :
    bandMaskRule op s = bandMaskRule op' s := by
  simp only [bandMaskRule, ensure_true _ hs.phase, headerOf_eq_ok.2 hs.hdr, except_ok_bind,
    bandMaskBody_opcode op op' (hs.aligned (by simp))]

/-- A mask payload takes whole bytes (46_band_decode.md R355). -/
theorem bandMaskBody_aligned {n : Nat} {m : BitMask} {br : BitReader} (ha : s.br.aligned = true)
    (hbody : bandMaskBody op s n = .ok (m, br)) : br.aligned = true := by
  unfold bandMaskBody at hbody
  split at hbody
  · obtain ⟨_, -, hbody⟩ := except_bind_ok.1 hbody
    cases hbody
    exact ha
  · obtain ⟨-, -, -, -, -, rfl⟩ := maskRawBody_eq_ok.1 hbody
    exact aligned_advance _ ha
  · obtain ⟨-, -, hruns, -⟩ := maskRleBody_eq_ok.1 hbody
    obtain ⟨-, pairs, rfl, -⟩ := rleRuns_eq_ok le_rfl hruns
    rw [show 40 * pairs = 8 * (5 * pairs) by omega]
    exact aligned_advance _ ha

theorem bandMaskRule_inBand (hs : s.InBand h b .headerValidated)
    (hrun : bandMaskRule op s = .ok t) : t.InBand h b .maskDecoded := by
  obtain ⟨h', m, br, -, hhdr, hbody, hpop, rfl⟩ := bandMaskRule_eq_ok.1 hrun
  obtain rfl : h = h' := Option.some.inj (hs.hdr.symm.trans hhdr)
  obtain ⟨-, hlen, hfrozen, -⟩ := bandMaskBody_eq_ok hbody
  exact { hs with
    phase := rfl
    aligned := fun _ => bandMaskBody_aligned op (hs.aligned (by simp)) hbody
    slot0 := fun _ => ⟨hlen, hfrozen, hpop⟩
    codes := nofun }

theorem bandDataRule_opcode (hs : s.InBand h b .maskDecoded) :
    bandDataRule op s = bandDataRule op' s := by
  have ha := hs.aligned (by simp)
  simp only [bandDataRule, ensure_true _ hs.phase, headerOf_eq_ok.2 hs.hdr, except_ok_bind,
    bandStuffedBody_opcode op op' ha, bandHuffmanBody_opcode op op' ha]

theorem bandDataRule_inBand (hs : s.InBand h b .maskDecoded) (hrun : bandDataRule op s = .ok t) :
    t.InBand h b .dataDecoded := by
  obtain ⟨h', u, -, hhdr, hbody, rfl⟩ := bandDataRule_eq_ok.1 hrun
  obtain rfl : h = h' := Option.some.inj (hs.hdr.symm.trans hhdr)
  have hslot0 := hs.slot0 (by decide)
  split at hbody
  · obtain ⟨_, _, _, hstream, rfl⟩ := bandStuffedBody_eq_ok.1 hbody
    exact { hs with
      phase := rfl, aligned := fun hp => absurd hp (by decide), slot0 := fun _ => hslot0
      codes := fun _ => (stuffedStream_length hstream).2 }
  · obtain ⟨_, _, _, _, _, _, _, -, -, -, -, hsymbols, rfl⟩ := bandHuffmanBody_eq_ok.1 hbody
    exact { hs with
      phase := rfl, aligned := fun hp => absurd hp (by decide), slot0 := fun _ => hslot0
      codes := fun _ => (decodeSymbols_eq_ok hsymbols).1 }

theorem bandDeqRule_opcode (hs : s.InBand h b .dataDecoded) :
    bandDeqRule op s = bandDeqRule op' s := by
  obtain ⟨hlen, hfrozen, hpop⟩ := hs.slot0 (by decide)
  have hcodes : s.codes.length = popcount s.ms0.bits := (hs.codes rfl).trans hpop.symm
  have hmatch : s.ms0.bits.length = h.pixels ∧ s.ms0.building = false ∧
      s.codes.length = popcount s.ms0.bits := ⟨hlen, hfrozen, hcodes⟩
  simp only [bandDeqRule, ensure_true _ hs.phase, headerOf_eq_ok.2 hs.hdr, except_ok_bind,
    ensure_true _ hmatch, dequantizeBand_opcode op op' h _ hcodes]

theorem bandDeqRule_inBand (hs : s.InBand h b .dataDecoded) (hrun : bandDeqRule op s = .ok t) :
    t.InBand h b .dequantized := by
  obtain ⟨_, _, _, -, -, -, -, -, -, -, rfl⟩ := bandDeqRule_eq_ok.1 hrun
  have hslot0 := hs.slot0 (by decide)
  exact { hs with
    phase := rfl, aligned := fun hp => absurd hp (by decide), slot0 := fun _ => hslot0
    codes := nofun }

theorem bandEndRule_opcode (hs : s.InBand h b .dequantized) :
    bandEndRule op s = bandEndRule op' s := by
  obtain ⟨hlen, hfrozen, -⟩ := hs.slot0 (by decide)
  have hlegal : s.ms0.bits.length = h.pixels ∧ s.ms0.building = false ∧
      (s.orc.band = 0 ∨ (s.ms1.bits.length = h.pixels ∧ s.ms1.building = false)) :=
    ⟨hlen, hfrozen, or_iff_not_imp_left.2 fun hb => hs.slot1 (hs.band ▸ hb)⟩
  simp only [bandEndRule, ensure_true _ hs.phase, headerOf_eq_ok.2 hs.hdr, except_ok_bind,
    ensure_true _ hlegal]

theorem bandEndRule_beforeBand (hs : s.InBand h b .dequantized)
    (hrun : bandEndRule op s = .ok t) : t.BeforeBand h (b + 1) := by
  obtain ⟨h', -, hhdr, hlen, hfrozen, hslot1, rfl⟩ := bandEndRule_eq_ok.1 hrun
  obtain rfl : h = h' := Option.some.inj (hs.hdr.symm.trans hhdr)
  refine { hdr := hs.hdr, fits := hs.fits, phase := rfl, bandsDone := ?_, slot1 := fun _ => ?_ }
  · rw [← hs.bandsDone]
  · dsimp only
    split
    · exact ⟨hlen, rfl⟩
    · next hb =>
      obtain ⟨hlen1, hfrozen1⟩ := hslot1.resolve_left hb
      exact ⟨by rw [length_andBits, hlen1, hlen, min_self], hfrozen1⟩

theorem commitRule_opcode (hs : s.BeforeBand h h.nBands.toNat) (hbands : h.nBands.toNat ≠ 0) :
    commitRule op s = commitRule op' s := by
  have hlegal : s.orc.phase = .done ∧ s.orc.bandsDone = h.nBands.toNat ∧
      s.ms1.bits.length = h.pixels ∧ s.ms1.building = false :=
    ⟨by rw [hs.phase, if_neg hbands], hs.bandsDone, hs.slot1 hbands⟩
  simp only [commitRule, headerOf_eq_ok.2 hs.hdr, except_ok_bind, ensure_true _ hlegal]

end Sequence

end Sys2Proof.Machine

/-!
SUPPORT. Two runs of DECODE's steps over one blob (47_host_commands.md R405, R407), rule by rule:
they end alike, and each piece of unit state is written alike in both or in neither. DECODE after
DECODE and DECODE beside direct mode are two uses of this.
-/

namespace Sys2Proof.Machine

/-! ### What two runs have written -/

/-- A piece of state that began as `a` and `a'` and is now `b` and `b'`: both runs wrote the same
value, or neither wrote. -/
def Overwritten {α : Type} (a a' b b' : α) : Prop := b = b' ∨ (b = a ∧ b' = a')

theorem Overwritten.eq {α : Type} {a b b' : α} (h : Overwritten a a b b') : b = b' :=
  h.elim id fun ⟨hb, hb'⟩ => hb.trans hb'.symm

/-- A run that begins where the other ended writes nothing new. -/
theorem Overwritten.eq_again {α : Type} {a b b' : α} (h : Overwritten a b b b') : b = b' :=
  h.elim id fun ⟨_, hb'⟩ => hb'.symm

/-- A run from `s` has come to `u` and one from `t` to `v`, and they have written the units alike
(10_state.md R46 to R52). -/
structure Overwrites (s t u v : State) : Prop where
  br : Overwritten s.br t.br u.br v.br
  ms0 : Overwritten s.ms0 t.ms0 u.ms0 v.ms0
  ms1 : Overwritten s.ms1 t.ms1 u.ms1 v.ms1
  lens : Overwritten s.ht.lens t.ht.lens u.ht.lens v.ht.lens
  tables : Overwritten s.ht.tables t.ht.tables u.ht.tables v.ht.tables
  codes : Overwritten s.codes t.codes u.codes v.codes
  bs : Overwritten s.bs t.bs u.bs v.bs
  orc : Overwritten s.orc t.orc u.orc v.orc
  stage : Overwritten s.stage t.stage u.stage v.stage

section Frames

variable {s t u v u' v' : State} {op : BitVec 8}

theorem Overwrites.refl (s t : State) : Overwrites s t s t := by
  constructor <;> exact .inr ⟨rfl, rfl⟩

theorem bandBeginRule_overwrites {b : Nat} (h : Overwrites s t u v)
    (hu : bandBeginRule op b u = .ok u') (hv : bandBeginRule op b v = .ok v')
    (hend : AfterBegin u' v') : Overwrites s t u' v' := by
  obtain ⟨_, _, _, _, -, -, -, -, -, -, -, -, rfl⟩ := bandBeginRule_eq_ok.1 hu
  obtain ⟨_, _, _, _, -, -, -, -, -, -, -, -, rfl⟩ := bandBeginRule_eq_ok.1 hv
  exact { h with br := .inl hend.br, orc := .inl hend.orc, stage := .inl hend.stage }

theorem bandMaskRule_overwrites (h : Overwrites s t u v) (hu : bandMaskRule op u = .ok u')
    (hv : bandMaskRule op v = .ok v') (hend : AfterMask u' v') : Overwrites s t u' v' := by
  obtain ⟨_, _, _, -, -, -, -, rfl⟩ := bandMaskRule_eq_ok.1 hu
  obtain ⟨_, _, _, -, -, -, -, rfl⟩ := bandMaskRule_eq_ok.1 hv
  exact { h with br := .inl hend.br, ms0 := .inl hend.ms0, orc := .inl hend.orc }

/-- The bit-stuffed payload writes `BS` only where it holds a block, the Huffman payload writes the
table. -/
theorem bandDataRule_overwrites (h : Overwrites s t u v) (hbegin : AfterMask u v)
    (hu : bandDataRule op u = .ok u') (hv : bandDataRule op v = .ok v') (hend : AfterData u' v') :
    Overwrites s t u' v' := by
  obtain ⟨hd, w, -, hhdr, hbody, rfl⟩ := bandDataRule_eq_ok.1 hu
  obtain ⟨hd', w', -, hhdr', hbody', rfl⟩ := bandDataRule_eq_ok.1 hv
  rw [hbegin.orc] at hhdr hbody
  obtain rfl : hd = hd' := Option.some.inj (hhdr.symm.trans hhdr')
  split at hbody
  · next hmode =>
    rw [hmode] at hbody'
    obtain ⟨codes, last, br, hstream, rfl⟩ := bandStuffedBody_eq_ok.1 hbody
    obtain ⟨_, _, _, hstream', rfl⟩ := bandStuffedBody_eq_ok.1 hbody'
    rw [hbegin.blob.params, hbegin.br, hbegin.blob.source.stuffedStream, hstream'] at hstream
    cases hstream
    refine { h with br := .inl rfl, codes := .inl rfl, orc := .inl hend.orc, bs := ?_ }
    cases last with
    | none => exact h.bs
    | some block => exact .inl rfl
  · next hmode =>
    rw [hmode] at hbody'
    obtain ⟨_, _, _, _, _, _, _, hlens, htab, -, -, -, rfl⟩ := bandHuffmanBody_eq_ok.1 hbody
    obtain ⟨_, _, _, _, _, _, _, hlens', htab', -, -, -, rfl⟩ :=
      bandHuffmanBody_eq_ok.1 hbody'
    rw [hbegin.br, hbegin.blob.source.loadLengths, hlens'] at hlens
    cases hlens
    rw [htab'] at htab
    cases htab
    exact { h with
      br := .inl hend.br, codes := .inl hend.codes, orc := .inl hend.orc
      lens := .inl rfl, tables := .inl rfl }

theorem bandDeqRule_overwrites (h : Overwrites s t u v) (hu : bandDeqRule op u = .ok u')
    (hv : bandDeqRule op v = .ok v') (hend : AfterMask u' v') : Overwrites s t u' v' := by
  obtain ⟨_, _, _, -, -, -, -, -, -, -, rfl⟩ := bandDeqRule_eq_ok.1 hu
  obtain ⟨_, _, _, -, -, -, -, -, -, -, rfl⟩ := bandDeqRule_eq_ok.1 hv
  exact { h with orc := .inl hend.orc, stage := .inl hend.stage }

theorem bandEndRule_overwrites {b : Nat} (h : Overwrites s t u v) (hu : bandEndRule op u = .ok u')
    (hv : bandEndRule op v = .ok v') (hend : BandsAgree (b + 1) u' v') : Overwrites s t u' v' := by
  obtain ⟨_, -, -, -, -, -, rfl⟩ := bandEndRule_eq_ok.1 hu
  obtain ⟨_, -, -, -, -, -, rfl⟩ := bandEndRule_eq_ok.1 hv
  exact { h with
    ms1 := .inl (hend.ms1 b.succ_ne_zero), tables := .inl rfl, orc := .inl hend.orc }

theorem commitRule_overwrites (h : Overwrites s t u v) (hu : commitRule op u = .ok u')
    (hv : commitRule op v = .ok v') : Overwrites s t u' v' := by
  obtain ⟨_, _, -, -, -, -, -, -, -, -, rfl⟩ := commitRule_eq_ok.1 hu
  obtain ⟨_, _, -, -, -, -, -, -, -, -, rfl⟩ := commitRule_eq_ok.1 hv
  exact { h with }

end Frames

/-! ### Two runs at one place -/

/-- Two runs, from `s` and from `t`, stand at `u` and `v`: the states agree as `A` says, the second
is in sequence as `B` says, and the units are written alike. -/
structure InStep (A : State → State → Prop) (B : State → Prop) (s t u v : State) : Prop where
  agree : A u v
  sequence : B v
  frame : Overwrites s t u v

/-- Both runs stand before band `b` of the header `h`. -/
abbrev AtBand (h : Header) (b : Nat) : State → State → State → State → Prop :=
  InStep (BandsAgree b) fun v => v.BeforeBand h b

theorem SameEnd.strengthen {R Q : State → State → Prop} {x y : Except Stop State}
    (h : SameEnd R x y) (hRQ : ∀ u v, x = .ok u → y = .ok v → R u v → Q u v) : SameEnd Q x y := by
  cases h with
  | ok huv => exact .ok (hRQ _ _ rfl rfl huv)
  | error st => exact .error st

section Rules

variable {s t u v : State} {h : Header} {b : Nat} (op op' : BitVec 8)

theorem bandBeginRule_inStep (huv : AtBand h b s t u v) (hb : b < h.nBands.toNat) :
    SameEnd (InStep AfterBegin (·.InBand h b .headerValidated) s t) (bandBeginRule op b u)
      (bandBeginRule op' b v) := by
  rw [bandBeginRule_opcode op' op huv.sequence hb]
  exact (bandBeginRule_agree op huv.agree).strengthen fun _ _ hu hv hend =>
    ⟨hend, bandBeginRule_inBand op huv.sequence hv, bandBeginRule_overwrites huv.frame hu hv hend⟩

theorem bandMaskRule_inStep (huv : InStep AfterBegin (·.InBand h b .headerValidated) s t u v) :
    SameEnd (InStep AfterMask (·.InBand h b .maskDecoded) s t) (bandMaskRule op u)
      (bandMaskRule op' v) := by
  rw [bandMaskRule_opcode op' op huv.sequence]
  exact (bandMaskRule_agree op huv.agree).strengthen fun _ _ hu hv hend =>
    ⟨hend, bandMaskRule_inBand op huv.sequence hv, bandMaskRule_overwrites huv.frame hu hv hend⟩

theorem bandDataRule_inStep (huv : InStep AfterMask (·.InBand h b .maskDecoded) s t u v) :
    SameEnd (InStep AfterData (·.InBand h b .dataDecoded) s t) (bandDataRule op u)
      (bandDataRule op' v) := by
  rw [bandDataRule_opcode op' op huv.sequence]
  exact (bandDataRule_agree op huv.agree).strengthen fun _ _ hu hv hend =>
    ⟨hend, bandDataRule_inBand op huv.sequence hv,
      bandDataRule_overwrites huv.frame huv.agree hu hv hend⟩

theorem bandDeqRule_inStep (huv : InStep AfterData (·.InBand h b .dataDecoded) s t u v) :
    SameEnd (InStep AfterMask (·.InBand h b .dequantized) s t) (bandDeqRule op u)
      (bandDeqRule op' v) := by
  rw [bandDeqRule_opcode op' op huv.sequence]
  exact (bandDeqRule_agree op huv.agree).strengthen fun _ _ hu hv hend =>
    ⟨hend, bandDeqRule_inBand op huv.sequence hv, bandDeqRule_overwrites huv.frame hu hv hend⟩

theorem bandEndRule_inStep (huv : InStep AfterMask (·.InBand h b .dequantized) s t u v) :
    SameEnd (AtBand h (b + 1) s t) (bandEndRule op u) (bandEndRule op' v) := by
  rw [bandEndRule_opcode op' op huv.sequence]
  exact (bandEndRule_agree op huv.agree (b + 1)).strengthen fun _ _ hu hv hend =>
    ⟨hend, bandEndRule_beforeBand op huv.sequence hv, bandEndRule_overwrites huv.frame hu hv hend⟩

/-- COMMIT publishes the same result in both runs. -/
theorem commitRule_inStep (huv : AtBand h h.nBands.toNat s t u v) (hbands : h.nBands.toNat ≠ 0) :
    SameEnd (InStep sameResult (fun _ => True) s t) (commitRule op u) (commitRule op' v) := by
  rw [commitRule_opcode op' op huv.sequence hbands]
  exact (commitRule_agree op hbands huv.agree).strengthen fun _ _ hu hv hend =>
    ⟨hend.2, trivial, commitRule_overwrites huv.frame hu hv⟩

end Rules

end Sys2Proof.Machine

/-!
SUPPORT. DECODE run again (47_host_commands.md R407): the rules of two runs over one blob, composed,
and the parts that make up the state they leave.
-/

namespace Sys2Proof.Machine

/-! ### Runs that end alike -/

/-- Two runs, from `s` and from `t`, end alike: with the same fault, with the same error and the
units written alike, or in states that `R` relates. -/
inductive Run.Ends (R : State → State → Prop) (s t : State) : Run → Run → Prop
  | done {u v : State} (h : R u v) : Run.Ends R s t (.done u) (.done v)
  | stopped (e : EngineError) {u v : State} (h : Overwrites s t u v) :
    Run.Ends R s t (.stopped e u) (.stopped e v)
  | fault (f : Fault) : Run.Ends R s t (.fault f) (.fault f)

section Runs

variable {R Q : State → State → Prop} {s t u v : State}

theorem SameEnd.ends {x y : Except Stop State} (h : SameEnd R x y) (hframe : Overwrites s t u v)
    (horc : u.orc = v.orc) : (Machine.runAt u x).Ends R s t (Machine.runAt v y) := by
  cases h with
  | ok h => exact .done h
  | error st =>
    cases st with
    | raise e => exact .stopped e hframe
    | fail e => exact .stopped e { hframe with orc := .inl (by simp [horc]) }
    | fault f => exact .fault f

theorem Run.Ends.andThen {r r' : Run} {k k' : State → Run} (hr : r.Ends R s t r')
    (hk : ∀ u v, R u v → (k u).Ends Q s t (k' v)) :
    (r.andThen k).Ends Q s t (r'.andThen k') := by
  cases hr with
  | done h => exact hk _ _ h
  | stopped e h => exact .stopped e h
  | fault f => exact .fault f

theorem Run.andThen_assoc (r : Run) (k k' : State → Run) :
    (r.andThen k).andThen k' = r.andThen fun u => (k u).andThen k' := by
  cases r <;> rfl

end Runs

/-! ### The header -/

/-- Both runs have parsed the header and stand before band 0. -/
def AtFirstBand (s t u v : State) : Prop := ∃ h, h.nBands.toNat ≠ 0 ∧ AtBand h 0 s t u v

section Header

variable {s t : State} {op : BitVec 8}

/-- A legal header has a band (45_blob_header.md R311). -/
theorem Header.one_le_nBands {h : Header} (hlegal : h.legal = true) : 1 ≤ h.nBands.toNat := by
  simp only [Header.legal, Bool.and_eq_true, decide_eq_true_eq] at hlegal
  tauto

theorem runHeader_of_fits (hfits : s.params.fitsIn s.srcLen.toNat = true) :
    runHeader op s = runAt s.resetOrchestrator (do
      let h ← parseHeader s.source
      .ok (s.resetOrchestrator.withHeader h)) := by
  rw [runHeader, sourceFits, ensure_true _ hfits]
  rfl

theorem runHeader_of_not_fits (hfits : ¬s.params.fitsIn s.srcLen.toNat = true) :
    runHeader op s = .stopped (.illegalOperand op) s := by
  rw [runHeader, sourceFits, ensure_false _ hfits]
  rfl

theorem runHeader_ends (hblob : sameBlob s t) (hfits : t.params.fitsIn t.srcLen.toNat = true) :
    (runHeader op s).Ends (AtFirstBand s t) s t (runHeader op t) := by
  have hframe : Overwrites s t s.resetOrchestrator t.resetOrchestrator :=
    { Overwrites.refl s t with orc := .inl rfl, stage := .inl rfl }
  rw [runHeader_of_fits hfits, runHeader_of_fits (by rwa [hblob.1, hblob.2.1])]
  refine SameEnd.ends (.bind hblob.source.parseHeader fun h hparsed => .ok ?_) hframe rfl
  have hbands := Header.one_le_nBands (parseHeader_legal hparsed)
  exact ⟨h, by omega, {
    agree := { blob := hblob, orc := rfl, stage := rfl, parsed := ⟨h, rfl, hbands⟩, ms1 := nofun }
    sequence := { hdr := rfl, fits := hfits, phase := rfl, bandsDone := rfl, slot1 := nofun }
    frame := { hframe with orc := .inl rfl } }⟩

theorem State.BeforeBand.bandCount {h : Header} {b : Nat} (hs : s.BeforeBand h b) :
    s.bandCount = h.nBands.toNat := by
  rw [State.bandCount, hs.hdr]

end Header

/-! ### DECODE beside DECODE -/

section Decode

variable {s t u v : State} {h : Header}

theorem runBand_ends {b : Nat} (huv : AtBand h b s t u v) (hb : b < h.nBands.toNat) :
    (runBand b u).Ends (AtBand h (b + 1) s t) s t (runBand b v) :=
  (((((bandBeginRule_inStep _ _ huv hb).ends huv.frame huv.agree.orc).andThen
    fun _ _ huv => (bandMaskRule_inStep _ _ huv).ends huv.frame huv.agree.orc).andThen
    fun _ _ huv => (bandDataRule_inStep _ _ huv).ends huv.frame huv.agree.orc).andThen
    fun _ _ huv => (bandDeqRule_inStep _ _ huv).ends huv.frame huv.agree.orc).andThen
    fun _ _ huv => (bandEndRule_inStep _ _ huv).ends huv.frame huv.agree.orc

theorem runBands_ends {n b : Nat} (huv : AtBand h b s t u v) (hb : b + n = h.nBands.toNat) :
    (runBands n b u).Ends (AtBand h h.nBands.toNat s t) s t (runBands n b v) := by
  induction n generalizing b u v with
  | zero =>
    subst hb
    exact .done huv
  | succ n ih =>
    exact (runBand_ends huv (by omega)).andThen fun _ _ huv => ih huv (by omega)

/-- Two decodes of one blob end alike and write the units alike. -/
theorem runDecode_ends (hblob : sameBlob s t) (hfits : t.params.fitsIn t.srcLen.toNat = true) :
    (runDecode s).Ends (InStep sameResult (fun _ => True) s t) s t (runDecode t) := by
  rw [runDecode, runDecode, Run.andThen_assoc, Run.andThen_assoc]
  refine (runHeader_ends hblob hfits).andThen fun u v ⟨h, hbands, huv⟩ => ?_
  rw [huv.agree.bandCount, huv.sequence.bandCount]
  exact (runBands_ends huv (Nat.zero_add _)).andThen fun _ _ huv =>
    (commitRule_inStep _ _ huv hbands).ends huv.frame huv.agree.orc

/-- A run of DECODE whose blob is past `IN_SIZE` writes no unit (20_memory.md R72). -/
theorem runDecode_of_not_fits (hfits : ¬s.params.fitsIn s.srcLen.toNat = true) :
    runDecode s = .stopped (.illegalOperand 0x02) s := by
  rw [runDecode, runHeader_of_not_fits hfits]
  rfl

theorem Overwrites.publishInfo_left (huv : Overwrites s t u v) :
    Overwrites s t u.publishInfo v := by
  unfold State.publishInfo
  split <;> exact { huv with }

theorem Overwrites.publishInfo (huv : Overwrites s t u v) :
    Overwrites s t u.publishInfo v.publishInfo := by
  unfold State.publishInfo
  split <;> split <;> exact { huv with }

theorem execDecode_overwrites (hblob : sameBlob s t) (hs : execDecode s = .next u)
    (ht : execDecode t = .next v) : Overwrites s t u v := by
  unfold execDecode at hs ht
  by_cases hfits : t.params.fitsIn t.srcLen.toNat = true
  · have hends := runDecode_ends hblob hfits
    generalize runDecode s = r, runDecode t = r' at hs ht hends
    cases hends with
    | done huv =>
      cases hs
      cases ht
      exact { huv.frame.publishInfo with }
    | stopped e huv =>
      cases hs
      cases ht
      exact { huv with }
    | fault f => cases hs
  · rw [runDecode_of_not_fits hfits] at ht
    rw [runDecode_of_not_fits (by rwa [hblob.1, hblob.2.1])] at hs
    cases hs
    cases ht
    exact { Overwrites.refl s t with }

end Decode

/-! ### DECODE run again -/

theorem Overwrites.sameUnits {s u v : State} (h : Overwrites s s u v) : sameUnits u v := by
  refine ⟨h.br.eq, h.ms0.eq, h.ms1.eq, ?_, h.codes.eq, h.bs.eq, h.orc.eq, h.stage.eq⟩
  exact Huffman.mk.injEq .. ▸ ⟨h.lens.eq, h.tables.eq⟩

theorem Overwrites.sameUnits_again {s t v : State} (h : Overwrites s t t v) :
    Machine.sameUnits t v := by
  refine ⟨h.br.eq_again, h.ms0.eq_again, h.ms1.eq_again, ?_, h.codes.eq_again, h.bs.eq_again,
    h.orc.eq_again, h.stage.eq_again⟩
  exact Huffman.mk.injEq .. ▸ ⟨h.lens.eq_again, h.tables.eq_again⟩

/-- The parts that make up a state: the host's side, what is published, the units, and what a
command posts and returns. -/
theorem State.eq_of_parts {s t : State} (hhost : SameHost s t) (hpublished : SamePublished s t)
    (hunits : sameUnits s t) (hr0 : t.r0 = s.r0) (hr1 : t.r1 = s.r1) (herr : t.err = s.err)
    (hdone : t.status.done = s.status.done) (hstatus : t.status.err = s.status.err) : t = s := by
  obtain ⟨hbr, hms0, hms1, hht, hcodes, hbs, horc, hstage⟩ := hunits
  obtain ⟨hout, hmask, hvalid, hpresent, hinfo, hinfoValid⟩ := samePublished_iff.1 hpublished
  simp only [SameHost, State.hostSide, Prod.mk.injEq] at hhost
  obtain ⟨⟨hmem, hparams, hport, hreply⟩, hlen, ha0, ha1, ha2, ha3⟩ := hhost
  rcases s with ⟨⟨⟩⟩
  rcases t with ⟨⟨⟩⟩
  simp_all

theorem sameBlob_of_sameHost {s t : State} (h : SameHost s t) : sameBlob s t := by
  simp only [SameHost, State.hostSide, Prod.mk.injEq] at h
  obtain ⟨⟨hmem, hparams, -, -⟩, hlen, -⟩ := h
  exact ⟨hparams.symm, hlen.symm, fun _ _ => by rw [hmem]⟩

theorem sameBlob.refl (s : State) : sameBlob s s := ⟨rfl, rfl, fun _ _ => rfl⟩

/-- A DECODE that ends as the one before it publishes nothing new. -/
theorem execDecode_samePublished {s t v : State} (hblob : sameBlob s t)
    (hs : exec .decode s = .next t) (ht : exec .decode t = .next v) : SamePublished t v := by
  obtain ⟨v', hv', herr, hvalid, hinfo, hresult, hfailed⟩ :=
    (decodeDeterministic s t hblob .decode (by simp)).2 t hs
  obtain rfl : v = v' := Host.Outcome.next.inj (ht.symm.trans hv')
  rw [samePublished_iff]
  by_cases hcode : t.err.code = 0
  · obtain ⟨hout, hmask, hflag, hpresent⟩ := hresult rfl hcode
    exact ⟨hout.symm, hmask.symm, hflag.symm, hpresent.symm, (hinfo hcode).1.symm, hvalid.symm⟩
  · have hcode' : v.err.code ≠ 0 := herr ▸ hcode
    obtain ⟨hout, hmask, hregs⟩ := execDecode_published ht hcode'
    obtain ⟨_, -, -, -, -, -, hfailed'⟩ :=
      (decodeDeterministic t t (.refl t) .decode (by simp)).2 v ht
    obtain ⟨hflag, hpresent, -⟩ := hfailed rfl hcode
    obtain ⟨hflag', hpresent', -⟩ := hfailed' rfl hcode'
    exact ⟨hout, hmask, hflag'.trans hflag.symm, hpresent'.trans hpresent.symm, hregs, hvalid.symm⟩

/-- Settles O58: the second run ends like the first, so each part of the state is as the first left
it. -/
theorem decodeIdempotent : Obligations.DecodeIdempotent := by
  intro s t hs
  have hblob := sameBlob_of_sameHost ((exec_sameHost .decode s (by decide)).next hs)
  obtain ⟨v, ht, herr, -⟩ := (decodeDeterministic s t hblob .decode (by simp)).2 t hs
  have hframe := (exec_frame .decode t).next ht
  obtain ⟨hdone, hstatus, -⟩ := (commandPostsOutcome .decode s).2 t hs
  obtain ⟨hdone', hstatus', -⟩ := (commandPostsOutcome .decode t).2 v ht
  obtain rfl : v = t := State.eq_of_parts
    ((exec_sameHost .decode t (by decide)).next ht) (execDecode_samePublished hblob hs ht)
    (execDecode_overwrites hblob hs ht).sameUnits_again (hframe.r0 (by decide))
    (hframe.r1 (by decide)) herr.symm (hdone'.trans hdone.symm)
    (Bool.eq_iff_iff.2 (by rw [hstatus', hstatus, herr]))
  exact ht

end Sys2Proof.Machine

/-!
SUPPORT. DECODE beside direct mode (47_host_commands.md R405): INFO, the band commands and COMMIT
run DECODE's rules under their own opcodes, and what the host writes between them is no part of the
engine.
-/

namespace Sys2Proof.Machine

/-! ### What the host changes between two commands -/

/-- The state with other registers that no rule of DECODE reads: those that a command posts or
publishes, and `A0` (10_state.md R35 to R41). -/
def State.withRegs (s : State) (status : StatusFlags) (err : ErrFields) (a0 : Reg)
    (info : InfoRegs) : State :=
  { s with status := status, err := err, a0 := a0, info := info }

/-- A relation between a run of DECODE and a direct one does not depend on the registers that the
host and the ends of the commands change. -/
def RegsFree (R : State → State → Prop) : Prop :=
  ∀ u v status err a0 info, R u v → R u (v.withRegs status err a0 info)

section RegsFree

variable {s t : State} {h : Header} {b : Nat}

theorem regsFree_bandsAgree : RegsFree (BandsAgree b) := fun _ _ _ _ _ _ huv => { huv with }

theorem regsFree_afterBegin : RegsFree AfterBegin := fun _ _ _ _ _ _ huv => { huv with }

theorem regsFree_afterMask : RegsFree AfterMask := fun _ _ _ _ _ _ huv => { huv with }

theorem regsFree_afterData : RegsFree AfterData := fun _ _ _ _ _ _ huv => { huv with }

theorem regsFree_overwrites : RegsFree (Overwrites s t) := fun _ _ _ _ _ _ huv => { huv with }

theorem regsFree_atBand : RegsFree (AtBand h b s t) := fun _ _ _ _ _ _ huv =>
  ⟨regsFree_bandsAgree _ _ _ _ _ _ huv.agree, { huv.sequence with },
    regsFree_overwrites _ _ _ _ _ _ huv.frame⟩

theorem regsFree_inBand {A : State → State → Prop} (hA : RegsFree A) (p : Phase) :
    RegsFree (InStep A (·.InBand h b p) s t) := fun _ _ _ _ _ _ huv =>
  ⟨hA _ _ _ _ _ _ huv.agree, { huv.sequence with }, regsFree_overwrites _ _ _ _ _ _ huv.frame⟩

end RegsFree

/-! ### A run beside a host sequence -/

/-- The outcome of a host sequence begun at `s` is the end of a run that ends like `r`
(47_host_commands.md R405). -/
def Tracks (R : State → State → Prop) (s : State) (r : Run)
    (o : Host.Outcome State Fault Refusal) : Prop :=
  ∃ r', r.Ends R s s r' ∧ o = r'.complete

section Tracks

variable {R Q : State → State → Prop} {s u v : State}

theorem SameEnd.tracks {x y : Except Stop State} (h : SameEnd R x y) (hframe : Overwrites s s u v)
    (horc : u.orc = v.orc) : Tracks R s (Machine.runAt u x) (command v y) :=
  ⟨_, h.ends hframe horc, rfl⟩

/-- The rest of the sequence, after a part that succeeded. -/
theorem Tracks.andThen_finish {r : Run} {o : Host.Outcome State Fault Refusal} {k : State → Run}
    {k' : State → Host.Outcome State Fault Refusal} (h : Tracks R s r o)
    (hk : ∀ u v, R u v → Tracks Q s (k u) (k' (v.finish none))) :
    Tracks Q s (r.andThen k) (ifSucceeded o k') := by
  obtain ⟨r', hends, rfl⟩ := h
  cases hends with
  | done huv => exact hk _ _ huv
  | @stopped e u v huv =>
    refine ⟨.stopped e v, .stopped e huv, ?_⟩
    rw [complete_stopped, State.finish_error]
    rfl
  | fault f => exact ⟨.fault f, .fault f, rfl⟩

theorem RegsFree.finish (hfree : RegsFree R) (e : Option EngineError) (huv : R u v) :
    R u (v.finish e) := hfree u v _ _ v.a0 v.info huv

/-- The next command of the sequence; that `R` holds is all it needs of what the one before left. -/
theorem Tracks.andThen {r : Run} {o : Host.Outcome State Fault Refusal} {k : State → Run}
    {k' : State → Host.Outcome State Fault Refusal} (h : Tracks R s r o) (hfree : RegsFree R)
    (hk : ∀ u v, R u v → Tracks Q s (k u) (k' v)) :
    Tracks Q s (r.andThen k) (ifSucceeded o k') :=
  h.andThen_finish fun _ _ huv => hk _ _ (hfree.finish none huv)

end Tracks

/-! ### The host's commands -/

section Direct

variable {s u v : State} {h : Header}

theorem exec_bandBegin_tracks {b : Nat} (huv : AtBand h b s s u v) (hb : b < h.nBands.toNat) :
    Tracks (InStep AfterBegin (·.InBand h b .headerValidated) s s) s
      (runAt u (bandBeginRule 0x02 b u)) (exec .bandBegin { v with a0 := BitVec.ofNat 64 b }) := by
  have huv' := regsFree_atBand u v v.status v.err (BitVec.ofNat 64 b) v.info huv
  have hb64 : (BitVec.ofNat 64 b).toNat = b := by
    have hlt : h.nBands.toNat < 2 ^ 32 := h.nBands.isLt
    rw [BitVec.toNat_ofNat, Nat.mod_eq_of_lt (by omega)]
  have htracks := (bandBeginRule_inStep 0x02 0x61 huv' hb).tracks huv'.frame huv'.agree.orc
  change Tracks _ _ _ (command _ (bandBeginRule 0x61 (BitVec.ofNat 64 b).toNat _))
  rw [hb64]
  exact htracks

theorem directBand_tracks {b : Nat} (huv : AtBand h b s s u v) (hb : b < h.nBands.toNat) :
    Tracks (AtBand h (b + 1) s s) s (runBand b u) (directBand b v) := by
  simp only [runBand, Run.andThen_assoc]
  refine (exec_bandBegin_tracks huv hb).andThen
    (regsFree_inBand regsFree_afterBegin _) fun _ _ huv => ?_
  refine ((bandMaskRule_inStep 0x02 0x62 huv).tracks huv.frame huv.agree.orc).andThen
    (regsFree_inBand regsFree_afterMask _) fun _ _ huv => ?_
  refine ((bandDataRule_inStep 0x02 0x63 huv).tracks huv.frame huv.agree.orc).andThen
    (regsFree_inBand regsFree_afterData _) fun _ _ huv => ?_
  refine ((bandDeqRule_inStep 0x02 0x64 huv).tracks huv.frame huv.agree.orc).andThen
    (regsFree_inBand regsFree_afterMask _) fun _ _ huv => ?_
  exact (bandEndRule_inStep 0x02 0x65 huv).tracks huv.frame huv.agree.orc

theorem directBands_tracks {n b : Nat} (huv : AtBand h b s s u v)
    (hb : b + n = h.nBands.toNat) :
    Tracks (AtBand h h.nBands.toNat s s) s (runBands n b u) (directBands n b (v.finish none)) := by
  induction n generalizing b u v with
  | zero =>
    subst hb
    exact ⟨.done v, .done huv, rfl⟩
  | succ n ih =>
    exact (directBand_tracks (regsFree_atBand.finish none huv) (by omega)).andThen_finish
      fun _ _ huv => ih huv (by omega)

/-- INFO parses the header as DECODE does, and then publishes it (45_blob_header.md R330). -/
theorem exec_info_tracks (hfits : s.params.fitsIn s.srcLen.toNat = true) :
    Tracks (AtFirstBand s s) s (runHeader 0x02 s) (exec .info s) := by
  have hends := runHeader_ends (op := 0x02) (.refl s) hfits
  have hop : runHeader 0x01 s = runHeader 0x02 s :=
    (runHeader_of_fits hfits).trans (runHeader_of_fits hfits).symm
  refine ⟨_, ?_, rfl⟩
  rw [hop]
  cases hrun : runHeader 0x02 s with
  | done u =>
    rw [hrun] at hends
    cases hends with
    | done huu =>
      obtain ⟨h, hbands, huu⟩ := huu
      refine .done ⟨h, hbands, ?_⟩
      rw [State.publishInfo_some huu.sequence.hdr]
      exact regsFree_atBand u u _ u.err u.a0 _ huu
  | stopped e u =>
    rw [hrun] at hends
    cases hends with
    | stopped _ huu => exact .stopped e { huu with }
  | fault f => exact .fault f

theorem directDecode_tracks (hfits : s.params.fitsIn s.srcLen.toNat = true) :
    Tracks (InStep sameResult (fun _ => True) s s) s (runDecode s) (directDecode s) := by
  rw [runDecode, Run.andThen_assoc]
  refine (exec_info_tracks hfits).andThen_finish fun u v ⟨h, hbands, huv⟩ => ?_
  rw [huv.agree.bandCount, huv.sequence.bandCount]
  change Tracks _ _ _ (ifSucceeded (directBands v.bandCount 0 (v.finish none)) _)
  rw [huv.sequence.bandCount]
  refine (directBands_tracks huv (Nat.zero_add _)).andThen regsFree_atBand fun _ _ huv => ?_
  exact (commitRule_inStep 0x02 0x67 huv hbands).tracks huv.frame huv.agree.orc

/-- Past `IN_SIZE` INFO ends the host's sequence (20_memory.md R72). -/
theorem directDecode_of_not_fits (hfits : ¬s.params.fitsIn s.srcLen.toNat = true) :
    directDecode s = failsWith (.illegalOperand 0x01) (s.withInfoValid false) := by
  rw [directDecode, exec_info_of_not_fits (by simpa using hfits), failsWith, State.finish_error]
  rfl

end Direct

/-- Settles O57: within `IN_SIZE` direct mode tracks DECODE's run; past it both end at once. -/
theorem decodeDirectAgree : Obligations.DecodeDirectAgree := by
  intro s
  change (∀ f, execDecode s = .fault f ↔ _) ∧ ∀ t, execDecode s = .next t → _
  by_cases hfits : s.params.fitsIn s.srcLen.toNat = true
  · obtain ⟨r', hends, hdirect⟩ := directDecode_tracks hfits
    have hle := (fitsIn_iff _ _).1 hfits
    rw [hdirect, execDecode]
    generalize runDecode s = r at hends
    cases hends with
    | @done u v huv =>
      refine ⟨by simp, fun t ht => ?_⟩
      cases ht
      have hunits : Overwrites s s (u.publishInfo.finish none) (v.finish none) :=
        { huv.frame.publishInfo_left with }
      obtain ⟨hout, hmask, hvalid, hpresent⟩ := publishInfo_sameResult u
      obtain ⟨hout', hmask', hvalid', hpresent'⟩ := huv.agree
      exact ⟨v.finish none, rfl, hunits.sameUnits, rfl, fun _ => rfl,
        fun hlt => absurd hle (by omega), fun _ => ⟨hout.trans hout', hmask.trans hmask',
          hvalid.trans hvalid', hpresent.trans hpresent'⟩⟩
    | @stopped e u v huv =>
      refine ⟨by simp, fun t ht => ?_⟩
      cases ht
      have hunits : Overwrites s s (u.clearResultFlags.finish (some e)) (v.finish (some e)) :=
        { huv with }
      exact ⟨v.finish (some e), rfl, hunits.sameUnits, rfl, fun _ => rfl,
        fun hlt => absurd hle (by omega), fun hcode => absurd hcode e.code_ne_zero⟩
    | fault f => simp
  · have hlt : ¬s.srcLen.toNat ≤ s.params.inSize := fun hle => hfits ((fitsIn_iff _ _).2 hle)
    rw [execDecode, runDecode_of_not_fits hfits, directDecode_of_not_fits hfits]
    refine ⟨by simp [failsWith], fun t ht => ?_⟩
    cases ht
    have hunits : Overwrites s s (s.clearResultFlags.finish (some (.illegalOperand 0x02)))
        ((s.withInfoValid false).finish (some (.illegalOperand 0x01))) :=
      { Overwrites.refl s s with }
    exact ⟨_, rfl, hunits.sameUnits, rfl, fun hle => absurd hle hlt, fun _ => ⟨rfl, rfl⟩,
      fun hcode => absurd hcode (EngineError.code_ne_zero (.illegalOperand 0x02))⟩

end Sys2Proof.Machine

/-!
SUPPORT. DECODE of a legal blob (47_host_commands.md R404): the header, then band by band what each
rule makes of the band's section, and COMMIT.
-/

namespace Sys2Proof.Machine

/-! ### The rules over one section -/

section Rules

variable {t : State} {h : Header} {b : Nat} {d : Descriptor} {mask : List Bool} {m : MaskPayload}
  {p : DataPayload} (op : BitVec 8)

theorem sectionChecks_of_holdsBand {src : Source} (hband : src.HoldsBand h.kind d mask m p) :
    sectionChecks src h.kind d.offset.toNat d.length.toNat = .ok (m.mode, p.mode) := by
  obtain ⟨hlen, hend, hselectors, hkind, -⟩ := hband
  obtain ⟨hmask, hdata⟩ := (holds_append (x := [_]) (y := [_])).1 hselectors
  have hmask' := uint_byte_of_holds hmask
  have hdata' := uint_byte_of_holds hdata
  refine sectionChecks_eq_ok.2 ⟨hend, hlen, hmask'.trans ?_, hdata'.trans ?_, fun hhuff => ?_⟩
  · cases m <;> rfl
  · cases p <;> rfl
  · rcases hkind hhuff with hk | hk <;> rw [hk] <;> rfl

/-- BAND.BEGIN of a legal section sets its window and its selectors (46_band_decode.md R351 to
R354). -/
theorem bandBeginRule_of_holdsBand (ht : t.BeforeBand h b) (hb : b < h.nBands.toNat)
    (hdesc : h.desc[b]? = some d) (hfits : t.params.fitsOut (h.pixels * h.nBands.toNat) = true)
    (hband : t.source.HoldsBand h.kind d mask m p) :
    bandBeginRule op b t = .ok { t with
      stage := if b = 0 then [] else t.stage
      br := d.window
      orc := { t.orc with band := b, maskMode := m.mode, entropyMode := p.mode,
                          phase := .headerValidated } } :=
  bandBeginRule_eq_ok.2 ⟨h, d, _, _, ht.hdr, ht.begins, ht.bandsDone.symm, hb, ht.fits, hfits,
    hdesc, sectionChecks_of_holdsBand hband, rfl⟩

theorem bandMaskRule_of_holdsMask (ht : t.InBand h b .headerValidated)
    (hmode : t.orc.maskMode = m.mode) (hlen : mask.length = h.pixels)
    (hpop : popcount mask = h.valid) (hfits : t.params.fitsOut mask.length = true)
    (hmask : t.source.HoldsMask t.br mask m) :
    bandMaskRule op t = .ok { t with
      ms0 := { bits := mask, building := false }
      br := t.br.advance (m.size mask.length)
      orc := { t.orc with phase := .maskDecoded } } :=
  bandMaskRule_eq_ok.2 ⟨h, _, _, ht.phase, ht.hdr,
    hlen ▸ bandMaskBody_of_holdsMask hmode hfits hmask, hpop, rfl⟩

/-- BAND.DATA of a legal payload: its codes, and what the payload leaves in the units. -/
theorem bandDataRule_of_holdsData (ht : t.InBand h b .maskDecoded)
    (hmode : t.orc.entropyMode = p.mode) (hcodes : p.codes.length = h.valid)
    (hfits : t.params.fitsOut h.valid = true) (hdata : t.source.HoldsData t.br p) :
    ∃ bs table br, bandDataRule op t = .ok { t with
      codes := p.codes, bs := bs, ht := table, br := br
      orc := { t.orc with phase := .dataDecoded } } := by
  cases p with
  | stuffed blocks =>
    exact ⟨_, _, _, bandDataRule_eq_ok.2 ⟨h, _, ht.phase, ht.hdr, by
      rw [hmode]; exact bandStuffedBody_of_holdsData hcodes hfits hdata, rfl⟩⟩
  | huffman lens segLen symbols =>
    exact ⟨_, _, _, bandDataRule_eq_ok.2 ⟨h, _, ht.phase, ht.hdr, by
      rw [hmode]; exact bandHuffmanBody_of_holdsData hcodes hfits hdata, rfl⟩⟩

theorem bandDeqRule_of_bandElements {es : List Element} (ht : t.InBand h b .dataDecoded)
    (hdesc : h.desc[b]? = some d) (hes : bandElements h d.zMin t.ms0.bits t.codes es) :
    bandDeqRule op t = .ok { t with
      stage := writeStage t.stage (b * h.pixels) es
      orc := { t.orc with phase := .dequantized } } := by
  obtain ⟨hlen, hfrozen, hpop⟩ := ht.slot0 (by decide)
  have hcodes := (ht.codes rfl).trans hpop.symm
  refine bandDeqRule_eq_ok.2 ⟨h, d, es, ht.phase, ht.hdr, hlen, hfrozen, hcodes, ?_,
    dequantizeBand_of_bandElements hcodes hes, ?_⟩
  · rw [ht.band, hdesc]
  · rw [ht.band]

theorem andBits_self (bits : List Bool) : andBits bits bits = bits := by
  simp [andBits, List.zipWith_self]

/-- BAND.END where every band so far has one mask: slot 1 is that mask (46_band_decode.md R366). -/
theorem bandEndRule_of_sameMask (ht : t.InBand h b .dequantized)
    (hms1 : b ≠ 0 → t.ms1 = t.ms0) :
    bandEndRule op t = .ok { t with
      ms1 := t.ms0
      ht := { t.ht with tables := none }
      orc := { t.orc with bandsDone := t.orc.bandsDone + 1, phase := .done } } := by
  obtain ⟨hlen, hfrozen, -⟩ := ht.slot0 (by decide)
  refine bandEndRule_eq_ok.2 ⟨h, ht.phase, ht.hdr, hlen, hfrozen,
    or_iff_not_imp_left.2 fun hb => ht.slot1 (ht.band ▸ hb), ?_⟩
  rw [ht.band]
  split
  · rw [← hfrozen]
  · next hb => rw [hms1 hb, andBits_self]

end Rules

/-! ### Band after band -/

/-- The elements of the first `b` bands. -/
def elementsBefore (bands : List (MaskPayload × DataPayload × List Element)) (b : Nat) :
    List Element := (bands.take b).flatMap fun x => x.2.2

/-- The blob of `s` holds a section of the header `h` for every band, all with one mask
(46_band_decode.md R370). -/
structure State.HoldsBands (s : State) (h : Header) (mask : List Bool)
    (bands : List (MaskPayload × DataPayload × List Element)) : Prop where
  legal : h.legal = true
  fits : s.params.fitsOut (h.pixels * h.nBands.toNat) = true
  masked : mask.length = h.pixels
  population : popcount mask = h.valid
  count : bands.length = h.nBands.toNat
  band : ∀ (b : Nat) (d : Descriptor) (m : MaskPayload) (p : DataPayload) (es : List Element),
    h.desc[b]? = some d → bands[b]? = some (m, p, es) →
    s.source.HoldsBand h.kind d mask m p ∧ p.codes.length = h.valid ∧
      bandElements h d.zMin mask p.codes es

/-- A decode begun at `s` has come to `t`, before band `b`: the elements of the bands before are
staged, and their mask stands in slot 1. -/
structure State.Decoded (s t : State) (h : Header) (mask : List Bool)
    (bands : List (MaskPayload × DataPayload × List Element)) (b : Nat) : Prop where
  source : t.source = s.source
  params : t.params = s.params
  sequence : t.BeforeBand h b
  merged : b ≠ 0 → t.ms1 = { bits := mask, building := false }
  stage : t.stage = (elementsBefore bands b).map some
  staged : t.stage.length = b * h.pixels

section Bands

variable {s t : State} {h : Header} {mask : List Bool}
  {bands : List (MaskPayload × DataPayload × List Element)} {b : Nat}

theorem State.HoldsBands.fits_pixels (hs : s.HoldsBands h mask bands) :
    s.params.fitsOut h.pixels = true :=
  fitsOut_mono (Nat.le_mul_of_pos_right _ (Header.one_le_nBands hs.legal)) hs.fits

theorem State.HoldsBands.fits_valid (hs : s.HoldsBands h mask bands) :
    s.params.fitsOut h.valid = true := by
  refine fitsOut_mono ?_ hs.fits_pixels
  rw [← hs.population, ← hs.masked]
  exact List.countP_le_length

theorem elementsBefore_succ {x : MaskPayload × DataPayload × List Element}
    (hx : bands[b]? = some x) :
    elementsBefore bands (b + 1) = elementsBefore bands b ++ x.2.2 := by
  simp [elementsBefore, List.take_add_one, hx]

theorem runBand_of_rules {t₁ t₂ t₃ t₄ t₅ : State} (h₁ : bandBeginRule 0x02 b t = .ok t₁)
    (h₂ : bandMaskRule 0x02 t₁ = .ok t₂) (h₃ : bandDataRule 0x02 t₂ = .ok t₃)
    (h₄ : bandDeqRule 0x02 t₃ = .ok t₄) (h₅ : bandEndRule 0x02 t₄ = .ok t₅) :
    runBand b t = .done t₅ := by
  simp only [runBand, h₁, h₂, h₃, h₄, h₅, runAt_ok, andThen_done]

theorem runBand_of_holdsBands (hs : s.HoldsBands h mask bands) (ht : s.Decoded t h mask bands b)
    (hb : b < h.nBands.toNat) :
    ∃ t', runBand b t = .done t' ∧ s.Decoded t' h mask bands (b + 1) := by
  obtain ⟨d, hdesc⟩ := Header.desc_of_legal hs.legal hb
  obtain ⟨⟨m, p, es⟩, hx⟩ : ∃ x, bands[b]? = some x :=
    ⟨_, List.getElem?_eq_getElem (by rw [hs.count]; exact hb)⟩
  obtain ⟨hband, hcodes, hes⟩ := hs.band b d m p es hdesc hx
  obtain ⟨-, -, -, -, hmask, hdata⟩ := id hband
  have hstage : (if b = 0 then [] else t.stage) = t.stage := by
    split
    · next h0 => rw [ht.stage, h0]; rfl
    · rfl
  have h₁ := bandBeginRule_of_holdsBand 0x02 ht.sequence hb hdesc (ht.params ▸ hs.fits)
    (ht.source ▸ hband)
  have hs₁ := bandBeginRule_inBand _ ht.sequence h₁
  have h₂ := bandMaskRule_of_holdsMask 0x02 hs₁ rfl hs.masked hs.population
    (by rw [hs.masked]; exact ht.params ▸ hs.fits_pixels) (ht.source ▸ hmask)
  have hs₂ := bandMaskRule_inBand _ hs₁ h₂
  obtain ⟨bs, table, br, h₃⟩ := bandDataRule_of_holdsData 0x02 hs₂ rfl hcodes
    (ht.params ▸ hs.fits_valid) (ht.source ▸ hdata)
  have hs₃ := bandDataRule_inBand _ hs₂ h₃
  have h₄ := bandDeqRule_of_bandElements 0x02 hs₃ hdesc hes
  have hs₄ := bandDeqRule_inBand _ hs₃ h₄
  have h₅ := bandEndRule_of_sameMask 0x02 hs₄ ht.merged
  have hs₅ := bandEndRule_beforeBand _ hs₄ h₅
  refine ⟨_, runBand_of_rules h₁ h₂ h₃ h₄ h₅, {
    source := ht.source, params := ht.params, sequence := hs₅, merged := fun _ => rfl
    stage := ?_, staged := ?_ }⟩
  all_goals dsimp only; rw [hstage, ← ht.staged, writeStage_append]
  · rw [elementsBefore_succ hx, List.map_append, ht.stage]
  · rw [List.length_append, List.length_map, hes.1, hs.masked, ht.staged, Nat.succ_mul]

theorem runBands_of_holdsBands {n : Nat} (hs : s.HoldsBands h mask bands)
    (ht : s.Decoded t h mask bands b) (hb : b + n = h.nBands.toNat) :
    ∃ t', runBands n b t = .done t' ∧ s.Decoded t' h mask bands h.nBands.toNat := by
  induction n generalizing b t with
  | zero =>
    subst hb
    exact ⟨t, rfl, ht⟩
  | succ n ih =>
    obtain ⟨u, hrun, hu⟩ := runBand_of_holdsBands hs ht (by omega)
    rw [runBands, hrun, andThen_done]
    exact ih hu (by omega)

theorem commitRule_of_decoded (op : BitVec 8) (hs : s.HoldsBands h mask bands)
    (ht : s.Decoded t h mask bands h.nBands.toNat) :
    commitRule op t = .ok { t with
      out := some { kind := h.kind, elems := elementsBefore bands h.nBands.toNat }
      outMask := if h.valid = h.pixels then none else some mask
      status := { t.status with
        maskPresent := decide (h.valid ≠ h.pixels), outValid := true } } := by
  have hbands : h.nBands.toNat ≠ 0 := by have := Header.one_le_nBands hs.legal; omega
  have hms1 := ht.merged hbands
  obtain ⟨hlen, hfrozen⟩ := ht.sequence.slot1 hbands
  refine commitRule_eq_ok.2 ⟨h, _, ht.sequence.hdr, by rw [ht.sequence.phase, if_neg hbands],
    ht.sequence.bandsDone, hlen, hfrozen, by rw [hms1]; exact hs.population, ?_, ?_, by rw [hms1]⟩
  · rw [← ht.staged, ht.stage, List.length_map]
  · rw [← ht.staged, List.take_length, ht.stage]

end Bands

theorem runDecode_of_rules {s t u v : State} (hheader : runHeader 0x02 s = .done t)
    (hbands : runBands t.bandCount 0 t = .done u) (hcommit : commitRule 0x02 u = .ok v) :
    runDecode s = .done v := by
  simp only [runDecode, hheader, hbands, hcommit, runAt_ok, andThen_done]

theorem execDecode_of_done {s u : State} {h : Header} (hrun : runDecode s = .done u)
    (hhdr : u.orc.hdr = some h) :
    execDecode s = completesWith
      { u with info := infoRegsOf h, status := { u.status with infoValid := true } } := by
  rw [execDecode, hrun, ← State.publishInfo_some hhdr]
  rfl

/-- Settles O56: the header, the bands one after another and COMMIT all succeed. -/
theorem decodeCompletes : Obligations.DecodeCompletes := by
  intro s h mask bands hlegal hin hheader hfits hmask hpop hcount hband
  have hs : s.HoldsBands h mask bands := ⟨hlegal, hfits, hmask, hpop, hcount, hband⟩
  have hfitsIn := (fitsIn_iff _ _).2 hin
  have hbegin : s.Decoded (s.resetOrchestrator.withHeader h) h mask bands 0 :=
    { source := rfl, params := rfl, merged := nofun, stage := rfl, staged := by simp
      sequence := { hdr := rfl, fits := hfitsIn, phase := rfl, bandsDone := rfl, slot1 := nofun } }
  obtain ⟨u, hbands, hu⟩ := runBands_of_holdsBands hs hbegin (Nat.zero_add _)
  have hphase : u.orc.phase = .done := by
    rw [hu.sequence.phase, if_neg (by have := Header.one_le_nBands hlegal; omega)]
  have hparse := runHeader_eq_done (op := 0x02).2
    ⟨hfitsIn, h, parseHeader_of_holds hlegal hheader, rfl⟩
  have hrun := runDecode_of_rules hparse (hbegin.sequence.bandCount.symm ▸ hbands)
    (commitRule_of_decoded 0x02 hs hu)
  have hall : elementsBefore bands h.nBands.toNat = bands.flatMap fun x => x.2.2 := by
    rw [elementsBefore, ← hcount, List.take_length]
  exact ⟨_, execDecode_of_done hrun hu.sequence.hdr, rfl, rfl, by rw [← hall]; rfl, rfl, rfl,
    hu.sequence.hdr, hphase, hu.sequence.bandsDone⟩

end Sys2Proof.Machine
